-- ==== Sys2Proof/Word.lean ====
section
/-!
DEFINITION. The word types of the block (00_scope.md R8, R10-R12; 20_memory.md R80, R90).
-/
namespace Sys2Proof

/-- A 64-bit word: a key, a register, a memory word, a command word (R8, R10). -/
abbrev Word := BitVec 64

/-- A 32-bit value: one half of a hash, a combined bucket value, GAMMA (R8, R47, R170). -/
abbrev Half := BitVec 32

/-- One byte lane of a word (R90). -/
abbrev Byte := BitVec 8

/-- A byte address of the host address space (R80). -/
abbrev Addr := BitVec 32

end Sys2Proof
end

