-- ==== Sys2Proof/Machine/Bits.lean ====
section
/-!
DEFINITION. The word primitives of 00_scope.md R13 and the key order of 45_sort.md R280.
-/
namespace Sys2Proof.Machine

/-- The number of 1 bits of a word, 0 to 64 (R13). -/
def popcount64 (w : Word) : Nat := ((List.range 64).filter fun i => w.getLsbD i).length

/-- The 32-bit left rotation by `r` places, `0 ≤ r < 32` (R13): the identity for 0, so that no shift by 32 is made. -/
def rotl32 (v : Half) (r : Nat) : Half :=
  if r = 0 then v else (v <<< r) ||| (v >>> (32 - r))

/-- Bits `s-1..0` set and the others clear, `0 ≤ s ≤ 63` (R13). -/
def lowmask64 (s : Nat) : Word := (1#64 <<< s) - 1#64

/-- `Less` of R280: signed or unsigned order of 64-bit keys. -/
def less (signed : Bool) (a b : Word) : Bool := if signed then a.slt b else a.ult b

end Sys2Proof.Machine
end

