-- ==== Sys2Proof/Config.lean ====
section
/-!
DEFINITION. What an implementation fixes (00_scope.md R9) and the values the spec leaves open
(93_implementation_defined.md I1, I12, I13).
-/
namespace Sys2Proof

/-- The hash function of an instance of the block: `HASH64` is a parameter (R9). `xorshift` is the spec's default (R171);
`custom` is any other function, of which nothing is known (assumption log 2). -/
inductive HashFn where
  | xorshift
  | custom
  deriving DecidableEq, Repr

/-- The named parameters of R9. They are constants of an instance: no step changes them (log 1). -/
structure Params where
  /-- KEY_DEPTH: words of KEYMEM; slots of VALMEM, TAGMEM and OUTMEM. -/
  keyDepth    : Nat
  /-- BV_WORDS: words of BVMEM. -/
  bvWords     : Nat
  /-- RANK_DEPTH: entries of RANKMEM. -/
  rankDepth   : Nat
  /-- SCRATCH_BITS: positions of the hidden vectors A, C and CLAIM. -/
  scratchBits : Nat
  /-- HASH64. -/
  hash        : HashFn
  deriving DecidableEq, Repr

/-- The constraints of R9 on the parameters. -/
abbrev Params.Wf (p : Params) : Prop :=
  (1 ≤ p.keyDepth ∧ p.keyDepth ≤ 2 ^ 24) ∧ (1 ≤ p.bvWords ∧ p.bvWords ≤ 2 ^ 25) ∧
    (1 ≤ p.rankDepth ∧ p.rankDepth ≤ 2 ^ 25) ∧
    (p.scratchBits % 64 = 0 ∧ 64 ≤ p.scratchBits ∧ p.scratchBits ≤ 2 ^ 32)

/-- The reference configuration of 95_test_vectors.md with the default hash. DESIGN CHOICE (log 1): the spec fixes no
size; `State.reset` takes this one, and statements over every state hold for every size. -/
def Params.reference : Params where
  keyDepth := 16384
  bvWords := 16384
  rankDepth := 4096
  scratchBits := 2 ^ 20
  hash := .xorshift

/-- HASH64 of an instance that does not use the default: a free function (R9, I1; log 2). -/
opaque Config.customHash : Word → Word

/-- The value of a memory word that the spec leaves unspecified after a reset: a free value, one for each reset (first
argument, a counter) and each byte address of a word (second argument) (R372, I12, I13; log 9). -/
opaque Config.freeWord : Nat → Nat → Word

end Sys2Proof
end

