-- ==== Sys2Proof/Syntax.lean ====
section
/-!
DEFINITION. The commands of the block: one constructor for each row of spec/opcode_table.json (30_encoding.md R125), and the
fields a command word is made of (R120).
-/
namespace Sys2Proof

/-- A command. Commands have no operand fields but the one-bit flags D and P (R121). -/
inductive Instr where
  | nop
  | build (d : Bool)   -- D: distinct-key build (R186)
  | query
  | lookup
  | set
  | clrvals
  | accum
  | emit
  | sort (p : Bool)    -- P: input present (R300)
  | rank
  | hash
  | bitget
  | inval
  deriving DecidableEq, Repr

/-- The fields of a command word (R120). -/
structure Fields where
  op       : BitVec 8
  p        : Bool
  d        : Bool
  reserved : BitVec 54
  deriving DecidableEq, Repr

/-- The fields a command is written with: OP from the opcode map (R125), its flag, and reserved bits 0. -/
def Instr.fields : Instr → Fields
  | .nop     => ⟨0x00, false, false, 0⟩
  | .build d => ⟨0x01, false, d, 0⟩
  | .query   => ⟨0x02, false, false, 0⟩
  | .lookup  => ⟨0x03, false, false, 0⟩
  | .set     => ⟨0x04, false, false, 0⟩
  | .clrvals => ⟨0x05, false, false, 0⟩
  | .accum   => ⟨0x06, false, false, 0⟩
  | .emit    => ⟨0x07, false, false, 0⟩
  | .sort p  => ⟨0x08, p, false, 0⟩
  | .rank    => ⟨0x09, false, false, 0⟩
  | .hash    => ⟨0x0A, false, false, 0⟩
  | .bitget  => ⟨0x0B, false, false, 0⟩
  | .inval   => ⟨0x0C, false, false, 0⟩

end Sys2Proof
end

