-- ==== Sys2Proof/Machine/State.lean ====
section
/-!
DEFINITION. The state of the block (10_state.md), the reasons a step can stop, and the state after power-on reset (R75, R370).
INVENTORY.md lists every field with its rule.
-/
namespace Sys2Proof.Machine

/-- The local memories (10_state.md R60-R66). -/
inductive Space where
  | keymem | bvmem | rankmem | lvltab | valmem | tagmem | outmem
  deriving DecidableEq, Repr

/-- The named control registers (10_state.md R40). -/
inductive Csr where
  | id | param0 | param1 | param2 | param3
  | ctrl | status | cmd | nkeys | gamma | arg0 | arg1 | res0 | res1
  | nlevels | bnkeys | total | dups | min | max | outlen
  | faultCode | faultInfo | faultCmd | bvused | rankused
  deriving DecidableEq, Repr

/-- The engine phase (R35); STATUS.BUSY shows it (R44). -/
inductive Phase where
  | idle | busy
  deriving DecidableEq, Repr

/-- The fault codes of R340, in the order of their numbers 0 to 9; `none` is the reset value. -/
inductive FaultCode where
  | none | illegalCmd | notBuilt | badArg | capacity | buildDepth | badIndex | keyNotFound | tagMismatch | outOverflow
  deriving DecidableEq, Repr

/-- The stored fields of CTRL (R43). SRST is an action and stores nothing; the reserved bits read 0. -/
structure Ctrl where
  signed  : Bool
  doneIe  : Bool
  faultIe : Bool
  maxlvl  : BitVec 6
  deriving DecidableEq, Repr

/-- The stored bits of STATUS (R44). BUSY is `State.phase` and IRQ is computed (`State.irq`); the reserved bits read 0. -/
structure Status where
  done   : Bool
  fault  : Bool
  built  : Bool
  rangev : Bool
  outp   : Bool
  rej    : Bool
  deriving DecidableEq, Repr

/-- The command word and operands latched at acceptance (R36): hidden state (R70). -/
structure Latch where
  word   : Word
  arg0   : Word
  arg1   : Word
  nkeys  : Word
  gamma  : Half
  signed : Bool
  maxlvl : BitVec 6
  deriving DecidableEq, Repr

/-- The hidden scratch state of BUILD (R70): the vectors A and C, the claim array (sparse, positions not listed are 0), the
working, survivor and deferred sequences, and the counters of the running build. -/
structure Scratch where
  /-- A, the scratch occupancy vector. -/
  occ       : List (Nat × Bool)
  /-- C, the scratch collision vector. -/
  coll      : List (Nat × Bool)
  /-- CLAIM, one key per position. -/
  claim     : List (Nat × Word)
  /-- W. -/
  working   : List Word
  /-- V. -/
  survivors : List Word
  /-- N. -/
  deferred  : List Word
  /-- L. -/
  level     : Nat
  /-- wb: BVMEM words used by the levels made so far. -/
  wbase     : Nat
  /-- rb: RANKMEM entries used by the levels made so far. -/
  rbase     : Nat
  /-- dups. -/
  dups      : Nat
  /-- pop, the running popcount of BuildRanks (R222). -/
  pop       : Nat
  deriving DecidableEq, Repr

/-- The response of the bus to a transaction (R81). -/
inductive Resp where
  | okay | slverr
  deriving DecidableEq, Repr

/-- What a transaction returned: the response, and the word (0 for a write and for SLVERR). -/
structure Answer where
  resp : Resp
  data : Word
  deriving DecidableEq, Repr

/-- What the outside does to the block: a bus read or write (R81), a host program's `wait` loop (R137), or a power-on reset of
the platform (R364, R370). -/
inductive Act where
  | read (a : Addr)
  | write (a : Addr) (v : Word)
  | wait
  | powerOn
  deriving DecidableEq, Repr

/-- An act that is still to come. While a command runs, the act is served before the engine's step when `early` is not 0, and
after it otherwise; `wait` polls `early` times before the engine's step (R100, R390; log 7). -/
structure Pending where
  act   : Act
  early : Nat
  deriving DecidableEq, Repr

/-- Why the machine stops. Both reasons are of R95's kind ("A model whose engine computes an index out of range has departed
from these rules"); no run from reset reaches one, and stopping is safe. -/
inductive Fault where
  /-- Raised by every engine access whose word index is not below the memory's word count (R95). Safe. -/
  | engineIndex (sp : Space) (i : Nat)
  /-- Raised by the query when a level's table size is 0, where R12 guarantees a positive modulus. Safe. -/
  | zeroTableSize (level : Nat)
  deriving DecidableEq, Repr

/-- Why the machine refuses. -/
inductive Refusal where
  /-- An instruction that has no meaning yet, raised by `exec`'s arm for it. Safe. No arm raises it: all have their meaning. -/
  | notModelled (mnemonic : String)
  deriving DecidableEq, Repr

/-- The state of the block and of its surroundings. -/
structure State where
  /-- The implementation parameters (R9, R42): constants of the instance. -/
  params    : Params
  ctrl      : Ctrl
  status    : Status
  phase     : Phase
  /-- The last accepted command word, what a read of CMD returns (R45). -/
  cmd       : Word
  nkeys     : Word
  /-- GAMMA[31:0]; bits [63:32] read 0 (R47). -/
  gamma     : Half
  arg0      : Word
  arg1      : Word
  res0      : Word
  res1      : Word
  nlevels   : Word
  bnkeys    : Word
  total     : Word
  dups      : Word
  min       : Word
  max       : Word
  outlen    : Word
  faultCode : FaultCode
  faultInfo : Word
  faultCmd  : Word
  bvused    : Word
  rankused  : Word
  latch     : Latch
  scratch   : Scratch
  /-- The seven local memories, one byte list keyed by host byte address (R84, R90), in the canonical form of `Sparse.wf`. -/
  mem       : List Host.Cell
  /-- What host and platform do next, oldest first. -/
  inbox     : List Pending
  /-- The answer to the last bus transaction (R81; log 8). -/
  answer    : Option Answer
  /-- The model's own counter behind the free values (log 9). -/
  freeCount : Nat
  deriving DecidableEq, Repr

/-- CTRL after reset: SIGNED=1, both enables 0, MAXLVL=32 (R75). -/
def Ctrl.reset : Ctrl := { signed := true, doneIe := false, faultIe := false, maxlvl := 32#6 }

/-- STATUS after reset: all 0 (R75). -/
def Status.reset : Status :=
  { done := false, fault := false, built := false, rangev := false, outp := false, rej := false }

/-- The latches after power-on. DESIGN CHOICE (log 5): the spec leaves them unspecified, never read before written (R75). -/
def Latch.reset : Latch :=
  { word := 0, arg0 := 0, arg1 := 0, nkeys := 0, gamma := 0x00020000#32, signed := true, maxlvl := 32#6 }

/-- The scratch state after power-on. DESIGN CHOICE (log 5), as for the latches. -/
def Scratch.reset : Scratch :=
  { occ := [], coll := [], claim := [], working := [], survivors := [], deferred := [], level := 0, wbase := 0,
    rbase := 0, dups := 0, pop := 0 }

/-- The state after power-on reset (R75, R370, R374), of the reference configuration (log 1), with nothing listed in memory
(log 3) and nothing to come. -/
def State.reset : State :=
  { params := Params.reference, ctrl := Ctrl.reset, status := Status.reset, phase := .idle,
    cmd := 0, nkeys := 0, gamma := 0x00020000#32, arg0 := 0, arg1 := 0, res0 := 0, res1 := 0,
    nlevels := 0, bnkeys := 0, total := 0, dups := 0, min := 0, max := 0, outlen := 0,
    faultCode := .none, faultInfo := 0, faultCmd := 0, bvused := 0, rankused := 0,
    latch := Latch.reset, scratch := Scratch.reset, mem := [], inbox := [], answer := none, freeCount := 0 }

/-- How a command's pseudocode ends early: `raise Fault(code, info)` (R14) with the state it had reached (R335, R337), or a stop
of the machine. -/
inductive Abort where
  | raised (code : FaultCode) (info : Word) (s : State)
  | stopped (f : Fault)
  deriving DecidableEq, Repr

/-- Where a host address leads (20_memory.md R84): an offset of the CSR window, a word of a memory, or nowhere (SLVERR). -/
inductive Target where
  | csr (offset : Nat)
  | word (sp : Space) (i : Nat)
  | nowhere
  deriving DecidableEq, Repr

/-- Who moves next (R100, R390; log 7). -/
inductive Mover where
  | engine
  | outside (p : Pending) (rest : List Pending)
  | nobody
  deriving DecidableEq, Repr

end Sys2Proof.Machine
end

