-- ==== Sys2Proof/Machine/Flags.lean ====
section
/-!
DEFINITION. The packed views and write rules of CTRL, STATUS, GAMMA and FAULT_CODE (10_state.md R43, R44, R47;
60_exceptions.md R340), and the interrupt line (R350). The block has no condition codes (R44).
-/
namespace Sys2Proof.Machine

/-- Bit `n` of a word, set where `b` holds. -/
def flagAt (b : Bool) (n : Nat) : Word := if b then 1#64 <<< n else 0#64

/-- A read of CTRL (R43): SIGNED, DONE_IE, FAULT_IE, MAXLVL in [13:8]; SRST and the reserved bits read 0. -/
def Ctrl.toWord (c : Ctrl) : Word :=
  flagAt c.signed 0 ||| flagAt c.doneIe 1 ||| flagAt c.faultIe 2 ||| (c.maxlvl.zeroExtend 64 <<< 8)

/-- MAXLVL is WARL (R43): 1 to 32 are stored as written, 0 and 33 to 63 as 32. -/
def legalMaxlvl (m : BitVec 6) : BitVec 6 := if 1 ≤ m.toNat ∧ m.toNat ≤ 32 then m else 32#6

/-- A write of CTRL with SRST = 0 (R43). -/
def Ctrl.ofWord (v : Word) : Ctrl where
  signed := v.getLsbD 0
  doneIe := v.getLsbD 1
  faultIe := v.getLsbD 2
  maxlvl := legalMaxlvl (v.extractLsb' 8 6)

/-- The SRST bit of a CTRL write (R43, R372). -/
def srst (v : Word) : Bool := v.getLsbD 31

/-- A write of GAMMA is WARL with minimum 1.0 (R47). -/
def legalGamma (v : Word) : Half :=
  let g := v.extractLsb' 0 32
  if 0x00010000#32 ≤ g then g else 0x00010000#32

/-- STATUS.BUSY (R35, R44). -/
def State.busy (s : State) : Bool := s.phase == .busy

/-- The interrupt line (R350). -/
def State.irq (s : State) : Bool := (s.status.done && s.ctrl.doneIe) || (s.status.fault && s.ctrl.faultIe)

/-- A read of STATUS (R44). -/
def State.statusWord (s : State) : Word :=
  flagAt s.busy 0 ||| flagAt s.status.done 1 ||| flagAt s.status.fault 2 ||| flagAt s.status.built 3 |||
    flagAt s.status.rangev 4 ||| flagAt s.status.outp 5 ||| flagAt s.status.rej 6 ||| flagAt s.irq 7

/-- A write of STATUS (R44): W1C of DONE, FAULT and REJ, every other bit ignored. -/
def Status.clearOnes (st : Status) (v : Word) : Status :=
  { st with done := st.done && !v.getLsbD 1, fault := st.fault && !v.getLsbD 2, rej := st.rej && !v.getLsbD 6 }

/-- The number of a fault code (R340). -/
def FaultCode.code : FaultCode → Word
  | .none => 0
  | .illegalCmd => 1
  | .notBuilt => 2
  | .badArg => 3
  | .capacity => 4
  | .buildDepth => 5
  | .badIndex => 6
  | .keyNotFound => 7
  | .tagMismatch => 8
  | .outOverflow => 9

end Sys2Proof.Machine
end

