-- ==== Sys2Proof/Machine/Sparse.lean ====
section
/-!
DEFINITION. Sparse storage: a list of (position, value) pairs in one canonical form. A position that is not listed holds the
default `d`; positions strictly rise, and no entry holds `d`. The memories of the block are one such list of bytes, and the
hidden vectors A, C and CLAIM are three more.
-/
namespace Sys2Proof.Machine.Sparse

variable {α : Type} [DecidableEq α]

/-- The value at position `a`. -/
def get (d : α) : List (Nat × α) → Nat → α
  | [], _ => d
  | (b, v) :: m, a => if a = b then v else get d m a

/-- Store `v` at position `a`, keeping the canonical form: storing the default removes the entry. -/
def put (d : α) : List (Nat × α) → Nat → α → List (Nat × α)
  | [], a, v => if v = d then [] else [(a, v)]
  | (b, w) :: m, a, v =>
    if a < b then (if v = d then (b, w) :: m else (a, v) :: (b, w) :: m)
    else if a = b then (if v = d then m else (a, v) :: m)
    else (b, w) :: put d m a v

/-- Set every position `a` with `lo ≤ a < hi` to the default. -/
def clear (m : List (Nat × α)) (lo hi : Nat) : List (Nat × α) :=
  m.filter fun e => !(decide (lo ≤ e.1) && decide (e.1 < hi))

/-- Positions strictly rise, each above `lo` where one is given. -/
def rising : Option Nat → List (Nat × α) → Bool
  | _, [] => true
  | none, (b, _) :: m => rising (some b) m
  | some lo, (b, _) :: m => decide (lo < b) && rising (some b) m

/-- The canonical form. -/
def wf (d : α) (m : List (Nat × α)) : Bool := rising none m && m.all fun e => !decide (e.2 = d)

end Sys2Proof.Machine.Sparse
end

