-- ==== Sys2Proof/Machine/Ops.lean ====
section
/-!
DEFINITION. The shared operations of the engine: word and bit access to the memories (00_scope.md R14, 40_bitvector.md R150,
R151), loops, the end of a command (60_exceptions.md R333), raising a fault (R335) and the host's return from one (R346).
-/
namespace Sys2Proof.Machine

/-! ### The address map -/

/-- The base of a memory's aperture (20_memory.md R84). -/
def Space.base : Space → Nat
  | .keymem  => 0x10000000
  | .bvmem   => 0x20000000
  | .rankmem => 0x30000000
  | .lvltab  => 0x40000000
  | .valmem  => 0x50000000
  | .tagmem  => 0x60000000
  | .outmem  => 0x70000000

/-- The word count of a memory (R84). -/
def Space.words (p : Params) : Space → Nat
  | .keymem  => p.keyDepth
  | .bvmem   => p.bvWords
  | .rankmem => p.rankDepth
  | .lvltab  => 128
  | .valmem  => p.keyDepth
  | .tagmem  => 2 * p.keyDepth
  | .outmem  => p.keyDepth

/-- The byte address of word `i` of a memory (R84). -/
def Space.addr (sp : Space) (i : Nat) : Nat := sp.base + 8 * i

/-! ### Bytes and words of the memory list -/

/-- The byte at address `a`; a byte that is not listed reads as 0. For LVLTAB that is its reset value (R63); for the other
memories it is a DESIGN CHOICE, unsafe (log 3). -/
def readByte (m : List Host.Cell) (a : Nat) : Byte := Sparse.get (0 : Byte) m a

/-- Store one byte, keeping the canonical form. -/
def writeByte (m : List Host.Cell) (a : Nat) (v : Byte) : List Host.Cell := Sparse.put (0 : Byte) m a v

/-- The word whose lane `k` is the byte at `a + k` (R90, little-endian). -/
def readWord (m : List Host.Cell) (a : Nat) : Word :=
  readByte m (a + 7) ++ readByte m (a + 6) ++ readByte m (a + 5) ++ readByte m (a + 4) ++
    readByte m (a + 3) ++ readByte m (a + 2) ++ readByte m (a + 1) ++ readByte m a

/-- Byte lane `k` of a word (R90). -/
def lane (w : Word) (k : Nat) : Byte := w.extractLsb' (8 * k) 8

/-- Store the eight lanes of a word at `a` to `a + 7` (R90). -/
def writeWord (m : List Host.Cell) (a : Nat) (w : Word) : List Host.Cell :=
  (List.range 8).foldl (fun m k => writeByte m (a + k) (lane w k)) m

/-- Zero `count` words from byte address `a` on. -/
def zeroWords (m : List Host.Cell) (a count : Nat) : List Host.Cell := Sparse.clear m a (a + 8 * count)

/-- The memory's canonical form. -/
def memWf (m : List Host.Cell) : Bool := Sparse.wf (0 : Byte) m

/-- Word `i` of a memory of the state, whatever `i` is. -/
def State.word (s : State) (sp : Space) (i : Nat) : Word := readWord s.mem (sp.addr i)

/-- The state with word `i` of a memory replaced. -/
def State.setWord (s : State) (sp : Space) (i : Nat) (v : Word) : State :=
  { s with mem := writeWord s.mem (sp.addr i) v }

/-- The state with `count` words of a memory from word `i` on zeroed. -/
def State.zero (s : State) (sp : Space) (i count : Nat) : State :=
  { s with mem := zeroWords s.mem (sp.addr i) count }

/-- The state with another scratch state (10_state.md R70). -/
def State.setScratch (s : State) (sc : Scratch) : State := { s with scratch := sc }

/-! ### The engine's accesses

An engine index outside its memory stops the machine by name (20_memory.md R95; log 12). -/

/-- `MemRead(SPACE, i)` (R14). -/
def memRead (sp : Space) (i : Nat) (s : State) : Except Abort Word :=
  if i < sp.words s.params then .ok (s.word sp i) else .error (.stopped (.engineIndex sp i))

/-- `MemWrite(SPACE, i, v)` (R14). -/
def memWrite (sp : Space) (i : Nat) (v : Word) (s : State) : Except Abort State :=
  if i < sp.words s.params then .ok (s.setWord sp i v) else .error (.stopped (.engineIndex sp i))

/-- `for j in 0..count-1: MemWrite(SPACE, start + j, 0)`. -/
def memZero (sp : Space) (start count : Nat) (s : State) : Except Abort State :=
  if count = 0 ∨ start + count ≤ sp.words s.params then .ok (s.zero sp start count)
  else .error (.stopped (.engineIndex sp (max start (sp.words s.params))))

/-- `Bit(SPACE, base, n)` (R150). -/
def bit (sp : Space) (base n : Nat) (s : State) : Except Abort Bool := do
  let w ← memRead sp (base + n / 64) s
  return w.getLsbD (n % 64)

/-- `SetBit(SPACE, base, n)` (R151). -/
def setBit (sp : Space) (base n : Nat) (s : State) : Except Abort State := do
  let w ← memRead sp (base + n / 64) s
  memWrite sp (base + n / 64) (w ||| (1#64 <<< (n % 64))) s

/-! ### Control inside a command -/

/-- `if !ok: raise Fault(code, info)` (R14). -/
def require (ok : Bool) (code : FaultCode) (info : Word) (s : State) : Except Abort Unit :=
  if ok then .ok () else .error (.raised code info s)

/-- `if R[STATUS].BUILT == 0: raise Fault(NOT_BUILT, 0)`. -/
def requireBuilt (s : State) : Except Abort Unit := require s.status.built .notBuilt 0 s

/-- `for i in start .. start+count-1: body`. -/
def forUp (count start : Nat) (body : Nat → State → Except Abort State) (s : State) : Except Abort State :=
  match count with
  | 0 => .ok s
  | n + 1 => do
    let s ← body start s
    forUp n (start + 1) body s

/-- `for k in ks: body`. -/
def forKeys (ks : List Word) (body : Word → State → Except Abort State) (s : State) : Except Abort State :=
  match ks with
  | [] => .ok s
  | k :: ks => do
    let s ← body k s
    forKeys ks body s

/-! ### The end of a command -/

/-- Completion (R333): BUSY=0 and DONE=1 in one step with the command's last writes. -/
def State.complete (s : State) : State :=
  { s with phase := .idle, status := { s.status with done := true } }

/-- Raising a fault (R335, R345): the three fault registers, FAULT=1 and BUSY=0. Every write made before stands. -/
def State.takeFault (code : FaultCode) (info : Word) (s : State) : State :=
  { s with faultCode := code, faultInfo := info, faultCmd := s.latch.word, phase := .idle,
           status := { s.status with fault := true } }

/-- The return from a fault (R346): a host write of STATUS, W1C. The fault registers keep their values. -/
def State.writeStatus (s : State) (v : Word) : State := { s with status := s.status.clearOnes v }

/-- How a command's pseudocode ends: completion, a precise fault (R337), or a stop. -/
def conclude : Except Abort State → Host.Outcome State Fault Refusal
  | .ok s => .next s.complete
  | .error (.raised code info s) => .next (s.takeFault code info)
  | .error (.stopped f) => .fault f

/-- The end of the built function, step 0 of BUILD (R186, R187) and INVAL (R322): STATUS.BUILT=0, the built-function registers 0,
LVLTAB all 0. -/
def State.dropFunction (s : State) : State :=
  { s.zero .lvltab 0 128 with
      status := { s.status with built := false }, nlevels := 0, bnkeys := 0, total := 0, dups := 0,
      bvused := 0, rankused := 0 }

end Sys2Proof.Machine
end

