-- ==== Sys2Proof/Machine/Operands.lean ====
section
/-!
DEFINITION. The operands of a command: the registers latched at acceptance (10_state.md R36, 30_encoding.md R121), and the
control register map (R40) by which the host reaches every register.
-/
namespace Sys2Proof.Machine

/-- The operands a command takes, copied at acceptance (R36). -/
def State.latched (s : State) (w : Word) : Latch where
  word := w
  arg0 := s.arg0
  arg1 := s.arg1
  nkeys := s.nkeys
  gamma := s.gamma
  signed := s.ctrl.signed
  maxlvl := s.ctrl.maxlvl

/-- The latched ARG0: a key, an index or a level (R127). -/
abbrev State.opA (s : State) : Word := s.latch.arg0

/-- The latched ARG1: a value, a level or a bit position (R127). -/
abbrev State.opB (s : State) : Word := s.latch.arg1

/-- The latched NKEYS (R46). -/
abbrev State.opKeys (s : State) : Word := s.latch.nkeys

/-- The offset of a control register (R40). -/
def Csr.offset : Csr → Nat
  | .id => 0x000
  | .param0 => 0x008
  | .param1 => 0x010
  | .param2 => 0x018
  | .param3 => 0x020
  | .ctrl => 0x040
  | .status => 0x048
  | .cmd => 0x050
  | .nkeys => 0x058
  | .gamma => 0x060
  | .arg0 => 0x068
  | .arg1 => 0x070
  | .res0 => 0x078
  | .res1 => 0x080
  | .nlevels => 0x088
  | .bnkeys => 0x090
  | .total => 0x098
  | .dups => 0x0A0
  | .min => 0x0A8
  | .max => 0x0B0
  | .outlen => 0x0B8
  | .faultCode => 0x0C0
  | .faultInfo => 0x0C8
  | .faultCmd => 0x0D0
  | .bvused => 0x0D8
  | .rankused => 0x0E0

/-- The rows of the table of R40. -/
def Csr.all : List Csr :=
  [.id, .param0, .param1, .param2, .param3, .ctrl, .status, .cmd, .nkeys, .gamma, .arg0, .arg1, .res0, .res1] ++
  [.nlevels, .bnkeys, .total, .dups, .min, .max, .outlen, .faultCode, .faultInfo, .faultCmd, .bvused, .rankused]

/-- The register at an offset; every other offset is reserved (R56). -/
def Csr.ofOffset (offset : Nat) : Option Csr := Csr.all.find? fun c => c.offset == offset

/-- The value a host read of a control register returns. -/
def Csr.read (s : State) : Csr → Word
  | .id => 0x000000014D504846#64
  | .param0 => BitVec.ofNat 64 s.params.keyDepth
  | .param1 => BitVec.ofNat 64 s.params.bvWords
  | .param2 => BitVec.ofNat 64 s.params.rankDepth
  | .param3 => BitVec.ofNat 64 s.params.scratchBits
  | .ctrl => s.ctrl.toWord
  | .status => s.statusWord
  | .cmd => s.cmd
  | .nkeys => s.nkeys
  | .gamma => s.gamma.zeroExtend 64
  | .arg0 => s.arg0
  | .arg1 => s.arg1
  | .res0 => s.res0
  | .res1 => s.res1
  | .nlevels => s.nlevels
  | .bnkeys => s.bnkeys
  | .total => s.total
  | .dups => s.dups
  | .min => s.min
  | .max => s.max
  | .outlen => s.outlen
  | .faultCode => s.faultCode.code
  | .faultInfo => s.faultInfo
  | .faultCmd => s.faultCmd
  | .bvused => s.bvused
  | .rankused => s.rankused

end Sys2Proof.Machine
end

