-- ==== Sys2Proof/WellFormed.lean ====
section
/-!
DEFINITION. Well-formedness: the legality test of 30_encoding.md R126 on the fields of a command word, check by check. A
command of `Instr` carries only its flag, so every one of them is well formed; the checks bite on raw fields.
-/
namespace Sys2Proof

/-- Check 1 of R126: the reserved bits [63:10] are 0. -/
def Fields.reservedClear (f : Fields) : Bool := f.reserved == 0

/-- Check 2 of R126: OP is one of the opcodes 0x00 to 0x0C; 0x0D to 0xFF are reserved (R130). -/
def Fields.opDefined (f : Fields) : Bool := decide (f.op ≤ 0x0C#8)

/-- Check 3 of R126: P is set on SORT only. -/
def Fields.pOnSortOnly (f : Fields) : Bool := !f.p || f.op == 0x08#8

/-- Check 4 of R126: D is set on BUILD only. -/
def Fields.dOnBuildOnly (f : Fields) : Bool := !f.d || f.op == 0x01#8

/-- `legal` of R126. -/
def Fields.legal (f : Fields) : Bool :=
  f.reservedClear && f.opDefined && f.pOnSortOnly && f.dOnBuildOnly

/-- A command is well formed when the word it is written with is legal. -/
def Instr.WellFormed (i : Instr) : Prop := i.fields.legal = true

end Sys2Proof
end

