-- ==== Sys2Proof/Decode.lean ====
section
/-!
DEFINITION. Decoding a command word (30_encoding.md R126, R130, R332), total on all 2^64 words and rejecting by name, and the
encoder beside it (R120, R125, R135).
-/
namespace Sys2Proof

/-- Why a word is no command (R130): the first check of R126 that it fails. -/
inductive Reject where
  | reservedBits   -- a nonzero bit in [63:10]
  | reservedOp     -- OP in 0x0D to 0xFF
  | pNotOnSort     -- P on a command other than SORT
  | dNotOnBuild    -- D on a command other than BUILD
  deriving DecidableEq, Repr

/-- The fields of a word (R120). -/
def Fields.ofWord (w : Word) : Fields where
  op := w.extractLsb' 0 8
  p := w.getLsbD 8
  d := w.getLsbD 9
  reserved := w.extractLsb' 10 54

/-- The command that legal fields stand for (R125). -/
def Fields.command (f : Fields) : Option Instr :=
  match f.op.toNat with
  | 0x00 => some .nop
  | 0x01 => some (.build f.d)
  | 0x02 => some .query
  | 0x03 => some .lookup
  | 0x04 => some .set
  | 0x05 => some .clrvals
  | 0x06 => some .accum
  | 0x07 => some .emit
  | 0x08 => some (.sort f.p)
  | 0x09 => some .rank
  | 0x0A => some .hash
  | 0x0B => some .bitget
  | 0x0C => some .inval
  | _    => none

/-- The decoder (R126): the checks of `Fields.legal` in their order, then the opcode map. -/
def decode (w : Word) : Except Reject Instr :=
  let f := Fields.ofWord w
  if !f.reservedClear then .error .reservedBits
  else if !f.opDefined then .error .reservedOp
  else if !f.pOnSortOnly then .error .pNotOnSort
  else if !f.dOnBuildOnly then .error .dNotOnBuild
  else match f.command with
    | some i => .ok i
    | none   => .error .reservedOp

/-- The OP value of a command (R125). -/
def Instr.opcode : Instr → Nat
  | .nop => 0x00
  | .build _ => 0x01
  | .query => 0x02
  | .lookup => 0x03
  | .set => 0x04
  | .clrvals => 0x05
  | .accum => 0x06
  | .emit => 0x07
  | .sort _ => 0x08
  | .rank => 0x09
  | .hash => 0x0A
  | .bitget => 0x0B
  | .inval => 0x0C

/-- The flag bits of a command: D is bit 9, P is bit 8 (R120). -/
def Instr.flagBits : Instr → Nat
  | .build d => if d then 0x200 else 0
  | .sort p => if p then 0x100 else 0
  | .nop | .query | .lookup | .set | .clrvals | .accum | .emit | .rank | .hash | .bitget | .inval => 0

/-- The encoder: the command word of R125 and R135, for example 64'h201 for `BUILD.D`. -/
def encode (i : Instr) : Word := BitVec.ofNat 64 (i.opcode + i.flagBits)

/-- What the decoder reads from the low `nbits` bits of `w`, the bits above being 0. A command word has one length, 64
bits, written to CMD as a whole (R120, R131). -/
def decodeTableWord (nbits w : Nat) : Option Instr :=
  match decode (BitVec.ofNat 64 (w % 2 ^ nbits)) with
  | .ok i    => some i
  | .error _ => none

end Sys2Proof
end

