-- ==== Sys2Proof/Machine/Reset.lean ====
section
/-!
DEFINITION. Soft reset (70_reset_and_hazards.md R372) and power-on reset (R370), with the words they leave unspecified
(93_implementation_defined.md I12, I13).
-/
namespace Sys2Proof.Machine

/-- The memories a command's pseudocode can write, LVLTAB apart, which either reset zeroes (R372, I13; 30_encoding.md R127). -/
def writtenSpaces : Instr → List Space
  | .build _ => [.bvmem, .rankmem, .valmem, .tagmem]
  | .set => [.valmem]
  | .clrvals => [.valmem, .tagmem]
  | .accum => [.valmem, .tagmem]
  | .emit => [.outmem]
  | .sort _ => [.bvmem, .rankmem, .valmem, .tagmem, .outmem]
  | .nop | .query | .lookup | .rank | .hash | .bitget | .inval => []

/-- The free value of a memory word: any value, but for the bits [63:1] of an odd word of TAGMEM, which read 0 (10_state.md
R65; log 9). -/
def freeWordAt (n : Nat) (sp : Space) (i : Nat) : Word :=
  let w := Config.freeWord n (sp.addr i)
  if sp = .tagmem ∧ i % 2 = 1 then w &&& 1#64 else w

/-- Give `count` words of a memory their free values, from word `i` on. -/
def freeWords (n : Nat) (sp : Space) (count i : Nat) (m : List Host.Cell) : List Host.Cell :=
  match count with
  | 0 => m
  | c + 1 => freeWords n sp c (i + 1) (writeWord m (sp.addr i) (freeWordAt n sp i))

/-- Give every word of the memories `sps` its free value. -/
def freeSpaces (n : Nat) (p : Params) (sps : List Space) (m : List Host.Cell) : List Host.Cell :=
  sps.foldl (fun m sp => freeWords n sp (sp.words p) 0 m) m

/-- The memories that hold unspecified words after a soft reset now: those the running command could write (R372). -/
def State.abandonedSpaces (s : State) : List Space :=
  if s.busy then
    match decode s.latch.word with
    | .ok i => writtenSpaces i
    | .error _ => []
  else []

/-- What both resets do (R75): every register and field at its reset value, the engine IDLE, LVLTAB all 0, the memories `sps`
unspecified and the others as they were. The parameters are constants; the hidden state is unspecified, never read before
written (R75), and stays as it was; what is outside the block (the inbox, the last answer) is not reset. -/
def State.resetWith (sps : List Space) (s : State) : State :=
  { State.reset with
      params := s.params, latch := s.latch, scratch := s.scratch, inbox := s.inbox, answer := s.answer,
      mem := zeroWords (freeSpaces s.freeCount s.params sps s.mem) Space.lvltab.base 128,
      freeCount := s.freeCount + 1 }

/-- Soft reset (R372): a running command is abandoned with neither completion nor fault. -/
def State.softReset (s : State) : State := s.resetWith s.abandonedSpaces

/-- Power-on reset (R370): the memories have unspecified contents. -/
def State.powerOn (s : State) : State :=
  s.resetWith [.keymem, .bvmem, .rankmem, .valmem, .tagmem, .outmem]

end Sys2Proof.Machine
end

