-- ==== Sys2Proof/Machine/Bus.lean ====
section
/-!
DEFINITION. The host bus (20_memory.md R80-R92): the address map, reads, writes, command requests (60_exceptions.md R331), and
the order of host and engine (R100, R390).
-/
namespace Sys2Proof.Machine

/-- The memory whose aperture is number `n`, each 0x1000_0000 bytes long (R84). -/
def Space.ofAperture (n : Nat) : Option Space :=
  match n with
  | 1 => some .keymem
  | 2 => some .bvmem
  | 3 => some .rankmem
  | 4 => some .lvltab
  | 5 => some .valmem
  | 6 => some .tagmem
  | 7 => some .outmem
  | _ => none

/-- Where a host address leads (R82, R84, R85): nowhere when it is misaligned, unmapped or beyond a memory's words. -/
def target (p : Params) (a : Addr) : Target :=
  let a := a.toNat
  if a % 8 ≠ 0 then .nowhere
  else if a < 0x1000 then .csr a
  else match Space.ofAperture (a / 0x10000000) with
    | none => .nowhere
    | some sp => if a % 0x10000000 / 8 < sp.words p then .word sp (a % 0x10000000 / 8) else .nowhere

/-- The memories the host can write (R84). -/
def Space.hostWritable : Space → Bool
  | .keymem => true
  | .valmem => true
  | .bvmem | .rankmem | .lvltab | .tagmem | .outmem => false

/-- SLVERR: the word is 0 (R81). -/
def Answer.slverr : Answer := { resp := .slverr, data := 0 }

/-- OKAY with a word (R81). -/
def Answer.okay (v : Word) : Answer := { resp := .okay, data := v }

/-- The value at an offset of the CSR window; reserved offsets read as 0 (10_state.md R56). -/
def readOffset (s : State) (off : Nat) : Word :=
  match Csr.ofOffset off with
  | some c => c.read s
  | none => 0

/-- What a host read returns (R81, R85, R86). It changes nothing (R92). -/
def busRead (a : Addr) (s : State) : Answer :=
  match target s.params a with
  | .csr off => .okay (readOffset s off)
  | .word sp i => if s.busy then .slverr else .okay (s.word sp i)
  | .nowhere => .slverr

/-- Acceptance of a command word (60_exceptions.md R331): latch it and its operands, DONE=0, BUSY=1. -/
def State.accept (w : Word) (s : State) : State :=
  { s with latch := s.latched w, cmd := w, phase := .busy, status := { s.status with done := false } }

/-- A command request (R331): dropped with REJ=1 while BUSY=1 or FAULT=1, accepted otherwise. -/
def State.request (w : Word) (s : State) : State :=
  if s.busy || s.status.fault then { s with status := { s.status with rej := true } } else s.accept w

/-- A host write of a control register (10_state.md R40): read-only registers ignore it. -/
def writeCsr (c : Csr) (v : Word) (s : State) : State :=
  match c with
  | .ctrl => if srst v then s.softReset else { s with ctrl := Ctrl.ofWord v }
  | .status => s.writeStatus v
  | .cmd => s.request v
  | .nkeys => { s with nkeys := v }
  | .gamma => { s with gamma := legalGamma v }
  | .arg0 => { s with arg0 := v }
  | .arg1 => { s with arg1 := v }
  | .id | .param0 | .param1 | .param2 | .param3 | .res0 | .res1 | .nlevels | .bnkeys | .total | .dups | .min | .max
  | .outlen | .faultCode | .faultInfo | .faultCmd | .bvused | .rankused => s

/-- A host write at an offset of the CSR window; reserved offsets ignore it (R56). -/
def writeOffset (off : Nat) (v : Word) (s : State) : State :=
  match Csr.ofOffset off with
  | some c => writeCsr c v s
  | none => s

/-- A host write (R81, R85, R86): the response and the state after it. SLVERR changes nothing. -/
def busWrite (a : Addr) (v : Word) (s : State) : Resp × State :=
  match target s.params a with
  | .csr off => (.okay, writeOffset off v s)
  | .word sp i => if !s.busy && sp.hostWritable then (.okay, s.setWord sp i v) else (.slverr, s)
  | .nowhere => (.slverr, s)

/-- The bus address of a control register (R84: the CSR window is at 0). -/
def Csr.addr (c : Csr) : Addr := BitVec.ofNat 32 c.offset

/-- Serve what host or platform does. `wait` (30_encoding.md R137) reads STATUS and comes again while BUSY=1. -/
def serve (p : Pending) (rest : List Pending) (s : State) : State :=
  match p.act with
  | .read a => { s with answer := some (busRead a s), inbox := rest }
  | .write a v =>
    let r := busWrite a v s
    { r.2 with answer := some { resp := r.1, data := 0 }, inbox := rest }
  | .wait =>
    { s with answer := some (busRead Csr.status.addr s),
             inbox := if s.busy then { p with early := p.early - 1 } :: rest else rest }
  | .powerOn => { s.powerOn with inbox := rest, answer := none }

/-- Who moves next (R100, R390; log 7): outside acts in their order, but while a command runs the engine moves before an act
that is not early. With nothing to come and no command the block waits. -/
def State.mover (s : State) : Mover :=
  match s.inbox with
  | [] => if s.busy then .engine else .nobody
  | p :: rest => if s.busy && p.early == 0 then .engine else .outside p rest

/-- The engine's step with the word it accepted (60_exceptions.md R332): an illegal word faults with ILLEGAL_CMD and the word. -/
def illegalCommand (s : State) : State := s.takeFault .illegalCmd s.latch.word

/-- The state in which the engine's next step runs the command word `w`: acceptance (R331), with what acceptance needs
(FAULT=0) and nothing to come before the engine. -/
def State.withCommand (w : Word) (s : State) : State :=
  State.accept w { s with inbox := [], status := { s.status with fault := false } }

end Sys2Proof.Machine
end

