-- ==== Sys2Proof/Machine/Control.lean ====
section
/-!
DEFINITION. The control commands NOP and INVAL (46_control.md).
-/
namespace Sys2Proof.Machine

/-- NOP: nothing but its completion (R320). -/
def execNop (s : State) : Host.Outcome State Fault Refusal := conclude (.ok s)

/-- INVAL: end the built function's lifetime (R322). -/
def execInval (s : State) : Host.Outcome State Fault Refusal := conclude (.ok s.dropFunction)

end Sys2Proof.Machine
end

