-- ==== Sys2Proof/Machine/Hashmap.lean ====
section
/-!
DEFINITION. The value array's commands LOOKUP, SET and CLRVALS (44_hashmap.md).
-/
namespace Sys2Proof.Machine

/-- The index check of LOOKUP and SET (R261): 1 to BNKEYS. -/
def requireIndex (x : Word) (s : State) : Except Abort Unit := do
  requireBuilt s
  require (decide (x ≠ 0 ∧ x.toNat ≤ s.bnkeys.toNat)) .badIndex x s

/-- Forget the range of counted values (R195, R266). -/
def State.forgetRange (s : State) : State := { s with min := 0, max := 0, status := { s.status with rangev := false } }

/-- Zero slots 0 to `n-1` and their tags, and forget the range (R195, R266). -/
def clearSlots (n : Nat) (s : State) : Except Abort State := do
  let s ← memZero .valmem 0 n s
  let s ← memZero .tagmem 0 (2 * n) s
  return s.forgetRange

/-- LOOKUP: read a slot (R262). -/
def execLookup (s : State) : Host.Outcome State Fault Refusal := conclude do
  requireIndex s.opA s
  let v ← memRead .valmem (s.opA.toNat - 1) s
  return { s with res0 := v }

/-- SET: write a slot (R264). -/
def execSet (s : State) : Host.Outcome State Fault Refusal := conclude do
  requireIndex s.opA s
  memWrite .valmem (s.opA.toNat - 1) s.opB s

/-- CLRVALS: zero every slot and tag, and forget the range (R266). -/
def execClrvals (s : State) : Host.Outcome State Fault Refusal := conclude do
  requireBuilt s
  clearSlots s.bnkeys.toNat s

end Sys2Proof.Machine
end

