-- ==== Sys2Proof/Machine/Hash.lean ====
section
/-!
DEFINITION. The hash, the combined bucket value and the bucket index (41_build.md R170-R173), the table size (R176), and the
HASH command (R200).
-/
namespace Sys2Proof.Machine

/-- The default HASH64, the xorshift-multiply mix (R171). -/
def xorshift (x : Word) : Word :=
  let x := x ^^^ (x >>> 12)
  let x := x ^^^ (x <<< 25)
  let x := x ^^^ (x >>> 27)
  x * 0x2545F4914F6CDD1D#64

/-- HASH64 of an instance (R9, R171). -/
def hash64 : HashFn → Word → Word
  | .xorshift, k => xorshift k
  | .custom, k => Config.customHash k

/-- `h1 ^ rotl32(h2, L)` with `h1 = h[31:0]` and `h2 = h[63:32]` (R170, R172). -/
def combOfHash (h : Word) (level : Nat) : Half := h.extractLsb' 0 32 ^^^ rotl32 (h.extractLsb' 32 32) level

/-- The combined bucket value `Comb(k, L)` (R172). -/
def comb (h : HashFn) (k : Word) (level : Nat) : Half := combOfHash (hash64 h k) level

/-- The bucket index `Idx(k, L, S)` of key `k` at level `L` with table size `S` (R173). -/
def bucket (h : HashFn) (k : Word) (level size : Nat) : Nat := (comb h k level).toNat % size

/-- The table size of a working set of `m` keys under the load factor `G / 65536`, in exact integers (R176). -/
def tableSize (g m : Nat) : Nat :=
  let c := (g * m + 65535) / 65536
  max (64 * ((c + 63) / 64)) 64

/-- HASH: report a key's hash and combined bucket value (R200). -/
def execHash (s : State) : Host.Outcome State Fault Refusal := conclude do
  let k := s.opA
  let level := s.opB
  require (decide (level.toNat < 32)) .badArg level s
  let h := hash64 s.params.hash k
  return { s with res0 := h, res1 := (combOfHash h level.toNat).zeroExtend 64 }

end Sys2Proof.Machine
end

