-- ==== Sys2Proof/Machine/BitVector.lean ====
section
/-!
DEFINITION. The level table as the engine reads it (10_state.md R63) and the BITGET command (40_bitvector.md R155).
-/
namespace Sys2Proof.Machine

/-- `S_L`, the table size of a level (R63). -/
def levelSize (level : Nat) (s : State) : Except Abort Nat := do
  let v ← memRead .lvltab (4 * level) s
  return v.toNat

/-- `WBASE_L`, the first BVMEM word of a level (R63). -/
def levelWbase (level : Nat) (s : State) : Except Abort Nat := do
  let v ← memRead .lvltab (4 * level + 1) s
  return v.toNat

/-- `RBASE_L`, the first RANKMEM entry of a level (R63). -/
def levelRbase (level : Nat) (s : State) : Except Abort Nat := do
  let v ← memRead .lvltab (4 * level + 2) s
  return v.toNat

/-- The checks BITGET and RANK share, in their order (R155, R226): a built function, a level below NLEVELS, a position below
the level's table size. -/
def requirePosition (level n : Word) (s : State) : Except Abort Unit := do
  requireBuilt s
  require (decide (level.toNat < s.nlevels.toNat)) .badArg level s
  let size ← levelSize level.toNat s
  require (decide (n.toNat < size)) .badArg n s

/-- BITGET: read one bit of a level's occupancy vector (R155). -/
def execBitget (s : State) : Host.Outcome State Fault Refusal := conclude do
  requirePosition s.opA s.opB s
  let wb ← levelWbase s.opA.toNat s
  let b ← bit .bvmem wb s.opB.toNat s
  return { s with res0 := flagAt b 0 }

end Sys2Proof.Machine
end

