-- ==== Sys2Proof/Machine/Rank.lean ====
section
/-!
DEFINITION. The rank indexer (42_rank.md): building the samples (R220, R222), the rank functions (R224) and the RANK command
(R226).
-/
namespace Sys2Proof.Machine

/-- The sample before word `j`, where `j` is a multiple of 8 (R222). -/
def sampleBefore (rb j : Nat) (s : State) : Except Abort State :=
  if j % 8 = 0 then memWrite .rankmem (rb + j / 8) (BitVec.ofNat 64 s.scratch.pop) s else .ok s

/-- One word of the forward scan of BuildRanks (R222): a sample before every eighth word, then the word's popcount. -/
def rankWord (wb rb j : Nat) (s : State) : Except Abort State := do
  let s ← sampleBefore rb j s
  let w ← memRead .bvmem (wb + j) s
  return s.setScratch { s.scratch with pop := s.scratch.pop + popcount64 w }

/-- One level of BuildRanks (R222): POPBASE_L, then the level's words. -/
def rankLevel (level : Nat) (s : State) : Except Abort State := do
  let size ← levelSize level s
  let wb ← levelWbase level s
  let rb ← levelRbase level s
  let s ← memWrite .lvltab (4 * level + 3) (BitVec.ofNat 64 s.scratch.pop) s
  forUp (size / 64) 0 (rankWord wb rb) s

/-- `BuildRanks(NL)` (R222); the total is left in `scratch.pop`. -/
def buildRanks (levels : Nat) (s : State) : Except Abort State :=
  forUp levels 0 rankLevel (s.setScratch { s.scratch with pop := 0 })

/-- The whole words of `GlobalRank` (R224): add the popcounts of `count` words of BVMEM from word `i` on. -/
def addPopcounts (count i : Nat) (r : Word) (s : State) : Except Abort Word :=
  match count with
  | 0 => .ok r
  | n + 1 => do
    let w ← memRead .bvmem i s
    addPopcounts n (i + 1) (r + BitVec.ofNat 64 (popcount64 w)) s

/-- `GlobalRank(L, i)` (R224): the block's sample, the whole words before `i`'s word, the bits below `i` in its word. -/
def globalRank (level i : Nat) (s : State) : Except Abort Word := do
  let wb ← levelWbase level s
  let rb ← levelRbase level s
  let r ← memRead .rankmem (rb + i / 512) s
  let r ← addPopcounts (i / 64 - 8 * (i / 512)) (wb + 8 * (i / 512)) r s
  let w ← memRead .bvmem (wb + i / 64) s
  return r + BitVec.ofNat 64 (popcount64 (w &&& lowmask64 (i % 64)))

/-- `LocalRank(L, i) = GlobalRank(L, i) - POPBASE_L` (R224). -/
def localRank (level i : Nat) (s : State) : Except Abort Word := do
  let g ← globalRank level i s
  let popbase ← memRead .lvltab (4 * level + 3) s
  return g - popbase

/-- RANK: report the rank of a bit position within a level (R226). -/
def execRank (s : State) : Host.Outcome State Fault Refusal := conclude do
  requirePosition s.opA s.opB s
  let l ← localRank s.opA.toNat s.opB.toNat s
  let g ← globalRank s.opA.toNat s.opB.toNat s
  return { s with res0 := l, res1 := g }

end Sys2Proof.Machine
end

