-- ==== Sys2Proof/Machine/Query.lean ====
section
/-!
DEFINITION. The resolver: the query function (43_query.md R241) and the QUERY command (R240).
-/
namespace Sys2Proof.Machine

/-- A table size of 0 stops the machine (R12: the modulus of a bucket index is positive; log 12). -/
def positiveSize (level size : Nat) : Except Abort Unit :=
  if size = 0 then .error (.stopped (.zeroTableSize level)) else .ok ()

/-- The position of a key's bucket at a level, and the occupancy bit there (R241). -/
def probe (k : Word) (level : Nat) (s : State) : Except Abort (Nat × Bool) := do
  let size ← levelSize level s
  let wb ← levelWbase level s
  positiveSize level size
  let i := bucket s.params.hash k level size
  let b ← bit .bvmem wb i s
  return (i, b)

/-- The walk of R241 over `count` levels from `level` on: the index and the level it was found at, or index 0 and no level. -/
def queryFrom (count level : Nat) (k : Word) (s : State) : Except Abort (Word × Option Nat) :=
  match count with
  | 0 => .ok (0, none)
  | n + 1 => do
    let (i, b) ← probe k level s
    if b then do
      let r ← globalRank level i s
      return (r + 1, some level)
    else queryFrom n (level + 1) k s

/-- `Query(k)` (R241): the levels in construction order. -/
def query (k : Word) (s : State) : Except Abort (Word × Option Nat) := queryFrom s.nlevels.toNat 0 k s

/-- RES1 of QUERY: the level, or all ones for the sentinel (R240). -/
def levelWord : Option Nat → Word
  | some l => BitVec.ofNat 64 l
  | none => 0xFFFFFFFFFFFFFFFF#64

/-- QUERY: resolve a key to its index (R240). -/
def execQuery (s : State) : Host.Outcome State Fault Refusal := conclude do
  requireBuilt s
  let (x, lv) ← query s.opA s
  return { s with res0 := x, res1 := levelWord lv }

end Sys2Proof.Machine
end

