-- ==== Sys2Proof/Machine/Build.lean ====
section
/-!
DEFINITION. Construction (41_build.md): the collision detector (R188, R189), the second pass (R190), the level record (R191), the
cascade (R192), completion (R195) and the BUILD command (R186).
-/
namespace Sys2Proof.Machine

/-! ### The collision detector, on the scratch state -/

/-- `A[i]` (R151). -/
def Scratch.occupied (sc : Scratch) (i : Nat) : Bool := Sparse.get false sc.occ i

/-- `C[i]` (R151). -/
def Scratch.collided (sc : Scratch) (i : Nat) : Bool := Sparse.get false sc.coll i

/-- `CLAIM[i]` (R188). -/
def Scratch.claimOf (sc : Scratch) (i : Nat) : Word := Sparse.get 0#64 sc.claim i

/-- `LevelStart(S)` (R188): positions 0 to S-1 of A, C and CLAIM become 0, and no key has survived or been deferred yet. -/
def levelStart (size : Nat) (sc : Scratch) : Scratch :=
  { sc with
      occ := Sparse.clear sc.occ 0 size, coll := Sparse.clear sc.coll 0 size, claim := Sparse.clear sc.claim 0 size,
      survivors := [], deferred := [] }

/-- One key of the first pass, in bucket `i` (R189): with D an exact copy of the claiming key is dropped; otherwise the key
survives, and it marks the bucket occupied, collided, or finds it collided already. -/
def firstPassKey (d : Bool) (i : Nat) (k : Word) (sc : Scratch) : Scratch :=
  let kept := { sc with survivors := sc.survivors ++ [k] }
  if d && sc.occupied i && sc.claimOf i == k then { sc with dups := sc.dups + 1 }
  else if sc.collided i then kept
  else if sc.occupied i then { kept with coll := Sparse.put false sc.coll i true }
  else { kept with occ := Sparse.put false sc.occ i true, claim := Sparse.put 0#64 sc.claim i k }

/-- `FirstPass(W, L, S, D)` (R189) over the keys `ks`; `idx` is the bucket of a key. -/
def firstPass (d : Bool) (idx : Word → Nat) (ks : List Word) (sc : Scratch) : Scratch :=
  ks.foldl (fun sc k => firstPassKey d (idx k) k sc) sc

/-- One key of the second pass (R190): deferred when its bucket collided, else its bit is set in the level's vector. -/
def secondPassKey (idx : Word → Nat) (k : Word) (s : State) : Except Abort State :=
  if s.scratch.collided (idx k) then
    .ok (s.setScratch { s.scratch with deferred := s.scratch.deferred ++ [k] })
  else setBit .bvmem s.scratch.wbase (idx k) s

/-- `SecondPass(V, L, S, wb)` (R190). -/
def secondPass (idx : Word → Nat) (size : Nat) (s : State) : Except Abort State := do
  let s ← memZero .bvmem s.scratch.wbase (size / 64) s
  forKeys s.scratch.survivors (secondPassKey idx) s

/-- `LevelRecord(L, S, wb, rb)` (R191). -/
def levelRecord (size : Nat) (s : State) : Except Abort State := do
  let sc := s.scratch
  let s ← memWrite .lvltab (4 * sc.level) (BitVec.ofNat 64 size) s
  let s ← memWrite .lvltab (4 * sc.level + 1) (BitVec.ofNat 64 sc.wbase) s
  memWrite .lvltab (4 * sc.level + 2) (BitVec.ofNat 64 sc.rbase) s

/-- RANKMEM samples of a level of `words` BVMEM words (R180, R220). -/
def sampleCount (words : Nat) : Nat := (words + 7) / 8

/-- The capacity test of R180. -/
def levelFits (p : Params) (size wb rb : Nat) : Bool :=
  decide (size ≤ p.scratchBits) && decide (wb + size / 64 ≤ p.bvWords) &&
    decide (rb + sampleCount (size / 64) ≤ p.rankDepth)

/-- The step from a level to the next one (R186): the counters move on and the deferred keys become the working set. -/
def Scratch.nextLevel (sc : Scratch) (size : Nat) : Scratch :=
  { sc with wbase := sc.wbase + size / 64, rbase := sc.rbase + sampleCount (size / 64), working := sc.deferred,
            level := sc.level + 1 }

/-- One level of the cascade (R186, step 2). -/
def buildLevel (d : Bool) (s : State) : Except Abort State := do
  let sc := s.scratch
  let size := tableSize s.latch.gamma.toNat sc.working.length
  let idx := fun k => bucket s.params.hash k sc.level size
  require (levelFits s.params size sc.wbase sc.rbase) .capacity (BitVec.ofNat 64 sc.level) s
  let s ← secondPass idx size (s.setScratch (firstPass d idx sc.working (levelStart size sc)))
  let s ← levelRecord size s
  return s.setScratch (s.scratch.nextLevel size)

/-- The level cascade (R186, R192). `left` is MAXLVL minus the level number, so that `left = 0` is the test `L == maxlvl`. -/
def cascade (d : Bool) (left : Nat) (s : State) : Except Abort State :=
  if s.scratch.working.isEmpty then .ok s
  else match left with
    | 0 => .error (.raised .buildDepth (BitVec.ofNat 64 s.scratch.working.length) s)
    | n + 1 => do
      let s ← buildLevel d s
      cascade d n s

/-! ### The command -/

/-- `[MemRead(KEYMEM, i), ..., MemRead(KEYMEM, i+count-1)]` (R186, step 1). -/
def readKeys (count i : Nat) (s : State) : Except Abort (List Word) :=
  match count with
  | 0 => .ok []
  | n + 1 => do
    let k ← memRead .keymem i s
    let ks ← readKeys n (i + 1) s
    return k :: ks

/-- The start of a build: W is the keys and every counter is 0 (R186, step 1). -/
def State.startBuild (ks : List Word) (s : State) : State :=
  s.setScratch { s.scratch with working := ks, level := 0, wbase := 0, rbase := 0, dups := 0 }

/-- The registers of a function built over `n` keys (R195). -/
def State.recordFunction (n : Word) (s : State) : State :=
  { s with
    nlevels := BitVec.ofNat 64 s.scratch.level, bnkeys := n, total := BitVec.ofNat 64 s.scratch.pop,
    dups := BitVec.ofNat 64 s.scratch.dups, bvused := BitVec.ofNat 64 s.scratch.wbase,
    rankused := BitVec.ofNat 64 s.scratch.rbase, status := { s.status with built := true } }

/-- `Complete(n, L, total, dups, wb, rb)` (R195), but for RES0 and RES1. -/
def completeBuild (n : Word) (s : State) : Except Abort State := do
  let s ← clearSlots n.toNat s
  return s.recordFunction n

/-- The body of BUILD without its writes of RES0 and RES1 (R186, R300). -/
def buildBody (d : Bool) (s : State) : Except Abort State := do
  let n := s.opKeys
  let s := s.dropFunction
  require (decide (n.toNat ≤ s.params.keyDepth)) .badArg n s
  let ks ← readKeys n.toNat 0 s
  let s ← cascade d s.latch.maxlvl.toNat (s.startBuild ks)
  let s ← buildRanks s.scratch.level s
  completeBuild n s

/-- BUILD and BUILD.D: construct the function over KEYMEM words 0 to NKEYS-1 (R186). -/
def execBuild (d : Bool) (s : State) : Host.Outcome State Fault Refusal := conclude do
  let s ← buildBody d s
  return { s with res0 := s.nlevels, res1 := s.total }

end Sys2Proof.Machine
end

