-- ==== Sys2Proof/Machine/Sort.lean ====
section
/-!
DEFINITION. The counting sort (45_sort.md): ACCUM (R283), EMIT (R290) and SORT (R300).
-/
namespace Sys2Proof.Machine

/-- The slot of a key's index carries a valid tag (bit 0 of TAGMEM word `2j+1`) and the tag (word `2j`) (10_state.md R65). -/
def readTag (j : Nat) (s : State) : Except Abort (Bool × Word) := do
  let v ← memRead .tagmem (2 * j + 1) s
  let t ← memRead .tagmem (2 * j) s
  return (v.getLsbD 0, t)

/-- Widen the range to a counted key (R283): seeded from the first key counted, then by `Less`. -/
def State.widenRange (s : State) (k : Word) : State :=
  if s.status.rangev then
    { s with min := if less s.latch.signed k s.min then k else s.min,
             max := if less s.latch.signed s.max k then k else s.max }
  else { s with min := k, max := k, status := { s.status with rangev := true } }

/-- Count one key (R283). -/
def accumKey (t : Nat) (s : State) : Except Abort State := do
  let k ← memRead .keymem t s
  let (x, _) ← query k s
  require (decide (x ≠ 0)) .keyNotFound k s
  let j := x.toNat - 1
  let (valid, tag) ← readTag j s
  require (!(valid && tag != k)) .tagMismatch k s
  let c ← memRead .valmem j s
  let s ← memWrite .valmem j (c + 1) s
  let s ← memWrite .tagmem (2 * j) k s
  let s ← memWrite .tagmem (2 * j + 1) 1 s
  return s.widenRange k

/-- The body of ACCUM without its write of RES0 (R283, R300). -/
def accumBody (s : State) : Except Abort State := do
  requireBuilt s
  require (decide (s.opKeys.toNat ≤ s.params.keyDepth)) .badArg s.opKeys s
  forUp s.opKeys.toNat 0 accumKey s

/-- The next word of output goes one place further (R290). -/
def State.countOut (s : State) : State := { s with outlen := s.outlen + 1 }

/-- Write one word of output (R290): OUT_OVERFLOW when OUTMEM is full. -/
def emitOne (v : Word) (s : State) : Except Abort State := do
  require (decide (s.outlen.toNat ≠ s.params.keyDepth)) .outOverflow v s
  let s ← memWrite .outmem s.outlen.toNat v s
  return s.countOut

/-- One value of EMIT's scan (R290): emitted as often as counted, if its slot carries it as its valid tag. -/
def emitValue (v : Word) (s : State) : Except Abort State := do
  let (x, _) ← query v s
  if x = 0 then .ok s
  else do
    let j := x.toNat - 1
    let (valid, tag) ← readTag j s
    if valid && tag == v then do
      let c ← memRead .valmem j s
      forUp c.toNat 0 (fun _ => emitOne v) s
    else .ok s

/-- EMIT's scan (R290): `v` runs from MIN by steps of `u64(v + 1)` to MAX inclusive, which is `(MAX - MIN) mod 2^64 + 1` values,
wrapping when MIN lies above MAX (70_reset_and_hazards.md R382). -/
def emitScan (s : State) : Except Abort State :=
  let lo := s.min
  forUp ((s.max - lo).toNat + 1) 0 (fun t => emitValue (lo + BitVec.ofNat 64 t)) s

/-- The start of an output (R290): OUTP = 1 and nothing written yet. -/
def State.startOutput (s : State) : State := { s with outlen := 0, status := { s.status with outp := true } }

/-- The body of EMIT without its write of RES0 (R290, R300). -/
def emitBody (s : State) : Except Abort State := do
  requireBuilt s
  if s.status.rangev then emitScan s.startOutput else .ok s.startOutput

/-- ACCUM: count every key of KEYMEM words 0 to NKEYS-1 into its slot, and track the range (R283). -/
def execAccum (s : State) : Host.Outcome State Fault Refusal := conclude do
  let s ← accumBody s
  return { s with res0 := s.opKeys }

/-- EMIT: write every counted value, its counted number of times, in ascending order (R290). -/
def execEmit (s : State) : Host.Outcome State Fault Refusal := conclude do
  let s ← emitBody s
  return { s with res0 := s.outlen }

/-- The answers of SORT that sort nothing (R300): an absent input (P = 0), or a present and empty one. -/
def State.sortNothing (present : Bool) (s : State) : State :=
  { s with status := { s.status with outp := present }, outlen := 0, res0 := 0 }

/-- SORT and SORT.P: the whole counting sort of one input sequence (R300). -/
def execSort (p : Bool) (s : State) : Host.Outcome State Fault Refusal := conclude do
  if !p then return s.sortNothing false
  else if s.opKeys = 0 then return s.sortNothing true
  else
    let s ← buildBody true s
    let s ← accumBody s
    let s ← emitBody s
    return { s with res0 := s.outlen, res1 := s.total }

end Sys2Proof.Machine
end

