-- ==== Sys2Proof/Machine/Dispatch.lean ====
section
/-!
DEFINITION. One arm for each command: its meaning (30_encoding.md R125).
-/
namespace Sys2Proof.Machine

def exec (i : Instr) (s : State) : Host.Outcome State Fault Refusal :=
  match i with
  | .nop => Sys2Proof.Machine.execNop s
  | .build d => Sys2Proof.Machine.execBuild d s
  | .query => Sys2Proof.Machine.execQuery s
  | .lookup => Sys2Proof.Machine.execLookup s
  | .set => Sys2Proof.Machine.execSet s
  | .clrvals => Sys2Proof.Machine.execClrvals s
  | .accum => Sys2Proof.Machine.execAccum s
  | .emit => Sys2Proof.Machine.execEmit s
  | .sort p => Sys2Proof.Machine.execSort p s
  | .rank => Sys2Proof.Machine.execRank s
  | .hash => Sys2Proof.Machine.execHash s
  | .bitget => Sys2Proof.Machine.execBitget s
  | .inval => Sys2Proof.Machine.execInval s

end Sys2Proof.Machine
end

