-- ==== Sys2Proof/Machine/Step.lean ====
section
/-!
DEFINITION. One step of the block and its surroundings: the engine runs its accepted command (60_exceptions.md R332), or one act
of host or platform is served, or, with nothing to do, the block waits.
-/
namespace Sys2Proof.Machine

/-- The engine's step: decode, then the command's meaning (R332). -/
def engineStep (s : State) : Host.Outcome State Fault Refusal :=
  match decode s.latch.word with
  | .ok i => exec i s
  | .error _ => .next (illegalCommand s)

/-- One step. -/
def step (s : State) : Host.Outcome State Fault Refusal :=
  match s.mover with
  | .engine => engineStep s
  | .outside p rest => .next (serve p rest s)
  | .nobody => .next s

/-- The state whose next step runs the instruction in the low `nbits` bits of `w`. The block has no program counter and fetches
nothing (10_state.md R35): the word is accepted from CMD (log 13). -/
def State.withFetchWord (s : State) (nbits w : Nat) : State := s.withCommand (BitVec.ofNat 64 (w % 2 ^ nbits))

end Sys2Proof.Machine
end

