-- ==== Sys2Proof/Safety.lean ====
section
/-!
DEFINITION. What a safe state is: the invariant every step keeps (`State.Inv`), a well-formed built function (`State.FnInv`), and the
plain reading of the built function and of a build that the claims use.
-/
namespace Sys2Proof.Machine

/-! ### Reading the built function -/

/-- `S_L` (10_state.md R63). -/
def State.sizeAt (s : State) (level : Nat) : Nat := (s.word .lvltab (4 * level)).toNat

/-- `WBASE_L` (R63). -/
def State.wbaseAt (s : State) (level : Nat) : Nat := (s.word .lvltab (4 * level + 1)).toNat

/-- `RBASE_L` (R63). -/
def State.rbaseAt (s : State) (level : Nat) : Nat := (s.word .lvltab (4 * level + 2)).toNat

/-- `POPBASE_L` (R63). -/
def State.popbaseAt (s : State) (level : Nat) : Word := s.word .lvltab (4 * level + 3)

/-- Bit `n` of a level's occupancy vector (R61). -/
def State.bitAt (s : State) (level n : Nat) : Bool :=
  (s.word .bvmem (s.wbaseAt level + n / 64)).getLsbD (n % 64)

/-- The brute-force rank: the 1 bits of a level at positions below `n` (42_rank.md R228). -/
def State.onesBelow (s : State) (level n : Nat) : Nat := ((List.range n).filter (s.bitAt level)).length

/-- The 1 bits of BVMEM words 0 to `j-1`. -/
def State.popBefore (s : State) (j : Nat) : Nat := ((List.range j).map fun i => popcount64 (s.word .bvmem i)).sum

/-- BVMEM words of the levels before `level`. -/
def State.wordsBefore (s : State) (level : Nat) : Nat := ((List.range level).map fun l => s.sizeAt l / 64).sum

/-- RANKMEM entries of the levels before `level`. -/
def State.samplesBefore (s : State) (level : Nat) : Nat :=
  ((List.range level).map fun l => sampleCount (s.sizeAt l / 64)).sum

/-- The key's bucket at a level is occupied (43_query.md R241). -/
def State.hits (s : State) (k : Word) (level : Nat) : Bool :=
  s.bitAt level (bucket s.params.hash k level (s.sizeAt level))

/-- The index of a key, 0 for the sentinel: `Query(k)` read off the levels. -/
def State.indexOf (s : State) (k : Word) : Word :=
  match query k s with
  | .ok (x, _) => x
  | .error _ => 0

/-- The keys of KEYMEM words 0 to `n-1`, in index order. -/
def State.keys (s : State) (n : Nat) : List Word := (List.range n).map (s.word .keymem)

/-- `TAGV_j` (R65). -/
def State.tagValid (s : State) (j : Nat) : Bool := (s.word .tagmem (2 * j + 1)).getLsbD 0

/-- `TAG_j` (R65). -/
def State.tag (s : State) (j : Nat) : Word := s.word .tagmem (2 * j)

/-! ### A build, read plainly -/

/-- The survivors of a level (41_build.md R189): with D, a key is dropped when the first survivor in its bucket equals it. -/
def survivorsOf (d : Bool) (idx : Word → Nat) (ks : List Word) : List Word :=
  ks.foldl (fun v k => if d && v.find? (fun u => idx u == idx k) == some k then v else v ++ [k]) []

/-- How many of the keys `v` share the bucket `i`. -/
def sharing (idx : Word → Nat) (v : List Word) (i : Nat) : Nat := (v.filter fun u => idx u == i).length

/-- The survivors whose bucket another survivor shares: they are deferred (R190, R198). -/
def deferredOf (idx : Word → Nat) (v : List Word) : List Word := v.filter fun k => decide (2 ≤ sharing idx v (idx k))

/-- The fault of a cascade over the keys `ks` with `left` levels to go, and its information: CAPACITY with the first level that
does not fit, BUILD_DEPTH with the number of keys left over, or none when every key is placed (R180, R186, R192). -/
def cascadeFault (p : Params) (g : Nat) (d : Bool) (left level wb rb : Nat) (ks : List Word) : Option (FaultCode × Nat) :=
  if ks = [] then none
  else match left with
    | 0 => some (.buildDepth, ks.length)
    | n + 1 =>
      let size := tableSize g ks.length
      let idx := fun k => bucket p.hash k level size
      if levelFits p size wb rb then
        cascadeFault p g d n (level + 1) (wb + size / 64) (rb + sampleCount (size / 64))
          (deferredOf idx (survivorsOf d idx ks))
      else some (.capacity, level)

/-- The fault of the cascade that a build with the latched operands runs over the keys of KEYMEM. -/
def State.buildFault (s : State) (d : Bool) : Option (FaultCode × Nat) :=
  cascadeFault s.params s.latch.gamma.toNat d s.latch.maxlvl.toNat 0 0 0 (s.keys s.latch.nkeys.toNat)

/-- The survivors whose bucket no other survivor shares: the level places them (R190, R198). -/
def placedOf (idx : Word → Nat) (v : List Word) : List Word := v.filter fun k => decide (sharing idx v (idx k) = 1)

/-- One level of a build, read plainly: its size and bases (R191), and the positions of its 1 bits (R198 item 1). -/
structure PlainLevel where
  size  : Nat
  wbase : Nat
  rbase : Nat
  ones  : List Nat
  deriving DecidableEq, Repr

/-- The levels the same cascade finishes before it has placed every key or meets its fault (R186, R196). -/
def cascadeLevels (p : Params) (g : Nat) (d : Bool) (left level wb rb : Nat) (ks : List Word) : List PlainLevel :=
  if ks = [] then []
  else match left with
    | 0 => []
    | n + 1 =>
      let size := tableSize g ks.length
      let idx := fun k => bucket p.hash k level size
      let v := survivorsOf d idx ks
      if levelFits p size wb rb then
        { size := size, wbase := wb, rbase := rb, ones := (placedOf idx v).map idx } ::
          cascadeLevels p g d n (level + 1) (wb + size / 64) (rb + sampleCount (size / 64)) (deferredOf idx v)
      else []

/-- The levels that a build with the latched operands finishes over the keys of KEYMEM. -/
def State.buildLevels (s : State) (d : Bool) : List PlainLevel :=
  cascadeLevels s.params s.latch.gamma.toNat d s.latch.maxlvl.toNat 0 0 0 (s.keys s.latch.nkeys.toNat)

/-- The first three LVLTAB words of level `L`, and its bits in BVMEM, are those of the plain level (R61, R63). -/
def State.HasLevel (s : State) (L : Nat) (l : PlainLevel) : Prop :=
  s.sizeAt L = l.size ∧ s.wbaseAt L = l.wbase ∧ s.rbaseAt L = l.rbase ∧ ∀ n < l.size, s.bitAt L n = decide (n ∈ l.ones)

/-- The build of the latched operands can succeed: enough levels and enough memory for the keys of KEYMEM. -/
def State.CanBuild (s : State) (d : Bool) : Prop := s.latch.nkeys.toNat ≤ s.params.keyDepth ∧ s.buildFault d = none

/-! ### Counting sort, read plainly -/

/-- The count EMIT emits a value with: its slot's count where the slot carries it as its valid tag (45_sort.md R290). -/
def State.countOf (s : State) (v : Word) : Nat :=
  let x := s.indexOf v
  if x ≠ 0 ∧ s.tagValid (x.toNat - 1) = true ∧ s.tag (x.toNat - 1) = v then (s.word .valmem (x.toNat - 1)).toNat else 0

/-- EMIT's output without regard to the size of OUTMEM (R290): the values from MIN to MAX, each its counted number of times. -/
def State.emission (s : State) : List Word :=
  if s.status.rangev then
    (List.range ((s.max - s.min).toNat + 1)).flatMap fun t =>
      List.replicate (s.countOf (s.min + BitVec.ofNat 64 t)) (s.min + BitVec.ofNat 64 t)
  else []

/-! ### The words of other claims -/

/-- `legal(w)` of R126, on the bits of the word. -/
def LegalWord (w : Word) : Prop :=
  w.extractLsb' 10 54 = 0 ∧ (w.extractLsb' 0 8).toNat ≤ 0x0C ∧
    (w.getLsbD 8 = false ∨ (w.extractLsb' 0 8).toNat = 0x08) ∧
    (w.getLsbD 9 = false ∨ (w.extractLsb' 0 8).toNat = 0x01)

/-- The state with other values in the registers a command latches. -/
def withOperands (a0 a1 n : Word) (g : Half) (c : Ctrl) (s : State) : State :=
  { s with arg0 := a0, arg1 := a1, nkeys := n, gamma := g, ctrl := c }

/-- CTRL as R43 numbers its bits: SIGNED in bit 0, DONE_IE in bit 1, FAULT_IE in bit 2, MAXLVL from bit 8 on. -/
def State.controlRow (s : State) : Word :=
  BitVec.ofNat 64 (s.ctrl.signed.toNat + 2 * s.ctrl.doneIe.toNat + 4 * s.ctrl.faultIe.toNat + 256 * s.ctrl.maxlvl.toNat)

/-- STATUS as R44 numbers its bits, BUSY in bit 0 to IRQ (R350) in bit 7. -/
def State.statusRow (s : State) : Word :=
  BitVec.ofNat 64 ((decide (s.phase = .busy)).toNat + 2 * s.status.done.toNat + 4 * s.status.fault.toNat +
    8 * s.status.built.toNat + 16 * s.status.rangev.toNat + 32 * s.status.outp.toNat + 64 * s.status.rej.toNat +
    128 * ((s.status.done && s.ctrl.doneIe) || (s.status.fault && s.ctrl.faultIe)).toNat)

/-- The fault codes as 60_exceptions.md R340 numbers them. -/
def FaultCode.row : FaultCode → Word
  | .none => 0 | .illegalCmd => 1 | .notBuilt => 2 | .badArg => 3 | .capacity => 4
  | .buildDepth => 5 | .badIndex => 6 | .keyNotFound => 7 | .tagMismatch => 8 | .outOverflow => 9

/-- The table of 10_state.md R40 written out: each named offset, and what a read of it returns. CTRL, STATUS and FAULT_CODE are
written from the fields the commands use, by the bits of R43 and R44 and the numbers of R340. -/
def registerTable (s : State) : List (Addr × Word) :=
  [(0x000#32, 0x000000014D504846#64), (0x008#32, BitVec.ofNat 64 s.params.keyDepth),
   (0x010#32, BitVec.ofNat 64 s.params.bvWords), (0x018#32, BitVec.ofNat 64 s.params.rankDepth),
   (0x020#32, BitVec.ofNat 64 s.params.scratchBits), (0x040#32, s.controlRow), (0x048#32, s.statusRow), (0x050#32, s.cmd),
   (0x058#32, s.nkeys), (0x060#32, s.gamma.zeroExtend 64), (0x068#32, s.arg0), (0x070#32, s.arg1)] ++
  [(0x078#32, s.res0), (0x080#32, s.res1), (0x088#32, s.nlevels), (0x090#32, s.bnkeys), (0x098#32, s.total), (0x0A0#32, s.dups),
   (0x0A8#32, s.min), (0x0B0#32, s.max), (0x0B8#32, s.outlen), (0x0C0#32, s.faultCode.row), (0x0C8#32, s.faultInfo),
   (0x0D0#32, s.faultCmd), (0x0D8#32, s.bvused), (0x0E0#32, s.rankused)]

/-- The memories a command may write (30_encoding.md R127). -/
def mayWrite : Instr → List Space
  | .build _ => [.bvmem, .rankmem, .lvltab, .valmem, .tagmem]
  | .set => [.valmem]
  | .clrvals => [.valmem, .tagmem]
  | .accum => [.valmem, .tagmem]
  | .emit => [.outmem]
  | .sort p => if p then [.bvmem, .rankmem, .lvltab, .valmem, .tagmem, .outmem] else []
  | .inval => [.lvltab]
  | .nop | .query | .lookup | .rank | .hash | .bitget => []

/-- The cases of R85, on the address: misaligned, unmapped, beyond the memory's words, a write of a read-only memory, or any
memory while BUSY. -/
def BusError (s : State) (a : Addr) (isWrite : Bool) : Prop :=
  a.toNat % 8 ≠ 0 ∨ (0x1000 ≤ a.toNat ∧ a.toNat < 0x10000000) ∨ 0x80000000 ≤ a.toNat ∨
  (∃ sp : Space, sp.base + 8 * sp.words s.params ≤ a.toNat ∧ a.toNat < sp.base + 0x10000000) ∨
  (∃ sp : Space, sp.base ≤ a.toNat ∧ a.toNat < sp.base + 0x10000000 ∧
    ((isWrite = true ∧ sp ∈ [.bvmem, .rankmem, .lvltab, .tagmem, .outmem]) ∨ s.phase = .busy))

/-! ### Invariants -/

/-- The engine is the next to move (20_memory.md R100). -/
def State.EngineMoves (s : State) : Prop := s.phase = .busy ∧ ∀ p rest, s.inbox = p :: rest → p.early = 0

/-- The invariant of the block that no step breaks, whatever the built function is. -/
structure State.Inv (s : State) : Prop where
  /-- R9. -/
  params     : s.params.Wf
  /-- The memory list is in its canonical form. -/
  mem        : memWf s.mem = true
  /-- Every listed byte belongs to a word that exists (R84). -/
  placed     : ∀ e ∈ s.mem, ∃ (sp : Space) (i : Nat), i < sp.words s.params ∧ sp.addr i ≤ e.1 ∧ e.1 < sp.addr i + 8
  /-- MAXLVL reads a legal value (R43). -/
  maxlvl     : 1 ≤ s.ctrl.maxlvl.toNat ∧ s.ctrl.maxlvl.toNat ≤ 32
  latchLvl   : 1 ≤ s.latch.maxlvl.toNat ∧ s.latch.maxlvl.toNat ≤ 32
  /-- GAMMA reads at least 1.0 (R47). -/
  gamma      : 65536 ≤ s.gamma.toNat
  latchGamma : 65536 ≤ s.latch.gamma.toNat
  /-- DONE and FAULT are never both 1 (R343). -/
  oneEnd     : ¬(s.status.done = true ∧ s.status.fault = true)
  /-- While BUSY, both are 0 (R331). -/
  busyClear  : s.phase = .busy → s.status.done = false ∧ s.status.fault = false
  /-- Without a built function its registers are 0 (R48-R51, R55, R187, R322). -/
  unbuilt    : s.status.built = false →
    s.nlevels = 0 ∧ s.bnkeys = 0 ∧ s.total = 0 ∧ s.dups = 0 ∧ s.bvused = 0 ∧ s.rankused = 0
  /-- At most 32 levels (R48). -/
  levels     : s.nlevels.toNat ≤ 32
  /-- OUTLEN counts words of OUTMEM (R53). -/
  outlen     : s.outlen.toNat ≤ s.params.keyDepth
  /-- Bits [63:1] of an odd word of TAGMEM read 0 (R65). -/
  tagBits    : ∀ j < s.params.keyDepth, (s.word .tagmem (2 * j + 1)).toNat ≤ 1

/-- A well-formed built function (R61-R63, R67; 42_rank.md R220). -/
structure State.FnInv (s : State) : Prop where
  sizes   : ∀ l < s.nlevels.toNat, s.sizeAt l % 64 = 0 ∧ 64 ≤ s.sizeAt l ∧ s.sizeAt l ≤ s.params.scratchBits
  wbases  : ∀ l < s.nlevels.toNat, s.wbaseAt l = s.wordsBefore l
  rbases  : ∀ l < s.nlevels.toNat, s.rbaseAt l = s.samplesBefore l
  bvused  : s.bvused.toNat = s.wordsBefore s.nlevels.toNat ∧ s.bvused.toNat ≤ s.params.bvWords
  rkused  : s.rankused.toNat = s.samplesBefore s.nlevels.toNat ∧ s.rankused.toNat ≤ s.params.rankDepth
  popbase : ∀ l < s.nlevels.toNat, (s.popbaseAt l).toNat = s.popBefore (s.wordsBefore l)
  samples : ∀ l < s.nlevels.toNat, ∀ b < sampleCount (s.sizeAt l / 64),
    (s.word .rankmem (s.samplesBefore l + b)).toNat = s.popBefore (s.wordsBefore l + 8 * b)
  total   : s.total.toNat = s.popBefore s.bvused.toNat ∧ s.total.toNat ≤ s.bnkeys.toNat
  slots   : s.bnkeys.toNat ≤ s.params.keyDepth
  above   : ∀ i, 4 * s.nlevels.toNat ≤ i → i < 128 → s.word .lvltab i = 0

/-- A safe state: the invariant, and a well-formed function where one is built. From a safe state no step stops. -/
structure State.Safe (s : State) : Prop where
  inv : s.Inv
  fn  : s.status.built = true → s.FnInv

end Sys2Proof.Machine
end

