-- ==== Sys2Proof/Certificates/Slice0/Obligations.lean ====
section
/-!
DEFINITION. The statements about the block, one Prop each. A statement of the form `exec i s = .next { s.complete with … }` is also
the instruction's frame: every field it does not name is as before.
-/
open Sys2Proof Sys2Proof.Machine

/-! ### Encoding -/

/-- The words of 30_encoding.md R125 and R135, written out, decode to their commands. -/
def Obligations.KnownWordsDecode : Prop :=
  decode 0x0 = .ok .nop ∧ decode 0x1 = .ok (.build false) ∧ decode 0x201 = .ok (.build true) ∧
  decode 0x2 = .ok .query ∧ decode 0x3 = .ok .lookup ∧ decode 0x4 = .ok .set ∧ decode 0x5 = .ok .clrvals ∧
  decode 0x6 = .ok .accum ∧ decode 0x7 = .ok .emit ∧ decode 0x8 = .ok (.sort false) ∧
  decode 0x108 = .ok (.sort true) ∧ decode 0x9 = .ok .rank ∧ decode 0xA = .ok .hash ∧
  decode 0xB = .ok .bitget ∧ decode 0xC = .ok .inval

/-- Decode and encode agree on all 2^64 words: a word is read as a command exactly when it is that command's word. -/
def Obligations.DecodeExactlyEncode : Prop :=
  ∀ (w : Word) (i : Instr), decode w = .ok i ↔ w = encode i

/-- R126, R332, R335: when the engine moves, a legal word selects the command whose OP it holds, with its flags, and runs it; any other
word faults with ILLEGAL_CMD and the word, with no other effect. That a whole command is one step is the model's reading of R100
(log 6, DEDUCED), and when the engine moves is its form of R390 (log 7, DESIGN CHOICE). -/
def Obligations.LegalWordsRunOthersFault : Prop :=
  ∀ s : State, s.EngineMoves →
    (LegalWord s.latch.word → ∃ i : Instr, step s = exec i s ∧ i.opcode = (s.latch.word.extractLsb' 0 8).toNat ∧
      (∀ d, i = .build d → d = s.latch.word.getLsbD 9) ∧ (∀ p, i = .sort p → p = s.latch.word.getLsbD 8)) ∧
    (¬ LegalWord s.latch.word → step s = .next
      { s with faultCode := .illegalCmd, faultInfo := s.latch.word, faultCmd := s.latch.word, phase := .idle,
               status := { s.status with fault := true } })

/-! ### One step -/

/-- R332: when the engine moves and the accepted word decodes, the step is the command's meaning. One step a command is log 6
(DEDUCED from R100); when the engine moves is log 7 (DESIGN CHOICE). -/
def Obligations.StepRunsDecodedCommand : Prop :=
  ∀ (s : State) (i : Instr), s.EngineMoves → decode s.latch.word = .ok i → step s = exec i s

/-- While a command runs an early act is served first; without a command every act is; with nothing to do the block waits. All but the
effects of reads, writes and resets themselves is the model's choice, not the spec's: the inbox and its `early` marks (log 7), the field
`answer` (log 8), the two `wait` clauses (log 19), that a power-on clears `answer` and keeps the rest of the inbox (log 20), and that an
idle block with nothing to do steps to itself (log 15). -/
def Obligations.StepServesOutside : Prop :=
  (∀ (s : State) (p : Pending) (rest : List Pending), s.inbox = p :: rest → (s.phase = .idle ∨ p.early ≠ 0) →
    (∀ a, p.act = .read a → step s = .next { s with inbox := rest, answer := some (busRead a s) }) ∧
    (∀ a v, p.act = .write a v → step s = .next { (busWrite a v s).2 with
      inbox := rest, answer := some { resp := (busWrite a v s).1, data := 0 } }) ∧
    (p.act = .powerOn → step s = .next { s.powerOn with inbox := rest, answer := none }) ∧
    (p.act = .wait → s.phase = .idle → step s = .next { s with inbox := rest, answer := some (busRead 0x48#32 s) }) ∧
    (p.act = .wait → s.phase = .busy → step s = .next
      { s with inbox := { p with early := p.early - 1 } :: rest, answer := some (busRead 0x48#32 s) })) ∧
  (∀ s : State, s.phase = .idle → s.inbox = [] → step s = .next s)

/-- R331: a write of CMD is accepted with the word and the operands latched when BUSY=0 and FAULT=0; otherwise only REJ
changes. -/
def Obligations.CommandRequestAcceptedOrRejected : Prop :=
  ∀ (s : State) (w : Word),
    ((s.phase = .busy ∨ s.status.fault = true) →
      busWrite 0x50#32 w s = (.okay, { s with status := { s.status with rej := true } })) ∧
    ((s.phase = .idle ∧ s.status.fault = false) →
      busWrite 0x50#32 w s = (.okay, { s with
        latch := { word := w, arg0 := s.arg0, arg1 := s.arg1, nkeys := s.nkeys, gamma := s.gamma,
                   signed := s.ctrl.signed, maxlvl := s.ctrl.maxlvl },
        cmd := w, phase := .busy, status := { s.status with done := false } }))

/-- R36, R384: a command uses the latched copies alone; host writes of ARG0, ARG1, NKEYS, GAMMA and CTRL after acceptance change
nothing in what it does. -/
def Obligations.CommandUsesLatchedOperands : Prop :=
  ∀ (i : Instr) (s : State) (a0 a1 n : Word) (g : Half) (c : Ctrl),
    exec i (withOperands a0 a1 n g c s) =
      match exec i s with
      | .next t => .next (withOperands a0 a1 n g c t)
      | .fault f => .fault f
      | .refused r => .refused r

/-! ### NOP, INVAL, HASH -/

/-- R320: NOP completes, and nothing else changes. -/
def Obligations.NopOnlyCompletes : Prop :=
  ∀ s : State, exec .nop s = .next { s with phase := .idle, status := { s.status with done := true } }

/-- R322: INVAL zeroes BUILT, the built-function registers and LVLTAB, completes, and changes no other byte or field. -/
def Obligations.InvalDropsFunction : Prop :=
  ∀ s : State, ∃ t : State, exec .inval s = .next t ∧
    t = { s with mem := t.mem, phase := .idle, status := { s.status with built := false, done := true },
                 nlevels := 0, bnkeys := 0, total := 0, dups := 0, bvused := 0, rankused := 0 } ∧
    ∀ a : Nat, readByte t.mem a = if 0x40000000 ≤ a ∧ a < 0x40000400 then 0 else readByte s.mem a

/-- R200, R172: HASH gives the hash and, bit by bit, `h1 ^ rotl32(h2, L)`; a level of 32 or more faults with BAD_ARG. -/
def Obligations.HashReportsHashAndBucketValue : Prop :=
  ∀ s : State,
    let h := hash64 s.params.hash s.latch.arg0
    let l := s.latch.arg1.toNat
    (l < 32 → ∃ r : Word, exec .hash s = .next { s.complete with res0 := h, res1 := r } ∧
      ∀ i < 64, r.getLsbD i =
        (decide (i < 32) && (h.getLsbD i ^^ h.getLsbD (32 + (i + 32 - l) % 32)))) ∧
    (32 ≤ l → exec .hash s = .next (s.takeFault .badArg s.latch.arg1))

/-- R171's two facts about the default HASH64, and R200's example. -/
def Obligations.DefaultHashKnownValues : Prop :=
  hash64 .xorshift 0 = 0 ∧ hash64 .xorshift 1 = 0x47E4CE4B896CDD1D ∧
    comb .xorshift 1 0 = 0xCE881356 ∧ comb .xorshift 1 1 = 0x06A5418B

/-! ### The value array -/

/-- R261, R262: LOOKUP reads slot `x`, 1 to BNKEYS, into RES0; the checks are NOT_BUILT, then BAD_INDEX. -/
def Obligations.LookupReadsSlot : Prop :=
  ∀ s : State, s.bnkeys.toNat ≤ s.params.keyDepth →
    let x := s.latch.arg0
    (s.status.built = false → exec .lookup s = .next (s.takeFault .notBuilt 0)) ∧
    (s.status.built = true → (x = 0 ∨ s.bnkeys.toNat < x.toNat) →
      exec .lookup s = .next (s.takeFault .badIndex x)) ∧
    (s.status.built = true → 1 ≤ x.toNat → x.toNat ≤ s.bnkeys.toNat →
      exec .lookup s = .next { s.complete with res0 := s.word .valmem (x.toNat - 1) })

/-- R261, R264: SET writes ARG1 to slot `x`, 1 to BNKEYS, and changes no other byte; the checks are LOOKUP's. -/
def Obligations.SetWritesSlot : Prop :=
  ∀ s : State, s.bnkeys.toNat ≤ s.params.keyDepth → memWf s.mem = true →
    let x := s.latch.arg0
    (s.status.built = false → exec .set s = .next (s.takeFault .notBuilt 0)) ∧
    (s.status.built = true → (x = 0 ∨ s.bnkeys.toNat < x.toNat) →
      exec .set s = .next (s.takeFault .badIndex x)) ∧
    (s.status.built = true → 1 ≤ x.toNat → x.toNat ≤ s.bnkeys.toNat →
      ∃ t : State, exec .set s = .next t ∧ t = { s.complete with mem := t.mem } ∧
        t.word .valmem (x.toNat - 1) = s.latch.arg1 ∧
        ∀ a : Nat, (a < Space.valmem.addr (x.toNat - 1) ∨ Space.valmem.addr (x.toNat - 1) + 8 ≤ a) →
          readByte t.mem a = readByte s.mem a)

/-- R266: CLRVALS zeroes the BNKEYS slots and their tags, forgets the range, and changes no other byte. -/
def Obligations.ClrvalsClearsSlotsAndRange : Prop :=
  ∀ s : State, s.bnkeys.toNat ≤ s.params.keyDepth →
    (s.status.built = false → exec .clrvals s = .next (s.takeFault .notBuilt 0)) ∧
    (s.status.built = true → ∃ t : State, exec .clrvals s = .next t ∧
      t = { s.complete with mem := t.mem, min := 0, max := 0, status := { s.status with rangev := false, done := true } } ∧
      ∀ a : Nat, readByte t.mem a =
        if (0x50000000 ≤ a ∧ a < 0x50000000 + 8 * s.bnkeys.toNat) ∨
            (0x60000000 ≤ a ∧ a < 0x60000000 + 16 * s.bnkeys.toNat) then 0
        else readByte s.mem a)

/-! ### Reading the built function -/

/-- R155: BITGET gives the bit; the checks are NOT_BUILT, the level, the position, in that order. -/
def Obligations.BitgetReadsBit : Prop :=
  ∀ s : State, s.Safe →
    let l := s.latch.arg0
    let n := s.latch.arg1
    (s.status.built = false → exec .bitget s = .next (s.takeFault .notBuilt 0)) ∧
    (s.status.built = true → s.nlevels.toNat ≤ l.toNat → exec .bitget s = .next (s.takeFault .badArg l)) ∧
    (s.status.built = true → l.toNat < s.nlevels.toNat → s.sizeAt l.toNat ≤ n.toNat →
      exec .bitget s = .next (s.takeFault .badArg n)) ∧
    (s.status.built = true → l.toNat < s.nlevels.toNat → n.toNat < s.sizeAt l.toNat →
      exec .bitget s = .next { s.complete with res0 := if s.bitAt l.toNat n.toNat then 1 else 0 })

/-- R226, R228: RANK gives the brute-force count of the level's 1 bits below the position, and that count plus POPBASE_L. -/
def Obligations.RankCountsOnesBelow : Prop :=
  ∀ s : State, s.Safe →
    let l := s.latch.arg0
    let n := s.latch.arg1
    (s.status.built = false → exec .rank s = .next (s.takeFault .notBuilt 0)) ∧
    (s.status.built = true → s.nlevels.toNat ≤ l.toNat → exec .rank s = .next (s.takeFault .badArg l)) ∧
    (s.status.built = true → l.toNat < s.nlevels.toNat → s.sizeAt l.toNat ≤ n.toNat →
      exec .rank s = .next (s.takeFault .badArg n)) ∧
    (s.status.built = true → l.toNat < s.nlevels.toNat → n.toNat < s.sizeAt l.toNat →
      exec .rank s = .next { s.complete with
        res0 := BitVec.ofNat 64 (s.onesBelow l.toNat n.toNat),
        res1 := s.popbaseAt l.toNat + BitVec.ofNat 64 (s.onesBelow l.toNat n.toNat) })

/-- R240, R241: QUERY answers the first level whose bit at the key's bucket is 1, with the global rank of that bit plus 1, and
0 with all ones when there is none. -/
def Obligations.QueryFindsFirstLevel : Prop :=
  ∀ s : State, s.Safe →
    let k := s.latch.arg0
    (s.status.built = false → exec .query s = .next (s.takeFault .notBuilt 0)) ∧
    (s.status.built = true → (∀ l < s.nlevels.toNat, s.hits k l = false) →
      exec .query s = .next { s.complete with res0 := 0, res1 := 0xFFFFFFFFFFFFFFFF }) ∧
    (s.status.built = true → ∀ l < s.nlevels.toNat, s.hits k l = true → (∀ j < l, s.hits k j = false) →
      exec .query s = .next { s.complete with
        res0 := s.popbaseAt l + BitVec.ofNat 64 (s.onesBelow l (bucket s.params.hash k l (s.sizeAt l))) + 1,
        res1 := BitVec.ofNat 64 l })

/-- R242: QUERY over a built function answers 0 exactly when the key's bit is 0 at every level, and otherwise an index in
`1 .. TOTAL`. -/
def Obligations.QueryIndexWithinTotal : Prop :=
  ∀ s : State, s.Safe → s.status.built = true → ∃ t : State, exec .query s = .next t ∧
    t.res0.toNat ≤ s.total.toNat ∧ (t.res0 = 0 ↔ ∀ l < s.nlevels.toNat, s.hits s.latch.arg0 l = false)

/-! ### Construction -/

/-- R176: the table size is the least multiple of 64 that is at least 64 and at least `G / 65536` times the key count. -/
def Obligations.TableSizeIsLeastMultiple : Prop :=
  ∀ g m : Nat, 65536 ≤ g → 1 ≤ m →
    tableSize g m % 64 = 0 ∧ 64 ≤ tableSize g m ∧ g * m ≤ 65536 * tableSize g m ∧
    ∀ n : Nat, n % 64 = 0 → 64 ≤ n → g * m ≤ 65536 * n → tableSize g m ≤ n

/-- R189, R198 item 1: after the first pass over clear vectors, a bucket is occupied exactly when a survivor falls into it and
collided exactly when two do; the survivors are the plain ones, and every other key was counted as a copy. -/
def Obligations.CollisionDetectorExact : Prop :=
  ∀ (d : Bool) (idx : Word → Nat) (size : Nat) (ks : List Word) (sc : Scratch), (∀ k, idx k < size) →
    let r := firstPass d idx ks (levelStart size sc)
    r.survivors = survivorsOf d idx ks ∧
    (∀ i < size, r.occupied i = decide (1 ≤ sharing idx r.survivors i)) ∧
    (∀ i < size, r.collided i = decide (2 ≤ sharing idx r.survivors i)) ∧
    r.dups + r.survivors.length = sc.dups + ks.length ∧ (d = false → r.survivors = ks)

/-- R182, R283, R340: over more keys than KEYMEM holds BUILD, BUILD.D and SORT.P fault with BAD_ARG and NKEYS and only drop the function;
ACCUM over a built function faults with BAD_ARG and NKEYS and changes nothing else. -/
def Obligations.BuildRefusesTooManyKeys : Prop :=
  ∀ (s : State), s.params.keyDepth < s.latch.nkeys.toNat →
    (∀ d, exec (.build d) s = .next (s.dropFunction.takeFault .badArg s.latch.nkeys)) ∧
    exec (.sort true) s = .next (s.dropFunction.takeFault .badArg s.latch.nkeys) ∧
    (s.status.built = true → exec .accum s = .next
      { s with faultCode := .badArg, faultInfo := s.latch.nkeys, faultCmd := s.latch.word, phase := .idle,
               status := { s.status with fault := true } })

/-- R186, corner case `n = 0`: a build over no key completes with no level, whatever the memory holds. -/
def Obligations.BuildOverNoKeys : Prop :=
  ∀ (s : State) (d : Bool), s.latch.nkeys = 0 → ∃ t : State, exec (.build d) s = .next t ∧
    t = { s with
      mem := t.mem, scratch := t.scratch, phase := .idle,
      status := { s.status with built := true, rangev := false, done := true },
      nlevels := 0, bnkeys := 0, total := 0, dups := 0, bvused := 0, rankused := 0, min := 0, max := 0,
      res0 := 0, res1 := 0 } ∧
    ∀ a : Nat, readByte t.mem a = if 0x40000000 ≤ a ∧ a < 0x40000400 then 0 else readByte s.mem a

/-- R186, corner case `n = 1`: at gamma 2.0 a build over one key makes one level of 64 bits with the key's bit set. -/
def Obligations.BuildOverOneKey : Prop :=
  ∀ (s : State) (d : Bool), s.Inv → s.latch.nkeys = 1 → s.latch.gamma = 0x00020000 →
    ∃ t : State, exec (.build d) s = .next t ∧ t.status.built = true ∧ t.status.done = true ∧ t.nlevels = 1 ∧
      t.total = 1 ∧ t.dups = 0 ∧ t.bnkeys = 1 ∧ t.res0 = 1 ∧ t.res1 = 1 ∧
      t.word .lvltab 0 = 64 ∧ t.word .lvltab 1 = 0 ∧ t.word .lvltab 2 = 0 ∧ t.word .lvltab 3 = 0 ∧
      t.word .bvmem 0 = 1#64 <<< bucket s.params.hash (s.word .keymem 0) 0 64 ∧ t.word .rankmem 0 = 0 ∧
      t.word .valmem 0 = 0 ∧ t.word .tagmem 0 = 0 ∧ t.word .tagmem 1 = 0

/-- R186, R195, R198 item 1: when the cascade, read plainly, places every key in levels that fit, BUILD completes with a built
function of its levels (sizes, bases, and 1 bits exactly for the keys alone in their bucket) and cleared slots; it stores only to the words BVUSED and RANKUSED count, to LVLTAB, and to the slots and tags of its keys. -/
def Obligations.BuildCompletesWhenCascadeEnds : Prop :=
  ∀ (s : State) (d : Bool), s.Inv → s.CanBuild d → ∃ t : State, exec (.build d) s = .next t ∧
    t = { s with
      mem := t.mem, scratch := t.scratch, phase := .idle,
      status := { s.status with built := true, rangev := false, done := true },
      nlevels := t.nlevels, bnkeys := s.latch.nkeys, total := t.total, dups := t.dups, bvused := t.bvused,
      rankused := t.rankused, min := 0, max := 0, res0 := t.nlevels, res1 := t.total } ∧
    t.nlevels.toNat = (s.buildLevels d).length ∧ (∀ L l, (s.buildLevels d)[L]? = some l → t.HasLevel L l) ∧
    (∀ j < s.latch.nkeys.toNat, t.word .valmem j = 0 ∧ t.word .tagmem (2 * j) = 0 ∧ t.word .tagmem (2 * j + 1) = 0) ∧
    ∀ a : Nat,
      ¬ (0x20000000 ≤ a ∧ a < 0x20000000 + 8 * t.bvused.toNat) → ¬ (0x30000000 ≤ a ∧ a < 0x30000000 + 8 * t.rankused.toNat) →
      ¬ (0x40000000 ≤ a ∧ a < 0x40000400) → ¬ (0x50000000 ≤ a ∧ a < 0x50000000 + 8 * s.latch.nkeys.toNat) →
      ¬ (0x60000000 ≤ a ∧ a < 0x60000000 + 16 * s.latch.nkeys.toNat) → readByte t.mem a = readByte s.mem a

/-- R180, R192, R196: when a level does not fit BUILD faults with CAPACITY and the level's number, and when MAXLVL levels leave keys
unplaced with BUILD_DEPTH and their count, whichever the cascade, read plainly, meets first. What it wrote before stands: the
levels it finished, in LVLTAB (POPBASE still 0) and BVMEM; LVLTAB is 0 above them, and no other byte changed. That a D = 0 build
over a repeated key, too, ends in CAPACITY where a level does not fit is the model's reading (log 18, DEDUCED; R385 says
BUILD_DEPTH there). -/
def Obligations.BuildFaultsWhenCascadeFails : Prop :=
  ∀ (s : State) (d : Bool) (c : FaultCode) (x : Nat), s.Inv → s.latch.nkeys.toNat ≤ s.params.keyDepth →
    s.buildFault d = some (c, x) → ∃ t : State, exec (.build d) s = .next t ∧
      t.status = { s.status with built := false, fault := true } ∧ t.phase = .idle ∧
      t.faultCode = c ∧ t.faultInfo = BitVec.ofNat 64 x ∧ t.faultCmd = s.latch.word ∧
      (∀ L l, (s.buildLevels d)[L]? = some l → t.HasLevel L l ∧ t.popbaseAt L = 0) ∧
      (∀ i, 4 * (s.buildLevels d).length ≤ i → i < 128 → t.word .lvltab i = 0) ∧
      ∀ a : Nat, ¬ (0x20000000 ≤ a ∧ a < 0x20000000 + 8 * ((s.buildLevels d).map fun l => l.size / 64).sum) →
        ¬ (0x40000000 ≤ a ∧ a < 0x40000400) → readByte t.mem a = readByte s.mem a

/-- R187, R196: a BUILD that faults leaves no built function, its registers 0, RES0, RES1 and the range unchanged, and no byte
outside BVMEM and LVLTAB changed. -/
def Obligations.FaultedBuildLeavesNoFunction : Prop :=
  ∀ (s t : State) (d : Bool), s.params.Wf → s.status.fault = false → exec (.build d) s = .next t → t.status.fault = true →
    t = { s with
      mem := t.mem, scratch := t.scratch, phase := .idle, status := { s.status with built := false, fault := true },
      nlevels := 0, bnkeys := 0, total := 0, dups := 0, bvused := 0, rankused := 0,
      faultCode := t.faultCode, faultInfo := t.faultInfo, faultCmd := s.latch.word } ∧
    (t.faultCode = .badArg ∨ t.faultCode = .capacity ∨ t.faultCode = .buildDepth) ∧
    ∀ a : Nat, ¬ (0x20000000 ≤ a ∧ a < 0x20000000 + 8 * s.params.bvWords) → ¬ (0x40000000 ≤ a ∧ a < 0x40000400) →
      readByte t.mem a = readByte s.mem a

/-- R199, R385, R180, R186: a D = 0 build over keys with a repeated value never succeeds; it ends with BUILD_DEPTH and at least two
keys unplaced, unless a level that does not fit raises CAPACITY first (the model's reading, log 18, DEDUCED). Where the memories
hold MAXLVL levels of the first one's size every level fits, and the fault is BUILD_DEPTH. -/
def Obligations.RepeatedKeyNeverBuilds : Prop :=
  ∀ (s : State), s.Inv → s.status.fault = false → s.latch.nkeys.toNat ≤ s.params.keyDepth →
    ¬ (s.keys s.latch.nkeys.toNat).Nodup →
    ∃ t : State, exec (.build false) s = .next t ∧ t.status.built = false ∧ t.status.fault = true ∧
      (t.faultCode = .capacity ∨ (t.faultCode = .buildDepth ∧ 2 ≤ t.faultInfo.toNat)) ∧
      let size := tableSize s.latch.gamma.toNat s.latch.nkeys.toNat
      size ≤ s.params.scratchBits → s.latch.maxlvl.toNat * (size / 64) ≤ s.params.bvWords →
        s.latch.maxlvl.toNat * sampleCount (size / 64) ≤ s.params.rankDepth → t.faultCode = .buildDepth

/-- R177, R180, R191, R220: a build that succeeds leaves a well-formed function: level sizes and bases, capacities, POPBASE, and
every rank sample equal to the running popcount. -/
def Obligations.BuildMakesWellFormedFunction : Prop :=
  ∀ (s t : State) (d : Bool), s.Inv → exec (.build d) s = .next t → t.status.built = true → t.FnInv

/-- R198 items 2 and 3: after a build that succeeds, every key meets a 1 bit at some level and a 0 bit at every level
before it, TOTAL counts the distinct keys, and TOTAL + DUPS is the key count. -/
def Obligations.EveryKeyFoundAndCounted : Prop :=
  ∀ (s t : State) (d : Bool), s.Inv → exec (.build d) s = .next t → t.status.built = true →
    (∀ k ∈ t.keys t.bnkeys.toNat, ∃ l < t.nlevels.toNat, t.hits k l = true ∧ ∀ j < l, t.hits k j = false) ∧
    t.total.toNat = (t.keys t.bnkeys.toNat).dedup.length ∧ t.total.toNat + t.dups.toNat = t.bnkeys.toNat

/-- R244: after a build that succeeds, the query maps the distinct keys one to one onto `1 .. TOTAL`. -/
def Obligations.QueryIsBijectionOnKeys : Prop :=
  ∀ (s t : State) (d : Bool), s.Inv → exec (.build d) s = .next t → t.status.built = true →
    (∀ k ∈ t.keys t.bnkeys.toNat, 1 ≤ (t.indexOf k).toNat ∧ (t.indexOf k).toNat ≤ t.total.toNat) ∧
    (∀ k ∈ t.keys t.bnkeys.toNat, ∀ j ∈ t.keys t.bnkeys.toNat, t.indexOf k = t.indexOf j → k = j) ∧
    (∀ x : Nat, 1 ≤ x → x ≤ t.total.toNat → ∃ k ∈ t.keys t.bnkeys.toNat, (t.indexOf k).toNat = x)

/-! ### Counting sort -/

/-- R280: `Less` is the order of the two's-complement values when SIGNED = 1 and of the unsigned values when SIGNED = 0. -/
def Obligations.KeyOrderBySignedness : Prop :=
  ∀ a b : Word, (less true a b = true ↔ a.toInt < b.toInt) ∧ (less false a b = true ↔ a.toNat < b.toNat)

/-- R283: ACCUM over one key, all its ends: NOT_BUILT, KEY_NOT_FOUND, TAG_MISMATCH, or the count, the tag and the range. -/
def Obligations.AccumOverOneKey : Prop :=
  ∀ s : State, s.Safe → s.latch.nkeys = 1 →
    let k := s.word .keymem 0
    let j := (s.indexOf k).toNat - 1
    (s.status.built = false → exec .accum s = .next (s.takeFault .notBuilt 0)) ∧
    (s.status.built = true → s.indexOf k = 0 → exec .accum s = .next (s.takeFault .keyNotFound k)) ∧
    (s.status.built = true → s.indexOf k ≠ 0 → s.tagValid j = true → s.tag j ≠ k →
      exec .accum s = .next (s.takeFault .tagMismatch k)) ∧
    (s.status.built = true → s.indexOf k ≠ 0 → (s.tagValid j = true → s.tag j = k) →
      ∃ t : State, exec .accum s = .next t ∧
        t = { s.complete with
          mem := t.mem, res0 := 1, status := { s.status with rangev := true, done := true },
          min := if s.status.rangev then (if less s.latch.signed k s.min then k else s.min) else k,
          max := if s.status.rangev then (if less s.latch.signed s.max k then k else s.max) else k } ∧
        t.word .valmem j = s.word .valmem j + 1 ∧ t.tag j = k ∧ t.tagValid j = true ∧
        ∀ a : Nat, (a < Space.valmem.addr j ∨ Space.valmem.addr j + 8 ≤ a) →
          (a < Space.tagmem.addr (2 * j) ∨ Space.tagmem.addr (2 * j) + 16 ≤ a) → readByte t.mem a = readByte s.mem a)

/-- R283: when every key has an index, no two different keys share one, and no slot carries another key's tag, ACCUM adds to each
slot the number of keys counted into it, and RES0 is the key count. -/
def Obligations.AccumCountsEveryKey : Prop :=
  ∀ s : State, s.Safe → s.status.built = true → s.latch.nkeys.toNat ≤ s.params.keyDepth →
    let ks := s.keys s.latch.nkeys.toNat
    (∀ k ∈ ks, s.indexOf k ≠ 0 ∧
      (s.tagValid ((s.indexOf k).toNat - 1) = true → s.tag ((s.indexOf k).toNat - 1) = k)) →
    (∀ k ∈ ks, ∀ j ∈ ks, s.indexOf k = s.indexOf j → k = j) →
    ∃ t : State, exec .accum s = .next t ∧
      t = { s.complete with
        mem := t.mem, res0 := s.latch.nkeys, min := t.min, max := t.max,
        status := { s.status with rangev := s.status.rangev || !ks.isEmpty, done := true } } ∧
      (∀ j < s.bnkeys.toNat, t.word .valmem j =
        s.word .valmem j + BitVec.ofNat 64 (ks.filter fun k => decide ((s.indexOf k).toNat = j + 1)).length) ∧
      (∀ k ∈ ks, t.tagValid ((s.indexOf k).toNat - 1) = true ∧ t.tag ((s.indexOf k).toNat - 1) = k) ∧
      (∀ j < s.bnkeys.toNat, (∀ k ∈ ks, (s.indexOf k).toNat ≠ j + 1) →
        t.word .tagmem (2 * j) = s.word .tagmem (2 * j) ∧ t.word .tagmem (2 * j + 1) = s.word .tagmem (2 * j + 1)) ∧
      (∀ a : Nat, ¬ (0x50000000 ≤ a ∧ a < 0x50000000 + 8 * s.bnkeys.toNat) →
        ¬ (0x60000000 ≤ a ∧ a < 0x60000000 + 16 * s.bnkeys.toNat) → readByte t.mem a = readByte s.mem a)

/-- R283: ACCUM over one key more faults on that key, in the state the keys before it left: their counts, tags and range stand. -/
def Obligations.AccumFaultKeepsEarlierKeys : Prop :=
  ∀ (s t : State) (m : Word), s.Safe → s.latch.nkeys = m + 1 → (m + 1).toNat ≤ s.params.keyDepth → s.status.fault = false →
    exec .accum { s with latch := { s.latch with nkeys := m } } = .next t → t.status.fault = false →
    let k := s.word .keymem m.toNat
    let j := (s.indexOf k).toNat - 1
    let faulted := fun c => { t with
      latch := s.latch, res0 := s.res0, faultCode := c, faultInfo := k, faultCmd := s.latch.word,
      status := { t.status with done := s.status.done, fault := true } }
    (s.indexOf k = 0 → exec .accum s = .next (faulted .keyNotFound)) ∧
    (s.indexOf k ≠ 0 → t.tagValid j = true → t.tag j ≠ k → exec .accum s = .next (faulted .tagMismatch))

/-- R283, R280: after ACCUM over at least one key, MIN and MAX bound the keys counted and the range before, and each is one of
them, in the latched signedness. -/
def Obligations.AccumTracksRange : Prop :=
  ∀ s t : State, s.Safe → s.status.fault = false → exec .accum s = .next t → t.status.fault = false →
    s.latch.nkeys ≠ 0 →
    let le := fun a b => less s.latch.signed b a = false
    let counted := s.keys s.latch.nkeys.toNat
    t.status.rangev = true ∧ (∀ k ∈ counted, le t.min k ∧ le k t.max) ∧
    (s.status.rangev = true → le t.min s.min ∧ le s.max t.max) ∧
    (t.min ∈ counted ∨ (s.status.rangev = true ∧ t.min = s.min)) ∧
    (t.max ∈ counted ∨ (s.status.rangev = true ∧ t.max = s.max))

/-- R290: EMIT writes its emission to OUTMEM when it fits, and otherwise KEY_DEPTH words of it before OUT_OVERFLOW with the value it
could not write. -/
def Obligations.EmitWritesEmission : Prop :=
  ∀ s : State, s.Safe →
    (s.status.built = false → exec .emit s = .next (s.takeFault .notBuilt 0)) ∧
    (s.status.built = true → s.emission.length ≤ s.params.keyDepth →
      ∃ t : State, exec .emit s = .next t ∧
        t = { s.complete with
          mem := t.mem, outlen := BitVec.ofNat 64 s.emission.length, res0 := BitVec.ofNat 64 s.emission.length,
          status := { s.status with outp := true, done := true } } ∧
        (∀ i < s.emission.length, s.emission[i]? = some (t.word .outmem i)) ∧
        ∀ a : Nat, ¬ (0x70000000 ≤ a ∧ a < 0x70000000 + 8 * s.emission.length) → readByte t.mem a = readByte s.mem a) ∧
    (s.status.built = true → s.params.keyDepth < s.emission.length →
      ∃ (t : State) (v : Word), exec .emit s = .next t ∧ s.emission[s.params.keyDepth]? = some v ∧
        t = { s with
          mem := t.mem, outlen := BitVec.ofNat 64 s.params.keyDepth, phase := .idle,
          status := { s.status with outp := true, fault := true },
          faultCode := .outOverflow, faultInfo := v, faultCmd := s.latch.word } ∧
        (∀ i < s.params.keyDepth, s.emission[i]? = some (t.word .outmem i)) ∧
        ∀ a : Nat, ¬ (0x70000000 ≤ a ∧ a < 0x70000000 + 8 * s.params.keyDepth) → readByte t.mem a = readByte s.mem a)

/-- R300: SORT over an absent input, and SORT.P over a present and empty one, answer without touching function or memory. -/
def Obligations.SortWithoutKeys : Prop :=
  ∀ s : State,
    exec (.sort false) s = .next { s.complete with
      status := { s.status with outp := false, done := true }, outlen := 0, res0 := 0 } ∧
    (s.latch.nkeys = 0 → exec (.sort true) s = .next { s.complete with
      status := { s.status with outp := true, done := true }, outlen := 0, res0 := 0 })

/-- R305, R300, R127: when its build can succeed SORT.P completes; and whenever it completes, OUTMEM holds the keys of KEYMEM in
non-decreasing order, each with its multiplicity, and OUTLEN is their number. The built function is the one BUILD.D builds, MIN and
MAX are the least and the greatest key, each slot holds the number of keys counted into it and their tag, the slots of no key are 0,
and every other byte is as BUILD.D leaves it. -/
def Obligations.SortIsSortedPermutation : Prop :=
  ∀ s : State, s.Inv → 1 ≤ s.latch.nkeys.toNat → s.status.fault = false →
    (s.CanBuild true → ∃ t : State, exec (.sort true) s = .next t ∧ t.status.fault = false) ∧
    ∀ t : State, exec (.sort true) s = .next t → t.status.fault = false →
      t = { s with
        mem := t.mem, scratch := t.scratch, phase := .idle,
        status := { s.status with built := true, rangev := true, outp := true, done := true },
        nlevels := t.nlevels, bnkeys := s.latch.nkeys, total := t.total, dups := t.dups, bvused := t.bvused,
        rankused := t.rankused, min := t.min, max := t.max, outlen := s.latch.nkeys, res0 := s.latch.nkeys,
        res1 := t.total } ∧
      let out := (List.range t.outlen.toNat).map (t.word .outmem)
      let ks := s.keys s.latch.nkeys.toNat
      let le := fun a b => less s.latch.signed b a = false
      out.Perm ks ∧ out.Pairwise le ∧
      t.min ∈ ks ∧ t.max ∈ ks ∧ (∀ k ∈ ks, le t.min k ∧ le k t.max) ∧
      (∀ j < ks.length, t.word .valmem j = BitVec.ofNat 64 (ks.filter fun k => decide ((t.indexOf k).toNat = j + 1)).length) ∧
      (∀ k ∈ ks, t.tagValid ((t.indexOf k).toNat - 1) = true ∧ t.tag ((t.indexOf k).toNat - 1) = k) ∧
      (∀ j < ks.length, (∀ k ∈ ks, (t.indexOf k).toNat ≠ j + 1) → t.word .tagmem (2 * j) = 0 ∧ t.word .tagmem (2 * j + 1) = 0) ∧
      ∃ b : State, exec (.build true) s = .next b ∧ b.status.built = true ∧ t.nlevels = b.nlevels ∧ t.total = b.total ∧
        t.dups = b.dups ∧ t.bvused = b.bvused ∧ t.rankused = b.rankused ∧
        ∀ a : Nat, ¬ (0x50000000 ≤ a ∧ a < 0x50000000 + 8 * ks.length) → ¬ (0x60000000 ≤ a ∧ a < 0x60000000 + 16 * ks.length) →
          ¬ (0x70000000 ≤ a ∧ a < 0x70000000 + 8 * ks.length) → readByte t.mem a = readByte b.mem a

/-- R306, R300: SORT.P faults only with BAD_ARG for too many keys, or with the CAPACITY or BUILD_DEPTH of its build, and leaves RES0
and RES1 as they were; the state it then leaves is the one BUILD.D leaves. -/
def Obligations.SortFaultsOnlyInItsBuild : Prop :=
  ∀ s t : State, s.Inv → s.status.fault = false → exec (.sort true) s = .next t → t.status.fault = true →
    exec (.build true) s = .next t ∧ t.faultCmd = s.latch.word ∧ t.res0 = s.res0 ∧ t.res1 = s.res1 ∧
    ((t.faultCode = .badArg ∧ s.params.keyDepth < s.latch.nkeys.toNat ∧ t.faultInfo = s.latch.nkeys) ∨
      ∃ x : Nat, s.buildFault true = some (t.faultCode, x) ∧ t.faultInfo = BitVec.ofNat 64 x ∧
        (t.faultCode = .capacity ∨ t.faultCode = .buildDepth))

/-! ### Rules over all commands -/

/-- R340: without a built function the eight commands that need one fault with NOT_BUILT, information 0, and nothing else. -/
def Obligations.NotBuiltFaults : Prop :=
  ∀ (s : State) (i : Instr), i ∈ [.query, .lookup, .set, .clrvals, .accum, .emit, .rank, .bitget] →
    s.status.built = false →
    exec i s = .next { s with faultCode := .notBuilt, faultInfo := 0, faultCmd := s.latch.word, phase := .idle,
                              status := { s.status with fault := true } }

/-- R333, R335, R343: a command that ends leaves the engine IDLE with exactly one of DONE and FAULT, REJ as it was, and on a
fault FAULT_CMD is the accepted word. -/
def Obligations.CommandEndsInExactlyOneWay : Prop :=
  ∀ (i : Instr) (s t : State), exec i s = .next t → s.status.done = false → s.status.fault = false →
    t.phase = .idle ∧ t.status.rej = s.status.rej ∧
    ((t.status.done = true ∧ t.status.fault = false ∧ t.faultCode = s.faultCode ∧ t.faultInfo = s.faultInfo ∧
        t.faultCmd = s.faultCmd) ∨
      (t.status.done = false ∧ t.status.fault = true ∧ t.faultCode ≠ .none ∧ t.faultCmd = s.latch.word))

/-- R32: a command that faults leaves RES0 and RES1 as they were, and so does every register its rule does not name: NOP, SET,
CLRVALS and INVAL write neither, LOOKUP, ACCUM, EMIT and BITGET do not write RES1. -/
def Obligations.ResultsOnlyOnCompletion : Prop :=
  ∀ (i : Instr) (s t : State), exec i s = .next t → s.status.fault = false →
    (t.status.fault = true → t.res0 = s.res0 ∧ t.res1 = s.res1) ∧
    (i ∈ [.nop, .set, .clrvals, .inval] → t.res0 = s.res0 ∧ t.res1 = s.res1) ∧
    (i ∈ [.lookup, .accum, .emit, .bitget, .sort false] → t.res1 = s.res1)

/-- R31, R40: the engine writes none of the host's registers, no parameter, no latch, and nothing outside the block. -/
def Obligations.EngineLeavesHostRegisters : Prop :=
  ∀ (i : Instr) (s t : State), exec i s = .next t →
    t.params = s.params ∧ t.ctrl = s.ctrl ∧ t.cmd = s.cmd ∧ t.nkeys = s.nkeys ∧ t.gamma = s.gamma ∧
    t.arg0 = s.arg0 ∧ t.arg1 = s.arg1 ∧ t.latch = s.latch ∧ t.inbox = s.inbox ∧ t.answer = s.answer ∧
    t.freeCount = s.freeCount

/-- R127, R60: a command changes no byte outside the words of the memories its row names; none writes KEYMEM. -/
def Obligations.CommandWritesOnlyItsMemories : Prop :=
  ∀ (i : Instr) (s t : State), exec i s = .next t →
    (∀ a : Nat, (∀ sp ∈ mayWrite i, a < sp.base ∨ sp.base + 8 * sp.words s.params ≤ a) →
      readByte t.mem a = readByte s.mem a) ∧
    (s.params.Wf → ∀ j < s.params.keyDepth, t.word .keymem j = s.word .keymem j)

/-- R70, R75: the scratch state is never read before it is written: another scratch state changes nothing but the scratch state
after the command. -/
def Obligations.HiddenScratchNeverRead : Prop :=
  ∀ (i : Instr) (s t : State) (sc : Scratch), exec i s = .next t →
    ∃ r : Scratch, exec i { s with scratch := sc } = .next { t with scratch := r }

/-- R67: after a successful BUILD, only another BUILD (also SORT.P's), INVAL or a reset changes the built function: its registers,
LVLTAB, BVMEM and RANKMEM. -/
def Obligations.BuiltFunctionImmutable : Prop :=
  ∀ s t : State, s.Inv → s.status.built = true → step s = .next t →
    (t.status.built = true ∧ t.nlevels = s.nlevels ∧ t.bnkeys = s.bnkeys ∧ t.total = s.total ∧ t.dups = s.dups ∧
      t.bvused = s.bvused ∧ t.rankused = s.rankused ∧
      ∀ a : Nat, (0x20000000 ≤ a ∧ a < 0x50000000) → readByte t.mem a = readByte s.mem a) ∨
    (s.EngineMoves ∧ ∃ i, decode s.latch.word = .ok i ∧ (i = .build false ∨ i = .build true ∨ i = .sort true ∨ i = .inval)) ∨
    (¬ s.EngineMoves ∧ ∃ p rest, s.inbox = p :: rest ∧ (p.act = .powerOn ∨ ∃ v, p.act = .write 0x40#32 v ∧ v.getLsbD 31 = true))

/-- R54: FAULT_CODE, FAULT_INFO and FAULT_CMD keep their values until the next fault or a reset. -/
def Obligations.FaultRegistersKept : Prop :=
  ∀ s t : State, s.Inv → step s = .next t →
    (t.faultCode = s.faultCode ∧ t.faultInfo = s.faultInfo ∧ t.faultCmd = s.faultCmd) ∨
    (s.EngineMoves ∧ t.status.fault = true ∧ t.faultCmd = s.latch.word) ∨
    (¬ s.EngineMoves ∧ ∃ p rest, s.inbox = p :: rest ∧ (p.act = .powerOn ∨ ∃ v, p.act = .write 0x40#32 v ∧ v.getLsbD 31 = true))

/-! ### The host bus -/

/-- R92: a read of any address changes nothing but the answer and the read's own place in the inbox. -/
def Obligations.ReadsHaveNoSideEffect : Prop :=
  ∀ (s : State) (a : Addr) (e : Nat) (rest : List Pending), s.inbox = { act := .read a, early := e } :: rest →
    (s.phase = .idle ∨ e ≠ 0) → ∃ r : Answer, step s = .next { s with inbox := rest, answer := some r }

/-- R84, R40: a read returns the register at its offset, R40's table written out (CTRL, STATUS and FAULT_CODE from
their fields, by R43, R44 and R340), or the word of a memory of an idle block. -/
def Obligations.BusReadReturnsAddressedWord : Prop :=
  ∀ s : State, s.params.Wf →
    (∀ e ∈ registerTable s, busRead e.1 s = { resp := .okay, data := e.2 }) ∧
    (s.phase = .idle → ∀ (sp : Space) (i : Nat), i < sp.words s.params →
      busRead (BitVec.ofNat 32 (sp.base + 8 * i)) s = { resp := .okay, data := s.word sp i })

/-- R85, R341: in exactly these cases a transaction answers SLVERR, with word 0 and no effect. -/
def Obligations.BusErrorsHaveNoEffect : Prop :=
  ∀ (s : State) (a : Addr) (v : Word), s.params.Wf →
    (BusError s a false → busRead a s = { resp := .slverr, data := 0 }) ∧
    (¬ BusError s a false → (busRead a s).resp = .okay) ∧
    (BusError s a true → busWrite a v s = (.slverr, s)) ∧
    (¬ BusError s a true → (busWrite a v s).1 = .okay)

/-- R84: on an idle block a word written to KEYMEM or VALMEM reads back, and no other byte of memory and no register changes. That
lane `k` of R90 is the byte at the word's address plus `k` is the model's layout (log 4, DEDUCED): no transaction shows it. -/
def Obligations.HostWriteReadsBack : Prop :=
  ∀ (s : State) (sp : Space) (i : Nat) (v : Word), s.params.Wf → memWf s.mem = true → s.phase = .idle →
    (sp = .keymem ∨ sp = .valmem) → i < sp.words s.params →
    ∃ t : State, busWrite (BitVec.ofNat 32 (sp.base + 8 * i)) v s = (.okay, t) ∧ t = { s with mem := t.mem } ∧
      busRead (BitVec.ofNat 32 (sp.base + 8 * i)) t = { resp := .okay, data := v } ∧
      (∀ k < 8, readByte t.mem (sp.base + 8 * i + k) = v.extractLsb' (8 * k) 8) ∧
      ∀ a : Nat, (a < sp.base + 8 * i ∨ sp.base + 8 * i + 8 ≤ a) → readByte t.mem a = readByte s.mem a

/-- R43, R44, R47, R31, R46: what a host write of a writable register does, and that nothing else changes. CTRL (with SRST = 0) and
GAMMA take legal values, of STATUS the bits DONE, FAULT and REJ are cleared where written as 1, reserved bits read 0; NKEYS, ARG0 and
ARG1 take every bit, also while a command runs. -/
def Obligations.ControlWritesReadBackLegal : Prop :=
  ∀ (s : State) (v : Word),
    let m := (v.extractLsb' 8 6).toNat
    let g := (v.extractLsb' 0 32).toNat
    (v.getLsbD 31 = false →
      busWrite 0x40#32 v s = (.okay, { s with ctrl := (busWrite 0x40#32 v s).2.ctrl }) ∧
      (busRead 0x40#32 (busWrite 0x40#32 v s).2).data.toNat =
        (v.extractLsb' 0 3).toNat + 256 * (if 1 ≤ m ∧ m ≤ 32 then m else 32)) ∧
    busWrite 0x60#32 v s = (.okay, { s with gamma := (busWrite 0x60#32 v s).2.gamma }) ∧
    (busRead 0x60#32 (busWrite 0x60#32 v s).2).data.toNat = (if 65536 ≤ g then g else 65536) ∧
    busWrite 0x58#32 v s = (.okay, { s with nkeys := v }) ∧
    busWrite 0x68#32 v s = (.okay, { s with arg0 := v }) ∧
    busWrite 0x70#32 v s = (.okay, { s with arg1 := v }) ∧
    busWrite 0x48#32 v s = (.okay, { s with status := (busWrite 0x48#32 v s).2.status }) ∧
    (∀ n < 64, n ≠ 7 → (busRead 0x48#32 (busWrite 0x48#32 v s).2).data.getLsbD n =
      ((busRead 0x48#32 s).data.getLsbD n && !((n = 1 ∨ n = 2 ∨ n = 6) && v.getLsbD n)))

/-- R40, R56: a write of a read-only register or a reserved offset is answered OKAY and ignored; a reserved offset reads as 0. -/
def Obligations.ReadOnlyAndReservedOffsets : Prop :=
  ∀ (s : State) (a : Addr) (v : Word), a.toNat < 0x1000 → a.toNat % 8 = 0 →
    (a.toNat ∉ [0x40, 0x48, 0x50, 0x58, 0x60, 0x68, 0x70] → busWrite a v s = (.okay, s)) ∧
    ((0x28 ≤ a.toNat ∧ a.toNat < 0x40) ∨ 0xE8 ≤ a.toNat → busRead a s = { resp := .okay, data := 0 })

/-- R350: the interrupt line, read as bit 7 of STATUS, is DONE and DONE_IE or FAULT and FAULT_IE, read from STATUS and CTRL. -/
def Obligations.InterruptLineFormula : Prop :=
  ∀ s : State,
    (Csr.read s .status).getLsbD 7 =
      (((Csr.read s .status).getLsbD 1 && (Csr.read s .ctrl).getLsbD 1) ||
        ((Csr.read s .status).getLsbD 2 && (Csr.read s .ctrl).getLsbD 2))

/-! ### Reset -/

/-- The control registers after power-on reset (R40, R75, R374); and a power-on reset of a machine that runs (R364, R370) leaves the
same, with the instance's own parameters, the engine IDLE and LVLTAB 0. That it keeps the parameters is log 20. -/
def Obligations.ResetRegisterValues : Prop :=
  (∀ c : Csr, Csr.read State.reset c =
    match c with
    | .id => 0x000000014D504846
    | .param0 => BitVec.ofNat 64 State.reset.params.keyDepth
    | .param1 => BitVec.ofNat 64 State.reset.params.bvWords
    | .param2 => BitVec.ofNat 64 State.reset.params.rankDepth
    | .param3 => BitVec.ofNat 64 State.reset.params.scratchBits
    | .ctrl => 0x2001
    | .gamma => 0x20000
    | _ => 0) ∧
  (∀ i < 128, State.reset.word .lvltab i = 0) ∧ State.reset.phase = .idle ∧ State.reset.irq = false ∧
  ∀ s : State,
    (∀ c : Csr, c ∉ [.param0, .param1, .param2, .param3] → Csr.read s.powerOn c = Csr.read State.reset c) ∧
    s.powerOn.params = s.params ∧ s.powerOn.phase = .idle ∧ s.powerOn.irq = false ∧
    ∀ i < 128, s.powerOn.word .lvltab i = 0

/-- R372, R75: a CTRL write with SRST = 1 leaves every register at its reset value, the engine IDLE and LVLTAB 0. No byte of any other
memory changes when no command runs, nor when an illegal word is abandoned; when a command is abandoned, none of the memories its
pseudocode does not name changes, so KEYMEM never does. A memory is named only where R127's row names it; that SORT frees its memories
whether P is 1 or 0 is log 10 (DEDUCED). -/
def Obligations.SoftResetRestoresRegisters : Prop :=
  ∀ (s : State) (v : Word), s.params.Wf → v.getLsbD 31 = true → ∃ t : State, busWrite 0x40#32 v s = (.okay, t) ∧
    t.params = s.params ∧ t.phase = .idle ∧ t.irq = false ∧ t.inbox = s.inbox ∧
    (∀ c : Csr, c ∉ [.param0, .param1, .param2, .param3] → Csr.read t c = Csr.read State.reset c) ∧
    (∀ i < 128, t.word .lvltab i = 0) ∧
    (∀ a : Nat, 0x10000000 ≤ a → a < 0x20000000 → readByte t.mem a = readByte s.mem a) ∧
    (s.phase = .idle → ∀ a : Nat, ¬ (0x40000000 ≤ a ∧ a < 0x40000400) → readByte t.mem a = readByte s.mem a) ∧
    ((∀ i, decode s.latch.word ≠ .ok i) →
      ∀ a : Nat, ¬ (0x40000000 ≤ a ∧ a < 0x40000400) → readByte t.mem a = readByte s.mem a) ∧
    (∀ i : Instr, decode s.latch.word = .ok i → ∀ sp : Space, sp ≠ .lvltab → sp ∉ writtenSpaces i →
      ∀ a : Nat, sp.base ≤ a → a < sp.base + 0x10000000 → readByte t.mem a = readByte s.mem a) ∧
    (∀ (i : Instr) (sp : Space), sp ∈ writtenSpaces i → sp ∈ mayWrite i ∨ ∃ p, i = .sort p ∧ sp ∈ mayWrite (.sort true))

/-- The state after power-on reset meets the invariant and is safe; its sizes and hidden values are the model's (logs 1, 5). -/
def Obligations.ResetIsSafe : Prop := State.reset.Safe

/-! ### Invariants -/

/-- Every step keeps the invariant: canonical memory, no byte outside the memories, legal MAXLVL and GAMMA, DONE and FAULT never
both 1, zero registers without a function, tag bits. -/
def Obligations.StepKeepsInvariant : Prop := ∀ s t : State, s.Inv → step s = .next t → t.Inv

/-- R95, R154: from a safe state a step never stops, and it leads to a safe state: no engine index is out of range, and every
built function stays well formed. -/
def Obligations.SafeStepNeverStops : Prop := ∀ s : State, s.Safe → ∃ t : State, step s = .next t ∧ t.Safe

/-- R386, R390: from a safe state with a command running, the engine is IDLE again after at most as many steps as the inbox can put
before the engine, plus one. The inbox is the model's form of the weak fairness (log 7), one step a command is log 6. -/
def Obligations.RunningCommandEnds : Prop :=
  ∀ s : State, s.Safe → s.phase = .busy →
    ∃ k ≤ (s.inbox.map fun p => p.early + 1).sum + 1, ∃ t : State, core.run k s = .next t ∧ t.phase = .idle
end

