-- ==== Sys2Proof/Laws/Sparse.lean ====
section
/-!
SUPPORT. Sparse storage: reading after a store and after clearing, and the canonical form, kept by both and determining the list.
-/
namespace Sys2Proof.Machine.Sparse

variable {α : Type}

@[simp] theorem get_nil (d : α) (a : Nat) : get d [] a = d := rfl

theorem get_cons (d : α) (b : Nat) (v : α) (m : List (Nat × α)) (a : Nat) :
    get d ((b, v) :: m) a = if a = b then v else get d m a := rfl

/-! ### The canonical form as a proposition -/

/-- Positions strictly rise and no entry holds the default. -/
def Canonical (d : α) (m : List (Nat × α)) : Prop :=
  m.Pairwise (fun x y => x.1 < y.1) ∧ ∀ e ∈ m, e.2 ≠ d

theorem rising_some {lo : Nat} {m : List (Nat × α)} :
    rising (some lo) m = true ↔ (∀ e ∈ m, lo < e.1) ∧ m.Pairwise (fun x y => x.1 < y.1) := by
  induction m generalizing lo with
  | nil => simp [rising]
  | cons e m ih =>
    obtain ⟨b, v⟩ := e
    simp only [rising, Bool.and_eq_true, decide_eq_true_eq, ih, List.mem_cons, forall_eq_or_imp, List.pairwise_cons]
    constructor
    · rintro ⟨h, h1, h2⟩
      exact ⟨⟨h, fun e he => h.trans (h1 e he)⟩, h1, h2⟩
    · rintro ⟨⟨h, -⟩, h1, h2⟩
      exact ⟨h, h1, h2⟩

variable [DecidableEq α]

omit [DecidableEq α] in
theorem rising_none {m : List (Nat × α)} : rising none m = true ↔ m.Pairwise (fun x y => x.1 < y.1) := by
  cases m with
  | nil => simp [rising]
  | cons e m =>
    obtain ⟨b, v⟩ := e
    simp [rising, rising_some]

theorem wf_iff {d : α} {m : List (Nat × α)} : wf d m = true ↔ Canonical d m := by
  simp [wf, Canonical, rising_none]

/-! ### Reading -/

omit [DecidableEq α] in
/-- A position that no entry lists holds the default. -/
theorem get_of_not_mem {d : α} {m : List (Nat × α)} {a : Nat} (h : ∀ e ∈ m, e.1 ≠ a) : get d m a = d := by
  induction m with
  | nil => rfl
  | cons e m ih =>
    obtain ⟨b, v⟩ := e
    rw [get_cons, if_neg (fun hab => h (b, v) (by simp) hab.symm)]
    exact ih fun e he => h e (by simp [he])

omit [DecidableEq α] in
/-- Every entry of a canonical list is what its position reads as. -/
theorem get_of_mem {d : α} {m : List (Nat × α)} (hm : Canonical d m) {e : Nat × α} (he : e ∈ m) : get d m e.1 = e.2 := by
  induction m with
  | nil => simp at he
  | cons f m ih =>
    obtain ⟨b, v⟩ := f
    obtain ⟨hp, hd⟩ := hm
    rw [List.pairwise_cons] at hp
    rcases List.mem_cons.1 he with rfl | he'
    · simp [get_cons]
    · have hlt : b < e.1 := hp.1 e he'
      rw [get_cons, if_neg (by omega)]
      exact ih ⟨hp.2, fun e he => hd e (by simp [he])⟩ he'

theorem get_put_same (d : α) (m : List (Nat × α)) (a : Nat) (v : α) (hm : Canonical d m) : get d (put d m a v) a = v := by
  induction m with
  | nil =>
    unfold put
    split
    · simp [*]
    · simp [get_cons]
  | cons e m ih =>
    obtain ⟨b, w⟩ := e
    have htail : ∀ x ∈ m, b < x.1 := (List.pairwise_cons.1 hm.1).1
    have hrest : Canonical d m := ⟨(List.pairwise_cons.1 hm.1).2, fun e he => hm.2 e (by simp [he])⟩
    unfold put
    split_ifs with h1 h2 h3 h4
    · rw [get_cons, if_neg (by omega), h2]
      exact get_of_not_mem fun e he => by have := htail e he; omega
    · simp [get_cons]
    · subst h3
      rw [h4]
      exact get_of_not_mem fun e he => by have := htail e he; omega
    · simp [get_cons]
    · rw [get_cons, if_neg h3]
      exact ih hrest

theorem get_put_of_ne (d : α) (m : List (Nat × α)) {a b : Nat} (v : α) (h : b ≠ a) :
    get d (put d m a v) b = get d m b := by
  induction m with
  | nil =>
    unfold put
    split
    · rfl
    · simp [get_cons, h]
  | cons e m ih =>
    obtain ⟨c, w⟩ := e
    unfold put
    split_ifs with h1 h2 h3 h4
    · rfl
    · simp [get_cons, h]
    · subst h3
      simp [get_cons, h]
    · subst h3
      simp [get_cons, h]
    · simp only [get_cons, ih]

omit [DecidableEq α] in
theorem get_clear (d : α) (m : List (Nat × α)) (lo hi a : Nat) :
    get d (clear m lo hi) a = if lo ≤ a ∧ a < hi then d else get d m a := by
  induction m with
  | nil => simp [clear]
  | cons e m ih =>
    obtain ⟨b, v⟩ := e
    unfold clear at ih ⊢
    by_cases hb : lo ≤ b ∧ b < hi
    · rw [List.filter_cons_of_neg (by simp [hb.1, hb.2]), ih, get_cons]
      split_ifs with h1 h2 <;> first | rfl | (subst h2; exact absurd hb h1)
    · rw [List.filter_cons_of_pos (by simp; omega), get_cons, ih, get_cons]
      split_ifs with h1 h2 <;> first | rfl | (subst h1; exact absurd h2 hb)

/-! ### The canonical form is kept -/

/-- The entries after a store are old entries or the stored one, and the stored one is no default. -/
theorem mem_put {d : α} {m : List (Nat × α)} {a : Nat} {v : α} {e : Nat × α} (he : e ∈ put d m a v) :
    e ∈ m ∨ (e = (a, v) ∧ v ≠ d) := by
  induction m with
  | nil =>
    unfold put at he
    split at he
    · simp at he
    · exact .inr ⟨by simpa using he, ‹_›⟩
  | cons f m ih =>
    obtain ⟨b, w⟩ := f
    unfold put at he
    split_ifs at he with h1 h2 h3 h4
    · exact .inl he
    · rcases List.mem_cons.1 he with rfl | he
      · exact .inr ⟨rfl, h2⟩
      · exact .inl he
    · exact .inl (by simp [he])
    · rcases List.mem_cons.1 he with rfl | he
      · exact .inr ⟨rfl, h4⟩
      · exact .inl (by simp [he])
    · rcases List.mem_cons.1 he with rfl | he
      · exact .inl (by simp)
      · rcases ih he with h | h
        · exact .inl (by simp [h])
        · exact .inr h

theorem canonical_put {d : α} {m : List (Nat × α)} (hm : Canonical d m) (a : Nat) (v : α) :
    Canonical d (put d m a v) := by
  refine ⟨?_, fun e he => ?_⟩
  · induction m with
    | nil =>
      unfold put
      split <;> simp
    | cons f m ih =>
      obtain ⟨b, w⟩ := f
      obtain ⟨hp, hd⟩ := hm
      rw [List.pairwise_cons] at hp
      have hrest : Canonical d m := ⟨hp.2, fun e he => hd e (by simp [he])⟩
      unfold put
      split_ifs with h1 h2 h3 h4
      · exact List.pairwise_cons.2 hp
      · refine List.pairwise_cons.2 ⟨fun e he => ?_, List.pairwise_cons.2 hp⟩
        rcases List.mem_cons.1 he with rfl | he
        · exact h1
        · exact h1.trans (hp.1 e he)
      · exact hp.2
      · subst h3
        exact List.pairwise_cons.2 hp
      · refine List.pairwise_cons.2 ⟨fun e he => ?_, ih hrest⟩
        rcases mem_put he with h | ⟨rfl, -⟩
        · exact hp.1 e h
        · show b < a
          omega
  · rcases mem_put he with h | ⟨rfl, h⟩
    · exact hm.2 e h
    · exact h

omit [DecidableEq α] in
theorem canonical_clear {d : α} {m : List (Nat × α)} (hm : Canonical d m) (lo hi : Nat) : Canonical d (clear m lo hi) :=
  ⟨hm.1.filter _, fun e he => hm.2 e (List.mem_filter.1 he).1⟩

theorem wf_nil (d : α) : wf d ([] : List (Nat × α)) = true := rfl

theorem wf_put {d : α} {m : List (Nat × α)} (hm : wf d m = true) (a : Nat) (v : α) : wf d (put d m a v) = true :=
  wf_iff.2 (canonical_put (wf_iff.1 hm) a v)

theorem wf_clear {d : α} {m : List (Nat × α)} (hm : wf d m = true) (lo hi : Nat) : wf d (clear m lo hi) = true :=
  wf_iff.2 (canonical_clear (wf_iff.1 hm) lo hi)

omit [DecidableEq α] in
/-- Two canonical lists that read the same everywhere are the same list. -/
theorem eq_of_get_eq {d : α} {m n : List (Nat × α)} (hm : Canonical d m) (hn : Canonical d n)
    (h : ∀ a, get d m a = get d n a) : m = n := by
  induction m generalizing n with
  | nil =>
    cases n with
    | nil => rfl
    | cons e n =>
      have := h e.1
      rw [get_of_mem hn (by simp)] at this
      exact absurd this.symm (hn.2 e (by simp))
  | cons e m ih =>
    cases n with
    | nil =>
      have := h e.1
      rw [get_of_mem hm (by simp)] at this
      exact absurd this (hm.2 e (by simp))
    | cons f n =>
      have hm1 := List.pairwise_cons.1 hm.1
      have hn1 := List.pairwise_cons.1 hn.1
      have hef : e.1 = f.1 := by
        rcases lt_trichotomy e.1 f.1 with hlt | heq | hgt
        · have h1 := h e.1
          rw [get_of_mem hm (by simp), get_of_not_mem (m := f :: n) (fun x hx => by
            rcases List.mem_cons.1 hx with rfl | hx
            · omega
            · have := hn1.1 x hx; omega)] at h1
          exact absurd h1 (hm.2 e (by simp))
        · exact heq
        · have h1 := h f.1
          rw [get_of_mem hn (by simp), get_of_not_mem (m := e :: m) (fun x hx => by
            rcases List.mem_cons.1 hx with rfl | hx
            · omega
            · have := hm1.1 x hx; omega)] at h1
          exact absurd h1.symm (hn.2 f (by simp))
      have hval : e.2 = f.2 := by
        have h1 := h e.1
        rwa [get_of_mem hm (by simp), hef, get_of_mem hn (by simp)] at h1
      have htail : m = n := by
        refine ih ⟨hm1.2, fun x hx => hm.2 x (by simp [hx])⟩ ⟨hn1.2, fun x hx => hn.2 x (by simp [hx])⟩ fun a => ?_
        have h1 := h a
        by_cases ha : a = e.1
        · rw [get_of_not_mem fun x hx => by have := hm1.1 x hx; omega,
            get_of_not_mem fun x hx => by have := hn1.1 x hx; omega]
        · obtain ⟨b, v⟩ := e
          obtain ⟨c, w⟩ := f
          simp only [get_cons] at h1
          have hbc : b = c := hef
          rwa [if_neg ha, if_neg (hbc ▸ ha)] at h1
      rw [Prod.ext hef hval, htail]

end Sys2Proof.Machine.Sparse
end

