-- ==== Sys2Proof/Laws/Memory.lean ====
section
/-!
SUPPORT. The memory: bytes and words after a store or a zeroing, the canonical form, and the address map (20_memory.md R84, R90).
-/
namespace Sys2Proof.Machine

/-! ### Bytes -/

theorem readByte_writeByte_same {m : List Host.Cell} (hm : memWf m = true) (a : Nat) (v : Byte) :
    readByte (writeByte m a v) a = v := Sparse.get_put_same _ _ _ _ (Sparse.wf_iff.1 hm)

theorem readByte_writeByte_of_ne (m : List Host.Cell) {a b : Nat} (v : Byte) (h : b ≠ a) :
    readByte (writeByte m a v) b = readByte m b := Sparse.get_put_of_ne _ _ _ h

theorem memWf_writeByte {m : List Host.Cell} (hm : memWf m = true) (a : Nat) (v : Byte) :
    memWf (writeByte m a v) = true := Sparse.wf_put hm a v

/-- Equal bytes everywhere make equal memories. -/
theorem mem_ext {m n : List Host.Cell} (hm : memWf m = true) (hn : memWf n = true)
    (h : ∀ a, readByte m a = readByte n a) : m = n :=
  Sparse.eq_of_get_eq (Sparse.wf_iff.1 hm) (Sparse.wf_iff.1 hn) h

/-! ### Words -/

theorem writeWord_eq (m : List Host.Cell) (a : Nat) (w : Word) :
    writeWord m a w =
      writeByte (writeByte (writeByte (writeByte (writeByte (writeByte (writeByte (writeByte m (a + 0) (lane w 0))
        (a + 1) (lane w 1)) (a + 2) (lane w 2)) (a + 3) (lane w 3)) (a + 4) (lane w 4)) (a + 5) (lane w 5))
        (a + 6) (lane w 6)) (a + 7) (lane w 7) := rfl

theorem memWf_writeWord {m : List Host.Cell} (hm : memWf m = true) (a : Nat) (w : Word) :
    memWf (writeWord m a w) = true := by
  rw [writeWord_eq]
  iterate 8 apply memWf_writeByte
  exact hm

theorem memWf_zeroWords {m : List Host.Cell} (hm : memWf m = true) (a n : Nat) : memWf (zeroWords m a n) = true :=
  Sparse.wf_clear hm _ _

/-- A byte outside a stored word is as before. -/
theorem readByte_writeWord_of_outside (m : List Host.Cell) {a b : Nat} (w : Word) (h : b < a ∨ a + 8 ≤ b) :
    readByte (writeWord m a w) b = readByte m b := by
  rw [writeWord_eq]
  iterate 8 rw [readByte_writeByte_of_ne _ _ (by omega)]

/-- Byte `k` of a stored word is its lane `k` (R90). -/
theorem readByte_writeWord_lane {m : List Host.Cell} (hm : memWf m = true) (a : Nat) (w : Word) {k : Nat} (hk : k < 8) :
    readByte (writeWord m a w) (a + k) = lane w k := by
  rw [writeWord_eq]
  have h : ∀ (m : List Host.Cell) (j : Nat) (v : Byte), j ≠ k →
      readByte (writeByte m (a + j) v) (a + k) = readByte m (a + k) :=
    fun m j v hj => readByte_writeByte_of_ne m v (by omega)
  have wf := fun (m : List Host.Cell) (hm : memWf m = true) (j : Nat) (v : Byte) => memWf_writeByte hm (a + j) v
  interval_cases k
  all_goals
    repeat rw [h _ _ _ (by decide)]
    apply readByte_writeByte_same
    repeat apply wf
    exact hm

/-- The eight lanes of a word, put together, are the word. -/
theorem lanes_append (w : Word) :
    lane w 7 ++ lane w 6 ++ lane w 5 ++ lane w 4 ++ lane w 3 ++ lane w 2 ++ lane w 1 ++ lane w 0 = w := by
  apply BitVec.eq_of_getLsbD_eq
  intro i hi
  simp only [lane, BitVec.getLsbD_append, BitVec.getLsbD_extractLsb']
  split_ifs
  all_goals
    rw [decide_eq_true (by omega), Bool.true_and]
    congr 1
    omega

theorem readWord_writeWord_same {m : List Host.Cell} (hm : memWf m = true) (a : Nat) (w : Word) :
    readWord (writeWord m a w) a = w := by
  have h0 := readByte_writeWord_lane hm a w (k := 0) (by decide)
  simp only [Nat.add_zero] at h0
  unfold readWord
  rw [h0, readByte_writeWord_lane hm a w (by decide), readByte_writeWord_lane hm a w (by decide),
    readByte_writeWord_lane hm a w (by decide), readByte_writeWord_lane hm a w (by decide),
    readByte_writeWord_lane hm a w (by decide), readByte_writeWord_lane hm a w (by decide),
    readByte_writeWord_lane hm a w (by decide), lanes_append]

/-- Words that are byte for byte the same are the same. -/
theorem readWord_congr {m n : List Host.Cell} {a b : Nat} (h : ∀ k < 8, readByte m (a + k) = readByte n (b + k)) :
    readWord m a = readWord n b := by
  have h0 := h 0 (by decide)
  simp only [Nat.add_zero] at h0
  unfold readWord
  rw [h0, h 1 (by decide), h 2 (by decide), h 3 (by decide), h 4 (by decide), h 5 (by decide), h 6 (by decide),
    h 7 (by decide)]

theorem readWord_writeWord_of_disjoint (m : List Host.Cell) {a b : Nat} (w : Word) (h : b + 8 ≤ a ∨ a + 8 ≤ b) :
    readWord (writeWord m a w) b = readWord m b :=
  readWord_congr fun k hk => readByte_writeWord_of_outside m w (by omega)

theorem readByte_zeroWords (m : List Host.Cell) (a n b : Nat) :
    readByte (zeroWords m a n) b = if a ≤ b ∧ b < a + 8 * n then 0 else readByte m b := Sparse.get_clear _ _ _ _ _

theorem readWord_zeroWords_inside (m : List Host.Cell) {a n b : Nat} (h1 : a ≤ b) (h2 : b + 8 ≤ a + 8 * n) :
    readWord (zeroWords m a n) b = 0 := by
  have h : ∀ k < 8, readByte (zeroWords m a n) (b + k) = 0 := fun k hk => by
    rw [readByte_zeroWords, if_pos (by omega)]
  have h0 := h 0 (by decide)
  simp only [Nat.add_zero] at h0
  unfold readWord
  rw [h0, h 1 (by decide), h 2 (by decide), h 3 (by decide), h 4 (by decide), h 5 (by decide), h 6 (by decide),
    h 7 (by decide)]
  decide

theorem readWord_zeroWords_of_outside (m : List Host.Cell) {a n b : Nat} (h : b + 8 ≤ a ∨ a + 8 * n ≤ b) :
    readWord (zeroWords m a n) b = readWord m b :=
  readWord_congr fun k hk => by rw [readByte_zeroWords, if_neg (by omega)]

/-! ### The address map -/

/-- Every memory fits in its aperture (R9, R84). -/
theorem Space.words_le {p : Params} (hp : p.Wf) (sp : Space) : sp.words p ≤ 2 ^ 25 := by
  obtain ⟨h1, h2, h3, -⟩ := hp
  cases sp <;> simp only [Space.words] <;> omega

/-- The bytes of a word of a memory lie in the memory's aperture. -/
theorem Space.addr_bounds {p : Params} (hp : p.Wf) {sp : Space} {i : Nat} (hi : i < sp.words p) :
    sp.base ≤ sp.addr i ∧ sp.addr i + 8 ≤ sp.base + 0x10000000 := by
  have := sp.words_le hp
  simp only [Space.addr]
  omega

/-- Apertures do not overlap (R84). -/
theorem Space.base_apart {sp sq : Space} (h : sp ≠ sq) :
    sp.base + 0x10000000 ≤ sq.base ∨ sq.base + 0x10000000 ≤ sp.base := by
  cases sp <;> cases sq <;> first | exact absurd rfl h | decide

/-- Different words of the memories share no byte. -/
theorem Space.addr_apart {p : Params} (hp : p.Wf) {sp sq : Space} {i j : Nat} (hi : i < sp.words p) (hj : j < sq.words p)
    (h : sp ≠ sq ∨ i ≠ j) : sp.addr i + 8 ≤ sq.addr j ∨ sq.addr j + 8 ≤ sp.addr i := by
  by_cases hs : sp = sq
  · subst hs
    have : i ≠ j := h.resolve_left (by simp)
    simp only [Space.addr]
    omega
  · have h1 := Space.addr_bounds hp hi
    have h2 := Space.addr_bounds hp hj
    have := Space.base_apart hs
    omega

end Sys2Proof.Machine
end

