-- ==== Sys2Proof/Laws/State.lean ====
section
/-!
SUPPORT. What each named update of the state does to each field: one lemma a field, so that no proof unfolds a record update.
-/
namespace Sys2Proof.Machine

/-! ### Completion (60_exceptions.md R333) -/

@[simp] theorem State.complete_params (s : State) : s.complete.params = s.params := rfl
@[simp] theorem State.complete_ctrl (s : State) : s.complete.ctrl = s.ctrl := rfl
@[simp] theorem State.complete_status (s : State) : s.complete.status = { s.status with done := true } := rfl
@[simp] theorem State.complete_phase (s : State) : s.complete.phase = .idle := rfl
@[simp] theorem State.complete_cmd (s : State) : s.complete.cmd = s.cmd := rfl
@[simp] theorem State.complete_nkeys (s : State) : s.complete.nkeys = s.nkeys := rfl
@[simp] theorem State.complete_gamma (s : State) : s.complete.gamma = s.gamma := rfl
@[simp] theorem State.complete_arg0 (s : State) : s.complete.arg0 = s.arg0 := rfl
@[simp] theorem State.complete_arg1 (s : State) : s.complete.arg1 = s.arg1 := rfl
@[simp] theorem State.complete_res0 (s : State) : s.complete.res0 = s.res0 := rfl
@[simp] theorem State.complete_res1 (s : State) : s.complete.res1 = s.res1 := rfl
@[simp] theorem State.complete_nlevels (s : State) : s.complete.nlevels = s.nlevels := rfl
@[simp] theorem State.complete_bnkeys (s : State) : s.complete.bnkeys = s.bnkeys := rfl
@[simp] theorem State.complete_total (s : State) : s.complete.total = s.total := rfl
@[simp] theorem State.complete_dups (s : State) : s.complete.dups = s.dups := rfl
@[simp] theorem State.complete_min (s : State) : s.complete.min = s.min := rfl
@[simp] theorem State.complete_max (s : State) : s.complete.max = s.max := rfl
@[simp] theorem State.complete_outlen (s : State) : s.complete.outlen = s.outlen := rfl
@[simp] theorem State.complete_faultCode (s : State) : s.complete.faultCode = s.faultCode := rfl
@[simp] theorem State.complete_faultInfo (s : State) : s.complete.faultInfo = s.faultInfo := rfl
@[simp] theorem State.complete_faultCmd (s : State) : s.complete.faultCmd = s.faultCmd := rfl
@[simp] theorem State.complete_bvused (s : State) : s.complete.bvused = s.bvused := rfl
@[simp] theorem State.complete_rankused (s : State) : s.complete.rankused = s.rankused := rfl
@[simp] theorem State.complete_latch (s : State) : s.complete.latch = s.latch := rfl
@[simp] theorem State.complete_scratch (s : State) : s.complete.scratch = s.scratch := rfl
@[simp] theorem State.complete_mem (s : State) : s.complete.mem = s.mem := rfl
@[simp] theorem State.complete_inbox (s : State) : s.complete.inbox = s.inbox := rfl
@[simp] theorem State.complete_answer (s : State) : s.complete.answer = s.answer := rfl
@[simp] theorem State.complete_freeCount (s : State) : s.complete.freeCount = s.freeCount := rfl

/-! ### Raising a fault (R335) -/

@[simp] theorem State.takeFault_params (s : State) (c : FaultCode) (i : Word) : (s.takeFault c i).params = s.params := rfl
@[simp] theorem State.takeFault_ctrl (s : State) (c : FaultCode) (i : Word) : (s.takeFault c i).ctrl = s.ctrl := rfl
@[simp] theorem State.takeFault_status (s : State) (c : FaultCode) (i : Word) : (s.takeFault c i).status = { s.status with fault := true } := rfl
@[simp] theorem State.takeFault_phase (s : State) (c : FaultCode) (i : Word) : (s.takeFault c i).phase = .idle := rfl
@[simp] theorem State.takeFault_cmd (s : State) (c : FaultCode) (i : Word) : (s.takeFault c i).cmd = s.cmd := rfl
@[simp] theorem State.takeFault_nkeys (s : State) (c : FaultCode) (i : Word) : (s.takeFault c i).nkeys = s.nkeys := rfl
@[simp] theorem State.takeFault_gamma (s : State) (c : FaultCode) (i : Word) : (s.takeFault c i).gamma = s.gamma := rfl
@[simp] theorem State.takeFault_arg0 (s : State) (c : FaultCode) (i : Word) : (s.takeFault c i).arg0 = s.arg0 := rfl
@[simp] theorem State.takeFault_arg1 (s : State) (c : FaultCode) (i : Word) : (s.takeFault c i).arg1 = s.arg1 := rfl
@[simp] theorem State.takeFault_res0 (s : State) (c : FaultCode) (i : Word) : (s.takeFault c i).res0 = s.res0 := rfl
@[simp] theorem State.takeFault_res1 (s : State) (c : FaultCode) (i : Word) : (s.takeFault c i).res1 = s.res1 := rfl
@[simp] theorem State.takeFault_nlevels (s : State) (c : FaultCode) (i : Word) : (s.takeFault c i).nlevels = s.nlevels := rfl
@[simp] theorem State.takeFault_bnkeys (s : State) (c : FaultCode) (i : Word) : (s.takeFault c i).bnkeys = s.bnkeys := rfl
@[simp] theorem State.takeFault_total (s : State) (c : FaultCode) (i : Word) : (s.takeFault c i).total = s.total := rfl
@[simp] theorem State.takeFault_dups (s : State) (c : FaultCode) (i : Word) : (s.takeFault c i).dups = s.dups := rfl
@[simp] theorem State.takeFault_min (s : State) (c : FaultCode) (i : Word) : (s.takeFault c i).min = s.min := rfl
@[simp] theorem State.takeFault_max (s : State) (c : FaultCode) (i : Word) : (s.takeFault c i).max = s.max := rfl
@[simp] theorem State.takeFault_outlen (s : State) (c : FaultCode) (i : Word) : (s.takeFault c i).outlen = s.outlen := rfl
@[simp] theorem State.takeFault_faultCode (s : State) (c : FaultCode) (i : Word) : (s.takeFault c i).faultCode = c := rfl
@[simp] theorem State.takeFault_faultInfo (s : State) (c : FaultCode) (i : Word) : (s.takeFault c i).faultInfo = i := rfl
@[simp] theorem State.takeFault_faultCmd (s : State) (c : FaultCode) (i : Word) : (s.takeFault c i).faultCmd = s.latch.word := rfl
@[simp] theorem State.takeFault_bvused (s : State) (c : FaultCode) (i : Word) : (s.takeFault c i).bvused = s.bvused := rfl
@[simp] theorem State.takeFault_rankused (s : State) (c : FaultCode) (i : Word) : (s.takeFault c i).rankused = s.rankused := rfl
@[simp] theorem State.takeFault_latch (s : State) (c : FaultCode) (i : Word) : (s.takeFault c i).latch = s.latch := rfl
@[simp] theorem State.takeFault_scratch (s : State) (c : FaultCode) (i : Word) : (s.takeFault c i).scratch = s.scratch := rfl
@[simp] theorem State.takeFault_mem (s : State) (c : FaultCode) (i : Word) : (s.takeFault c i).mem = s.mem := rfl
@[simp] theorem State.takeFault_inbox (s : State) (c : FaultCode) (i : Word) : (s.takeFault c i).inbox = s.inbox := rfl
@[simp] theorem State.takeFault_answer (s : State) (c : FaultCode) (i : Word) : (s.takeFault c i).answer = s.answer := rfl
@[simp] theorem State.takeFault_freeCount (s : State) (c : FaultCode) (i : Word) : (s.takeFault c i).freeCount = s.freeCount := rfl

/-! ### A host write of STATUS (10_state.md R44) -/

@[simp] theorem State.writeStatus_params (s : State) (v : Word) : (s.writeStatus v).params = s.params := rfl
@[simp] theorem State.writeStatus_ctrl (s : State) (v : Word) : (s.writeStatus v).ctrl = s.ctrl := rfl
@[simp] theorem State.writeStatus_status (s : State) (v : Word) : (s.writeStatus v).status = s.status.clearOnes v := rfl
@[simp] theorem State.writeStatus_phase (s : State) (v : Word) : (s.writeStatus v).phase = s.phase := rfl
@[simp] theorem State.writeStatus_cmd (s : State) (v : Word) : (s.writeStatus v).cmd = s.cmd := rfl
@[simp] theorem State.writeStatus_nkeys (s : State) (v : Word) : (s.writeStatus v).nkeys = s.nkeys := rfl
@[simp] theorem State.writeStatus_gamma (s : State) (v : Word) : (s.writeStatus v).gamma = s.gamma := rfl
@[simp] theorem State.writeStatus_arg0 (s : State) (v : Word) : (s.writeStatus v).arg0 = s.arg0 := rfl
@[simp] theorem State.writeStatus_arg1 (s : State) (v : Word) : (s.writeStatus v).arg1 = s.arg1 := rfl
@[simp] theorem State.writeStatus_res0 (s : State) (v : Word) : (s.writeStatus v).res0 = s.res0 := rfl
@[simp] theorem State.writeStatus_res1 (s : State) (v : Word) : (s.writeStatus v).res1 = s.res1 := rfl
@[simp] theorem State.writeStatus_nlevels (s : State) (v : Word) : (s.writeStatus v).nlevels = s.nlevels := rfl
@[simp] theorem State.writeStatus_bnkeys (s : State) (v : Word) : (s.writeStatus v).bnkeys = s.bnkeys := rfl
@[simp] theorem State.writeStatus_total (s : State) (v : Word) : (s.writeStatus v).total = s.total := rfl
@[simp] theorem State.writeStatus_dups (s : State) (v : Word) : (s.writeStatus v).dups = s.dups := rfl
@[simp] theorem State.writeStatus_min (s : State) (v : Word) : (s.writeStatus v).min = s.min := rfl
@[simp] theorem State.writeStatus_max (s : State) (v : Word) : (s.writeStatus v).max = s.max := rfl
@[simp] theorem State.writeStatus_outlen (s : State) (v : Word) : (s.writeStatus v).outlen = s.outlen := rfl
@[simp] theorem State.writeStatus_faultCode (s : State) (v : Word) : (s.writeStatus v).faultCode = s.faultCode := rfl
@[simp] theorem State.writeStatus_faultInfo (s : State) (v : Word) : (s.writeStatus v).faultInfo = s.faultInfo := rfl
@[simp] theorem State.writeStatus_faultCmd (s : State) (v : Word) : (s.writeStatus v).faultCmd = s.faultCmd := rfl
@[simp] theorem State.writeStatus_bvused (s : State) (v : Word) : (s.writeStatus v).bvused = s.bvused := rfl
@[simp] theorem State.writeStatus_rankused (s : State) (v : Word) : (s.writeStatus v).rankused = s.rankused := rfl
@[simp] theorem State.writeStatus_latch (s : State) (v : Word) : (s.writeStatus v).latch = s.latch := rfl
@[simp] theorem State.writeStatus_scratch (s : State) (v : Word) : (s.writeStatus v).scratch = s.scratch := rfl
@[simp] theorem State.writeStatus_mem (s : State) (v : Word) : (s.writeStatus v).mem = s.mem := rfl
@[simp] theorem State.writeStatus_inbox (s : State) (v : Word) : (s.writeStatus v).inbox = s.inbox := rfl
@[simp] theorem State.writeStatus_answer (s : State) (v : Word) : (s.writeStatus v).answer = s.answer := rfl
@[simp] theorem State.writeStatus_freeCount (s : State) (v : Word) : (s.writeStatus v).freeCount = s.freeCount := rfl

/-! ### A stored word -/

@[simp] theorem State.setWord_params (s : State) (sp : Space) (i : Nat) (v : Word) : (s.setWord sp i v).params = s.params := rfl
@[simp] theorem State.setWord_ctrl (s : State) (sp : Space) (i : Nat) (v : Word) : (s.setWord sp i v).ctrl = s.ctrl := rfl
@[simp] theorem State.setWord_status (s : State) (sp : Space) (i : Nat) (v : Word) : (s.setWord sp i v).status = s.status := rfl
@[simp] theorem State.setWord_phase (s : State) (sp : Space) (i : Nat) (v : Word) : (s.setWord sp i v).phase = s.phase := rfl
@[simp] theorem State.setWord_cmd (s : State) (sp : Space) (i : Nat) (v : Word) : (s.setWord sp i v).cmd = s.cmd := rfl
@[simp] theorem State.setWord_nkeys (s : State) (sp : Space) (i : Nat) (v : Word) : (s.setWord sp i v).nkeys = s.nkeys := rfl
@[simp] theorem State.setWord_gamma (s : State) (sp : Space) (i : Nat) (v : Word) : (s.setWord sp i v).gamma = s.gamma := rfl
@[simp] theorem State.setWord_arg0 (s : State) (sp : Space) (i : Nat) (v : Word) : (s.setWord sp i v).arg0 = s.arg0 := rfl
@[simp] theorem State.setWord_arg1 (s : State) (sp : Space) (i : Nat) (v : Word) : (s.setWord sp i v).arg1 = s.arg1 := rfl
@[simp] theorem State.setWord_res0 (s : State) (sp : Space) (i : Nat) (v : Word) : (s.setWord sp i v).res0 = s.res0 := rfl
@[simp] theorem State.setWord_res1 (s : State) (sp : Space) (i : Nat) (v : Word) : (s.setWord sp i v).res1 = s.res1 := rfl
@[simp] theorem State.setWord_nlevels (s : State) (sp : Space) (i : Nat) (v : Word) : (s.setWord sp i v).nlevels = s.nlevels := rfl
@[simp] theorem State.setWord_bnkeys (s : State) (sp : Space) (i : Nat) (v : Word) : (s.setWord sp i v).bnkeys = s.bnkeys := rfl
@[simp] theorem State.setWord_total (s : State) (sp : Space) (i : Nat) (v : Word) : (s.setWord sp i v).total = s.total := rfl
@[simp] theorem State.setWord_dups (s : State) (sp : Space) (i : Nat) (v : Word) : (s.setWord sp i v).dups = s.dups := rfl
@[simp] theorem State.setWord_min (s : State) (sp : Space) (i : Nat) (v : Word) : (s.setWord sp i v).min = s.min := rfl
@[simp] theorem State.setWord_max (s : State) (sp : Space) (i : Nat) (v : Word) : (s.setWord sp i v).max = s.max := rfl
@[simp] theorem State.setWord_outlen (s : State) (sp : Space) (i : Nat) (v : Word) : (s.setWord sp i v).outlen = s.outlen := rfl
@[simp] theorem State.setWord_faultCode (s : State) (sp : Space) (i : Nat) (v : Word) : (s.setWord sp i v).faultCode = s.faultCode := rfl
@[simp] theorem State.setWord_faultInfo (s : State) (sp : Space) (i : Nat) (v : Word) : (s.setWord sp i v).faultInfo = s.faultInfo := rfl
@[simp] theorem State.setWord_faultCmd (s : State) (sp : Space) (i : Nat) (v : Word) : (s.setWord sp i v).faultCmd = s.faultCmd := rfl
@[simp] theorem State.setWord_bvused (s : State) (sp : Space) (i : Nat) (v : Word) : (s.setWord sp i v).bvused = s.bvused := rfl
@[simp] theorem State.setWord_rankused (s : State) (sp : Space) (i : Nat) (v : Word) : (s.setWord sp i v).rankused = s.rankused := rfl
@[simp] theorem State.setWord_latch (s : State) (sp : Space) (i : Nat) (v : Word) : (s.setWord sp i v).latch = s.latch := rfl
@[simp] theorem State.setWord_scratch (s : State) (sp : Space) (i : Nat) (v : Word) : (s.setWord sp i v).scratch = s.scratch := rfl
@[simp] theorem State.setWord_mem (s : State) (sp : Space) (i : Nat) (v : Word) : (s.setWord sp i v).mem = writeWord s.mem (sp.addr i) v := rfl
@[simp] theorem State.setWord_inbox (s : State) (sp : Space) (i : Nat) (v : Word) : (s.setWord sp i v).inbox = s.inbox := rfl
@[simp] theorem State.setWord_answer (s : State) (sp : Space) (i : Nat) (v : Word) : (s.setWord sp i v).answer = s.answer := rfl
@[simp] theorem State.setWord_freeCount (s : State) (sp : Space) (i : Nat) (v : Word) : (s.setWord sp i v).freeCount = s.freeCount := rfl

/-! ### Zeroed words -/

@[simp] theorem State.zero_params (s : State) (sp : Space) (i n : Nat) : (s.zero sp i n).params = s.params := rfl
@[simp] theorem State.zero_ctrl (s : State) (sp : Space) (i n : Nat) : (s.zero sp i n).ctrl = s.ctrl := rfl
@[simp] theorem State.zero_status (s : State) (sp : Space) (i n : Nat) : (s.zero sp i n).status = s.status := rfl
@[simp] theorem State.zero_phase (s : State) (sp : Space) (i n : Nat) : (s.zero sp i n).phase = s.phase := rfl
@[simp] theorem State.zero_cmd (s : State) (sp : Space) (i n : Nat) : (s.zero sp i n).cmd = s.cmd := rfl
@[simp] theorem State.zero_nkeys (s : State) (sp : Space) (i n : Nat) : (s.zero sp i n).nkeys = s.nkeys := rfl
@[simp] theorem State.zero_gamma (s : State) (sp : Space) (i n : Nat) : (s.zero sp i n).gamma = s.gamma := rfl
@[simp] theorem State.zero_arg0 (s : State) (sp : Space) (i n : Nat) : (s.zero sp i n).arg0 = s.arg0 := rfl
@[simp] theorem State.zero_arg1 (s : State) (sp : Space) (i n : Nat) : (s.zero sp i n).arg1 = s.arg1 := rfl
@[simp] theorem State.zero_res0 (s : State) (sp : Space) (i n : Nat) : (s.zero sp i n).res0 = s.res0 := rfl
@[simp] theorem State.zero_res1 (s : State) (sp : Space) (i n : Nat) : (s.zero sp i n).res1 = s.res1 := rfl
@[simp] theorem State.zero_nlevels (s : State) (sp : Space) (i n : Nat) : (s.zero sp i n).nlevels = s.nlevels := rfl
@[simp] theorem State.zero_bnkeys (s : State) (sp : Space) (i n : Nat) : (s.zero sp i n).bnkeys = s.bnkeys := rfl
@[simp] theorem State.zero_total (s : State) (sp : Space) (i n : Nat) : (s.zero sp i n).total = s.total := rfl
@[simp] theorem State.zero_dups (s : State) (sp : Space) (i n : Nat) : (s.zero sp i n).dups = s.dups := rfl
@[simp] theorem State.zero_min (s : State) (sp : Space) (i n : Nat) : (s.zero sp i n).min = s.min := rfl
@[simp] theorem State.zero_max (s : State) (sp : Space) (i n : Nat) : (s.zero sp i n).max = s.max := rfl
@[simp] theorem State.zero_outlen (s : State) (sp : Space) (i n : Nat) : (s.zero sp i n).outlen = s.outlen := rfl
@[simp] theorem State.zero_faultCode (s : State) (sp : Space) (i n : Nat) : (s.zero sp i n).faultCode = s.faultCode := rfl
@[simp] theorem State.zero_faultInfo (s : State) (sp : Space) (i n : Nat) : (s.zero sp i n).faultInfo = s.faultInfo := rfl
@[simp] theorem State.zero_faultCmd (s : State) (sp : Space) (i n : Nat) : (s.zero sp i n).faultCmd = s.faultCmd := rfl
@[simp] theorem State.zero_bvused (s : State) (sp : Space) (i n : Nat) : (s.zero sp i n).bvused = s.bvused := rfl
@[simp] theorem State.zero_rankused (s : State) (sp : Space) (i n : Nat) : (s.zero sp i n).rankused = s.rankused := rfl
@[simp] theorem State.zero_latch (s : State) (sp : Space) (i n : Nat) : (s.zero sp i n).latch = s.latch := rfl
@[simp] theorem State.zero_scratch (s : State) (sp : Space) (i n : Nat) : (s.zero sp i n).scratch = s.scratch := rfl
@[simp] theorem State.zero_mem (s : State) (sp : Space) (i n : Nat) : (s.zero sp i n).mem = zeroWords s.mem (sp.addr i) n := rfl
@[simp] theorem State.zero_inbox (s : State) (sp : Space) (i n : Nat) : (s.zero sp i n).inbox = s.inbox := rfl
@[simp] theorem State.zero_answer (s : State) (sp : Space) (i n : Nat) : (s.zero sp i n).answer = s.answer := rfl
@[simp] theorem State.zero_freeCount (s : State) (sp : Space) (i n : Nat) : (s.zero sp i n).freeCount = s.freeCount := rfl

/-! ### Dropping the built function (R187, R322) -/

@[simp] theorem State.dropFunction_params (s : State) : s.dropFunction.params = s.params := rfl
@[simp] theorem State.dropFunction_ctrl (s : State) : s.dropFunction.ctrl = s.ctrl := rfl
@[simp] theorem State.dropFunction_status (s : State) : s.dropFunction.status = { s.status with built := false } := rfl
@[simp] theorem State.dropFunction_phase (s : State) : s.dropFunction.phase = s.phase := rfl
@[simp] theorem State.dropFunction_cmd (s : State) : s.dropFunction.cmd = s.cmd := rfl
@[simp] theorem State.dropFunction_nkeys (s : State) : s.dropFunction.nkeys = s.nkeys := rfl
@[simp] theorem State.dropFunction_gamma (s : State) : s.dropFunction.gamma = s.gamma := rfl
@[simp] theorem State.dropFunction_arg0 (s : State) : s.dropFunction.arg0 = s.arg0 := rfl
@[simp] theorem State.dropFunction_arg1 (s : State) : s.dropFunction.arg1 = s.arg1 := rfl
@[simp] theorem State.dropFunction_res0 (s : State) : s.dropFunction.res0 = s.res0 := rfl
@[simp] theorem State.dropFunction_res1 (s : State) : s.dropFunction.res1 = s.res1 := rfl
@[simp] theorem State.dropFunction_nlevels (s : State) : s.dropFunction.nlevels = 0 := rfl
@[simp] theorem State.dropFunction_bnkeys (s : State) : s.dropFunction.bnkeys = 0 := rfl
@[simp] theorem State.dropFunction_total (s : State) : s.dropFunction.total = 0 := rfl
@[simp] theorem State.dropFunction_dups (s : State) : s.dropFunction.dups = 0 := rfl
@[simp] theorem State.dropFunction_min (s : State) : s.dropFunction.min = s.min := rfl
@[simp] theorem State.dropFunction_max (s : State) : s.dropFunction.max = s.max := rfl
@[simp] theorem State.dropFunction_outlen (s : State) : s.dropFunction.outlen = s.outlen := rfl
@[simp] theorem State.dropFunction_faultCode (s : State) : s.dropFunction.faultCode = s.faultCode := rfl
@[simp] theorem State.dropFunction_faultInfo (s : State) : s.dropFunction.faultInfo = s.faultInfo := rfl
@[simp] theorem State.dropFunction_faultCmd (s : State) : s.dropFunction.faultCmd = s.faultCmd := rfl
@[simp] theorem State.dropFunction_bvused (s : State) : s.dropFunction.bvused = 0 := rfl
@[simp] theorem State.dropFunction_rankused (s : State) : s.dropFunction.rankused = 0 := rfl
@[simp] theorem State.dropFunction_latch (s : State) : s.dropFunction.latch = s.latch := rfl
@[simp] theorem State.dropFunction_scratch (s : State) : s.dropFunction.scratch = s.scratch := rfl
@[simp] theorem State.dropFunction_mem (s : State) : s.dropFunction.mem = zeroWords s.mem (Space.lvltab.addr 0) 128 := rfl
@[simp] theorem State.dropFunction_inbox (s : State) : s.dropFunction.inbox = s.inbox := rfl
@[simp] theorem State.dropFunction_answer (s : State) : s.dropFunction.answer = s.answer := rfl
@[simp] theorem State.dropFunction_freeCount (s : State) : s.dropFunction.freeCount = s.freeCount := rfl

/-! ### The start of a build (R186) -/

@[simp] theorem State.startBuild_params (s : State) (ks : List Word) : (s.startBuild ks).params = s.params := rfl
@[simp] theorem State.startBuild_ctrl (s : State) (ks : List Word) : (s.startBuild ks).ctrl = s.ctrl := rfl
@[simp] theorem State.startBuild_status (s : State) (ks : List Word) : (s.startBuild ks).status = s.status := rfl
@[simp] theorem State.startBuild_phase (s : State) (ks : List Word) : (s.startBuild ks).phase = s.phase := rfl
@[simp] theorem State.startBuild_cmd (s : State) (ks : List Word) : (s.startBuild ks).cmd = s.cmd := rfl
@[simp] theorem State.startBuild_nkeys (s : State) (ks : List Word) : (s.startBuild ks).nkeys = s.nkeys := rfl
@[simp] theorem State.startBuild_gamma (s : State) (ks : List Word) : (s.startBuild ks).gamma = s.gamma := rfl
@[simp] theorem State.startBuild_arg0 (s : State) (ks : List Word) : (s.startBuild ks).arg0 = s.arg0 := rfl
@[simp] theorem State.startBuild_arg1 (s : State) (ks : List Word) : (s.startBuild ks).arg1 = s.arg1 := rfl
@[simp] theorem State.startBuild_res0 (s : State) (ks : List Word) : (s.startBuild ks).res0 = s.res0 := rfl
@[simp] theorem State.startBuild_res1 (s : State) (ks : List Word) : (s.startBuild ks).res1 = s.res1 := rfl
@[simp] theorem State.startBuild_nlevels (s : State) (ks : List Word) : (s.startBuild ks).nlevels = s.nlevels := rfl
@[simp] theorem State.startBuild_bnkeys (s : State) (ks : List Word) : (s.startBuild ks).bnkeys = s.bnkeys := rfl
@[simp] theorem State.startBuild_total (s : State) (ks : List Word) : (s.startBuild ks).total = s.total := rfl
@[simp] theorem State.startBuild_dups (s : State) (ks : List Word) : (s.startBuild ks).dups = s.dups := rfl
@[simp] theorem State.startBuild_min (s : State) (ks : List Word) : (s.startBuild ks).min = s.min := rfl
@[simp] theorem State.startBuild_max (s : State) (ks : List Word) : (s.startBuild ks).max = s.max := rfl
@[simp] theorem State.startBuild_outlen (s : State) (ks : List Word) : (s.startBuild ks).outlen = s.outlen := rfl
@[simp] theorem State.startBuild_faultCode (s : State) (ks : List Word) : (s.startBuild ks).faultCode = s.faultCode := rfl
@[simp] theorem State.startBuild_faultInfo (s : State) (ks : List Word) : (s.startBuild ks).faultInfo = s.faultInfo := rfl
@[simp] theorem State.startBuild_faultCmd (s : State) (ks : List Word) : (s.startBuild ks).faultCmd = s.faultCmd := rfl
@[simp] theorem State.startBuild_bvused (s : State) (ks : List Word) : (s.startBuild ks).bvused = s.bvused := rfl
@[simp] theorem State.startBuild_rankused (s : State) (ks : List Word) : (s.startBuild ks).rankused = s.rankused := rfl
@[simp] theorem State.startBuild_latch (s : State) (ks : List Word) : (s.startBuild ks).latch = s.latch := rfl
@[simp] theorem State.startBuild_scratch (s : State) (ks : List Word) : (s.startBuild ks).scratch = { s.scratch with working := ks, level := 0, wbase := 0, rbase := 0, dups := 0 } := rfl
@[simp] theorem State.startBuild_mem (s : State) (ks : List Word) : (s.startBuild ks).mem = s.mem := rfl
@[simp] theorem State.startBuild_inbox (s : State) (ks : List Word) : (s.startBuild ks).inbox = s.inbox := rfl
@[simp] theorem State.startBuild_answer (s : State) (ks : List Word) : (s.startBuild ks).answer = s.answer := rfl
@[simp] theorem State.startBuild_freeCount (s : State) (ks : List Word) : (s.startBuild ks).freeCount = s.freeCount := rfl

/-! ### Another scratch state (10_state.md R70) -/

@[simp] theorem State.setScratch_params (s : State) (sc : Scratch) : (s.setScratch sc).params = s.params := rfl
@[simp] theorem State.setScratch_ctrl (s : State) (sc : Scratch) : (s.setScratch sc).ctrl = s.ctrl := rfl
@[simp] theorem State.setScratch_status (s : State) (sc : Scratch) : (s.setScratch sc).status = s.status := rfl
@[simp] theorem State.setScratch_phase (s : State) (sc : Scratch) : (s.setScratch sc).phase = s.phase := rfl
@[simp] theorem State.setScratch_cmd (s : State) (sc : Scratch) : (s.setScratch sc).cmd = s.cmd := rfl
@[simp] theorem State.setScratch_nkeys (s : State) (sc : Scratch) : (s.setScratch sc).nkeys = s.nkeys := rfl
@[simp] theorem State.setScratch_gamma (s : State) (sc : Scratch) : (s.setScratch sc).gamma = s.gamma := rfl
@[simp] theorem State.setScratch_arg0 (s : State) (sc : Scratch) : (s.setScratch sc).arg0 = s.arg0 := rfl
@[simp] theorem State.setScratch_arg1 (s : State) (sc : Scratch) : (s.setScratch sc).arg1 = s.arg1 := rfl
@[simp] theorem State.setScratch_res0 (s : State) (sc : Scratch) : (s.setScratch sc).res0 = s.res0 := rfl
@[simp] theorem State.setScratch_res1 (s : State) (sc : Scratch) : (s.setScratch sc).res1 = s.res1 := rfl
@[simp] theorem State.setScratch_nlevels (s : State) (sc : Scratch) : (s.setScratch sc).nlevels = s.nlevels := rfl
@[simp] theorem State.setScratch_bnkeys (s : State) (sc : Scratch) : (s.setScratch sc).bnkeys = s.bnkeys := rfl
@[simp] theorem State.setScratch_total (s : State) (sc : Scratch) : (s.setScratch sc).total = s.total := rfl
@[simp] theorem State.setScratch_dups (s : State) (sc : Scratch) : (s.setScratch sc).dups = s.dups := rfl
@[simp] theorem State.setScratch_min (s : State) (sc : Scratch) : (s.setScratch sc).min = s.min := rfl
@[simp] theorem State.setScratch_max (s : State) (sc : Scratch) : (s.setScratch sc).max = s.max := rfl
@[simp] theorem State.setScratch_outlen (s : State) (sc : Scratch) : (s.setScratch sc).outlen = s.outlen := rfl
@[simp] theorem State.setScratch_faultCode (s : State) (sc : Scratch) : (s.setScratch sc).faultCode = s.faultCode := rfl
@[simp] theorem State.setScratch_faultInfo (s : State) (sc : Scratch) : (s.setScratch sc).faultInfo = s.faultInfo := rfl
@[simp] theorem State.setScratch_faultCmd (s : State) (sc : Scratch) : (s.setScratch sc).faultCmd = s.faultCmd := rfl
@[simp] theorem State.setScratch_bvused (s : State) (sc : Scratch) : (s.setScratch sc).bvused = s.bvused := rfl
@[simp] theorem State.setScratch_rankused (s : State) (sc : Scratch) : (s.setScratch sc).rankused = s.rankused := rfl
@[simp] theorem State.setScratch_latch (s : State) (sc : Scratch) : (s.setScratch sc).latch = s.latch := rfl
@[simp] theorem State.setScratch_scratch (s : State) (sc : Scratch) : (s.setScratch sc).scratch = sc := rfl
@[simp] theorem State.setScratch_mem (s : State) (sc : Scratch) : (s.setScratch sc).mem = s.mem := rfl
@[simp] theorem State.setScratch_inbox (s : State) (sc : Scratch) : (s.setScratch sc).inbox = s.inbox := rfl
@[simp] theorem State.setScratch_answer (s : State) (sc : Scratch) : (s.setScratch sc).answer = s.answer := rfl
@[simp] theorem State.setScratch_freeCount (s : State) (sc : Scratch) : (s.setScratch sc).freeCount = s.freeCount := rfl

/-! ### Recording a built function (R195) -/

@[simp] theorem State.recordFunction_params (s : State) (n : Word) : (s.recordFunction n).params = s.params := rfl
@[simp] theorem State.recordFunction_ctrl (s : State) (n : Word) : (s.recordFunction n).ctrl = s.ctrl := rfl
@[simp] theorem State.recordFunction_status (s : State) (n : Word) : (s.recordFunction n).status = { s.status with built := true } := rfl
@[simp] theorem State.recordFunction_phase (s : State) (n : Word) : (s.recordFunction n).phase = s.phase := rfl
@[simp] theorem State.recordFunction_cmd (s : State) (n : Word) : (s.recordFunction n).cmd = s.cmd := rfl
@[simp] theorem State.recordFunction_nkeys (s : State) (n : Word) : (s.recordFunction n).nkeys = s.nkeys := rfl
@[simp] theorem State.recordFunction_gamma (s : State) (n : Word) : (s.recordFunction n).gamma = s.gamma := rfl
@[simp] theorem State.recordFunction_arg0 (s : State) (n : Word) : (s.recordFunction n).arg0 = s.arg0 := rfl
@[simp] theorem State.recordFunction_arg1 (s : State) (n : Word) : (s.recordFunction n).arg1 = s.arg1 := rfl
@[simp] theorem State.recordFunction_res0 (s : State) (n : Word) : (s.recordFunction n).res0 = s.res0 := rfl
@[simp] theorem State.recordFunction_res1 (s : State) (n : Word) : (s.recordFunction n).res1 = s.res1 := rfl
@[simp] theorem State.recordFunction_nlevels (s : State) (n : Word) : (s.recordFunction n).nlevels = BitVec.ofNat 64 s.scratch.level := rfl
@[simp] theorem State.recordFunction_bnkeys (s : State) (n : Word) : (s.recordFunction n).bnkeys = n := rfl
@[simp] theorem State.recordFunction_total (s : State) (n : Word) : (s.recordFunction n).total = BitVec.ofNat 64 s.scratch.pop := rfl
@[simp] theorem State.recordFunction_dups (s : State) (n : Word) : (s.recordFunction n).dups = BitVec.ofNat 64 s.scratch.dups := rfl
@[simp] theorem State.recordFunction_min (s : State) (n : Word) : (s.recordFunction n).min = s.min := rfl
@[simp] theorem State.recordFunction_max (s : State) (n : Word) : (s.recordFunction n).max = s.max := rfl
@[simp] theorem State.recordFunction_outlen (s : State) (n : Word) : (s.recordFunction n).outlen = s.outlen := rfl
@[simp] theorem State.recordFunction_faultCode (s : State) (n : Word) : (s.recordFunction n).faultCode = s.faultCode := rfl
@[simp] theorem State.recordFunction_faultInfo (s : State) (n : Word) : (s.recordFunction n).faultInfo = s.faultInfo := rfl
@[simp] theorem State.recordFunction_faultCmd (s : State) (n : Word) : (s.recordFunction n).faultCmd = s.faultCmd := rfl
@[simp] theorem State.recordFunction_bvused (s : State) (n : Word) : (s.recordFunction n).bvused = BitVec.ofNat 64 s.scratch.wbase := rfl
@[simp] theorem State.recordFunction_rankused (s : State) (n : Word) : (s.recordFunction n).rankused = BitVec.ofNat 64 s.scratch.rbase := rfl
@[simp] theorem State.recordFunction_latch (s : State) (n : Word) : (s.recordFunction n).latch = s.latch := rfl
@[simp] theorem State.recordFunction_scratch (s : State) (n : Word) : (s.recordFunction n).scratch = s.scratch := rfl
@[simp] theorem State.recordFunction_mem (s : State) (n : Word) : (s.recordFunction n).mem = s.mem := rfl
@[simp] theorem State.recordFunction_inbox (s : State) (n : Word) : (s.recordFunction n).inbox = s.inbox := rfl
@[simp] theorem State.recordFunction_answer (s : State) (n : Word) : (s.recordFunction n).answer = s.answer := rfl
@[simp] theorem State.recordFunction_freeCount (s : State) (n : Word) : (s.recordFunction n).freeCount = s.freeCount := rfl

/-! ### Forgetting the range (R266) -/

@[simp] theorem State.forgetRange_params (s : State) : s.forgetRange.params = s.params := rfl
@[simp] theorem State.forgetRange_ctrl (s : State) : s.forgetRange.ctrl = s.ctrl := rfl
@[simp] theorem State.forgetRange_status (s : State) : s.forgetRange.status = { s.status with rangev := false } := rfl
@[simp] theorem State.forgetRange_phase (s : State) : s.forgetRange.phase = s.phase := rfl
@[simp] theorem State.forgetRange_cmd (s : State) : s.forgetRange.cmd = s.cmd := rfl
@[simp] theorem State.forgetRange_nkeys (s : State) : s.forgetRange.nkeys = s.nkeys := rfl
@[simp] theorem State.forgetRange_gamma (s : State) : s.forgetRange.gamma = s.gamma := rfl
@[simp] theorem State.forgetRange_arg0 (s : State) : s.forgetRange.arg0 = s.arg0 := rfl
@[simp] theorem State.forgetRange_arg1 (s : State) : s.forgetRange.arg1 = s.arg1 := rfl
@[simp] theorem State.forgetRange_res0 (s : State) : s.forgetRange.res0 = s.res0 := rfl
@[simp] theorem State.forgetRange_res1 (s : State) : s.forgetRange.res1 = s.res1 := rfl
@[simp] theorem State.forgetRange_nlevels (s : State) : s.forgetRange.nlevels = s.nlevels := rfl
@[simp] theorem State.forgetRange_bnkeys (s : State) : s.forgetRange.bnkeys = s.bnkeys := rfl
@[simp] theorem State.forgetRange_total (s : State) : s.forgetRange.total = s.total := rfl
@[simp] theorem State.forgetRange_dups (s : State) : s.forgetRange.dups = s.dups := rfl
@[simp] theorem State.forgetRange_min (s : State) : s.forgetRange.min = 0 := rfl
@[simp] theorem State.forgetRange_max (s : State) : s.forgetRange.max = 0 := rfl
@[simp] theorem State.forgetRange_outlen (s : State) : s.forgetRange.outlen = s.outlen := rfl
@[simp] theorem State.forgetRange_faultCode (s : State) : s.forgetRange.faultCode = s.faultCode := rfl
@[simp] theorem State.forgetRange_faultInfo (s : State) : s.forgetRange.faultInfo = s.faultInfo := rfl
@[simp] theorem State.forgetRange_faultCmd (s : State) : s.forgetRange.faultCmd = s.faultCmd := rfl
@[simp] theorem State.forgetRange_bvused (s : State) : s.forgetRange.bvused = s.bvused := rfl
@[simp] theorem State.forgetRange_rankused (s : State) : s.forgetRange.rankused = s.rankused := rfl
@[simp] theorem State.forgetRange_latch (s : State) : s.forgetRange.latch = s.latch := rfl
@[simp] theorem State.forgetRange_scratch (s : State) : s.forgetRange.scratch = s.scratch := rfl
@[simp] theorem State.forgetRange_mem (s : State) : s.forgetRange.mem = s.mem := rfl
@[simp] theorem State.forgetRange_inbox (s : State) : s.forgetRange.inbox = s.inbox := rfl
@[simp] theorem State.forgetRange_answer (s : State) : s.forgetRange.answer = s.answer := rfl
@[simp] theorem State.forgetRange_freeCount (s : State) : s.forgetRange.freeCount = s.freeCount := rfl

/-! ### Counting a word of output (R290) -/

@[simp] theorem State.countOut_params (s : State) : s.countOut.params = s.params := rfl
@[simp] theorem State.countOut_ctrl (s : State) : s.countOut.ctrl = s.ctrl := rfl
@[simp] theorem State.countOut_status (s : State) : s.countOut.status = s.status := rfl
@[simp] theorem State.countOut_phase (s : State) : s.countOut.phase = s.phase := rfl
@[simp] theorem State.countOut_cmd (s : State) : s.countOut.cmd = s.cmd := rfl
@[simp] theorem State.countOut_nkeys (s : State) : s.countOut.nkeys = s.nkeys := rfl
@[simp] theorem State.countOut_gamma (s : State) : s.countOut.gamma = s.gamma := rfl
@[simp] theorem State.countOut_arg0 (s : State) : s.countOut.arg0 = s.arg0 := rfl
@[simp] theorem State.countOut_arg1 (s : State) : s.countOut.arg1 = s.arg1 := rfl
@[simp] theorem State.countOut_res0 (s : State) : s.countOut.res0 = s.res0 := rfl
@[simp] theorem State.countOut_res1 (s : State) : s.countOut.res1 = s.res1 := rfl
@[simp] theorem State.countOut_nlevels (s : State) : s.countOut.nlevels = s.nlevels := rfl
@[simp] theorem State.countOut_bnkeys (s : State) : s.countOut.bnkeys = s.bnkeys := rfl
@[simp] theorem State.countOut_total (s : State) : s.countOut.total = s.total := rfl
@[simp] theorem State.countOut_dups (s : State) : s.countOut.dups = s.dups := rfl
@[simp] theorem State.countOut_min (s : State) : s.countOut.min = s.min := rfl
@[simp] theorem State.countOut_max (s : State) : s.countOut.max = s.max := rfl
@[simp] theorem State.countOut_outlen (s : State) : s.countOut.outlen = s.outlen + 1 := rfl
@[simp] theorem State.countOut_faultCode (s : State) : s.countOut.faultCode = s.faultCode := rfl
@[simp] theorem State.countOut_faultInfo (s : State) : s.countOut.faultInfo = s.faultInfo := rfl
@[simp] theorem State.countOut_faultCmd (s : State) : s.countOut.faultCmd = s.faultCmd := rfl
@[simp] theorem State.countOut_bvused (s : State) : s.countOut.bvused = s.bvused := rfl
@[simp] theorem State.countOut_rankused (s : State) : s.countOut.rankused = s.rankused := rfl
@[simp] theorem State.countOut_latch (s : State) : s.countOut.latch = s.latch := rfl
@[simp] theorem State.countOut_scratch (s : State) : s.countOut.scratch = s.scratch := rfl
@[simp] theorem State.countOut_mem (s : State) : s.countOut.mem = s.mem := rfl
@[simp] theorem State.countOut_inbox (s : State) : s.countOut.inbox = s.inbox := rfl
@[simp] theorem State.countOut_answer (s : State) : s.countOut.answer = s.answer := rfl
@[simp] theorem State.countOut_freeCount (s : State) : s.countOut.freeCount = s.freeCount := rfl

/-! ### The start of an output (R290) -/

@[simp] theorem State.startOutput_params (s : State) : s.startOutput.params = s.params := rfl
@[simp] theorem State.startOutput_ctrl (s : State) : s.startOutput.ctrl = s.ctrl := rfl
@[simp] theorem State.startOutput_status (s : State) : s.startOutput.status = { s.status with outp := true } := rfl
@[simp] theorem State.startOutput_phase (s : State) : s.startOutput.phase = s.phase := rfl
@[simp] theorem State.startOutput_cmd (s : State) : s.startOutput.cmd = s.cmd := rfl
@[simp] theorem State.startOutput_nkeys (s : State) : s.startOutput.nkeys = s.nkeys := rfl
@[simp] theorem State.startOutput_gamma (s : State) : s.startOutput.gamma = s.gamma := rfl
@[simp] theorem State.startOutput_arg0 (s : State) : s.startOutput.arg0 = s.arg0 := rfl
@[simp] theorem State.startOutput_arg1 (s : State) : s.startOutput.arg1 = s.arg1 := rfl
@[simp] theorem State.startOutput_res0 (s : State) : s.startOutput.res0 = s.res0 := rfl
@[simp] theorem State.startOutput_res1 (s : State) : s.startOutput.res1 = s.res1 := rfl
@[simp] theorem State.startOutput_nlevels (s : State) : s.startOutput.nlevels = s.nlevels := rfl
@[simp] theorem State.startOutput_bnkeys (s : State) : s.startOutput.bnkeys = s.bnkeys := rfl
@[simp] theorem State.startOutput_total (s : State) : s.startOutput.total = s.total := rfl
@[simp] theorem State.startOutput_dups (s : State) : s.startOutput.dups = s.dups := rfl
@[simp] theorem State.startOutput_min (s : State) : s.startOutput.min = s.min := rfl
@[simp] theorem State.startOutput_max (s : State) : s.startOutput.max = s.max := rfl
@[simp] theorem State.startOutput_outlen (s : State) : s.startOutput.outlen = 0 := rfl
@[simp] theorem State.startOutput_faultCode (s : State) : s.startOutput.faultCode = s.faultCode := rfl
@[simp] theorem State.startOutput_faultInfo (s : State) : s.startOutput.faultInfo = s.faultInfo := rfl
@[simp] theorem State.startOutput_faultCmd (s : State) : s.startOutput.faultCmd = s.faultCmd := rfl
@[simp] theorem State.startOutput_bvused (s : State) : s.startOutput.bvused = s.bvused := rfl
@[simp] theorem State.startOutput_rankused (s : State) : s.startOutput.rankused = s.rankused := rfl
@[simp] theorem State.startOutput_latch (s : State) : s.startOutput.latch = s.latch := rfl
@[simp] theorem State.startOutput_scratch (s : State) : s.startOutput.scratch = s.scratch := rfl
@[simp] theorem State.startOutput_mem (s : State) : s.startOutput.mem = s.mem := rfl
@[simp] theorem State.startOutput_inbox (s : State) : s.startOutput.inbox = s.inbox := rfl
@[simp] theorem State.startOutput_answer (s : State) : s.startOutput.answer = s.answer := rfl
@[simp] theorem State.startOutput_freeCount (s : State) : s.startOutput.freeCount = s.freeCount := rfl

/-! ### SORT's answers without a sort (R300) -/

@[simp] theorem State.sortNothing_params (s : State) (p : Bool) : (s.sortNothing p).params = s.params := rfl
@[simp] theorem State.sortNothing_ctrl (s : State) (p : Bool) : (s.sortNothing p).ctrl = s.ctrl := rfl
@[simp] theorem State.sortNothing_status (s : State) (p : Bool) : (s.sortNothing p).status = { s.status with outp := p } := rfl
@[simp] theorem State.sortNothing_phase (s : State) (p : Bool) : (s.sortNothing p).phase = s.phase := rfl
@[simp] theorem State.sortNothing_cmd (s : State) (p : Bool) : (s.sortNothing p).cmd = s.cmd := rfl
@[simp] theorem State.sortNothing_nkeys (s : State) (p : Bool) : (s.sortNothing p).nkeys = s.nkeys := rfl
@[simp] theorem State.sortNothing_gamma (s : State) (p : Bool) : (s.sortNothing p).gamma = s.gamma := rfl
@[simp] theorem State.sortNothing_arg0 (s : State) (p : Bool) : (s.sortNothing p).arg0 = s.arg0 := rfl
@[simp] theorem State.sortNothing_arg1 (s : State) (p : Bool) : (s.sortNothing p).arg1 = s.arg1 := rfl
@[simp] theorem State.sortNothing_res0 (s : State) (p : Bool) : (s.sortNothing p).res0 = 0 := rfl
@[simp] theorem State.sortNothing_res1 (s : State) (p : Bool) : (s.sortNothing p).res1 = s.res1 := rfl
@[simp] theorem State.sortNothing_nlevels (s : State) (p : Bool) : (s.sortNothing p).nlevels = s.nlevels := rfl
@[simp] theorem State.sortNothing_bnkeys (s : State) (p : Bool) : (s.sortNothing p).bnkeys = s.bnkeys := rfl
@[simp] theorem State.sortNothing_total (s : State) (p : Bool) : (s.sortNothing p).total = s.total := rfl
@[simp] theorem State.sortNothing_dups (s : State) (p : Bool) : (s.sortNothing p).dups = s.dups := rfl
@[simp] theorem State.sortNothing_min (s : State) (p : Bool) : (s.sortNothing p).min = s.min := rfl
@[simp] theorem State.sortNothing_max (s : State) (p : Bool) : (s.sortNothing p).max = s.max := rfl
@[simp] theorem State.sortNothing_outlen (s : State) (p : Bool) : (s.sortNothing p).outlen = 0 := rfl
@[simp] theorem State.sortNothing_faultCode (s : State) (p : Bool) : (s.sortNothing p).faultCode = s.faultCode := rfl
@[simp] theorem State.sortNothing_faultInfo (s : State) (p : Bool) : (s.sortNothing p).faultInfo = s.faultInfo := rfl
@[simp] theorem State.sortNothing_faultCmd (s : State) (p : Bool) : (s.sortNothing p).faultCmd = s.faultCmd := rfl
@[simp] theorem State.sortNothing_bvused (s : State) (p : Bool) : (s.sortNothing p).bvused = s.bvused := rfl
@[simp] theorem State.sortNothing_rankused (s : State) (p : Bool) : (s.sortNothing p).rankused = s.rankused := rfl
@[simp] theorem State.sortNothing_latch (s : State) (p : Bool) : (s.sortNothing p).latch = s.latch := rfl
@[simp] theorem State.sortNothing_scratch (s : State) (p : Bool) : (s.sortNothing p).scratch = s.scratch := rfl
@[simp] theorem State.sortNothing_mem (s : State) (p : Bool) : (s.sortNothing p).mem = s.mem := rfl
@[simp] theorem State.sortNothing_inbox (s : State) (p : Bool) : (s.sortNothing p).inbox = s.inbox := rfl
@[simp] theorem State.sortNothing_answer (s : State) (p : Bool) : (s.sortNothing p).answer = s.answer := rfl
@[simp] theorem State.sortNothing_freeCount (s : State) (p : Bool) : (s.sortNothing p).freeCount = s.freeCount := rfl

/-! ### Acceptance of a command (R331) -/

@[simp] theorem State.accept_params (s : State) (w : Word) : (s.accept w).params = s.params := rfl
@[simp] theorem State.accept_ctrl (s : State) (w : Word) : (s.accept w).ctrl = s.ctrl := rfl
@[simp] theorem State.accept_status (s : State) (w : Word) : (s.accept w).status = { s.status with done := false } := rfl
@[simp] theorem State.accept_phase (s : State) (w : Word) : (s.accept w).phase = .busy := rfl
@[simp] theorem State.accept_cmd (s : State) (w : Word) : (s.accept w).cmd = w := rfl
@[simp] theorem State.accept_nkeys (s : State) (w : Word) : (s.accept w).nkeys = s.nkeys := rfl
@[simp] theorem State.accept_gamma (s : State) (w : Word) : (s.accept w).gamma = s.gamma := rfl
@[simp] theorem State.accept_arg0 (s : State) (w : Word) : (s.accept w).arg0 = s.arg0 := rfl
@[simp] theorem State.accept_arg1 (s : State) (w : Word) : (s.accept w).arg1 = s.arg1 := rfl
@[simp] theorem State.accept_res0 (s : State) (w : Word) : (s.accept w).res0 = s.res0 := rfl
@[simp] theorem State.accept_res1 (s : State) (w : Word) : (s.accept w).res1 = s.res1 := rfl
@[simp] theorem State.accept_nlevels (s : State) (w : Word) : (s.accept w).nlevels = s.nlevels := rfl
@[simp] theorem State.accept_bnkeys (s : State) (w : Word) : (s.accept w).bnkeys = s.bnkeys := rfl
@[simp] theorem State.accept_total (s : State) (w : Word) : (s.accept w).total = s.total := rfl
@[simp] theorem State.accept_dups (s : State) (w : Word) : (s.accept w).dups = s.dups := rfl
@[simp] theorem State.accept_min (s : State) (w : Word) : (s.accept w).min = s.min := rfl
@[simp] theorem State.accept_max (s : State) (w : Word) : (s.accept w).max = s.max := rfl
@[simp] theorem State.accept_outlen (s : State) (w : Word) : (s.accept w).outlen = s.outlen := rfl
@[simp] theorem State.accept_faultCode (s : State) (w : Word) : (s.accept w).faultCode = s.faultCode := rfl
@[simp] theorem State.accept_faultInfo (s : State) (w : Word) : (s.accept w).faultInfo = s.faultInfo := rfl
@[simp] theorem State.accept_faultCmd (s : State) (w : Word) : (s.accept w).faultCmd = s.faultCmd := rfl
@[simp] theorem State.accept_bvused (s : State) (w : Word) : (s.accept w).bvused = s.bvused := rfl
@[simp] theorem State.accept_rankused (s : State) (w : Word) : (s.accept w).rankused = s.rankused := rfl
@[simp] theorem State.accept_latch (s : State) (w : Word) : (s.accept w).latch = s.latched w := rfl
@[simp] theorem State.accept_scratch (s : State) (w : Word) : (s.accept w).scratch = s.scratch := rfl
@[simp] theorem State.accept_mem (s : State) (w : Word) : (s.accept w).mem = s.mem := rfl
@[simp] theorem State.accept_inbox (s : State) (w : Word) : (s.accept w).inbox = s.inbox := rfl
@[simp] theorem State.accept_answer (s : State) (w : Word) : (s.accept w).answer = s.answer := rfl
@[simp] theorem State.accept_freeCount (s : State) (w : Word) : (s.accept w).freeCount = s.freeCount := rfl

end Sys2Proof.Machine
end

