-- ==== Sys2Proof/Laws/Ops.lean ====
section
/-!
SUPPORT. What each shared operation of the engine can do, said once: reads, writes, zeroing, checks, loops, and the end of a
command. Two ways to say it: `Ends P Q r` (however `r` ends, short of a stop) and `Does Q r` (`r` ends well).
-/
namespace Sys2Proof.Machine

variable {α β : Type}

/-! ### However it ends, short of a stop -/

/-- If `r` ends well its value meets `Q`; if it raises a fault, its code, its information and the state it had reached meet `P`. -/
def Ends (P : FaultCode → Word → State → Prop) (Q : α → Prop) : Except Abort α → Prop
  | .ok a => Q a
  | .error (.raised c i t) => P c i t
  | .error (.stopped _) => True

@[simp] theorem ends_ok {P : FaultCode → Word → State → Prop} {Q : α → Prop} {a : α} : Ends P Q (.ok a) ↔ Q a := Iff.rfl
@[simp] theorem ends_pure {P : FaultCode → Word → State → Prop} {Q : α → Prop} {a : α} : Ends P Q (pure a) ↔ Q a := Iff.rfl
@[simp] theorem ends_raised {P : FaultCode → Word → State → Prop} {Q : α → Prop} {c : FaultCode} {i : Word} {t : State} :
    Ends P Q (.error (.raised c i t) : Except Abort α) ↔ P c i t := Iff.rfl
@[simp] theorem ends_stopped {P : FaultCode → Word → State → Prop} {Q : α → Prop} {f : Fault} :
    Ends P Q (.error (.stopped f) : Except Abort α) ↔ True := Iff.rfl

theorem Ends.bind {P : FaultCode → Word → State → Prop} {Q : α → Prop} {R : β → Prop} {r : Except Abort α} {f : α → Except Abort β}
    (h : Ends P Q r) (hf : ∀ a, Q a → Ends P R (f a)) : Ends P R (r >>= f) := by
  match r with
  | .ok a => exact hf a h
  | .error (.raised _ _ _) => exact h
  | .error (.stopped _) => trivial

theorem Ends.mono {P P' : FaultCode → Word → State → Prop} {Q Q' : α → Prop} {r : Except Abort α} (h : Ends P Q r)
    (hp : ∀ c i t, P c i t → P' c i t) (hq : ∀ a, Q a → Q' a) : Ends P' Q' r := by
  match r with
  | .ok a => exact hq a h
  | .error (.raised _ _ _) => exact hp _ _ _ h
  | .error (.stopped _) => trivial

/-- The loop rule with an invariant that may name the counter. -/
theorem Ends.forUp {P : FaultCode → Word → State → Prop} {body : Nat → State → Except Abort State} (I : Nat → State → Prop)
    {count start : Nat} {s : State} (h0 : I start s)
    (hb : ∀ i t, start ≤ i → i < start + count → I i t → Ends P (I (i + 1)) (body i t)) :
    Ends P (I (start + count)) (forUp count start body s) := by
  induction count generalizing start s with
  | zero => exact h0
  | succ n ih =>
    refine (hb start s (Nat.le_refl _) (by omega) h0).bind fun t ht => ?_
    have := ih ht fun i t h1 h2 => hb i t (by omega) (by omega)
    rwa [show start + (n + 1) = start + 1 + n by omega]

/-- The loop rule over keys. -/
theorem Ends.forKeys {P : FaultCode → Word → State → Prop} {I : State → Prop} {body : Word → State → Except Abort State} {ks : List Word} {s : State}
    (h0 : I s) (hb : ∀ k t, k ∈ ks → I t → Ends P I (body k t)) : Ends P I (forKeys ks body s) := by
  induction ks generalizing s with
  | nil => exact h0
  | cons k ks ih =>
    exact (hb k s (by simp) h0).bind fun t ht => ih ht fun k t hk => hb k t (by simp [hk])

/-! ### It ends well -/

/-- `r` ends well, with a value that meets `Q`. -/
def Does (Q : α → Prop) (r : Except Abort α) : Prop := ∃ a, r = .ok a ∧ Q a

theorem Does.pure {Q : α → Prop} {a : α} (h : Q a) : Does Q (.ok a) := ⟨a, rfl, h⟩

theorem Does.bind {Q : α → Prop} {R : β → Prop} {r : Except Abort α} {f : α → Except Abort β}
    (h : Does Q r) (hf : ∀ a, Q a → Does R (f a)) : Does R (r >>= f) := by
  obtain ⟨a, rfl, ha⟩ := h
  exact hf a ha

theorem Does.mono {Q R : α → Prop} {r : Except Abort α} (h : Does Q r) (hq : ∀ a, Q a → R a) : Does R r :=
  let ⟨a, ha, hQ⟩ := h
  ⟨a, ha, hq a hQ⟩

theorem Does.forUp {body : Nat → State → Except Abort State} (I : Nat → State → Prop) {count start : Nat} {s : State}
    (h0 : I start s) (hb : ∀ i t, start ≤ i → i < start + count → I i t → Does (I (i + 1)) (body i t)) :
    Does (I (start + count)) (forUp count start body s) := by
  induction count generalizing start s with
  | zero => exact ⟨s, rfl, h0⟩
  | succ n ih =>
    refine (hb start s (Nat.le_refl _) (by omega) h0).bind fun t ht => ?_
    have := ih ht fun i t h1 h2 => hb i t (by omega) (by omega)
    rwa [show start + (n + 1) = start + 1 + n by omega]

/-- A bind ends well exactly when both parts do. -/
theorem bind_eq_ok {r : Except Abort α} {f : α → Except Abort β} {b : β} :
    (r >>= f) = .ok b ↔ ∃ a, r = .ok a ∧ f a = .ok b := by
  match r with
  | .ok a => exact ⟨fun h => ⟨a, rfl, h⟩, fun ⟨_, h, hf⟩ => by cases h; exact hf⟩
  | .error e => exact ⟨fun h => (nomatch h), fun ⟨_, h, _⟩ => (nomatch h)⟩

@[simp] theorem ok_bind {a : α} {f : α → Except Abort β} : ((.ok a : Except Abort α) >>= f) = f a := rfl
@[simp] theorem error_bind {e : Abort} {f : α → Except Abort β} : ((.error e : Except Abort α) >>= f) = .error e := rfl
@[simp] theorem pure_eq_ok {a : α} : (pure a : Except Abort α) = .ok a := rfl
@[simp] theorem map_ok {a : α} {f : α → β} : f <$> (.ok a : Except Abort α) = .ok (f a) := rfl
@[simp] theorem map_error {e : Abort} {f : α → β} : f <$> (.error e : Except Abort α) = .error e := rfl

/-! ### Reads and writes -/

theorem memRead_of_lt {sp : Space} {i : Nat} {s : State} (h : i < sp.words s.params) :
    memRead sp i s = .ok (s.word sp i) := if_pos h

theorem memWrite_of_lt {sp : Space} {i : Nat} {v : Word} {s : State} (h : i < sp.words s.params) :
    memWrite sp i v s = .ok (s.setWord sp i v) := if_pos h

theorem memZero_of_le {sp : Space} {i n : Nat} {s : State} (h : n = 0 ∨ i + n ≤ sp.words s.params) :
    memZero sp i n s = .ok (s.zero sp i n) := if_pos h

/-- A read answers the word, or stops outside the memory. -/
theorem memRead_ok {sp : Space} {i : Nat} {s : State} {w : Word} (h : memRead sp i s = .ok w) :
    i < sp.words s.params ∧ w = s.word sp i := by
  unfold memRead at h
  split at h
  · exact ⟨‹_›, by cases h; rfl⟩
  · cases h

theorem memWrite_ok {sp : Space} {i : Nat} {v : Word} {s t : State} (h : memWrite sp i v s = .ok t) :
    i < sp.words s.params ∧ t = s.setWord sp i v := by
  unfold memWrite at h
  split at h
  · exact ⟨‹_›, by cases h; rfl⟩
  · cases h

theorem ends_memRead {P : FaultCode → Word → State → Prop} {Q : Word → Prop} {sp : Space} {i : Nat} {s : State}
    (h : i < sp.words s.params → Q (s.word sp i)) : Ends P Q (memRead sp i s) := by
  unfold memRead
  split
  · exact h ‹_›
  · trivial

theorem ends_memWrite {P : FaultCode → Word → State → Prop} {Q : State → Prop} {sp : Space} {i : Nat} {v : Word} {s : State}
    (h : i < sp.words s.params → Q (s.setWord sp i v)) : Ends P Q (memWrite sp i v s) := by
  unfold memWrite
  split
  · exact h ‹_›
  · trivial

theorem ends_memZero {P : FaultCode → Word → State → Prop} {Q : State → Prop} {sp : Space} {i n : Nat} {s : State}
    (h : n = 0 ∨ i + n ≤ sp.words s.params → Q (s.zero sp i n)) : Ends P Q (memZero sp i n s) := by
  unfold memZero
  split
  · exact h ‹_›
  · trivial

theorem ends_bit {P : FaultCode → Word → State → Prop} {Q : Bool → Prop} {sp : Space} {b n : Nat} {s : State}
    (h : b + n / 64 < sp.words s.params → Q ((s.word sp (b + n / 64)).getLsbD (n % 64))) : Ends P Q (bit sp b n s) := by
  unfold bit
  refine (ends_memRead (Q := fun w => b + n / 64 < sp.words s.params ∧ w = s.word sp (b + n / 64)) fun hi => ⟨hi, rfl⟩).bind
    fun w hw => ?_
  rw [hw.2]
  exact h hw.1

theorem ends_setBit {P : FaultCode → Word → State → Prop} {Q : State → Prop} {sp : Space} {b n : Nat} {s : State}
    (h : b + n / 64 < sp.words s.params →
      Q (s.setWord sp (b + n / 64) (s.word sp (b + n / 64) ||| (1#64 <<< (n % 64))))) : Ends P Q (setBit sp b n s) := by
  unfold setBit
  refine (ends_memRead (Q := fun w => w = s.word sp (b + n / 64)) fun _ => rfl).bind fun w hw => ?_
  subst hw
  exact ends_memWrite h

theorem ends_require {P : FaultCode → Word → State → Prop} {Q : Unit → Prop} {ok : Bool} {c : FaultCode} {i : Word} {s : State}
    (h1 : ok = true → Q ()) (h2 : ok = false → P c i s) : Ends P Q (require ok c i s) := by
  cases ok
  · exact h2 rfl
  · exact h1 rfl

/-- A check passes exactly when its condition holds. -/
theorem require_eq_ok {ok : Bool} {c : FaultCode} {i : Word} {s : State} {u : Unit} :
    require ok c i s = .ok u ↔ ok = true := by
  cases ok
  · exact ⟨fun h => (nomatch h), fun h => (nomatch h)⟩
  · exact ⟨fun _ => rfl, fun _ => rfl⟩

/-- A check whose condition holds passes. -/
theorem require_of {ok : Bool} {c : FaultCode} {i : Word} {s : State} (h : ok = true) : require ok c i s = .ok () := by
  subst h; rfl

/-- A check whose condition fails raises its fault with the state as it stands. -/
theorem require_of_not {ok : Bool} {c : FaultCode} {i : Word} {s : State} (h : ok = false) :
    require ok c i s = .error (.raised c i s) := by
  subst h; rfl

@[simp] theorem require_true {c : FaultCode} {i : Word} {s : State} : require true c i s = .ok () := rfl
@[simp] theorem require_false {c : FaultCode} {i : Word} {s : State} :
    require false c i s = .error (.raised c i s) := rfl

/-! ### The words of a state after a store -/

theorem State.word_setWord_same {s : State} (hm : memWf s.mem = true) (sp : Space) (i : Nat) (v : Word) :
    (s.setWord sp i v).word sp i = v := readWord_writeWord_same hm _ _

/-- Another word of the memories is as before. -/
theorem State.word_setWord_of_ne {s : State} (hp : s.params.Wf) {sp sq : Space} {i j : Nat} (v : Word)
    (hi : i < sp.words s.params) (hj : j < sq.words s.params) (h : sp ≠ sq ∨ i ≠ j) :
    (s.setWord sp i v).word sq j = s.word sq j :=
  readWord_writeWord_of_disjoint _ _ ((Space.addr_apart hp hi hj h).symm)

theorem State.word_zero_inside (s : State) {sp : Space} {i n j : Nat} (h1 : i ≤ j) (h2 : j < i + n) :
    (s.zero sp i n).word sp j = 0 :=
  readWord_zeroWords_inside _ (by simp only [Space.addr]; omega) (by simp only [Space.addr]; omega)

theorem State.word_zero_of_outside {s : State} (hp : s.params.Wf) {sp sq : Space} {i n j : Nat}
    (hn : i + n ≤ sp.words s.params) (hj : j < sq.words s.params) (h : sp ≠ sq ∨ j < i ∨ i + n ≤ j) :
    (s.zero sp i n).word sq j = s.word sq j := by
  refine readWord_zeroWords_of_outside _ ?_
  by_cases hs : sp = sq
  · subst hs
    have := h.resolve_left (by simp)
    simp only [Space.addr]
    omega
  · have h1 := Space.addr_bounds hp hj
    have h2 := sp.words_le hp
    have := Space.base_apart hs
    simp only [Space.addr] at h1 ⊢
    omega

theorem memWf_setWord {s : State} (hm : memWf s.mem = true) (sp : Space) (i : Nat) (v : Word) :
    memWf (s.setWord sp i v).mem = true := memWf_writeWord hm _ _

theorem memWf_zero {s : State} (hm : memWf s.mem = true) (sp : Space) (i n : Nat) : memWf (s.zero sp i n).mem = true :=
  memWf_zeroWords hm _ _

/-! ### The end of a command -/

@[simp] theorem conclude_ok (s : State) : conclude (.ok s) = .next s.complete := rfl
@[simp] theorem conclude_raised (c : FaultCode) (i : Word) (s : State) :
    conclude (.error (.raised c i s)) = .next (s.takeFault c i) := rfl
@[simp] theorem conclude_stopped (f : Fault) : conclude (.error (.stopped f)) = .fault f := rfl

/-- The check for a built function passes, or raises NOT_BUILT. -/
theorem requireBuilt_of {s : State} (h : s.status.built = true) : requireBuilt s = .ok () := require_of h

theorem requireBuilt_of_not {s : State} (h : s.status.built = false) :
    requireBuilt s = .error (.raised .notBuilt 0 s) := require_of_not h

/-- A command that answers a next state completed or raised a fault. -/
theorem conclude_eq_next {r : Except Abort State} {t : State} :
    conclude r = .next t ↔
      (∃ s, r = .ok s ∧ t = s.complete) ∨ (∃ c i s, r = .error (.raised c i s) ∧ t = s.takeFault c i) := by
  match r with
  | .ok s =>
    refine ⟨fun h => .inl ⟨s, rfl, by cases h; rfl⟩, ?_⟩
    rintro (⟨_, h, rfl⟩ | ⟨_, _, _, h, _⟩)
    · cases h; rfl
    · cases h
  | .error (.raised c i s) =>
    refine ⟨fun h => .inr ⟨c, i, s, rfl, by cases h; rfl⟩, ?_⟩
    rintro (⟨_, h, _⟩ | ⟨_, _, _, h, rfl⟩)
    · cases h
    · cases h; rfl
  | .error (.stopped f) =>
    refine ⟨fun h => (nomatch h), ?_⟩
    rintro (⟨_, h, _⟩ | ⟨_, _, _, h, _⟩) <;> cases h

/-- What holds of every end of the pseudocode holds of the next state, up to the last writes of R333 and R335. -/
theorem Ends.conclude {P : FaultCode → Word → State → Prop} {Q : State → Prop} {r : Except Abort State} {t : State} (h : Ends P Q r)
    (ht : conclude r = .next t) : (∃ s, Q s ∧ t = s.complete) ∨ (∃ c i s, P c i s ∧ t = s.takeFault c i) := by
  rcases conclude_eq_next.1 ht with ⟨s, rfl, rfl⟩ | ⟨c, i, s, rfl, rfl⟩
  · exact .inl ⟨s, h, rfl⟩
  · exact .inr ⟨c, i, s, h, rfl⟩

theorem Does.conclude {Q : State → Prop} {r : Except Abort State} (h : Does Q r) :
    ∃ s, Q s ∧ conclude r = .next s.complete := by
  obtain ⟨s, rfl, hs⟩ := h
  exact ⟨s, hs, rfl⟩

end Sys2Proof.Machine
end

