-- ==== Sys2Proof/Laws/Rank.lean ====
section
/-!
SUPPORT. Counting bits: the popcount as a count over positions, the running popcount of the levels, and what the rank functions
answer on a well-formed function.
-/
namespace Sys2Proof.Machine

/-! ### Counting positions -/

/-- The number of positions below `n` where `p` holds. -/
def ones (p : Nat → Bool) (n : Nat) : Nat := ((List.range n).filter p).length

@[simp] theorem ones_zero (p : Nat → Bool) : ones p 0 = 0 := rfl

theorem ones_succ (p : Nat → Bool) (n : Nat) : ones p (n + 1) = ones p n + if p n then 1 else 0 := by
  unfold ones
  rw [List.range_succ, List.filter_append, List.length_append]
  cases h : p n <;> simp [List.filter, h]

theorem ones_add (p : Nat → Bool) (m n : Nat) : ones p (m + n) = ones p m + ones (fun i => p (m + i)) n := by
  induction n with
  | zero => rfl
  | succ n ih => rw [← Nat.add_assoc, ones_succ, ih, ones_succ]; omega

theorem ones_congr {p q : Nat → Bool} {n : Nat} (h : ∀ i < n, p i = q i) : ones p n = ones q n := by
  induction n with
  | zero => rfl
  | succ n ih => rw [ones_succ, ones_succ, ih fun i hi => h i (by omega), h n (by omega)]

theorem ones_false (n : Nat) : ones (fun _ => false) n = 0 := by
  induction n with
  | zero => rfl
  | succ n ih => rw [ones_succ, ih]; rfl

theorem ones_le (p : Nat → Bool) (n : Nat) : ones p n ≤ n := by
  induction n with
  | zero => exact Nat.le_refl _
  | succ n ih => rw [ones_succ]; split <;> omega

/-- A set position below `n` is not counted below itself. -/
theorem ones_lt {p : Nat → Bool} {i n : Nat} (hi : i < n) (hp : p i = true) : ones p i < ones p n := by
  obtain ⟨d, rfl⟩ : ∃ d, n = (i + 1) + d := ⟨n - (i + 1), by omega⟩
  rw [ones_add, ones_succ, if_pos hp]
  omega

theorem popcount64_eq_ones (w : Word) : popcount64 w = ones w.getLsbD 64 := rfl

theorem popcount64_le (w : Word) : popcount64 w ≤ 64 := ones_le _ _

theorem getLsbD_lowmask64 {s i : Nat} (hs : s < 64) (hi : i < 64) : (lowmask64 s).getLsbD i = decide (i < s) := by
  have h : lowmask64 s = BitVec.ofNat 64 (2 ^ s - 1) := by
    apply BitVec.eq_of_toNat_eq
    have : 2 ^ s < 2 ^ 64 := Nat.pow_lt_pow_right (by omega) hs
    have h1 : 1 ≤ 2 ^ s := Nat.one_le_two_pow
    simp only [lowmask64, BitVec.toNat_sub, BitVec.toNat_shiftLeft, BitVec.toNat_ofNat, Nat.shiftLeft_eq]
    omega
  rw [h, BitVec.getLsbD_ofNat, Nat.testBit_two_pow_sub_one]
  simp [hi]

/-- The popcount under a low mask counts the bits below (R224). -/
theorem popcount64_lowmask (w : Word) {s : Nat} (hs : s < 64) : popcount64 (w &&& lowmask64 s) = ones w.getLsbD s := by
  have hn : ones (w &&& lowmask64 s).getLsbD 64 = ones (w &&& lowmask64 s).getLsbD (s + (64 - s)) := by
    rw [Nat.add_sub_cancel' (Nat.le_of_lt hs)]
  rw [popcount64_eq_ones, hn, ones_add]
  have h1 : ones (w &&& lowmask64 s).getLsbD s = ones w.getLsbD s :=
    ones_congr fun i hi => by rw [BitVec.getLsbD_and, getLsbD_lowmask64 hs (by omega)]; simp [hi]
  have h2 : ones (fun i => (w &&& lowmask64 s).getLsbD (s + i)) (64 - s) = ones (fun _ => false) (64 - s) :=
    ones_congr fun i hi => by rw [BitVec.getLsbD_and, getLsbD_lowmask64 hs (by omega)]; simp
  rw [h1, h2, ones_false, Nat.add_zero]

/-! ### Sums over a range -/

/-- `f a + f (a+1) + ... + f (a+n-1)`. -/
def sumFrom (f : Nat → Nat) (a n : Nat) : Nat := ((List.range n).map fun i => f (a + i)).sum

@[simp] theorem sumFrom_zero (f : Nat → Nat) (a : Nat) : sumFrom f a 0 = 0 := rfl

theorem sumFrom_succ (f : Nat → Nat) (a n : Nat) : sumFrom f a (n + 1) = sumFrom f a n + f (a + n) := by
  simp [sumFrom, List.range_succ]

theorem sumFrom_add (f : Nat → Nat) (a m n : Nat) : sumFrom f a (m + n) = sumFrom f a m + sumFrom f (a + m) n := by
  induction n with
  | zero => rfl
  | succ n ih => rw [← Nat.add_assoc, sumFrom_succ, ih, sumFrom_succ, Nat.add_assoc, Nat.add_assoc]

theorem sumFrom_congr {f g : Nat → Nat} {a b n : Nat} (h : ∀ i < n, f (a + i) = g (b + i)) : sumFrom f a n = sumFrom g b n := by
  induction n with
  | zero => rfl
  | succ n ih => rw [sumFrom_succ, sumFrom_succ, ih fun i hi => h i (by omega), h n (by omega)]

theorem sumFrom_mono (f : Nat → Nat) (a : Nat) {m n : Nat} (h : m ≤ n) : sumFrom f a m ≤ sumFrom f a n := by
  obtain ⟨d, rfl⟩ : ∃ d, n = m + d := ⟨n - m, by omega⟩
  rw [sumFrom_add]
  omega

variable {s : State}

/-- The popcount of BVMEM word `i`. -/
def State.popWord (s : State) (i : Nat) : Nat := popcount64 (s.word .bvmem i)

theorem State.popBefore_eq (s : State) (j : Nat) : s.popBefore j = sumFrom s.popWord 0 j := by
  simp only [State.popBefore, sumFrom, State.popWord, Nat.zero_add]

theorem State.popBefore_add (s : State) (a n : Nat) : s.popBefore (a + n) = s.popBefore a + sumFrom s.popWord a n := by
  rw [State.popBefore_eq, State.popBefore_eq, sumFrom_add, Nat.zero_add]

theorem State.wordsBefore_eq (s : State) (l : Nat) : s.wordsBefore l = sumFrom (fun l => s.sizeAt l / 64) 0 l := by
  simp only [State.wordsBefore, sumFrom, Nat.zero_add]

theorem State.samplesBefore_eq (s : State) (l : Nat) :
    s.samplesBefore l = sumFrom (fun l => sampleCount (s.sizeAt l / 64)) 0 l := by
  simp only [State.samplesBefore, sumFrom, Nat.zero_add]

theorem State.wordsBefore_succ (s : State) (l : Nat) : s.wordsBefore (l + 1) = s.wordsBefore l + s.sizeAt l / 64 := by
  rw [State.wordsBefore_eq, State.wordsBefore_eq, sumFrom_succ, Nat.zero_add]

theorem State.samplesBefore_succ (s : State) (l : Nat) :
    s.samplesBefore (l + 1) = s.samplesBefore l + sampleCount (s.sizeAt l / 64) := by
  rw [State.samplesBefore_eq, State.samplesBefore_eq, sumFrom_succ, Nat.zero_add]

theorem State.wordsBefore_mono (s : State) {l m : Nat} (h : l ≤ m) : s.wordsBefore l ≤ s.wordsBefore m := by
  rw [State.wordsBefore_eq, State.wordsBefore_eq]
  exact sumFrom_mono _ _ h

theorem State.samplesBefore_mono (s : State) {l m : Nat} (h : l ≤ m) : s.samplesBefore l ≤ s.samplesBefore m := by
  rw [State.samplesBefore_eq, State.samplesBefore_eq]
  exact sumFrom_mono _ _ h

theorem State.popBefore_mono (s : State) {a b : Nat} (h : a ≤ b) : s.popBefore a ≤ s.popBefore b := by
  rw [State.popBefore_eq, State.popBefore_eq]
  exact sumFrom_mono _ _ h

/-- The bits below a word boundary are the popcounts of the words before it. -/
theorem State.ones_words (s : State) (level j : Nat) :
    ones (s.bitAt level) (64 * j) = sumFrom s.popWord (s.wbaseAt level) j := by
  induction j with
  | zero => rfl
  | succ j ih =>
    rw [show 64 * (j + 1) = 64 * j + 64 by omega, ones_add, ih, sumFrom_succ]
    congr 1
    refine (ones_congr fun i hi => ?_).trans (popcount64_eq_ones _).symm
    rw [State.bitAt, show (64 * j + i) / 64 = j by omega, show (64 * j + i) % 64 = i by omega]

/-- The brute-force rank, by words (R228). -/
theorem State.onesBelow_eq (s : State) (level n : Nat) :
    s.onesBelow level n = sumFrom s.popWord (s.wbaseAt level) (n / 64) +
      ones (s.word .bvmem (s.wbaseAt level + n / 64)).getLsbD (n % 64) := by
  have h : s.onesBelow level n = ones (s.bitAt level) (64 * (n / 64) + n % 64) := by
    rw [Nat.div_add_mod]; rfl
  rw [h, ones_add, State.ones_words]
  congr 1
  refine ones_congr fun i hi => ?_
  rw [State.bitAt, show (64 * (n / 64) + i) / 64 = n / 64 by omega, show (64 * (n / 64) + i) % 64 = i by omega]

/-! ### The rank functions on a well-formed function -/

/-- Whole words of the rank (R224). -/
theorem addPopcounts_eq (n i : Nat) (r : Word) (h : i + n ≤ s.params.bvWords) :
    addPopcounts n i r s = .ok (r + BitVec.ofNat 64 (sumFrom s.popWord i n)) := by
  induction n generalizing i r with
  | zero => simp [addPopcounts]
  | succ n ih =>
    rw [addPopcounts, memRead_of_lt (by simp only [Space.words]; omega), ok_bind, ih _ _ (by omega)]
    congr 1
    rw [show n + 1 = 1 + n by omega, sumFrom_add, BitVec.ofNat_add, ← BitVec.add_assoc]
    rfl

variable {l : Nat}

/-- A level's words lie below BVUSED, so inside BVMEM. -/
theorem State.FnInv.word_lt (h : s.FnInv) (hl : l < s.nlevels.toNat) {j : Nat} (hj : j < s.sizeAt l / 64) :
    s.wbaseAt l + j < s.bvused.toNat ∧ s.wbaseAt l + j < s.params.bvWords := by
  have h1 := s.wordsBefore_mono (Nat.succ_le_of_lt hl)
  rw [Nat.succ_eq_add_one, s.wordsBefore_succ] at h1
  have := h.wbases l hl
  have := h.bvused
  omega

/-- A level's samples lie below RANKUSED, so inside RANKMEM. -/
theorem State.FnInv.sample_lt (h : s.FnInv) (hl : l < s.nlevels.toNat) {b : Nat} (hb : b < sampleCount (s.sizeAt l / 64)) :
    s.rbaseAt l + b < s.rankused.toNat ∧ s.rbaseAt l + b < s.params.rankDepth := by
  have h1 := s.samplesBefore_mono (Nat.succ_le_of_lt hl)
  rw [Nat.succ_eq_add_one, s.samplesBefore_succ] at h1
  have := h.rbases l hl
  have := h.rkused
  omega

/-- A level's record words exist (R63). -/
theorem lvltab_lt {s : State} (hn : s.nlevels.toNat ≤ 32) (hl : l < s.nlevels.toNat) {k : Nat} (hk : k < 4) :
    4 * l + k < Space.lvltab.words s.params := by
  simp only [Space.words]
  omega

theorem levelSize_eq (hn : s.nlevels.toNat ≤ 32) (hl : l < s.nlevels.toNat) : levelSize l s = .ok (s.sizeAt l) := by
  rw [levelSize, memRead_of_lt (show 4 * l < _ from lvltab_lt hn hl (k := 0) (by omega))]; rfl

theorem levelWbase_eq (hn : s.nlevels.toNat ≤ 32) (hl : l < s.nlevels.toNat) : levelWbase l s = .ok (s.wbaseAt l) := by
  rw [levelWbase, memRead_of_lt (lvltab_lt hn hl (by omega))]; rfl

theorem levelRbase_eq (hn : s.nlevels.toNat ≤ 32) (hl : l < s.nlevels.toNat) : levelRbase l s = .ok (s.rbaseAt l) := by
  rw [levelRbase, memRead_of_lt (lvltab_lt hn hl (by omega))]; rfl

/-- R224, R228: the global rank is POPBASE plus the brute-force rank in the level. -/
theorem globalRank_eq (h : s.FnInv) (hn : s.nlevels.toNat ≤ 32) (hl : l < s.nlevels.toNat) {i : Nat} (hi : i < s.sizeAt l) :
    globalRank l i s = .ok (s.popbaseAt l + BitVec.ofNat 64 (s.onesBelow l i)) := by
  have hs := h.sizes l hl
  have hw : i / 64 < s.sizeAt l / 64 := by omega
  have hb : i / 512 < sampleCount (s.sizeAt l / 64) := by unfold sampleCount; omega
  have h1 := h.word_lt hl hw
  have h2 := h.sample_lt hl hb
  rw [globalRank, levelWbase_eq hn hl, ok_bind, levelRbase_eq hn hl, ok_bind,
    memRead_of_lt (by simp only [Space.words]; omega), ok_bind, addPopcounts_eq _ _ _ (by omega), ok_bind,
    memRead_of_lt (by simp only [Space.words]; omega), ok_bind, pure_eq_ok]
  congr 1
  have hsm : s.word .rankmem (s.rbaseAt l + i / 512) = BitVec.ofNat 64 (s.popBefore (s.wbaseAt l + 8 * (i / 512))) := by
    rw [h.rbases l hl, h.wbases l hl, ← h.samples l hl _ hb, BitVec.ofNat_toNat, BitVec.setWidth_eq]
  have hpb : s.popbaseAt l = BitVec.ofNat 64 (s.popBefore (s.wbaseAt l)) := by
    rw [h.wbases l hl, ← h.popbase l hl, BitVec.ofNat_toNat, BitVec.setWidth_eq]
  rw [hsm, hpb, popcount64_lowmask _ (Nat.mod_lt _ (by omega)), ← BitVec.ofNat_add, ← BitVec.ofNat_add, ← BitVec.ofNat_add,
    State.onesBelow_eq, State.popBefore_add, show i / 64 = 8 * (i / 512) + (i / 64 - 8 * (i / 512)) by omega, sumFrom_add,
    show 8 * (i / 512) + (i / 64 - 8 * (i / 512)) - 8 * (i / 512) = i / 64 - 8 * (i / 512) by omega]
  congr 1
  omega

/-- R224: the local rank is the brute-force rank. -/
theorem localRank_eq (h : s.FnInv) (hn : s.nlevels.toNat ≤ 32) (hl : l < s.nlevels.toNat) {i : Nat} (hi : i < s.sizeAt l) :
    localRank l i s = .ok (BitVec.ofNat 64 (s.onesBelow l i)) := by
  rw [localRank, globalRank_eq h hn hl hi, ok_bind, memRead_of_lt (lvltab_lt hn hl (by omega)), ok_bind, pure_eq_ok,
    show s.word .lvltab (4 * l + 3) = s.popbaseAt l from rfl, BitVec.add_comm, BitVec.add_sub_cancel]

/-- A set bit's global rank is below TOTAL (R242). -/
theorem State.FnInv.rank_lt_total (h : s.FnInv) (hl : l < s.nlevels.toNat) {i : Nat} (hi : i < s.sizeAt l)
    (hb : s.bitAt l i = true) : s.popBefore (s.wordsBefore l) + s.onesBelow l i < s.total.toNat := by
  have hs := h.sizes l hl
  have h1 : s.onesBelow l i < ones (s.bitAt l) (64 * (s.sizeAt l / 64)) := ones_lt (by omega) hb
  rw [State.ones_words, h.wbases l hl] at h1
  have h2 := s.popBefore_mono (s.wordsBefore_mono (Nat.succ_le_of_lt hl))
  rw [Nat.succ_eq_add_one, s.wordsBefore_succ, s.popBefore_add] at h2
  have := h.total
  have := h.bvused
  rw [h.bvused.1] at this
  rw [h.total.1, h.bvused.1]
  omega

end Sys2Proof.Machine
end

