-- ==== Sys2Proof/Laws/Query.lean ====
section
/-!
SUPPORT. What the query function answers on a well-formed function (43_query.md R241, R242), and on which state it depends.
-/
namespace Sys2Proof.Machine

variable {s : State} {l : Nat}

theorem bucket_lt (h : HashFn) (k : Word) (l : Nat) {size : Nat} (hs : 0 < size) : bucket h k l size < size := Nat.mod_lt _ hs

theorem probe_eq (h : s.FnInv) (hn : s.nlevels.toNat ≤ 32) (hl : l < s.nlevels.toNat) (k : Word) :
    probe k l s = .ok (bucket s.params.hash k l (s.sizeAt l), s.hits k l) := by
  have hs := h.sizes l hl
  have hb := bucket_lt s.params.hash k l (size := s.sizeAt l) (by omega)
  have hw := h.word_lt hl (j := bucket s.params.hash k l (s.sizeAt l) / 64) (by omega)
  rw [probe, levelSize_eq hn hl, ok_bind, levelWbase_eq hn hl, ok_bind, positiveSize, if_neg (by omega), ok_bind]
  simp only [bit]
  rw [memRead_of_lt (by simp only [Space.words]; omega)]
  rfl

/-- No level has the key's bit. -/
theorem queryFrom_none (h : s.FnInv) (hn : s.nlevels.toNat ≤ 32) (k : Word) (n l : Nat) (hl : l + n ≤ s.nlevels.toNat)
    (hk : ∀ j, l ≤ j → j < l + n → s.hits k j = false) : queryFrom n l k s = .ok (0, none) := by
  induction n generalizing l with
  | zero => rfl
  | succ n ih =>
    rw [queryFrom, probe_eq h hn (by omega), ok_bind]
    simp only [hk l (Nat.le_refl _) (by omega)]
    exact ih (l + 1) (by omega) fun j h1 h2 => hk j (by omega) (by omega)

/-- Level `m` is the first that has the key's bit. -/
theorem queryFrom_some (h : s.FnInv) (hn : s.nlevels.toNat ≤ 32) (k : Word) (n l m : Nat) (hl : l + n ≤ s.nlevels.toNat)
    (hlm : l ≤ m) (hm : m < l + n) (hk : ∀ j, l ≤ j → j < m → s.hits k j = false) (hit : s.hits k m = true) :
    queryFrom n l k s =
      .ok (s.popbaseAt m + BitVec.ofNat 64 (s.onesBelow m (bucket s.params.hash k m (s.sizeAt m))) + 1, some m) := by
  induction n generalizing l with
  | zero => omega
  | succ n ih =>
    rw [queryFrom, probe_eq h hn (by omega), ok_bind]
    by_cases hml : m = l
    · subst hml
      have hs := h.sizes m (by omega)
      simp only [hit, if_true]
      rw [globalRank_eq h hn (by omega) (bucket_lt _ _ _ (by omega))]
      rfl
    · simp only [hk l (Nat.le_refl _) (by omega)]
      exact ih (l + 1) (by omega) (by omega) (by omega) fun j h1 h2 => hk j (by omega) h2

theorem query_none (h : s.FnInv) (hn : s.nlevels.toNat ≤ 32) (k : Word) (hk : ∀ l < s.nlevels.toNat, s.hits k l = false) :
    query k s = .ok (0, none) :=
  queryFrom_none h hn k _ 0 (by omega) fun j _ hj => hk j (by omega)

theorem query_some (h : s.FnInv) (hn : s.nlevels.toNat ≤ 32) (k : Word) (hl : l < s.nlevels.toNat) (hit : s.hits k l = true)
    (hk : ∀ j < l, s.hits k j = false) :
    query k s = .ok (s.popbaseAt l + BitVec.ofNat 64 (s.onesBelow l (bucket s.params.hash k l (s.sizeAt l))) + 1, some l) :=
  queryFrom_some h hn k _ 0 l (by omega) (by omega) (by omega) (fun j _ hj => hk j hj) hit

/-- A key meets a bit at a first level, or at none. -/
theorem State.first_hit (s : State) (k : Word) (n : Nat) :
    (∀ l < n, s.hits k l = false) ∨ ∃ l < n, s.hits k l = true ∧ ∀ j < l, s.hits k j = false := by
  induction n with
  | zero => exact .inl fun l hl => absurd hl (Nat.not_lt_zero l)
  | succ n ih =>
    rcases ih with h | ⟨l, hl, h⟩
    · cases hn : s.hits k n with
      | true => exact .inr ⟨n, Nat.lt_succ_self n, hn, h⟩
      | false => exact .inl fun l hl => (Nat.lt_succ_iff_lt_or_eq.1 hl).elim (h l) fun e => e ▸ hn
    · exact .inr ⟨l, by omega, h⟩

/-- The number `Query` answers when level `l` is the first hit: no addition wraps, and it is at most TOTAL (R242). -/
theorem State.FnInv.index_toNat (h : s.FnInv) (hl : l < s.nlevels.toNat) (k : Word) (hit : s.hits k l = true) :
    (s.popbaseAt l + BitVec.ofNat 64 (s.onesBelow l (bucket s.params.hash k l (s.sizeAt l))) + 1).toNat =
      s.popBefore (s.wordsBefore l) + s.onesBelow l (bucket s.params.hash k l (s.sizeAt l)) + 1 ∧
    s.popBefore (s.wordsBefore l) + s.onesBelow l (bucket s.params.hash k l (s.sizeAt l)) + 1 ≤ s.total.toNat := by
  have hs := h.sizes l hl
  have h1 := h.rank_lt_total hl (bucket_lt s.params.hash k l (by omega)) hit
  have h2 := h.popbase l hl
  have h3 := s.total.isLt
  refine ⟨?_, by omega⟩
  rw [BitVec.toNat_add, BitVec.toNat_add, BitVec.toNat_ofNat, h2, Nat.mod_eq_of_lt (b := 2 ^ 64) (a := s.onesBelow _ _) (by omega),
    Nat.mod_eq_of_lt (b := 2 ^ 64) (a := _ + s.onesBelow _ _) (by omega)]
  exact Nat.mod_eq_of_lt (show _ + 1 < _ by omega)

/-- Everything `Query` can answer on a well-formed function (R242). -/
theorem query_cases (h : s.FnInv) (hn : s.nlevels.toNat ≤ 32) (k : Word) :
    (query k s = .ok (0, none) ∧ s.indexOf k = 0 ∧ ∀ l < s.nlevels.toNat, s.hits k l = false) ∨
    ∃ l < s.nlevels.toNat, query k s = .ok (s.indexOf k, some l) ∧ s.hits k l = true ∧ (∀ j < l, s.hits k j = false) ∧
      (s.indexOf k).toNat = s.popBefore (s.wordsBefore l) + s.onesBelow l (bucket s.params.hash k l (s.sizeAt l)) + 1 ∧
      (s.indexOf k).toNat ≤ s.total.toNat := by
  rcases s.first_hit k s.nlevels.toNat with hk | ⟨l, hl, hit, hk⟩
  · have := query_none h hn k hk
    exact .inl ⟨this, by rw [State.indexOf, this], hk⟩
  · have hq := query_some h hn k hl hit hk
    have hi := h.index_toNat hl k hit
    have hx : s.indexOf k = s.popbaseAt l + BitVec.ofNat 64 (s.onesBelow l (bucket s.params.hash k l (s.sizeAt l))) + 1 := by
      rw [State.indexOf, hq]
    exact .inr ⟨l, hl, by rw [hq, hx], hit, hk, by rw [hx, hi.1], by rw [hx, hi.1]; exact hi.2⟩

/-- On a well-formed function `Query` answers the key's index (R241). -/
theorem query_index (h : s.FnInv) (hn : s.nlevels.toNat ≤ 32) (k : Word) : ∃ lv, query k s = .ok (s.indexOf k, lv) := by
  rcases query_cases h hn k with ⟨h1, h2, -⟩ | ⟨l, -, h1, -⟩
  · exact ⟨none, by rw [h1, h2]⟩
  · exact ⟨some l, h1⟩

/-- An index is at most TOTAL, so at most BNKEYS: its slot exists (R283). -/
theorem State.FnInv.indexOf_le (h : s.FnInv) (hn : s.nlevels.toNat ≤ 32) (k : Word) :
    (s.indexOf k).toNat ≤ s.total.toNat ∧ (s.indexOf k).toNat ≤ s.bnkeys.toNat := by
  have ht := h.total
  rcases query_cases h hn k with ⟨-, h2, -⟩ | ⟨l, -, -, -, -, -, h2⟩
  · rw [h2]; simp
  · omega

/-! ### What the built function's readers depend on -/

/-- `t` has the built function of `s`: parameters, level count, and the words of LVLTAB, BVMEM and RANKMEM (10_state.md R67). -/
structure SameFunction (s t : State) : Prop where
  params  : t.params = s.params
  built   : t.status.built = s.status.built
  nlevels : t.nlevels = s.nlevels
  bnkeys  : t.bnkeys = s.bnkeys
  total   : t.total = s.total
  bvused  : t.bvused = s.bvused
  rankused : t.rankused = s.rankused
  lvltab  : ∀ i < 128, t.word .lvltab i = s.word .lvltab i
  bvmem   : ∀ i < s.params.bvWords, t.word .bvmem i = s.word .bvmem i
  rankmem : ∀ i < s.params.rankDepth, t.word .rankmem i = s.word .rankmem i

theorem SameFunction.refl (s : State) : SameFunction s s := by constructor <;> intros <;> rfl

theorem SameFunction.trans {t u : State} (h : SameFunction s t) (h' : SameFunction t u) : SameFunction s u where
  params := h'.params.trans h.params
  built := h'.built.trans h.built
  nlevels := h'.nlevels.trans h.nlevels
  bnkeys := h'.bnkeys.trans h.bnkeys
  total := h'.total.trans h.total
  bvused := h'.bvused.trans h.bvused
  rankused := h'.rankused.trans h.rankused
  lvltab i hi := (h'.lvltab i hi).trans (h.lvltab i hi)
  bvmem i hi := (h'.bvmem i (by rw [h.params]; exact hi)).trans (h.bvmem i hi)
  rankmem i hi := (h'.rankmem i (by rw [h.params]; exact hi)).trans (h.rankmem i hi)

variable {t : State}

/-- The records of the levels are the same. -/
theorem SameFunction.levels (h : SameFunction s t) (hn : s.nlevels.toNat ≤ 32) (hl : l < s.nlevels.toNat) :
    t.sizeAt l = s.sizeAt l ∧ t.wbaseAt l = s.wbaseAt l ∧ t.rbaseAt l = s.rbaseAt l ∧ t.popbaseAt l = s.popbaseAt l := by
  simp only [State.sizeAt, State.wbaseAt, State.rbaseAt, State.popbaseAt]
  rw [h.lvltab _ (by omega), h.lvltab _ (by omega), h.lvltab _ (by omega), h.lvltab _ (by omega)]
  exact ⟨rfl, rfl, rfl, rfl⟩

theorem SameFunction.wordsBefore (h : SameFunction s t) (hn : s.nlevels.toNat ≤ 32) (hl : l ≤ s.nlevels.toNat) :
    t.wordsBefore l = s.wordsBefore l := by
  rw [State.wordsBefore_eq, State.wordsBefore_eq]
  exact sumFrom_congr fun i hi => by rw [(h.levels hn (by omega)).1]

theorem SameFunction.samplesBefore (h : SameFunction s t) (hn : s.nlevels.toNat ≤ 32) (hl : l ≤ s.nlevels.toNat) :
    t.samplesBefore l = s.samplesBefore l := by
  rw [State.samplesBefore_eq, State.samplesBefore_eq]
  exact sumFrom_congr fun i hi => by rw [(h.levels hn (by omega)).1]

theorem SameFunction.popBefore (h : SameFunction s t) {j : Nat} (hj : j ≤ s.params.bvWords) : t.popBefore j = s.popBefore j := by
  rw [State.popBefore_eq, State.popBefore_eq]
  exact sumFrom_congr fun i hi => by rw [State.popWord, State.popWord, h.bvmem _ (by omega)]

/-- A well-formed function stays one. -/
theorem SameFunction.fnInv (h : SameFunction s t) (hn : s.nlevels.toNat ≤ 32) (hf : s.FnInv) : t.FnInv := by
  have hwb : ∀ l ≤ s.nlevels.toNat, s.wordsBefore l ≤ s.params.bvWords := fun l hl => by
    have := s.wordsBefore_mono hl
    have := hf.bvused
    omega
  have hsb : ∀ l ≤ s.nlevels.toNat, s.samplesBefore l ≤ s.params.rankDepth := fun l hl => by
    have := s.samplesBefore_mono hl
    have := hf.rkused
    omega
  have hnl : t.nlevels.toNat = s.nlevels.toNat := by rw [h.nlevels]
  refine ⟨?_, ?_, ?_, ?_, ?_, ?_, ?_, ?_, ?_, ?_⟩
  · intro l hl
    rw [hnl] at hl
    rw [(h.levels hn hl).1, h.params]
    exact hf.sizes l hl
  · intro l hl
    rw [hnl] at hl
    rw [(h.levels hn hl).2.1, h.wordsBefore hn hl.le]
    exact hf.wbases l hl
  · intro l hl
    rw [hnl] at hl
    rw [(h.levels hn hl).2.2.1, h.samplesBefore hn hl.le]
    exact hf.rbases l hl
  · rw [hnl, h.bvused, h.params, h.wordsBefore hn (Nat.le_refl _)]
    exact hf.bvused
  · rw [hnl, h.rankused, h.params, h.samplesBefore hn (Nat.le_refl _)]
    exact hf.rkused
  · intro l hl
    rw [hnl] at hl
    rw [(h.levels hn hl).2.2.2, h.wordsBefore hn hl.le, h.popBefore (hwb l hl.le)]
    exact hf.popbase l hl
  · intro l hl b hb
    rw [hnl] at hl
    rw [(h.levels hn hl).1] at hb
    have h1 := hsb (l + 1) hl
    rw [s.samplesBefore_succ] at h1
    have h2 := hwb (l + 1) hl
    rw [s.wordsBefore_succ] at h2
    have : sampleCount (s.sizeAt l / 64) = (s.sizeAt l / 64 + 7) / 8 := rfl
    rw [h.samplesBefore hn hl.le, h.wordsBefore hn hl.le, h.rankmem _ (by omega), h.popBefore (by omega)]
    exact hf.samples l hl b hb
  · rw [h.total, h.bvused, h.bnkeys, h.popBefore hf.bvused.2]
    exact hf.total
  · rw [h.bnkeys, h.params]
    exact hf.slots
  · intro i h1 h2
    rw [hnl] at h1
    rw [h.lvltab i h2]
    exact hf.above i h1 h2

/-- The bits of the levels are the same. -/
theorem SameFunction.bitAt (h : SameFunction s t) (hn : s.nlevels.toNat ≤ 32) (hf : s.FnInv) (hl : l < s.nlevels.toNat) {i : Nat}
    (hi : i < s.sizeAt l) : t.bitAt l i = s.bitAt l i := by
  have hs := hf.sizes l hl
  have := hf.word_lt hl (j := i / 64) (by omega)
  rw [State.bitAt, State.bitAt, (h.levels hn hl).2.1, h.bvmem _ (by omega)]

theorem SameFunction.hits (h : SameFunction s t) (hn : s.nlevels.toNat ≤ 32) (hf : s.FnInv) (hl : l < s.nlevels.toNat) (k : Word) :
    t.hits k l = s.hits k l := by
  have hs := hf.sizes l hl
  rw [State.hits, State.hits, h.params, (h.levels hn hl).1, h.bitAt hn hf hl (bucket_lt _ _ _ (by omega))]

/-- `Query` reads the built function alone (R245). -/
theorem SameFunction.indexOf (h : SameFunction s t) (hn : s.nlevels.toNat ≤ 32) (hf : s.FnInv) (k : Word) :
    t.indexOf k = s.indexOf k := by
  have hnl : t.nlevels.toNat = s.nlevels.toNat := by rw [h.nlevels]
  have hf' := h.fnInv hn hf
  rcases query_cases hf hn k with ⟨-, h2, h3⟩ | ⟨l, hl, -, hit, hk, h2, -⟩
  · rw [h2, State.indexOf, query_none hf' (hnl ▸ hn) k fun l hl => by rw [h.hits hn hf (hnl ▸ hl)]; exact h3 l (hnl ▸ hl)]
  · have hs := hf.sizes l hl
    have hwl := hf.wbases l hl
    rcases query_cases hf' (hnl ▸ hn) k with ⟨-, -, h3⟩ | ⟨m, hm, -, hit', hk', h2', -⟩
    · have := h3 l (hnl ▸ hl)
      rw [h.hits hn hf hl, hit] at this
      cases this
    · have hm' : m < s.nlevels.toNat := hnl ▸ hm
      have hml : m = l := by
        rw [h.hits hn hf hm'] at hit'
        rcases Nat.lt_trichotomy m l with hlt | heq | hgt
        · rw [hk m hlt] at hit'; cases hit'
        · exact heq
        · have := hk' l hgt
          rw [h.hits hn hf hl, hit] at this
          cases this
      subst hml
      apply BitVec.eq_of_toNat_eq
      have hwb := s.wordsBefore_mono hl.le
      have hbu := hf.bvused
      rw [h2, h2', h.wordsBefore hn hl.le, h.popBefore (by omega), h.params, (h.levels hn hl).1]
      congr 2
      show ones (t.bitAt m) _ = ones (s.bitAt m) _
      exact ones_congr fun i hi => h.bitAt hn hf hl (by
        have := bucket_lt s.params.hash k m (size := s.sizeAt m) (by omega)
        omega)

end Sys2Proof.Machine
end

