-- ==== Sys2Proof/Laws/Bodies.lean ====
section
/-!
SUPPORT. The parts of BUILD, ACCUM and EMIT as equations: what each answers where its accesses lie inside the memories.
-/
namespace Sys2Proof.Machine

variable {s : State}

/-! ### Keys, slots, records -/

theorem readKeys_eq (n i : Nat) (h : i + n ≤ s.params.keyDepth) :
    readKeys n i s = .ok ((List.range n).map fun j => s.word .keymem (i + j)) := by
  induction n generalizing i with
  | zero => rfl
  | succ n ih =>
    rw [readKeys, memRead_of_lt (by simp only [Space.words]; omega), ok_bind, ih _ (by omega), ok_bind, pure_eq_ok,
      List.range_succ_eq_map, List.map_cons, List.map_map]
    simp only [Function.comp_def, Nat.add_zero, Nat.succ_eq_add_one, Nat.add_assoc, Nat.add_comm 1]

/-- The keys of a build (R186, step 1). -/
theorem readKeys_zero (n : Nat) (h : n ≤ s.params.keyDepth) : readKeys n 0 s = .ok (s.keys n) := by
  rw [readKeys_eq n 0 (by omega)]
  simp only [Nat.zero_add, State.keys]

theorem clearSlots_eq (n : Nat) (h : n ≤ s.params.keyDepth) :
    clearSlots n s = .ok ((s.zero .valmem 0 n).zero .tagmem 0 (2 * n)).forgetRange := by
  rw [clearSlots, memZero_of_le (by simp only [Space.words]; omega), ok_bind,
    memZero_of_le (by simp only [Space.words, State.zero_params]; omega), ok_bind, pure_eq_ok]

theorem completeBuild_eq (n : Word) (h : n.toNat ≤ s.params.keyDepth) :
    completeBuild n s = .ok (((s.zero .valmem 0 n.toNat).zero .tagmem 0 (2 * n.toNat)).forgetRange.recordFunction n) := by
  rw [completeBuild, clearSlots_eq _ h, ok_bind, pure_eq_ok]

theorem levelRecord_eq (size : Nat) (h : s.scratch.level < 32) :
    levelRecord size s = .ok (((s.setWord .lvltab (4 * s.scratch.level) (BitVec.ofNat 64 size)).setWord .lvltab
      (4 * s.scratch.level + 1) (BitVec.ofNat 64 s.scratch.wbase)).setWord .lvltab (4 * s.scratch.level + 2)
        (BitVec.ofNat 64 s.scratch.rbase)) := by
  simp only [levelRecord]
  rw [memWrite_of_lt (by simp only [Space.words]; omega), ok_bind, memWrite_of_lt (by simp only [Space.words]; omega), ok_bind,
    memWrite_of_lt (by simp only [Space.words]; omega)]

theorem setBit_eq {sp : Space} {b n : Nat} (h : b + n / 64 < sp.words s.params) :
    setBit sp b n s = .ok (s.setWord sp (b + n / 64) (s.word sp (b + n / 64) ||| (1#64 <<< (n % 64)))) := by
  simp only [setBit]
  rw [memRead_of_lt h, ok_bind, memWrite_of_lt h]

theorem bit_eq {sp : Space} {b n : Nat} (h : b + n / 64 < sp.words s.params) :
    bit sp b n s = .ok ((s.word sp (b + n / 64)).getLsbD (n % 64)) := by
  simp only [bit]
  rw [memRead_of_lt h, ok_bind, pure_eq_ok]

theorem readTag_eq {j : Nat} (h : j < s.params.keyDepth) : readTag j s = .ok (s.tagValid j, s.tag j) := by
  rw [readTag, memRead_of_lt (by simp only [Space.words]; omega), ok_bind, memRead_of_lt (by simp only [Space.words]; omega),
    ok_bind, pure_eq_ok]
  rfl

/-- The bits of a word after `SetBit` (R151). -/
theorem getLsbD_or_bit (w : Word) {n i : Nat} (hi : i < 64) :
    (w ||| (1#64 <<< n)).getLsbD i = (w.getLsbD i || decide (i = n)) := by
  rw [BitVec.getLsbD_or, BitVec.getLsbD_shiftLeft]
  rcases Nat.lt_trichotomy i n with h | rfl | h
  · simp [h, Nat.ne_of_lt h]
  · simp [hi]
  · simp [hi, Nat.not_lt.2 h.le, Nat.ne_of_gt h, BitVec.getLsbD_one, Nat.sub_ne_zero_of_lt h]

/-! ### The scratch vectors -/

theorem levelStart_occupied (size : Nat) (sc : Scratch) {i : Nat} (hi : i < size) : (levelStart size sc).occupied i = false := by
  simp only [Scratch.occupied, levelStart, Sparse.get_clear, Nat.zero_le, hi, and_self, if_true]

theorem levelStart_collided (size : Nat) (sc : Scratch) {i : Nat} (hi : i < size) : (levelStart size sc).collided i = false := by
  simp only [Scratch.collided, levelStart, Sparse.get_clear, Nat.zero_le, hi, and_self, if_true]

/-- A key that is dropped leaves the vectors alone and counts as a copy (R189). -/
theorem firstPassKey_drop {d : Bool} {i : Nat} {k : Word} {sc : Scratch} (h : (d && sc.occupied i && sc.claimOf i == k) = true) :
    firstPassKey d i k sc = { sc with dups := sc.dups + 1 } := by rw [firstPassKey, if_pos h]

/-- A key that survives in a bucket already collided. -/
theorem firstPassKey_collided {d : Bool} {i : Nat} {k : Word} {sc : Scratch} (h : (d && sc.occupied i && sc.claimOf i == k) = false)
    (hc : sc.collided i = true) : firstPassKey d i k sc = { sc with survivors := sc.survivors ++ [k] } := by
  simp only [firstPassKey]
  rw [if_neg (by simp [h]), if_pos hc]

/-- A key that survives in a bucket another key has claimed. -/
theorem firstPassKey_occupied {d : Bool} {i : Nat} {k : Word} {sc : Scratch} (h : (d && sc.occupied i && sc.claimOf i == k) = false)
    (hc : sc.collided i = false) (ho : sc.occupied i = true) :
    firstPassKey d i k sc = { sc with survivors := sc.survivors ++ [k], coll := Sparse.put false sc.coll i true } := by
  simp only [firstPassKey]
  rw [if_neg (by simp [h]), if_neg (by simp [hc]), if_pos ho]

/-- A key that survives and claims its bucket. -/
theorem firstPassKey_claims {d : Bool} {i : Nat} {k : Word} {sc : Scratch} (h : (d && sc.occupied i && sc.claimOf i == k) = false)
    (hc : sc.collided i = false) (ho : sc.occupied i = false) :
    firstPassKey d i k sc = { sc with survivors := sc.survivors ++ [k], occ := Sparse.put false sc.occ i true,
                                      claim := Sparse.put 0#64 sc.claim i k } := by
  simp only [firstPassKey]
  rw [if_neg (by simp [h]), if_neg (by simp [hc]), if_neg (by simp [ho])]

/-! ### Rank samples -/

/-- What the forward scan adds to memory at one word (R222). -/
theorem rankWord_eq {wb rb j : Nat} (hw : wb + j < s.params.bvWords) (hr : rb + j / 8 < s.params.rankDepth) :
    rankWord wb rb j s =
      let t := if j % 8 = 0 then s.setWord .rankmem (rb + j / 8) (BitVec.ofNat 64 s.scratch.pop) else s
      .ok (t.setScratch { s.scratch with pop := s.scratch.pop + popcount64 (t.word .bvmem (wb + j)) }) := by
  rw [rankWord, sampleBefore]
  split
  · rw [memWrite_of_lt (by simp only [Space.words]; omega), ok_bind,
      memRead_of_lt (by simp only [Space.words, State.setWord_params]; omega), ok_bind, pure_eq_ok]
    rfl
  · rw [ok_bind, memRead_of_lt (by simp only [Space.words]; omega), ok_bind, pure_eq_ok]

/-! ### Counting and emitting -/

/-- ACCUM's step for a key with no index (R283). -/
theorem accumKey_notFound {t : Nat} (hf : s.FnInv) (hn : s.nlevels.toNat ≤ 32) (ht : t < s.params.keyDepth)
    (hx : s.indexOf (s.word .keymem t) = 0) : accumKey t s = .error (.raised .keyNotFound (s.word .keymem t) s) := by
  obtain ⟨lv, hq⟩ := query_index hf hn (s.word .keymem t)
  rw [accumKey, memRead_of_lt (by simp only [Space.words]; omega), ok_bind, hq, ok_bind]
  simp only [hx]
  rfl

/-- ACCUM's step for a key whose slot carries another key's tag (R283). -/
theorem accumKey_mismatch {t : Nat} (hf : s.FnInv) (hn : s.nlevels.toNat ≤ 32) (ht : t < s.params.keyDepth)
    (hx : s.indexOf (s.word .keymem t) ≠ 0) (hv : s.tagValid ((s.indexOf (s.word .keymem t)).toNat - 1) = true)
    (hk : s.tag ((s.indexOf (s.word .keymem t)).toNat - 1) ≠ s.word .keymem t) :
    accumKey t s = .error (.raised .tagMismatch (s.word .keymem t) s) := by
  obtain ⟨lv, hq⟩ := query_index hf hn (s.word .keymem t)
  have hle := hf.indexOf_le hn (s.word .keymem t)
  have hsl := hf.slots
  have hx' : (s.indexOf (s.word .keymem t)).toNat ≠ 0 := fun h => hx (BitVec.eq_of_toNat_eq h)
  rw [accumKey, memRead_of_lt (by simp only [Space.words]; omega), ok_bind, hq, ok_bind]
  simp only [ne_eq, hx, not_false_eq_true, decide_true, require_true, ok_bind]
  rw [readTag_eq (by omega), ok_bind]
  simp only [hv, Bool.true_and]
  rw [require_of_not (by simp [hk])]
  rfl

/-- ACCUM's step for a key that is counted (R283). -/
theorem accumKey_counts {t : Nat} (hf : s.FnInv) (hn : s.nlevels.toNat ≤ 32) (ht : t < s.params.keyDepth)
    (hx : s.indexOf (s.word .keymem t) ≠ 0)
    (hk : s.tagValid ((s.indexOf (s.word .keymem t)).toNat - 1) = true →
      s.tag ((s.indexOf (s.word .keymem t)).toNat - 1) = s.word .keymem t) :
    let k := s.word .keymem t
    let j := (s.indexOf k).toNat - 1
    accumKey t s = .ok ((((s.setWord .valmem j (s.word .valmem j + 1)).setWord .tagmem (2 * j) k).setWord .tagmem
      (2 * j + 1) 1).widenRange k) := by
  obtain ⟨lv, hq⟩ := query_index hf hn (s.word .keymem t)
  have hle := hf.indexOf_le hn (s.word .keymem t)
  have hsl := hf.slots
  have hx' : (s.indexOf (s.word .keymem t)).toNat ≠ 0 := fun h => hx (BitVec.eq_of_toNat_eq h)
  have hj : (s.indexOf (s.word .keymem t)).toNat - 1 < s.params.keyDepth := by omega
  simp only
  rw [accumKey, memRead_of_lt (by simp only [Space.words]; omega), ok_bind, hq, ok_bind]
  simp only [ne_eq, hx, not_false_eq_true, decide_true, require_true, ok_bind]
  rw [readTag_eq hj, ok_bind]
  simp only
  rw [require_of (by
      cases hv : s.tagValid ((s.indexOf (s.word .keymem t)).toNat - 1) with
      | false => rfl
      | true => simp [hk hv]), ok_bind, memRead_of_lt (by simp only [Space.words]; omega), ok_bind,
    memWrite_of_lt (by simp only [Space.words]; omega), ok_bind,
    memWrite_of_lt (by simp only [Space.words, State.setWord_params]; omega), ok_bind,
    memWrite_of_lt (by simp only [Space.words, State.setWord_params]; omega), ok_bind, pure_eq_ok]

/-- EMIT's word when there is room (R290). -/
theorem emitOne_eq (v : Word) (h : s.outlen.toNat < s.params.keyDepth) :
    emitOne v s = .ok (s.setWord .outmem s.outlen.toNat v).countOut := by
  rw [emitOne, require_of (by simp; omega), ok_bind, memWrite_of_lt (by simp only [Space.words]; omega), ok_bind, pure_eq_ok]

/-- EMIT's word when OUTMEM is full (R290). -/
theorem emitOne_full (v : Word) (h : s.outlen.toNat = s.params.keyDepth) :
    emitOne v s = .error (.raised .outOverflow v s) := by
  rw [emitOne, require_of_not (by simp [h])]
  rfl

/-- EMIT's step for one value is as many words as the value counts (R290). -/
theorem emitValue_eq (hf : s.FnInv) (hn : s.nlevels.toNat ≤ 32) (v : Word) :
    emitValue v s = forUp (s.countOf v) 0 (fun _ => emitOne v) s := by
  obtain ⟨lv, hq⟩ := query_index hf hn v
  have hle := hf.indexOf_le hn v
  have hsl := hf.slots
  rw [emitValue, hq, ok_bind]
  simp only [State.countOf]
  by_cases hx : s.indexOf v = 0
  · rw [if_pos hx, if_neg (by simp [hx])]
    rfl
  · have hx' : (s.indexOf v).toNat ≠ 0 := fun h => hx (BitVec.eq_of_toNat_eq h)
    rw [if_neg hx, readTag_eq (by omega), ok_bind]
    simp only
    by_cases hc : s.tagValid ((s.indexOf v).toNat - 1) = true ∧ s.tag ((s.indexOf v).toNat - 1) = v
    · rw [if_pos (by simp [hc.1, hc.2]), if_pos ⟨hx, hc⟩, memRead_of_lt (by simp only [Space.words]; omega), ok_bind]
    · rw [if_neg (by simpa using hc), if_neg fun h => hc h.2]
      rfl

end Sys2Proof.Machine
end

