-- ==== Sys2Proof/Laws/Check.lean ====
section
/-!
SUPPORT. Safety of a concrete state by evaluation: a Bool that implies `State.Safe`, for the witnesses of the tests.
-/
namespace Sys2Proof.Machine

/-- Every memory. -/
def Space.all : List Space := [.keymem, .bvmem, .rankmem, .lvltab, .valmem, .tagmem, .outmem]

/-- The address belongs to an existing word of the memory. -/
def Space.holds (p : Params) (sp : Space) (a : Nat) : Bool := decide (sp.base ≤ a) && decide (a < sp.base + 8 * sp.words p)

/-- `State.Inv`, evaluated. -/
def State.checkInv (s : State) : Bool :=
  decide s.params.Wf && memWf s.mem && (s.mem.all fun e => Space.all.any fun sp => sp.holds s.params e.1) &&
    decide ((1 ≤ s.ctrl.maxlvl.toNat ∧ s.ctrl.maxlvl.toNat ≤ 32) ∧ (1 ≤ s.latch.maxlvl.toNat ∧ s.latch.maxlvl.toNat ≤ 32) ∧
      65536 ≤ s.gamma.toNat ∧ 65536 ≤ s.latch.gamma.toNat ∧ ¬(s.status.done = true ∧ s.status.fault = true) ∧
      (s.phase = .busy → s.status.done = false ∧ s.status.fault = false) ∧
      (s.status.built = false → s.nlevels = 0 ∧ s.bnkeys = 0 ∧ s.total = 0 ∧ s.dups = 0 ∧ s.bvused = 0 ∧ s.rankused = 0) ∧
      s.nlevels.toNat ≤ 32 ∧ s.outlen.toNat ≤ s.params.keyDepth ∧
      ∀ j < s.params.keyDepth, (s.word .tagmem (2 * j + 1)).toNat ≤ 1)

theorem State.inv_of_check {s : State} (h : s.checkInv = true) : s.Inv := by
  simp only [State.checkInv, Bool.and_eq_true, decide_eq_true_eq, List.all_eq_true, List.any_eq_true] at h
  obtain ⟨⟨⟨hp, hm⟩, hpl⟩, h1, h2, h3, h4, h5, h6, h7, h8, h9, h10⟩ := h
  refine ⟨hp, hm, fun e he => ?_, h1, h2, h3, h4, h5, h6, h7, h8, h9, h10⟩
  obtain ⟨sp, -, hsp⟩ := hpl e he
  simp only [Space.holds, Bool.and_eq_true, decide_eq_true_eq] at hsp
  exact ⟨sp, (e.1 - sp.base) / 8, by omega, by simp only [Space.addr]; omega, by simp only [Space.addr]; omega⟩

/-- `State.FnInv`, evaluated. -/
def State.checkFn (s : State) : Bool :=
  decide ((∀ l < s.nlevels.toNat, s.sizeAt l % 64 = 0 ∧ 64 ≤ s.sizeAt l ∧ s.sizeAt l ≤ s.params.scratchBits) ∧
    (∀ l < s.nlevels.toNat, s.wbaseAt l = s.wordsBefore l) ∧ (∀ l < s.nlevels.toNat, s.rbaseAt l = s.samplesBefore l) ∧
    (s.bvused.toNat = s.wordsBefore s.nlevels.toNat ∧ s.bvused.toNat ≤ s.params.bvWords) ∧
    (s.rankused.toNat = s.samplesBefore s.nlevels.toNat ∧ s.rankused.toNat ≤ s.params.rankDepth)) &&
  decide ((∀ l < s.nlevels.toNat, (s.popbaseAt l).toNat = s.popBefore (s.wordsBefore l)) ∧
    (∀ l < s.nlevels.toNat, ∀ b < sampleCount (s.sizeAt l / 64),
      (s.word .rankmem (s.samplesBefore l + b)).toNat = s.popBefore (s.wordsBefore l + 8 * b)) ∧
    (s.total.toNat = s.popBefore s.bvused.toNat ∧ s.total.toNat ≤ s.bnkeys.toNat) ∧ s.bnkeys.toNat ≤ s.params.keyDepth) &&
  (List.range 128).all fun i => decide (i < 4 * s.nlevels.toNat) || s.word .lvltab i == 0

theorem State.fnInv_of_check {s : State} (h : s.checkFn = true) : s.FnInv := by
  rw [State.checkFn, Bool.and_eq_true, Bool.and_eq_true, decide_eq_true_eq, decide_eq_true_eq, List.all_eq_true] at h
  obtain ⟨⟨⟨h1, h2, h3, h4, h5⟩, h6, h7, h8, h9⟩, h10⟩ := h
  refine ⟨h1, h2, h3, h4, h5, h6, h7, h8, h9, fun i hi hi' => ?_⟩
  have := h10 i (List.mem_range.2 hi')
  simp only [Bool.or_eq_true, decide_eq_true_eq, beq_iff_eq] at this
  exact this.resolve_left (by omega)

theorem State.safe_of_check {s : State} (h : (s.checkInv && (!s.status.built || s.checkFn)) = true) : s.Safe := by
  simp only [Bool.and_eq_true, Bool.or_eq_true, Bool.not_eq_true'] at h
  refine ⟨State.inv_of_check h.1, fun hb => State.fnInv_of_check (h.2.resolve_left ?_)⟩
  simp [hb]

end Sys2Proof.Machine
end

