-- ==== Sys2Proof/Laws/Stores.lean ====
section
/-!
SUPPORT. `Stores p sps m n`: the memory `n` comes from `m` by storing to, and zeroing, existing words of the memories `sps`. What every
such sequence keeps: the canonical form, the places of the listed bytes, the form of tag words, and every byte elsewhere.
-/
namespace Sys2Proof.Machine

/-- A value that the word may hold: an odd word of TAGMEM has one bit (10_state.md R65). -/
def StoreLegal (sp : Space) (i : Nat) (v : Word) : Prop := sp = .tagmem → i % 2 = 1 → v.toNat ≤ 1

theorem storeLegal_of_ne {sp : Space} {i : Nat} {v : Word} (h : sp ≠ .tagmem) : StoreLegal sp i v := fun he => absurd he h

inductive Stores (p : Params) (sps : List Space) : List Host.Cell → List Host.Cell → Prop
  | refl (m : List Host.Cell) : Stores p sps m m
  | word {m n : List Host.Cell} (h : Stores p sps m n) (sp : Space) (i : Nat) (v : Word) (hs : sp ∈ sps) (hi : i < sp.words p)
      (hv : StoreLegal sp i v) : Stores p sps m (writeWord n (sp.addr i) v)
  | zero {m n : List Host.Cell} (h : Stores p sps m n) (sp : Space) (i c : Nat) (hs : sp ∈ sps) (hi : c = 0 ∨ i + c ≤ sp.words p) :
      Stores p sps m (zeroWords n (sp.addr i) c)

variable {p : Params} {sps sqs : List Space} {m n o : List Host.Cell}

theorem Stores.trans (h : Stores p sps m n) (h' : Stores p sps n o) : Stores p sps m o := by
  induction h' with
  | refl => exact h
  | word _ sp i v hs hi hv ih => exact .word ih sp i v hs hi hv
  | zero _ sp i c hs hi ih => exact .zero ih sp i c hs hi

theorem Stores.weaken (h : Stores p sps m n) (hs : ∀ sp ∈ sps, sp ∈ sqs) : Stores p sqs m n := by
  induction h with
  | refl => exact .refl _
  | word _ sp i v hm hi hv ih => exact .word ih sp i v (hs sp hm) hi hv
  | zero _ sp i c hm hi ih => exact .zero ih sp i c (hs sp hm) hi

/-- Every byte outside the memories is as before. -/
theorem Stores.bytes (h : Stores p sps m n) (a : Nat) (ha : ∀ sp ∈ sps, a < sp.base ∨ sp.base + 8 * sp.words p ≤ a) :
    readByte n a = readByte m a := by
  induction h with
  | refl => rfl
  | word _ sp i v hs hi _ ih =>
    have := ha sp hs
    rw [readByte_writeWord_of_outside _ _ (by simp only [Space.addr]; omega), ih]
  | zero _ sp i c hs hi ih =>
    have := ha sp hs
    rw [readByte_zeroWords, if_neg (by simp only [Space.addr]; omega), ih]

/-- The words of a memory that is not among them are as before. -/
theorem Stores.word_of_not_mem (h : Stores p sps m n) (hp : p.Wf) {sp : Space} (hs : sp ∉ sps) {i : Nat} (hi : i < sp.words p) :
    readWord n (sp.addr i) = readWord m (sp.addr i) := by
  refine readWord_congr fun k hk => h.bytes _ fun sq hsq => ?_
  have h1 := Space.base_apart (sp := sp) (sq := sq) fun he => hs (he ▸ hsq)
  have h2 := Space.addr_bounds hp hi
  have h3 := sq.words_le hp
  omega

theorem Stores.memWf (h : Stores p sps m n) (hm : memWf m = true) : memWf n = true := by
  induction h with
  | refl => exact hm
  | word _ _ _ _ _ _ _ ih => exact memWf_writeWord ih _ _
  | zero _ _ _ _ _ _ ih => exact memWf_zeroWords ih _ _

/-! ### Where the listed bytes lie -/

/-- Every listed byte belongs to a word that exists. -/
def Placed (p : Params) (m : List Host.Cell) : Prop :=
  ∀ e ∈ m, ∃ (sp : Space) (i : Nat), i < sp.words p ∧ sp.addr i ≤ e.1 ∧ e.1 < sp.addr i + 8

theorem placed_writeByte (hm : Placed p m) {sp : Space} {i k : Nat} (hi : i < sp.words p) (hk : k < 8) (v : Byte) :
    Placed p (writeByte m (sp.addr i + k) v) := fun e he => by
  rcases Sparse.mem_put he with h | ⟨rfl, -⟩
  · exact hm e h
  · exact ⟨sp, i, hi, by simp only; omega, by simp only; omega⟩

theorem placed_writeWord (hm : Placed p m) {sp : Space} {i : Nat} (hi : i < sp.words p) (v : Word) :
    Placed p (writeWord m (sp.addr i) v) := by
  rw [writeWord_eq]
  iterate 8 refine placed_writeByte ?_ hi (by omega) _
  exact hm

theorem placed_zeroWords (hm : Placed p m) (a c : Nat) : Placed p (zeroWords m a c) :=
  fun e he => hm e (List.mem_filter.1 he).1

theorem Stores.placed (h : Stores p sps m n) (hm : Placed p m) : Placed p n := by
  induction h with
  | refl => exact hm
  | word _ _ _ v _ hi _ ih => exact placed_writeWord ih hi v
  | zero _ _ _ _ _ _ ih => exact placed_zeroWords ih _ _

/-! ### Tag words -/

/-- Bits [63:1] of an odd word of TAGMEM read 0. -/
def TagBits (p : Params) (m : List Host.Cell) : Prop :=
  ∀ j < p.keyDepth, (readWord m (Space.tagmem.addr (2 * j + 1))).toNat ≤ 1

theorem tagBits_writeWord (hp : p.Wf) (hw : memWf m = true) (hm : TagBits p m) {sp : Space} {i : Nat} (hi : i < sp.words p) {v : Word}
    (hv : StoreLegal sp i v) : TagBits p (writeWord m (sp.addr i) v) := fun j hj => by
  have hj' : 2 * j + 1 < Space.tagmem.words p := by simp only [Space.words]; omega
  by_cases he : sp = .tagmem ∧ i = 2 * j + 1
  · obtain ⟨rfl, rfl⟩ := he
    rw [readWord_writeWord_same hw]
    exact hv rfl (by omega)
  · rw [readWord_writeWord_of_disjoint _ _ (Space.addr_apart hp hj' hi (by
      by_cases hs : sp = .tagmem
      · exact .inr fun h => he ⟨hs, h.symm⟩
      · exact .inl (Ne.symm hs)))]
    exact hm j hj

theorem tagBits_zeroWords (hp : p.Wf) (hm : TagBits p m) {sp : Space} {i c : Nat} (hi : c = 0 ∨ i + c ≤ sp.words p) :
    TagBits p (zeroWords m (sp.addr i) c) := fun j hj => by
  have hj' : 2 * j + 1 < Space.tagmem.words p := by simp only [Space.words]; omega
  rcases hi with rfl | hi
  · rw [readWord_congr (n := m) (b := Space.tagmem.addr (2 * j + 1)) fun k _ => by rw [readByte_zeroWords, if_neg (by omega)]]
    exact hm j hj
  by_cases hin : sp = .tagmem ∧ i ≤ 2 * j + 1 ∧ 2 * j + 1 < i + c
  · obtain ⟨rfl, h1, h2⟩ := hin
    rw [readWord_zeroWords_inside _ (by simp only [Space.addr]; omega) (by simp only [Space.addr]; omega)]
    exact Nat.zero_le _
  · rw [readWord_zeroWords_of_outside]
    · exact hm j hj
    · by_cases hs : sp = .tagmem
      · subst hs
        simp only [true_and] at hin
        simp only [Space.addr]
        omega
      · have h1 := Space.base_apart hs
        have h2 := Space.addr_bounds hp hj'
        have h3 := sp.words_le hp
        simp only [Space.addr] at h2 ⊢
        omega

theorem Stores.tagBits (h : Stores p sps m n) (hp : p.Wf) (hw : Sys2Proof.Machine.memWf m = true) (hm : TagBits p m) :
    TagBits p n := by
  induction h with
  | refl => exact hm
  | word h _ _ _ _ hi hv ih => exact tagBits_writeWord hp (h.memWf hw) ih hi hv
  | zero _ _ _ _ _ hi ih => exact tagBits_zeroWords hp ih hi

/-! ### The free words of a reset -/

theorem freeWordAt_legal (c : Nat) (sp : Space) (i : Nat) : StoreLegal sp i (freeWordAt c sp i) := fun hs hi => by
  simp only [freeWordAt, hs, hi, and_self, if_true, BitVec.toNat_and]
  exact Nat.and_le_right

/-- Freeing words is storing to them. -/
theorem Stores.freeWords (c : Nat) (sp : Space) (hs : sp ∈ sps) (k i : Nat) (hi : i + k ≤ sp.words p) (h : Stores p sps m n) :
    Stores p sps m (freeWords c sp k i n) := by
  induction k generalizing i n with
  | zero => exact h
  | succ k ih => exact ih (i + 1) (by omega) (.word h sp i _ hs (by omega) (freeWordAt_legal c sp i))

theorem Stores.freeSpaces (c : Nat) (h : Stores p sps m n) (hs : ∀ sp ∈ sqs, sp ∈ sps) :
    Stores p sps m (Sys2Proof.Machine.freeSpaces c p sqs n) := by
  unfold Sys2Proof.Machine.freeSpaces
  induction sqs generalizing n with
  | nil => exact h
  | cons sq sqs ih =>
    exact ih (.freeWords c sq (hs sq (by simp)) _ 0 (by omega) h) fun sp hsp => hs sp (by simp [hsp])

/-- A reset's memory comes by storing to the freed memories and LVLTAB (R372, R370). -/
theorem Stores.resetWith (s : State) (hs : ∀ sp ∈ sqs, sp ∈ sps) (hl : Space.lvltab ∈ sps) :
    Stores s.params sps s.mem (s.resetWith sqs).mem :=
  .zero (.freeSpaces _ (.refl _) hs) .lvltab 0 128 hl (.inr (Nat.le_refl _))

/-- The memory of the reset state is canonical. -/
theorem memWf_reset : Sys2Proof.Machine.memWf State.reset.mem = true := rfl

end Sys2Proof.Machine
end

