-- ==== Sys2Proof/Laws/Frame.lean ====
section
/-!
SUPPORT. What the pseudocode of a command cannot change: `Keeps sps s t` says that `t` differs from `s` in the built-function
registers, the range, OUTLEN, three STATUS bits, the scratch state and the words of the memories `sps` at most. One lemma a body.
-/
namespace Sys2Proof.Machine

/-- `t` is a state that the pseudocode of a command writing the memories `sps` can have reached from `s`. -/
structure Keeps (sps : List Space) (s t : State) : Prop where
  params    : t.params = s.params
  ctrl      : t.ctrl = s.ctrl
  phase     : t.phase = s.phase
  done      : t.status.done = s.status.done
  fault     : t.status.fault = s.status.fault
  rej       : t.status.rej = s.status.rej
  cmd       : t.cmd = s.cmd
  nkeys     : t.nkeys = s.nkeys
  gamma     : t.gamma = s.gamma
  arg0      : t.arg0 = s.arg0
  arg1      : t.arg1 = s.arg1
  res0      : t.res0 = s.res0
  res1      : t.res1 = s.res1
  faultCode : t.faultCode = s.faultCode
  faultInfo : t.faultInfo = s.faultInfo
  faultCmd  : t.faultCmd = s.faultCmd
  latch     : t.latch = s.latch
  inbox     : t.inbox = s.inbox
  answer    : t.answer = s.answer
  freeCount : t.freeCount = s.freeCount
  stores    : Stores s.params sps s.mem t.mem

variable {sps : List Space} {s t u : State}

/-- The raise half of `Ends`: the code is one of R340's, and the state was reached from `s`. -/
abbrev KeepsOnFault (sps : List Space) (s : State) : FaultCode → Word → State → Prop :=
  fun c _ t => c ≠ .none ∧ Keeps sps s t

theorem Keeps.refl (sps : List Space) (s : State) : Keeps sps s s := by
  constructor <;> first | rfl | exact .refl _

theorem Keeps.trans (h : Keeps sps s t) (h' : Keeps sps t u) : Keeps sps s u where
  params := h'.params.trans h.params
  ctrl := h'.ctrl.trans h.ctrl
  phase := h'.phase.trans h.phase
  done := h'.done.trans h.done
  fault := h'.fault.trans h.fault
  rej := h'.rej.trans h.rej
  cmd := h'.cmd.trans h.cmd
  nkeys := h'.nkeys.trans h.nkeys
  gamma := h'.gamma.trans h.gamma
  arg0 := h'.arg0.trans h.arg0
  arg1 := h'.arg1.trans h.arg1
  res0 := h'.res0.trans h.res0
  res1 := h'.res1.trans h.res1
  faultCode := h'.faultCode.trans h.faultCode
  faultInfo := h'.faultInfo.trans h.faultInfo
  faultCmd := h'.faultCmd.trans h.faultCmd
  latch := h'.latch.trans h.latch
  inbox := h'.inbox.trans h.inbox
  answer := h'.answer.trans h.answer
  freeCount := h'.freeCount.trans h.freeCount
  stores := h.stores.trans (h.params ▸ h'.stores)

/-- Every byte outside the memories is as before. -/
theorem Keeps.bytes (h : Keeps sps s t) (a : Nat) (ha : ∀ sp ∈ sps, a < sp.base ∨ sp.base + 8 * sp.words s.params ≤ a) :
    readByte t.mem a = readByte s.mem a := h.stores.bytes a ha

/-- Fewer memories written is less changed. -/
theorem Keeps.weaken {sqs : List Space} (h : Keeps sps s t) (hs : ∀ sp ∈ sps, sp ∈ sqs) : Keeps sqs s t :=
  { h with stores := h.stores.weaken hs }

theorem Keeps.setWord (sp : Space) (i : Nat) (v : Word) (hs : sp ∈ sps) (hi : i < sp.words s.params) (hv : StoreLegal sp i v) :
    Keeps sps s (s.setWord sp i v) := { Keeps.refl sps s with stores := .word (.refl _) sp i v hs hi hv }

theorem Keeps.zero (sp : Space) (i n : Nat) (hs : sp ∈ sps) (hi : n = 0 ∨ i + n ≤ sp.words s.params) :
    Keeps sps s (s.zero sp i n) := { Keeps.refl sps s with stores := .zero (.refl _) sp i n hs hi }

theorem Keeps.setScratch (h : Keeps sps s t) (sc : Scratch) : Keeps sps s (t.setScratch sc) := h.trans { Keeps.refl sps _ with }

theorem Keeps.dropFunction (hs : Space.lvltab ∈ sps) : Keeps sps s s.dropFunction :=
  { Keeps.refl sps s with stores := (Keeps.zero (s := s) .lvltab 0 128 hs (.inr (Nat.le_refl _))).stores }

/-! ### Shared operations -/

theorem keeps_memWrite {P : FaultCode → Word → State → Prop} (sp : Space) (i : Nat) (v : Word) (hs : sp ∈ sps)
    (hv : StoreLegal sp i v) (h : Keeps sps s t) : Ends P (Keeps sps s) (memWrite sp i v t) :=
  ends_memWrite fun hi => h.trans (.setWord sp i v hs hi hv)

theorem keeps_memZero {P : FaultCode → Word → State → Prop} (sp : Space) (i n : Nat) (hs : sp ∈ sps)
    (h : Keeps sps s t) : Ends P (Keeps sps s) (memZero sp i n t) :=
  ends_memZero fun hi => h.trans (.zero sp i n hs hi)

theorem keeps_setBit {P : FaultCode → Word → State → Prop} (sp : Space) (b n : Nat) (hs : sp ∈ sps)
    (hv : sp ≠ .tagmem) (h : Keeps sps s t) : Ends P (Keeps sps s) (setBit sp b n t) :=
  ends_setBit fun hi => h.trans (.setWord sp _ _ hs hi (storeLegal_of_ne hv))

theorem ends_any_memRead {P : FaultCode → Word → State → Prop} (sp : Space) (i : Nat) (t : State) :
    Ends P (fun _ => True) (memRead sp i t) := ends_memRead fun _ => trivial

theorem keeps_require {Q : Unit → Prop} {ok : Bool} {c : FaultCode} {i : Word} (hc : c ≠ .none) (h : Keeps sps s t)
    (hQ : Q ()) : Ends (KeepsOnFault sps s) Q (require ok c i t) :=
  ends_require (fun _ => hQ) fun _ => ⟨hc, h⟩

theorem keeps_requireBuilt (h : Keeps sps s t) : Ends (KeepsOnFault sps s) (fun _ => True) (requireBuilt t) :=
  keeps_require (by decide) h trivial

/-! ### Reading bodies: no fault of theirs but the checks, and no change of state -/

theorem ends_levelSize {P : FaultCode → Word → State → Prop} (l : Nat) (t : State) :
    Ends P (fun _ => True) (levelSize l t) := (ends_any_memRead _ _ t).bind fun _ _ => trivial

theorem ends_levelWbase {P : FaultCode → Word → State → Prop} (l : Nat) (t : State) :
    Ends P (fun _ => True) (levelWbase l t) := (ends_any_memRead _ _ t).bind fun _ _ => trivial

theorem ends_levelRbase {P : FaultCode → Word → State → Prop} (l : Nat) (t : State) :
    Ends P (fun _ => True) (levelRbase l t) := (ends_any_memRead _ _ t).bind fun _ _ => trivial

theorem ends_any_bit {P : FaultCode → Word → State → Prop} (sp : Space) (b n : Nat) (t : State) :
    Ends P (fun _ => True) (bit sp b n t) := ends_bit fun _ => trivial

theorem ends_addPopcounts {P : FaultCode → Word → State → Prop} (n i : Nat) (r : Word) (t : State) :
    Ends P (fun _ => True) (addPopcounts n i r t) := by
  induction n generalizing i r with
  | zero => trivial
  | succ n ih => exact (ends_any_memRead _ _ t).bind fun _ _ => ih _ _

theorem ends_globalRank {P : FaultCode → Word → State → Prop} (l i : Nat) (t : State) :
    Ends P (fun _ => True) (globalRank l i t) :=
  (ends_levelWbase l t).bind fun _ _ => (ends_levelRbase l t).bind fun _ _ => (ends_any_memRead _ _ t).bind fun _ _ =>
    (ends_addPopcounts _ _ _ t).bind fun _ _ => (ends_any_memRead _ _ t).bind fun _ _ => trivial

theorem ends_localRank {P : FaultCode → Word → State → Prop} (l i : Nat) (t : State) :
    Ends P (fun _ => True) (localRank l i t) :=
  (ends_globalRank l i t).bind fun _ _ => (ends_any_memRead _ _ t).bind fun _ _ => trivial

theorem ends_positiveSize {P : FaultCode → Word → State → Prop} (l n : Nat) : Ends P (fun _ => n ≠ 0) (positiveSize l n) := by
  unfold positiveSize
  split
  · trivial
  · assumption

theorem ends_probe {P : FaultCode → Word → State → Prop} (k : Word) (l : Nat) (t : State) :
    Ends P (fun _ => True) (probe k l t) := by
  refine (ends_levelSize l t).bind fun _ _ => (ends_levelWbase l t).bind fun _ _ => (ends_positiveSize _ _).bind fun _ _ => ?_
  exact (ends_any_bit _ _ _ t).bind fun _ _ => trivial

theorem ends_queryFrom {P : FaultCode → Word → State → Prop} (n l : Nat) (k : Word) (t : State) :
    Ends P (fun _ => True) (queryFrom n l k t) := by
  induction n generalizing l with
  | zero => trivial
  | succ n ih =>
    refine (ends_probe k l t).bind fun (i, b) _ => ?_
    cases b
    · exact ih _
    · exact (ends_globalRank _ _ t).bind fun _ _ => trivial

theorem ends_query {P : FaultCode → Word → State → Prop} (k : Word) (t : State) :
    Ends P (fun _ => True) (query k t) := ends_queryFrom _ _ _ _

theorem ends_readTag {P : FaultCode → Word → State → Prop} (j : Nat) (t : State) :
    Ends P (fun _ => True) (readTag j t) :=
  (ends_any_memRead _ _ t).bind fun _ _ => (ends_any_memRead _ _ t).bind fun _ _ => trivial

theorem ends_readKeys {P : FaultCode → Word → State → Prop} (n i : Nat) (t : State) :
    Ends P (fun _ => True) (readKeys n i t) := by
  induction n generalizing i with
  | zero => trivial
  | succ n ih => exact (ends_any_memRead _ _ t).bind fun _ _ => (ih _).bind fun _ _ => trivial

theorem keeps_requireIndex (x : Word) (h : Keeps sps s t) : Ends (KeepsOnFault sps s) (fun _ => True) (requireIndex x t) :=
  (keeps_requireBuilt h).bind fun _ _ => keeps_require (by decide) h trivial

theorem keeps_requirePosition (l n : Word) (h : Keeps sps s t) :
    Ends (KeepsOnFault sps s) (fun _ => True) (requirePosition l n t) :=
  (keeps_requireBuilt h).bind fun _ _ => (keeps_require (Q := fun _ => True) (by decide) h trivial).bind fun _ _ =>
    (ends_levelSize _ t).bind fun _ _ => keeps_require (by decide) h trivial

/-! ### Writing bodies -/

theorem keeps_clearSlots (n : Nat) (hv : Space.valmem ∈ sps) (ht : Space.tagmem ∈ sps) (h : Keeps sps s t) :
    Ends (KeepsOnFault sps s) (Keeps sps s) (clearSlots n t) :=
  (keeps_memZero _ _ _ hv h).bind fun _ hu => (keeps_memZero _ _ _ ht hu).bind fun _ hw =>
    hw.trans { Keeps.refl sps _ with }

theorem keeps_secondPassKey (idx : Word → Nat) (k : Word) (hb : Space.bvmem ∈ sps) (h : Keeps sps s t) :
    Ends (KeepsOnFault sps s) (Keeps sps s) (secondPassKey idx k t) := by
  unfold secondPassKey
  split
  · exact h.trans { Keeps.refl sps _ with }
  · exact keeps_setBit _ _ _ hb (by decide) h

theorem keeps_secondPass (idx : Word → Nat) (size : Nat) (hb : Space.bvmem ∈ sps) (h : Keeps sps s t) :
    Ends (KeepsOnFault sps s) (Keeps sps s) (secondPass idx size t) :=
  (keeps_memZero _ _ _ hb h).bind fun _ hu => Ends.forKeys hu fun _ _ _ hw => keeps_secondPassKey _ _ hb hw

theorem keeps_levelRecord (size : Nat) (hl : Space.lvltab ∈ sps) (h : Keeps sps s t) :
    Ends (KeepsOnFault sps s) (Keeps sps s) (levelRecord size t) :=
  (keeps_memWrite _ _ _ hl (storeLegal_of_ne (by decide)) h).bind fun _ hu =>
    (keeps_memWrite _ _ _ hl (storeLegal_of_ne (by decide)) hu).bind fun _ hw =>
      keeps_memWrite _ _ _ hl (storeLegal_of_ne (by decide)) hw

theorem keeps_buildLevel (d : Bool) (hb : Space.bvmem ∈ sps) (hl : Space.lvltab ∈ sps) (h : Keeps sps s t) :
    Ends (KeepsOnFault sps s) (Keeps sps s) (buildLevel d t) := by
  refine (keeps_require (Q := fun _ => True) (by decide) h trivial).bind fun _ _ => ?_
  refine (keeps_secondPass _ _ hb (h.setScratch _)).bind fun _ hu => ?_
  refine (keeps_levelRecord _ hl hu).bind fun _ hw => ?_
  exact hw.setScratch _

theorem keeps_cascade (d : Bool) (n : Nat) (hb : Space.bvmem ∈ sps) (hl : Space.lvltab ∈ sps) (h : Keeps sps s t) :
    Ends (KeepsOnFault sps s) (Keeps sps s) (cascade d n t) := by
  induction n generalizing t with
  | zero =>
    unfold cascade
    split
    · exact h
    · exact ⟨by decide, h⟩
  | succ n ih =>
    unfold cascade
    split
    · exact h
    · exact (keeps_buildLevel d hb hl h).bind fun _ hu => ih hu

theorem keeps_rankWord (wb rb j : Nat) (hr : Space.rankmem ∈ sps) (h : Keeps sps s t) :
    Ends (KeepsOnFault sps s) (Keeps sps s) (rankWord wb rb j t) := by
  unfold rankWord
  refine Ends.bind (Q := Keeps sps s) ?_ fun u hu => ?_
  · unfold sampleBefore
    split
    · exact keeps_memWrite _ _ _ hr (storeLegal_of_ne (by decide)) h
    · exact h
  · refine (ends_any_memRead _ _ u).bind fun _ _ => ?_
    exact hu.setScratch _

theorem keeps_rankLevel (l : Nat) (hr : Space.rankmem ∈ sps) (hl : Space.lvltab ∈ sps) (h : Keeps sps s t) :
    Ends (KeepsOnFault sps s) (Keeps sps s) (rankLevel l t) :=
  (ends_levelSize l t).bind fun _ _ => (ends_levelWbase l t).bind fun _ _ => (ends_levelRbase l t).bind fun _ _ =>
    (keeps_memWrite _ _ _ hl (storeLegal_of_ne (by decide)) h).bind fun _ hu =>
      Ends.forUp (fun _ => Keeps sps s) hu fun _ _ _ _ hw => keeps_rankWord _ _ _ hr hw

theorem keeps_buildRanks (n : Nat) (hr : Space.rankmem ∈ sps) (hl : Space.lvltab ∈ sps) (h : Keeps sps s t) :
    Ends (KeepsOnFault sps s) (Keeps sps s) (buildRanks n t) :=
  Ends.forUp (fun _ => Keeps sps s) (h.setScratch _) fun _ _ _ _ hw => keeps_rankLevel _ hr hl hw

theorem keeps_completeBuild (n : Word) (hv : Space.valmem ∈ sps) (ht : Space.tagmem ∈ sps) (h : Keeps sps s t) :
    Ends (KeepsOnFault sps s) (Keeps sps s) (completeBuild n t) :=
  (keeps_clearSlots _ hv ht h).bind fun _ hu => hu.trans { Keeps.refl sps _ with }

/-- The memories BUILD may write (R127). -/
abbrev buildSpaces : List Space := [.bvmem, .rankmem, .lvltab, .valmem, .tagmem]

theorem keeps_buildBody (d : Bool) (hs : ∀ sp ∈ buildSpaces, sp ∈ sps) (h : Keeps sps s t) :
    Ends (KeepsOnFault sps s) (Keeps sps s) (buildBody d t) := by
  have hl := hs .lvltab (by decide)
  have hd : Keeps sps s t.dropFunction := h.trans (.dropFunction hl)
  unfold buildBody
  refine (keeps_require (Q := fun _ => True) (by decide) hd trivial).bind fun _ _ => ?_
  refine (ends_readKeys _ _ _).bind fun _ _ => ?_
  refine (keeps_cascade d _ (hs .bvmem (by decide)) hl (hd.setScratch _)).bind fun _ hu => ?_
  refine (keeps_buildRanks _ (hs .rankmem (by decide)) hl hu).bind fun _ hw => ?_
  exact keeps_completeBuild _ (hs .valmem (by decide)) (hs .tagmem (by decide)) hw

theorem Keeps.widenRange (k : Word) (h : Keeps sps s t) : Keeps sps s (t.widenRange k) := by
  unfold State.widenRange
  split <;> exact h.trans { Keeps.refl sps _ with }

theorem keeps_accumKey (i : Nat) (hv : Space.valmem ∈ sps) (ht : Space.tagmem ∈ sps) (h : Keeps sps s t) :
    Ends (KeepsOnFault sps s) (Keeps sps s) (accumKey i t) :=
  (ends_any_memRead _ _ t).bind fun _ _ => (ends_query _ t).bind fun _ _ =>
    (keeps_require (Q := fun _ => True) (by decide) h trivial).bind fun _ _ => (ends_readTag _ t).bind fun _ _ =>
      (keeps_require (Q := fun _ => True) (by decide) h trivial).bind fun _ _ => (ends_any_memRead _ _ t).bind fun _ _ =>
        (keeps_memWrite _ _ _ hv (storeLegal_of_ne (by decide)) h).bind fun _ h1 =>
          (keeps_memWrite _ _ _ ht (fun _ ho => by omega) h1).bind fun _ h2 =>
            (keeps_memWrite _ _ _ ht (fun _ _ => by decide) h2).bind fun _ h3 => h3.widenRange _

theorem keeps_accumBody (hv : Space.valmem ∈ sps) (ht : Space.tagmem ∈ sps) (h : Keeps sps s t) :
    Ends (KeepsOnFault sps s) (Keeps sps s) (accumBody t) :=
  (keeps_requireBuilt h).bind fun _ _ => (keeps_require (Q := fun _ => True) (by decide) h trivial).bind fun _ _ =>
    Ends.forUp (fun _ => Keeps sps s) h fun _ _ _ _ hw => keeps_accumKey _ hv ht hw

theorem keeps_emitOne (v : Word) (ho : Space.outmem ∈ sps) (h : Keeps sps s t) :
    Ends (KeepsOnFault sps s) (Keeps sps s) (emitOne v t) :=
  (keeps_require (Q := fun _ => True) (by decide) h trivial).bind fun _ _ =>
    (keeps_memWrite _ _ _ ho (storeLegal_of_ne (by decide)) h).bind fun _ hu => hu.trans { Keeps.refl sps _ with }

theorem keeps_emitValue (v : Word) (ho : Space.outmem ∈ sps) (h : Keeps sps s t) :
    Ends (KeepsOnFault sps s) (Keeps sps s) (emitValue v t) := by
  refine (ends_query v t).bind fun (x, _) _ => ?_
  dsimp only
  split
  · exact h
  · refine (ends_readTag _ t).bind fun (valid, tag) _ => ?_
    dsimp only
    split
    · exact (ends_any_memRead _ _ t).bind fun _ _ =>
        Ends.forUp (fun _ => Keeps sps s) h fun _ _ _ _ hw => keeps_emitOne _ ho hw
    · exact h

theorem keeps_emitBody (ho : Space.outmem ∈ sps) (h : Keeps sps s t) :
    Ends (KeepsOnFault sps s) (Keeps sps s) (emitBody t) := by
  refine (keeps_requireBuilt h).bind fun _ _ => ?_
  have h' : Keeps sps s t.startOutput := h.trans { Keeps.refl sps _ with }
  split
  · exact Ends.forUp (fun _ => Keeps sps s) h' fun _ _ _ _ hw => keeps_emitValue _ ho hw
  · exact h'

end Sys2Proof.Machine
end

