-- ==== Sys2Proof/Laws/PerInstr.lean ====
section
/-!
SUPPORT. Facts about each command as syntax. Family `WordFields`: a command is well formed, and its word splits into the fields it
is written with (30_encoding.md R120, R125, R126).
-/
namespace Sys2Proof.Laws.WordFields

/-- The word of `i` has exactly the fields of `i`, and they are legal. -/
def Statement (i : Instr) : Prop := Fields.ofWord (encode i) = i.fields ∧ i.WellFormed

theorem nop : Statement .nop := ⟨by decide, by unfold Instr.WellFormed; decide⟩
theorem build (d : Bool) : Statement (.build d) := by
  cases d <;> exact ⟨by decide, by unfold Instr.WellFormed; decide⟩
theorem query : Statement .query := ⟨by decide, by unfold Instr.WellFormed; decide⟩
theorem lookup : Statement .lookup := ⟨by decide, by unfold Instr.WellFormed; decide⟩
theorem set : Statement .set := ⟨by decide, by unfold Instr.WellFormed; decide⟩
theorem clrvals : Statement .clrvals := ⟨by decide, by unfold Instr.WellFormed; decide⟩
theorem accum : Statement .accum := ⟨by decide, by unfold Instr.WellFormed; decide⟩
theorem emit : Statement .emit := ⟨by decide, by unfold Instr.WellFormed; decide⟩
theorem sort (p : Bool) : Statement (.sort p) := by
  cases p <;> exact ⟨by decide, by unfold Instr.WellFormed; decide⟩
theorem rank : Statement .rank := ⟨by decide, by unfold Instr.WellFormed; decide⟩
theorem hash : Statement .hash := ⟨by decide, by unfold Instr.WellFormed; decide⟩
theorem bitget : Statement .bitget := ⟨by decide, by unfold Instr.WellFormed; decide⟩
theorem inval : Statement .inval := ⟨by decide, by unfold Instr.WellFormed; decide⟩

end Sys2Proof.Laws.WordFields
end

