-- ==== Sys2Proof/Machine/Script.lean ====
section
/-!
DEFINITION. Host programs (30_encoding.md R135-R137): mnemonics, and the pseudo-instructions as lists of acts. R137 gives the
transactions and their order; when each falls relative to a command still running is free (70_reset_and_hazards.md R390, I20), and
the `early` marks of these helpers are the model's own choice of one such timing (DESIGN CHOICE, log 23). An inbox with other marks is
the same program at another time.
-/
namespace Sys2Proof.Machine

/-- The mnemonic of a command, a set flag written as a suffix (R135). -/
def mnemonic : Instr → String
  | .nop => "NOP"
  | .build d => if d then "BUILD.D" else "BUILD"
  | .query => "QUERY"
  | .lookup => "LOOKUP"
  | .set => "SET"
  | .clrvals => "CLRVALS"
  | .accum => "ACCUM"
  | .emit => "EMIT"
  | .sort p => if p then "SORT.P" else "SORT"
  | .rank => "RANK"
  | .hash => "HASH"
  | .bitget => "BITGET"
  | .inval => "INVAL"

/-- Every command with every flag. -/
def allCommands : List Instr :=
  [.nop, .build false, .build true, .query, .lookup, .set, .clrvals, .accum, .emit] ++
  [.sort false, .sort true, .rank, .hash, .bitget, .inval]

/-- The command word a mnemonic is assembled to (R135). -/
def assemble (m : String) : Option Word := (allCommands.find? fun i => mnemonic i == m).map encode

/-- The bus address of word `i` of a memory (R136). -/
def Space.busAddr (sp : Space) (i : Nat) : Addr := BitVec.ofNat 32 (sp.addr i)

/-- An act the host does after the running command, if any: `early = 0`. DESIGN CHOICE (log 23): it could as well come before. -/
def later (a : Act) : Pending := { act := a, early := 0 }

/-- `wr REG, V` (R136), placed after a running command (DESIGN CHOICE, log 23). -/
def wrCsr (c : Csr) (v : Word) : Pending := later (.write c.addr v)

/-- `rd REG` (R136), placed after a running command (DESIGN CHOICE, log 23). -/
def rdCsr (c : Csr) : Pending := later (.read c.addr)

/-- `cmd M` (R137). DESIGN CHOICE (log 23): `early = 1` places the request before the end of a command that still runs, which then
rejects it (R331); the spec leaves the time free, and with `early = 0` the request comes after that command's end. -/
def hostCmd (i : Instr) : List Pending := [{ act := .write Csr.cmd.addr (encode i), early := 1 }]

/-- `wait` (R137), polling `polls` times while the command runs (DESIGN CHOICE, log 19). -/
def hostWait (polls : Nat) : List Pending := [{ act := .wait, early := polls }]

/-- `run M` (R137): `cmd M`, then a `wait` that first polls when the command has ended (logs 19, 23). -/
def hostRun (i : Instr) : List Pending := hostCmd i ++ hostWait 0

/-- `arg V0, V1` (R137), placed after a running command (log 23). -/
def hostArg (v0 v1 : Word) : List Pending := [wrCsr .arg0 v0, wrCsr .arg1 v1]

/-- The KEYMEM writes of `keys`, from word `i` on (R137), placed after a running command (log 23). -/
def keyWrites (i : Nat) : List Word → List Pending
  | [] => []
  | k :: ks => later (.write (Space.keymem.busAddr i) k) :: keyWrites (i + 1) ks

/-- `keys k0, ..., k(m-1)` (R137). -/
def hostKeys (ks : List Word) : List Pending := keyWrites 0 ks ++ [wrCsr .nkeys (BitVec.ofNat 64 ks.length)]

/-- `check` (R137): the read; what the program expects of it is FAULT = 0 and REJ = 0. -/
def hostCheck : List Pending := [rdCsr .status]

/-- `ack` (R137): clears DONE, FAULT and REJ. -/
def hostAck : List Pending := [wrCsr .status 0x46#64]

end Sys2Proof.Machine
end

