-- ==== Sys2Proof/Tests/Slice0.lean ====
section
/-!
SUPPORT. Tests against the vectors of 95_test_vectors.md (named V1 to V38), the smoke test of well-formedness, and witnesses: for
each obligation with hypotheses, concrete states that meet them, clause by clause.
-/
namespace Sys2Proof.Tests
set_option Elab.async false
open Sys2Proof Sys2Proof.Machine

/-! ### Well-formedness: an ill-formed term for each check -/

theorem test_reserved_bit_refused : (Fields.mk 0x02 false false 1).reservedClear = false := by decide
theorem test_reserved_bit_illegal : (Fields.mk 0x02 false false 1).legal = false := by decide
theorem test_reserved_op_refused : (Fields.mk 0x0D false false 0).opDefined = false := by decide
theorem test_reserved_op_illegal : (Fields.mk 0x0D false false 0).legal = false := by decide
theorem test_p_off_sort_refused : (Fields.mk 0x01 true false 0).pOnSortOnly = false := by decide
theorem test_p_off_sort_illegal : (Fields.mk 0x01 true false 0).legal = false := by decide
theorem test_d_off_build_refused : (Fields.mk 0x08 true true 0).dOnBuildOnly = false := by decide
theorem test_d_off_build_illegal : (Fields.mk 0x08 true true 0).legal = false := by decide
theorem test_no_keymem_refused : ¬ ({ Params.reference with keyDepth := 0 } : Params).Wf := by decide
theorem test_no_bvmem_refused : ¬ ({ Params.reference with bvWords := 0 } : Params).Wf := by decide
theorem test_no_rankmem_refused : ¬ ({ Params.reference with rankDepth := 0 } : Params).Wf := by decide
theorem test_odd_scratch_refused : ¬ ({ Params.reference with scratchBits := 100 } : Params).Wf := by decide
theorem test_reference_accepted : Params.reference.Wf := by decide

/-! ### Decoding: the words of R125, bit by bit (OP in [7:0], P bit 8, D bit 9, the rest 0) -/

theorem test_decode_nop : decode 0b0000000000#64 = .ok .nop := by decide
theorem test_decode_build : decode 0b0000000001#64 = .ok (.build false) := by decide
theorem test_decode_build_d : decode 0b1000000001#64 = .ok (.build true) := by decide
theorem test_decode_query : decode 0b0000000010#64 = .ok .query := by decide
theorem test_decode_lookup : decode 0b0000000011#64 = .ok .lookup := by decide
theorem test_decode_set : decode 0b0000000100#64 = .ok .set := by decide
theorem test_decode_clrvals : decode 0b0000000101#64 = .ok .clrvals := by decide
theorem test_decode_accum : decode 0b0000000110#64 = .ok .accum := by decide
theorem test_decode_emit : decode 0b0000000111#64 = .ok .emit := by decide
theorem test_decode_sort : decode 0b0000001000#64 = .ok (.sort false) := by decide
theorem test_decode_sort_p : decode 0b0100001000#64 = .ok (.sort true) := by decide
theorem test_decode_rank : decode 0b0000001001#64 = .ok .rank := by decide
theorem test_decode_hash : decode 0b0000001010#64 = .ok .hash := by decide
theorem test_decode_bitget : decode 0b0000001011#64 = .ok .bitget := by decide
theorem test_decode_inval : decode 0b0000001100#64 = .ok .inval := by decide

/-- V16: the illegal words, and which check each fails. -/
theorem test_decode_illegal :
    decode 0xD#64 = .error .reservedOp ∧ decode 0xFF#64 = .error .reservedOp ∧ decode 0x100#64 = .error .pNotOnSort ∧
    decode 0x101#64 = .error .pNotOnSort ∧ decode 0x200#64 = .error .dNotOnBuild ∧ decode 0x202#64 = .error .dNotOnBuild ∧
    decode 0x308#64 = .error .dNotOnBuild ∧ decode 0x400#64 = .error .reservedBits ∧
    decode 0x8000000000000000#64 = .error .reservedBits := by decide

/-- R135: the assembler. -/
theorem test_assemble : assemble "BUILD.D" = some 0x201#64 ∧ assemble "SORT.P" = some 0x108#64 ∧ assemble "BUILD.P" = none := by
  decide

/-! ### Primitives -/

/-- V10. -/
theorem test_popcount : popcount64 0 = 0 ∧ popcount64 0xFFFFFFFFFFFFFFFF = 64 ∧ popcount64 0x202000400001 = 4 := by decide
theorem test_rotl : rotl32 0x80000001 1 = 3 ∧ rotl32 0x12345678 4 = 0x23456781 ∧ rotl32 0x12345678 31 = 0x091A2B3C ∧
    rotl32 0xDEADBEEF 0 = 0xDEADBEEF := by decide
theorem test_lowmask : lowmask64 0 = 0 ∧ lowmask64 1 = 1 ∧ lowmask64 18 = 0x3FFFF ∧ lowmask64 63 = 0x7FFFFFFFFFFFFFFF := by
  decide

/-- V11. -/
theorem test_xorshift : xorshift 2 = 0x8FC99C9712D9BA3A ∧ xorshift (-9) = 0x58F189C11040A322 ∧
    xorshift 0x123456789ABCDEF0 = 0xB7FB0288C5EE4339 := by decide

/-- V13. -/
theorem test_table_size : tableSize 0x20000 33 = 128 ∧ tableSize 0x20000 10000 = 20032 ∧ tableSize 0x18000 100 = 192 ∧
    tableSize 0x10000 65 = 128 ∧ tableSize 0xFFFFFFFF 1 = 65536 := by decide

/-- V14, V15. -/
theorem test_gamma_warl : legalGamma 0xFFFF = 0x10000 ∧ legalGamma 0x100020000 = 0x20000 ∧ legalGamma (-1) = 0xFFFFFFFF := by
  decide
theorem test_ctrl_warl : (Ctrl.ofWord 0).toWord = 0x2000 ∧ (Ctrl.ofWord 0x3F01).toWord = 0x2001 ∧
    (Ctrl.ofWord 0x1F06).toWord = 0x1F06 ∧ (Ctrl.ofWord 0xFFFFFFFF7FFFFFFF).toWord = 0x2007 := by decide

/-- V35. -/
theorem test_less : less true (-1) 0 = true ∧ less false (-1) 0 = false ∧
    less true 0x8000000000000000 0x7FFFFFFFFFFFFFFF = true ∧ less false 5 5 = false := by decide

/-! ### Small states -/

/-- An instance with four slots, whose BVMEM and RANKMEM hold exactly the two levels of V20. -/
def tiny : Params := { keyDepth := 4, bvWords := 2, rankDepth := 2, scratchBits := 64, hash := .xorshift }

/-- Store the words `ws` from word `i` of a memory on. -/
def load (sp : Space) (i : Nat) (ws : List Word) (s : State) : State :=
  match ws with
  | [] => s
  | w :: ws => load sp (i + 1) ws (s.setWord sp i w)

/-- A block with a command running: keys loaded, the operands and the word latched. -/
def running (w a0 a1 : Word) (ks : List Word) (s : State) : State :=
  let s := load .keymem 0 ks s
  { s with phase := .busy, nkeys := BitVec.ofNat 64 ks.length,
           latch := { s.latch with word := w, arg0 := a0, arg1 := a1, nkeys := BitVec.ofNat 64 ks.length } }

/-- The tiny block right after reset. -/
def fresh : State := { State.reset with params := tiny }

/-- The tiny block with the function of V20, written out from the vector. -/
def v20 : State :=
  let s := load .rankmem 0 [0, 1] (load .bvmem 0 [0x0020000000000000, 0x40800] (load .lvltab 0 [64, 0, 0, 0, 64, 1, 1, 1] fresh))
  { s with nlevels := 2, bnkeys := 3, total := 3, bvused := 2, rankused := 2, status := { s.status with built := true } }

/-- The tiny block with the function of V31 over the keys 3 and 50. -/
def v31 : State :=
  let s := load .bvmem 0 [0x0020000000400000] (load .lvltab 0 [64, 0, 0, 0] fresh)
  { s with nlevels := 1, bnkeys := 2, total := 2, bvused := 1, rankused := 1, status := { s.status with built := true } }

/-- V31 with key 3 counted five times and key 50 once: OUTMEM has four words. -/
def counted : State :=
  let s := load .tagmem 0 [50, 1, 3, 1] (load .valmem 0 [1, 5] v31)
  { s with min := 3, max := 50, status := { s.status with rangev := true } }

/-- The next state of an outcome, where there is one. -/
def next? : Host.Outcome State Fault Refusal → Option State
  | .next t => some t
  | .fault _ => none
  | .refused _ => none

/-- The next state of a command, where it answers one. -/
def after (i : Instr) (s : State) : Option State := next? (exec i s)

/-- The words `0` to `n-1` of a memory. -/
def dump (sp : Space) (n : Nat) (s : State) : List Word := (List.range n).map (s.word sp)

/-! ### One step of each command -/

/-- V36. -/
theorem test_nop : (after .nop { fresh with phase := .busy, ctrl := Ctrl.ofWord 0x2003 }).map State.statusWord = some 0x82 := by
  decide +kernel

/-- V20: registers. -/
theorem test_build_registers : (after (.build false) (running 1 0 0 [1, 30, 3] fresh)).map (fun t =>
    [t.statusWord, t.nlevels, t.bnkeys, t.total, t.dups, t.bvused, t.rankused, t.res0, t.res1]) =
    some [0x0A, 2, 3, 3, 0, 2, 2, 2, 3] := by decide +kernel

/-- V20: memories. -/
theorem test_build_memories : (after (.build false) (running 1 0 0 [1, 30, 3] fresh)).map (fun t =>
    (dump .bvmem 2 t, dump .rankmem 2 t, dump .lvltab 10 t)) =
    some ([0x0020000000000000, 0x40800], [0, 1], [64, 0, 0, 0, 64, 1, 1, 1, 0, 0]) := by decide +kernel

/-- V29: the traced multiset [1, 30, 30]. -/
theorem test_build_d : (after (.build true) (running 0x201 0 0 [1, 30, 30] fresh)).map (fun t =>
    [t.nlevels, t.total, t.dups, t.bnkeys, t.word .bvmem 0, t.word .bvmem 1]) = some [2, 2, 1, 3, 0, 0x40800] := by
  decide +kernel

/-- V26. -/
theorem test_build_depth :
    (after (.build false) { running 1 0 0 [1, 30, 3] fresh with
      latch := { (running 1 0 0 [1, 30, 3] fresh).latch with maxlvl := 1#6 } }).map (fun t =>
        (t.faultCode, t.faultInfo, t.statusWord, dump .lvltab 5 t)) =
    some (.buildDepth, 2, 0x04, [64, 0, 0, 0, 0]) := by decide +kernel

/-- V21: a member of level 1, the non-member 9 that hits key 3's bit, and the sentinel. -/
theorem test_query_member : (after .query (running 2 30 0 [] v20)).map (fun t => (t.res0, t.res1)) = some (3, 1) := by
  decide +kernel
theorem test_query_others : [9, 0, 100].map (fun k => (after .query (running 2 k 0 [] v20)).map (fun t => (t.res0, t.res1))) =
    [some (1, 0), some (0, -1), some (0, -1)] := by decide +kernel

/-- V30. -/
theorem test_lookup : (after .lookup (running 3 2 0 [] (load .valmem 0 [-1, 7, 9] v20))).map State.res0 = some 7 := by
  decide +kernel
theorem test_lookup_bad_index : (after .lookup (running 3 4 0 [] v20)).map (fun t => (t.faultCode, t.faultInfo)) =
    some (.badIndex, 4) := by decide +kernel
theorem test_set : (after .set (running 4 3 9 [] (load .valmem 0 [-1, 7] v20))).map (dump .valmem 4) = some [-1, 7, 9, 0] := by
  decide +kernel
theorem test_clrvals : (after .clrvals (running 5 0 0 [] { load .tagmem 0 [5, 1] (load .valmem 0 [4, 5, 6, 7] v20) with
      min := 5, max := 5 })).map (fun t => (dump .valmem 4 t, dump .tagmem 2 t, t.max, t.statusWord)) =
    some ([0, 0, 0, 7], [0, 0], 0, 0x0A) := by decide +kernel

/-- V32. -/
theorem test_accum : (after .accum (running 6 0 0 [50, 3] v31)).map (fun t =>
    (dump .valmem 2 t, dump .tagmem 4 t, t.min, t.max, t.res0, t.status.rangev)) =
    some ([1, 1], [50, 1, 3, 1], 3, 50, 2, true) := by decide +kernel
theorem test_accum_tag_mismatch : (after .accum (running 6 0 0 [3, 9] v31)).map (fun t =>
    (t.faultCode, t.faultInfo, dump .valmem 2 t, t.min, t.max)) = some (.tagMismatch, 9, [0, 1], 3, 3) := by decide +kernel

/-- V32: counting twice. -/
theorem test_emit : (after .emit (running 7 0 0 [] { load .valmem 0 [2, 2] counted with res0 := 9 })).map (fun t =>
    (dump .outmem 4 t, t.outlen, t.res0)) = some ([3, 3, 50, 50], 4, 4) := by decide +kernel

/-- R290 by hand: the fifth 3 does not fit into four words. -/
theorem test_emit_overflow : (after .emit (running 7 0 0 [] counted)).map (fun t =>
    (t.faultCode, t.faultInfo, t.outlen, dump .outmem 4 t, t.statusWord)) = some (.outOverflow, 3, 4, [3, 3, 3, 3], 0x3C) := by
  decide +kernel

/-- V1. -/
theorem test_sort : (after (.sort true) (running 0x108 0 0 [2, 1, -1, 0] fresh)).map (fun t =>
    (dump .outmem 4 t, t.outlen, t.statusWord, t.res0, t.res1, t.word .bvmem 0)) =
    some ([-1, 0, 1, 2], 4, 0x3A, 4, 4, 0x0000202000400001) := by decide +kernel

/-- V6: MAX is seeded from the first key. -/
theorem test_sort_negative : (after (.sort true) (running 0x108 0 0 [-5, -3, -9] fresh)).map (fun t =>
    (dump .outmem 3 t, t.max)) = some ([-9, -5, -3], -3) := by decide +kernel

/-- V22. -/
theorem test_rank : (after .rank (running 9 1 18 [] v20)).map (fun t => (t.res0, t.res1)) = some (1, 2) := by decide +kernel
theorem test_rank_position : (after .rank (running 9 1 64 [] v20)).map (fun t => (t.faultCode, t.faultInfo)) =
    some (.badArg, 64) := by decide +kernel

/-- V12. -/
theorem test_hash : (after .hash (running 10 1 31 [] fresh)).map (fun t => (t.res0, t.res1)) =
    some (0x47E4CE4B896CDD1D, 0x2A9EBA38) := by decide +kernel
theorem test_hash_level : (after .hash (running 10 1 32 [] fresh)).map (fun t => (t.faultCode, t.faultInfo)) =
    some (.badArg, 32) := by decide +kernel

/-- V23. -/
theorem test_bitget : [11, 12, 18].map (fun n => (after .bitget (running 11 1 n [] v20)).map State.res0) =
    [some 1, some 0, some 1] := by decide +kernel
theorem test_bitget_level : (after .bitget (running 11 2 0 [] v20)).map (fun t => (t.faultCode, t.faultInfo)) =
    some (.badArg, 2) := by decide +kernel

/-- V36. -/
theorem test_inval_registers : (after .inval (running 12 0 0 [] v20)).map (fun t =>
    [t.statusWord, t.nlevels, t.bnkeys, t.total, t.bvused, t.rankused]) = some [0x02, 0, 0, 0, 0, 0] := by decide +kernel
theorem test_inval_memories : (after .inval (running 12 0 0 [] v20)).map (fun t => (dump .lvltab 8 t, dump .bvmem 2 t)) =
    some ([0, 0, 0, 0, 0, 0, 0, 0], [0x0020000000000000, 0x40800]) := by decide +kernel

/-! ### The bus and the reset -/

/-- V18. -/
theorem test_bus_reads : [0x4#32, 0x1000#32, 0x1001FFF8#32, 0x10020000#32, 0x400003F8#32, 0x40000400#32, 0x80000000#32].map
    (fun a => (busRead a State.reset).resp) = [.slverr, .slverr, .okay, .slverr, .okay, .slverr, .slverr] := by decide +kernel

/-- V17: a command that arrives while one runs is rejected. -/
theorem test_request_rejected :
    (next? (step { running 1 0 0 [1, 30, 3] fresh with cmd := 1, inbox := [⟨.write 0x50 2, 1⟩] })).map
      (fun t => (t.statusWord, t.cmd, t.latch.word, t.answer)) = some (0x41, 1, 1, some ⟨.okay, 0⟩) := by decide +kernel

/-- V38. -/
theorem test_soft_reset : let t := (busWrite 0x40 0x80000000 (load .keymem 0 [1, 30, 3] v20)).2
    (t.statusWord, t.ctrl.toWord, t.nlevels) = (0, 0x2001, 0) ∧ dump .lvltab 8 t = [0, 0, 0, 0, 0, 0, 0, 0] ∧
    dump .keymem 3 t = [1, 30, 3] ∧ dump .bvmem 2 t = [0x0020000000000000, 0x40800] := by decide +kernel

/-- The first instruction after reset is the one `withFetchWord` places. -/
theorem test_fetch_word : (next? (step (State.reset.withFetchWord 64 0x108))).map State.statusWord = some 0x22 := by decide +kernel

/-! ### Witnesses: states that meet the hypotheses of the obligations

`witness_<obligation>_<clause>`; the boundary cases of a clause stand together. -/

theorem next_exists {i : Instr} {s : State} {p : State → Bool} (h : (after i s).any p = true) :
    ∃ t, exec i s = .next t ∧ p t = true := by
  unfold after next? at h
  split at h
  · rename_i t ht
    exact ⟨t, ht, h⟩
  · cases h
  · cases h

theorem step_exists {s : State} {p : State → Bool} (h : (next? (step s)).any p = true) :
    ∃ t, step s = .next t ∧ p t = true := by
  unfold next? at h
  split at h
  · rename_i t ht
    exact ⟨t, ht, h⟩
  · cases h
  · cases h

/-- A command running over the function of V20; its keys are the built ones. -/
def on20 (w a0 a1 : Word) : State := running w a0 a1 [1, 30, 3] v20

/-- A command running over the function of V31, over the keys `ks`. -/
def on31 (w : Word) (ks : List Word) : State := running w 0 0 ks v31

/-- A command running with counts, over no key. -/
def onCounted (w : Word) (vals : List Word) : State := running w 0 0 [] (load .valmem 0 vals counted)

/-- A build of the keys `ks` on the fresh block. -/
def onFresh (w : Word) (ks : List Word) : State := running w 0 0 ks fresh

theorem on20_safe (w a0 a1 : Word) (h : (w, a0, a1) ∈ [(2, 0, 0), (2, 3, 0), (2, 1, 0), (9, 1, 63), (9, 2, 0), (9, 1, 64)]) :
    (on20 w a0 a1).Safe := by
  apply State.safe_of_check
  revert w a0 a1
  simp only [List.mem_cons, Prod.mk.injEq, List.not_mem_nil, or_false]
  rintro w a0 a1 (⟨rfl, rfl, rfl⟩ | ⟨rfl, rfl, rfl⟩ | ⟨rfl, rfl, rfl⟩ | ⟨rfl, rfl, rfl⟩ | ⟨rfl, rfl, rfl⟩ | ⟨rfl, rfl, rfl⟩) <;>
    decide +kernel

theorem on31_safe : (on31 6 [50, 3]).Safe ∧ (on31 6 [3, 9]).Safe ∧ (on31 6 [3]).Safe ∧ (on31 6 [0]).Safe := by
  refine ⟨?_, ?_, ?_, ?_⟩ <;> exact State.safe_of_check (by decide +kernel)

theorem onCounted_safe : (onCounted 7 [2, 2]).Safe ∧ (onCounted 7 [1, 5]).Safe ∧ (onCounted 7 [0, 0]).Safe := by
  refine ⟨?_, ?_, ?_⟩ <;> exact State.safe_of_check (by decide +kernel)

theorem onFresh_safe : (onFresh 1 [1, 30, 3]).Safe ∧ (onFresh 1 [7]).Safe ∧ (onFresh 1 [5, 5]).Safe ∧ (onFresh 1 []).Safe ∧
    (onFresh 0x108 [2, 1, -1, 0]).Safe := by
  refine ⟨?_, ?_, ?_, ?_, ?_⟩ <;> exact State.safe_of_check (by decide +kernel)

theorem engineMoves_of {s : State} (h : s.phase = .busy) (hi : s.inbox = []) : s.EngineMoves :=
  ⟨h, fun p rest hp => by simp [hi] at hp⟩

theorem witness_LegalWordsRunOthersFault :
    ((onFresh 0x108 []).EngineMoves ∧ LegalWord (onFresh 0x108 []).latch.word) ∧
    ((onFresh 0xC []).EngineMoves ∧ LegalWord (onFresh 0xC []).latch.word) ∧
    ((onFresh 0xD []).EngineMoves ∧ ¬ LegalWord (onFresh 0xD []).latch.word) ∧
    ((onFresh 0x400 []).EngineMoves ∧ ¬ LegalWord (onFresh 0x400 []).latch.word) := by
  unfold LegalWord
  refine ⟨⟨engineMoves_of rfl rfl, ?_⟩, ⟨engineMoves_of rfl rfl, ?_⟩, ⟨engineMoves_of rfl rfl, ?_⟩,
    ⟨engineMoves_of rfl rfl, ?_⟩⟩ <;> decide +kernel

theorem witness_StepRunsDecodedCommand :
    (onFresh 0x201 []).EngineMoves ∧ decode (onFresh 0x201 []).latch.word = .ok (.build true) :=
  ⟨engineMoves_of rfl rfl, by decide +kernel⟩

/-- Each act on an idle block, and early on a busy one; and nothing to do. -/
theorem witness_StepServesOutside :
    (∀ act ∈ [Act.read 0x48, .write 0x40 0x2003, .wait, .powerOn],
      (∃ s : State, s.inbox = [⟨act, 0⟩] ∧ s.phase = .idle) ∧ (∃ s : State, s.inbox = [⟨act, 1⟩] ∧ s.phase = .busy)) ∧
    State.reset.phase = .idle ∧ State.reset.inbox = [] :=
  ⟨fun act _ => ⟨⟨{ fresh with inbox := [⟨act, 0⟩] }, rfl, rfl⟩, ⟨{ fresh with inbox := [⟨act, 1⟩], phase := .busy }, rfl, rfl⟩⟩,
   rfl, rfl⟩

/-- Accepted on an idle block; rejected on a busy one, and on an idle one with FAULT = 1. -/
theorem witness_CommandRequestAcceptedOrRejected :
    (fresh.phase = .idle ∧ fresh.status.fault = false) ∧ (onFresh 1 []).phase = .busy ∧
    { fresh with status := { fresh.status with fault := true } }.status.fault = true := by decide +kernel

theorem witness_HashReportsHashAndBucketValue :
    (running 10 1 31 [] fresh).latch.arg1.toNat < 32 ∧ 32 ≤ (running 10 1 32 [] fresh).latch.arg1.toNat := by decide +kernel

/-- LOOKUP and SET: no function; the indices 0 and BNKEYS + 1; the indices 1 and BNKEYS. -/
theorem witness_LookupReadsSlot_SetWritesSlot :
    (fresh.bnkeys.toNat ≤ fresh.params.keyDepth ∧ memWf fresh.mem = true ∧ fresh.status.built = false) ∧
    (∀ x ∈ [0, 4], let s := on20 3 x 0;
      s.bnkeys.toNat ≤ s.params.keyDepth ∧ memWf s.mem = true ∧ s.status.built = true ∧
        (s.latch.arg0 = 0 ∨ s.bnkeys.toNat < s.latch.arg0.toNat)) ∧
    (∀ x ∈ [1, 3], let s := on20 3 x 0;
      s.bnkeys.toNat ≤ s.params.keyDepth ∧ memWf s.mem = true ∧ s.status.built = true ∧ 1 ≤ s.latch.arg0.toNat ∧
        s.latch.arg0.toNat ≤ s.bnkeys.toNat) := by
  refine ⟨by decide +kernel, ?_, ?_⟩ <;>
  · intro x hx
    simp only [List.mem_cons, List.not_mem_nil, or_false] at hx
    rcases hx with rfl | rfl <;> decide +kernel

theorem witness_ClrvalsClearsSlotsAndRange :
    (fresh.bnkeys.toNat ≤ fresh.params.keyDepth ∧ fresh.status.built = false) ∧
    ({ v20 with bnkeys := 4 }.bnkeys.toNat ≤ v20.params.keyDepth ∧ v20.status.built = true) := by decide +kernel

/-- BITGET and RANK: no function; level NLEVELS; position S_L; position S_L - 1 of the last level. -/
theorem witness_BitgetReadsBit_RankCountsOnesBelow :
    ((onFresh 1 []).Safe ∧ (onFresh 1 []).status.built = false) ∧
    ((on20 9 2 0).Safe ∧ (on20 9 2 0).status.built = true ∧ (on20 9 2 0).nlevels.toNat ≤ (on20 9 2 0).latch.arg0.toNat) ∧
    ((on20 9 1 64).Safe ∧ (on20 9 1 64).latch.arg0.toNat < (on20 9 1 64).nlevels.toNat ∧
      (on20 9 1 64).sizeAt (on20 9 1 64).latch.arg0.toNat ≤ (on20 9 1 64).latch.arg1.toNat) ∧
    ((on20 9 1 63).Safe ∧ (on20 9 1 63).latch.arg0.toNat < (on20 9 1 63).nlevels.toNat ∧
      (on20 9 1 63).latch.arg1.toNat < (on20 9 1 63).sizeAt (on20 9 1 63).latch.arg0.toNat) :=
  ⟨⟨onFresh_safe.2.2.2.1, by decide +kernel⟩, ⟨on20_safe _ _ _ (by simp), by decide +kernel⟩,
   ⟨on20_safe _ _ _ (by simp), by decide +kernel⟩, ⟨on20_safe _ _ _ (by simp), by decide +kernel⟩⟩

/-- QUERY (both statements): no function; key 0 meets no bit; key 3 meets level 0's; key 1 meets level 1's and not level 0's. -/
theorem witness_QueryFindsFirstLevel :
    ((onFresh 1 []).Safe ∧ (onFresh 1 []).status.built = false) ∧
    ((on20 2 0 0).Safe ∧ (on20 2 0 0).status.built = true ∧ ∀ l < (on20 2 0 0).nlevels.toNat, (on20 2 0 0).hits 0 l = false) ∧
    ((on20 2 3 0).Safe ∧ (on20 2 3 0).status.built = true ∧ (on20 2 3 0).hits 3 0 = true) ∧
    ((on20 2 1 0).Safe ∧ (on20 2 1 0).status.built = true ∧ (on20 2 1 0).hits 1 1 = true ∧
      ∀ j < 1, (on20 2 1 0).hits 1 j = false) :=
  ⟨⟨onFresh_safe.2.2.2.1, by decide +kernel⟩, ⟨on20_safe _ _ _ (by simp), by decide +kernel⟩,
   ⟨on20_safe _ _ _ (by simp), by decide +kernel⟩, ⟨on20_safe _ _ _ (by simp), by decide +kernel⟩⟩

theorem witness_QueryIndexWithinTotal : (on20 2 3 0).Safe ∧ (on20 2 3 0).status.built = true :=
  ⟨on20_safe _ _ _ (by simp), by decide +kernel⟩

theorem witness_TableSizeIsLeastMultiple : (65536 ≤ (65536 : Nat) ∧ 1 ≤ (1 : Nat)) ∧ 128 % 64 = 0 ∧ 65536 * 65 ≤ 65536 * 128 := by
  decide

theorem witness_CollisionDetectorExact : ∀ k : Word, k.toNat % 64 < 64 := fun k => Nat.mod_lt _ (by decide)

/-- One key more than KEYMEM holds; for ACCUM over the function of V20. -/
theorem witness_BuildRefusesTooManyKeys :
    fresh.params.keyDepth < { fresh with latch := { fresh.latch with nkeys := 5 } }.latch.nkeys.toNat ∧
    v20.params.keyDepth < { v20 with latch := { v20.latch with nkeys := 5 } }.latch.nkeys.toNat ∧ v20.status.built = true := by
  decide +kernel

theorem witness_BuildOverNoKeys_SortWithoutKeys : (onFresh 1 []).latch.nkeys = 0 := by decide +kernel

theorem witness_BuildOverOneKey :
    (onFresh 1 [7]).Inv ∧ (onFresh 1 [7]).latch.nkeys = 1 ∧ (onFresh 1 [7]).latch.gamma = 0x00020000 :=
  ⟨onFresh_safe.2.1.inv, by decide +kernel⟩

theorem witness_BuildCompletesWhenCascadeEnds :
    (onFresh 1 [1, 30, 3]).Inv ∧ (onFresh 1 [1, 30, 3]).CanBuild false :=
  ⟨onFresh_safe.1.inv, by unfold State.CanBuild; decide +kernel⟩

/-- Four keys in four slots: the key count is at its bound. -/
theorem witness_SortIsSortedPermutation :
    let s := onFresh 0x108 [2, 1, -1, 0];
    s.Inv ∧ 1 ≤ s.latch.nkeys.toNat ∧ s.status.fault = false ∧ s.CanBuild true ∧
      ∃ t, exec (.sort true) s = .next t ∧ (!t.status.fault) = true :=
  ⟨onFresh_safe.2.2.2.2.inv, by decide +kernel, by decide +kernel, by unfold State.CanBuild; decide +kernel,
   next_exists (p := fun t => !t.status.fault) (by decide +kernel)⟩

/-- Over the distinct keys of V20: CAPACITY at level 1 with BV_WORDS = 1 (V27), BUILD_DEPTH with one level allowed (V26). -/
theorem witness_BuildFaultsWhenCascadeFails :
    (∃ s : State, s.Inv ∧ s.latch.nkeys.toNat ≤ s.params.keyDepth ∧ s.buildFault false = some (.capacity, 1)) ∧
    (∃ s : State, s.Inv ∧ s.latch.nkeys.toNat ≤ s.params.keyDepth ∧ s.buildFault false = some (.buildDepth, 2)) :=
  ⟨⟨{ onFresh 1 [1, 30, 3] with params := { tiny with bvWords := 1 } }, State.inv_of_check (by decide +kernel), by decide +kernel⟩,
   ⟨{ onFresh 1 [1, 30, 3] with latch := { (onFresh 1 [1, 30, 3]).latch with maxlvl := 1#6 } },
    State.inv_of_check (by decide +kernel), by decide +kernel⟩⟩

/-- V4: the slot of 5 counts all four, and OUTMEM holds them. -/
theorem test_sort_equal_keys : (after (.sort true) (onFresh 0x108 [5, 5, 5, 5])).map (fun t =>
      [[t.min, t.max, t.total, t.dups], dump .valmem 2 t, dump .tagmem 4 t, dump .outmem 4 t]) =
    some [[5, 5, 1, 3], [4, 0], [5, 1, 0, 0], [5, 5, 5, 5]] := by decide +kernel

/-- V26: the level that MAXLVL = 1 lets the build finish, key 3's bit 53. -/
theorem test_build_levels : ({ onFresh 1 [1, 30, 3] with
      latch := { (onFresh 1 [1, 30, 3]).latch with maxlvl := 1#6 } } : State).buildLevels false =
    [{ size := 64, wbase := 0, rbase := 0, ones := [53] }] := by decide +kernel

theorem witness_FaultedBuildLeavesNoFunction :
    (onFresh 1 [5, 5]).params.Wf ∧ (onFresh 1 [5, 5]).status.fault = false ∧
    ∃ t, exec (.build false) (onFresh 1 [5, 5]) = .next t ∧ t.status.fault = true :=
  ⟨by decide +kernel, by decide +kernel, next_exists (p := fun t => t.status.fault) (by decide +kernel)⟩

/-- CAPACITY first; and two levels, which the memories hold. -/
theorem witness_RepeatedKeyNeverBuilds :
    let s := onFresh 1 [5, 5];
    (s.Inv ∧ s.status.fault = false ∧ s.latch.nkeys.toNat ≤ s.params.keyDepth ∧ ¬ (s.keys s.latch.nkeys.toNat).Nodup) ∧
    ∃ u : State, u.Inv ∧ u.status.fault = false ∧ u.latch.nkeys.toNat ≤ u.params.keyDepth ∧
      ¬ (u.keys u.latch.nkeys.toNat).Nodup ∧
      let size := tableSize u.latch.gamma.toNat u.latch.nkeys.toNat
      size ≤ u.params.scratchBits ∧ u.latch.maxlvl.toNat * (size / 64) ≤ u.params.bvWords ∧
        u.latch.maxlvl.toNat * sampleCount (size / 64) ≤ u.params.rankDepth :=
  ⟨⟨onFresh_safe.2.2.1.inv, by decide +kernel⟩,
   ⟨{ onFresh 1 [5, 5] with latch := { (onFresh 1 [5, 5]).latch with maxlvl := 2#6 } },
    State.inv_of_check (by decide +kernel), by decide +kernel⟩⟩

/-- BuildMakesWellFormedFunction, EveryKeyFoundAndCounted and QueryIsBijectionOnKeys. -/
theorem witness_BuildMakesWellFormedFunction :
    (onFresh 1 [1, 30, 3]).Inv ∧ ∃ t, exec (.build false) (onFresh 1 [1, 30, 3]) = .next t ∧ t.status.built = true :=
  ⟨onFresh_safe.1.inv, next_exists (p := fun t => t.status.built) (by decide +kernel)⟩

/-- No function; key 0 has no index; key 9 meets key 3's tag; key 3 is counted. -/
theorem witness_AccumOverOneKey :
    ((onFresh 1 [7]).Safe ∧ (onFresh 1 [7]).latch.nkeys = 1 ∧ (onFresh 1 [7]).status.built = false) ∧
    ((on31 6 [0]).Safe ∧ (on31 6 [0]).latch.nkeys = 1 ∧ (on31 6 [0]).status.built = true ∧
      (on31 6 [0]).indexOf ((on31 6 [0]).word .keymem 0) = 0) ∧
    (let s := running 6 0 0 [9] counted;
      s.Safe ∧ s.latch.nkeys = 1 ∧ s.status.built = true ∧ s.indexOf 9 ≠ 0 ∧ s.tagValid ((s.indexOf 9).toNat - 1) = true ∧
        s.tag ((s.indexOf 9).toNat - 1) ≠ 9) ∧
    ((on31 6 [3]).Safe ∧ (on31 6 [3]).latch.nkeys = 1 ∧ (on31 6 [3]).status.built = true ∧ (on31 6 [3]).indexOf 3 ≠ 0 ∧
      (on31 6 [3]).tagValid 1 = false) :=
  ⟨⟨onFresh_safe.2.1, by decide +kernel⟩, ⟨on31_safe.2.2.2, by decide +kernel⟩,
   ⟨State.safe_of_check (by decide +kernel), by decide +kernel⟩, ⟨on31_safe.2.2.1, by decide +kernel⟩⟩

theorem witness_AccumCountsEveryKey :
    let s := on31 6 [50, 3];
    s.Safe ∧ s.status.built = true ∧ s.latch.nkeys.toNat ≤ s.params.keyDepth ∧ s.keys s.latch.nkeys.toNat = [50, 3] ∧
      s.indexOf 50 = 1 ∧ s.indexOf 3 = 2 ∧ s.tagValid 0 = false ∧ s.tagValid 1 = false :=
  ⟨on31_safe.1, by decide +kernel⟩

/-- The second key meets another tag (key 9 after key 3), or no index (key 0). -/
theorem witness_AccumFaultKeepsEarlierKeys :
    (let s := on31 6 [3, 9];
      s.Safe ∧ s.latch.nkeys = 1 + 1 ∧ ((1 : Word) + 1).toNat ≤ s.params.keyDepth ∧ s.status.fault = false ∧
      s.indexOf 9 = 2 ∧ ∃ t, exec .accum { s with latch := { s.latch with nkeys := 1 } } = .next t ∧
        (!t.status.fault && t.tagValid 1 && t.tag 1 != 9) = true) ∧
    (let s := running 6 0 0 [3, 0] v31;
      s.Safe ∧ s.latch.nkeys = 1 + 1 ∧ s.status.fault = false ∧ s.indexOf (s.word .keymem 1) = 0 ∧
      ∃ t, exec .accum { s with latch := { s.latch with nkeys := 1 } } = .next t ∧ (!t.status.fault) = true) :=
  ⟨⟨on31_safe.2.1, by decide +kernel, by decide +kernel, by decide +kernel, by decide +kernel,
    next_exists (p := fun t => !t.status.fault && t.tagValid 1 && t.tag 1 != 9) (by decide +kernel)⟩,
   ⟨State.safe_of_check (by decide +kernel), by decide +kernel, by decide +kernel, by decide +kernel,
    next_exists (p := fun t => !t.status.fault) (by decide +kernel)⟩⟩

/-- The range starts with the command, or was there before. -/
theorem witness_AccumTracksRange :
    (let s := on31 6 [50, 3];
      s.Safe ∧ s.status.rangev = false ∧ s.latch.nkeys ≠ 0 ∧ s.status.fault = false ∧
      ∃ t, exec .accum s = .next t ∧ (!t.status.fault) = true) ∧
    (let s := running 6 0 0 [3] counted;
      s.Safe ∧ s.status.rangev = true ∧ s.latch.nkeys ≠ 0 ∧ s.status.fault = false ∧
      ∃ t, exec .accum s = .next t ∧ (!t.status.fault) = true) :=
  ⟨⟨on31_safe.1, by decide +kernel, by decide +kernel, by decide +kernel,
    next_exists (p := fun t => !t.status.fault) (by decide +kernel)⟩,
   ⟨State.safe_of_check (by decide +kernel), by decide +kernel, by decide +kernel, by decide +kernel,
    next_exists (p := fun t => !t.status.fault) (by decide +kernel)⟩⟩

/-- No function; an emission of exactly KEY_DEPTH words; one of KEY_DEPTH + 2. -/
theorem witness_EmitWritesEmission :
    ((onFresh 1 []).Safe ∧ (onFresh 1 []).status.built = false) ∧
    ((onCounted 7 [2, 2]).Safe ∧ (onCounted 7 [2, 2]).status.built = true ∧
      (onCounted 7 [2, 2]).emission.length = (onCounted 7 [2, 2]).params.keyDepth) ∧
    ((onCounted 7 [1, 5]).Safe ∧ (onCounted 7 [1, 5]).status.built = true ∧
      (onCounted 7 [1, 5]).params.keyDepth < (onCounted 7 [1, 5]).emission.length) :=
  ⟨⟨onFresh_safe.2.2.2.1, by decide +kernel⟩, ⟨onCounted_safe.1, by decide +kernel⟩, ⟨onCounted_safe.2.1, by decide +kernel⟩⟩

/-- V27: with BV_WORDS = 1 the second level does not fit; V28: five keys in four words; V26: one level does not place [1, 30, 3]. -/
theorem witness_SortFaultsOnlyInItsBuild : ∀ c ∈ [FaultCode.capacity, .badArg, .buildDepth],
    ∃ s : State, s.Inv ∧ s.status.fault = false ∧
      ∃ t, exec (.sort true) s = .next t ∧ (t.status.fault && t.faultCode == c) = true := by
  let s := onFresh 0x108 [1, 30, 3]
  intro c hc
  simp only [List.mem_cons, List.not_mem_nil, or_false] at hc
  rcases hc with rfl | rfl | rfl
  · exact ⟨{ s with params := { tiny with bvWords := 1 } }, State.inv_of_check (by decide +kernel), by decide +kernel,
      next_exists (p := fun t => t.status.fault && t.faultCode == .capacity) (by decide +kernel)⟩
  · exact ⟨{ s with latch := { s.latch with nkeys := 5 } }, State.inv_of_check (by decide +kernel), by decide +kernel,
      next_exists (p := fun t => t.status.fault && t.faultCode == .badArg) (by decide +kernel)⟩
  · exact ⟨{ s with latch := { s.latch with maxlvl := 1#6 } }, State.inv_of_check (by decide +kernel), by decide +kernel,
      next_exists (p := fun t => t.status.fault && t.faultCode == .buildDepth) (by decide +kernel)⟩

theorem witness_NotBuiltFaults : Instr.query ∈ [Instr.query, .lookup, .set, .clrvals, .accum, .emit, .rank, .bitget] ∧
    fresh.status.built = false := by decide +kernel

/-- A command that completes and one that faults: for CommandEndsInExactlyOneWay, ResultsOnlyOnCompletion,
EngineLeavesHostRegisters, CommandWritesOnlyItsMemories and HiddenScratchNeverRead. -/
theorem witness_CommandEndsInExactlyOneWay :
    (onFresh 1 [1, 30, 3]).status.done = false ∧ (onFresh 1 [1, 30, 3]).status.fault = false ∧
    (∃ t, exec (.build false) (onFresh 1 [1, 30, 3]) = .next t ∧ t.status.done = true) ∧
    (∃ t, exec .query (onFresh 1 [1, 30, 3]) = .next t ∧ t.status.fault = true) :=
  ⟨by decide +kernel, by decide +kernel, next_exists (p := fun t => t.status.done) (by decide +kernel),
   next_exists (p := fun t => t.status.fault) (by decide +kernel)⟩

/-- Each of the three ways out: the function stands, an INVAL runs, a soft reset is served. -/
theorem witness_BuiltFunctionImmutable :
    ((on20 2 3 0).Inv ∧ (on20 2 3 0).status.built = true ∧ ∃ t, step (on20 2 3 0) = .next t ∧ t.status.built = true) ∧
    (let s := running 0xC 0 0 [] v20;
      s.Inv ∧ s.status.built = true ∧ s.EngineMoves ∧ decode s.latch.word = .ok .inval ∧
      ∃ t, step s = .next t ∧ (!t.status.built) = true) ∧
    (let s := { v20 with inbox := [⟨.write 0x40#32 0x80000000, 0⟩] };
      s.Inv ∧ s.status.built = true ∧ ¬ s.EngineMoves ∧ ∃ t, step s = .next t ∧ (!t.status.built) = true) := by
  refine ⟨⟨(on20_safe _ _ _ (by simp)).inv, by decide +kernel, step_exists (p := fun t => t.status.built) (by decide +kernel)⟩,
    ⟨State.inv_of_check (by decide +kernel), by decide +kernel, engineMoves_of rfl rfl, by decide +kernel,
      step_exists (p := fun t => !t.status.built) (by decide +kernel)⟩,
    ⟨State.inv_of_check (by decide +kernel), by decide +kernel, fun h => by simpa using h.1.symm.trans (by decide +kernel : _ = Phase.idle),
      step_exists (p := fun t => !t.status.built) (by decide +kernel)⟩⟩

/-- FaultRegistersKept and StepKeepsInvariant: a step that faults, and one that does not. -/
theorem witness_FaultRegistersKept :
    ((onFresh 0xD []).Inv ∧ (onFresh 0xD []).EngineMoves ∧ ∃ t, step (onFresh 0xD []) = .next t ∧ t.status.fault = true) ∧
    ((on20 2 3 0).Inv ∧ ∃ t, step (on20 2 3 0) = .next t ∧ (!t.status.fault) = true) :=
  ⟨⟨State.inv_of_check (by decide +kernel), engineMoves_of rfl rfl, step_exists (p := fun t => t.status.fault) (by decide +kernel)⟩,
   ⟨(on20_safe _ _ _ (by simp)).inv, step_exists (p := fun t => !t.status.fault) (by decide +kernel)⟩⟩

theorem witness_ReadsHaveNoSideEffect :
    (∃ s : State, s.inbox = [⟨.read 0x48#32, 0⟩] ∧ s.phase = .idle) ∧
    (∃ s : State, s.inbox = [⟨.read 0x10000000#32, 1⟩] ∧ s.phase = .busy) :=
  ⟨⟨{ fresh with inbox := [⟨.read 0x48#32, 0⟩] }, rfl, rfl⟩, ⟨{ fresh with inbox := [⟨.read 0x10000000#32, 1⟩], phase := .busy }, rfl, rfl⟩⟩

/-- V19, and R40 by hand: ID, PARAM0, NKEYS, NLEVELS and RANKUSED at their offsets. -/
theorem test_register_offsets : [0x000#32, 0x008#32, 0x058#32, 0x088#32, 0x0E0#32].map (fun a => (busRead a (on20 2 3 0)).data) =
    [0x000000014D504846, 4, 3, 2, 2] := by decide +kernel

/-- R43, R44 and R340 by hand: MAXLVL 5 with all three enables; DONE, BUILT, REJ and so IRQ; CAPACITY is 4. -/
theorem test_packed_registers :
    let s := { fresh with
      ctrl := { signed := true, doneIe := true, faultIe := true, maxlvl := 5#6 },
      status := { fresh.status with done := true, built := true, rej := true }, faultCode := .capacity }
    [0x040#32, 0x048#32, 0x0C0#32].map (fun a => (busRead a s).data) = [0x507, 0xCA, 4] := by decide +kernel

/-- The last words of two memories. -/
theorem witness_BusReadReturnsAddressedWord :
    fresh.params.Wf ∧ fresh.phase = .idle ∧ 3 < Space.keymem.words fresh.params ∧ 7 < Space.tagmem.words fresh.params := by
  decide +kernel

/-- Misaligned, unmapped below and above, beyond the words, a write of a read-only memory, a read while BUSY; and two accesses that
are none of these. -/
theorem witness_BusErrorsHaveNoEffect :
    fresh.params.Wf ∧ BusError fresh 0x4#32 false ∧ BusError fresh 0x1000#32 false ∧ BusError fresh 0x80000000#32 false ∧
    BusError fresh 0x10000020#32 false ∧ BusError fresh 0x20000000#32 true ∧ BusError (onFresh 1 []) 0x10000000#32 false ∧
    ¬ BusError fresh 0xFF8#32 true ∧ ¬ BusError fresh 0x10000018#32 true := by
  have keep : ∀ a : Addr, a.toNat % 8 = 0 → a = 0xFF8#32 ∨ a = 0x10000018#32 → ¬ BusError fresh a true := by
    rintro a ha (rfl | rfl) (h | h | h | ⟨sp, h1, h2⟩ | ⟨sp, h1, h2, h | h⟩)
    all_goals first
      | exact absurd h (by decide +kernel)
      | (revert h1 h2; cases sp <;> decide +kernel)
      | (revert h1 h2 h; cases sp <;> decide +kernel)
  exact ⟨by decide +kernel, .inl (by decide +kernel), .inr (.inl (by decide +kernel)), .inr (.inr (.inl (by decide +kernel))),
    .inr (.inr (.inr (.inl ⟨.keymem, by decide +kernel⟩))), .inr (.inr (.inr (.inr ⟨.bvmem, by decide +kernel⟩))),
    .inr (.inr (.inr (.inr ⟨.keymem, by decide +kernel⟩))), keep _ (by decide +kernel) (.inl rfl),
    keep _ (by decide +kernel) (.inr rfl)⟩

/-- The last slot of VALMEM. -/
theorem witness_HostWriteReadsBack :
    fresh.params.Wf ∧ memWf fresh.mem = true ∧ fresh.phase = .idle ∧ 3 < Space.valmem.words fresh.params := by decide +kernel

/-- MAXLVL 32 and 33 (stored as 32), both with SRST = 0; the other clauses have no hypothesis. -/
theorem witness_ControlWritesReadBackLegal : (0x2000 : Word).getLsbD 31 = false ∧ (0x2100 : Word).getLsbD 31 = false := by decide

/-- A reserved offset that is ignored and reads 0 (the first and the last), and a read-only register. -/
theorem witness_ReadOnlyAndReservedOffsets :
    ∀ a ∈ [0x28#32, 0xE8#32, 0xFF8#32, 0x78#32], a.toNat < 0x1000 ∧ a.toNat % 8 = 0 ∧
      a.toNat ∉ [0x40, 0x48, 0x50, 0x58, 0x60, 0x68, 0x70] := by
  intro a ha
  simp only [List.mem_cons, List.not_mem_nil, or_false] at ha
  rcases ha with rfl | rfl | rfl | rfl <;> decide

/-- No command, an abandoned QUERY (which names no memory) and BUILD (which does not name OUTMEM), and an abandoned illegal word. -/
theorem witness_SoftResetRestoresRegisters :
    (v20.params.Wf ∧ (0x80000000 : Word).getLsbD 31 = true ∧ v20.phase = .idle) ∧
    ((on20 2 3 0).params.Wf ∧ (on20 2 3 0).phase = .busy ∧ decode (on20 2 3 0).latch.word = .ok .query ∧
      Space.valmem ∉ writtenSpaces .query) ∧
    ((onFresh 1 [7]).params.Wf ∧ (onFresh 1 [7]).phase = .busy ∧ decode (onFresh 1 [7]).latch.word = .ok (.build false) ∧
      Space.outmem ∉ writtenSpaces (.build false)) ∧
    ((onFresh 0xD []).params.Wf ∧ (onFresh 0xD []).phase = .busy ∧ decode (onFresh 0xD []).latch.word = .error .reservedOp) := by
  decide +kernel

/-- Also StepKeepsInvariant and RunningCommandEnds. -/
theorem witness_SafeStepNeverStops : (on20 2 3 0).Safe ∧ (on20 2 3 0).phase = .busy :=
  ⟨on20_safe _ _ _ (by simp), by decide +kernel⟩

end Sys2Proof.Tests
end

section
/-!
PROOFS. What a command leaves when it ends, over all commands: one inversion lemma for `exec` (`exec_cases`), and the frame rules
that follow from it (10_state.md R31, R32).
-/
namespace Sys2Proof.Machine

/-! ### How every command ends -/

/-- `t` is how command `i` can complete from `s`: but for RES0 and RES1 it keeps what a command keeps, and it writes those two only
where its rule names them (10_state.md R32). -/
structure Finishes (i : Instr) (s t : State) : Prop where
  keeps   : Keeps (mayWrite i) s { t with res0 := s.res0, res1 := s.res1 }
  results : i ∈ [.nop, .set, .clrvals, .inval] → t.res0 = s.res0 ∧ t.res1 = s.res1
  second  : i ∈ [.lookup, .accum, .emit, .bitget, .sort false] → t.res1 = s.res1

variable {i : Instr} {s t u : State}

/-- A body that writes neither result. -/
theorem Keeps.finishes (h : Keeps (mayWrite i) s t) : Finishes i s t where
  keeps := { h with res0 := rfl, res1 := rfl }
  results _ := ⟨h.res0, h.res1⟩
  second _ := h.res1

/-- A body that writes RES0 alone. -/
theorem Keeps.finishes_res0 (h : Keeps (mayWrite i) s t) (x : Word) (hi : i ∉ [.nop, .set, .clrvals, .inval]) :
    Finishes i s { t with res0 := x } where
  keeps := { h with res0 := rfl, res1 := rfl }
  results hm := absurd hm hi
  second _ := h.res1

/-- A body that writes both results. -/
theorem Keeps.finishes_both (h : Keeps (mayWrite i) s t) (x y : Word) (hi : i ∉ [.nop, .set, .clrvals, .inval])
    (hj : i ∉ [.lookup, .accum, .emit, .bitget, .sort false]) : Finishes i s { t with res0 := x, res1 := y } where
  keeps := { h with res0 := rfl, res1 := rfl }
  results hm := absurd hm hi
  second hm := absurd hm hj

/-- The pseudocode of every command: it keeps what its row allows, whether it completes or faults. -/
theorem exec_ends (i : Instr) (s : State) :
    ∃ r, exec i s = conclude r ∧ Ends (KeepsOnFault (mayWrite i) s) (Finishes i s) r := by
  have h0 : Keeps (mayWrite i) s s := .refl _ s
  cases i with
  | nop => exact ⟨.ok s, rfl, ends_ok.2 h0.finishes⟩
  | build d =>
    exact ⟨_, rfl, (keeps_buildBody d (by simp [mayWrite]) h0).bind fun _ h => h.finishes_both _ _ (by simp) (by simp)⟩
  | query =>
    exact ⟨_, rfl, (keeps_requireBuilt h0).bind fun _ _ => (ends_query _ s).bind fun _ _ =>
      h0.finishes_both _ _ (by simp) (by simp)⟩
  | lookup =>
    exact ⟨_, rfl, (keeps_requireIndex _ h0).bind fun _ _ => (ends_any_memRead _ _ s).bind fun _ _ =>
      h0.finishes_res0 _ (by simp)⟩
  | set =>
    exact ⟨_, rfl, (keeps_requireIndex _ h0).bind fun _ _ =>
      (keeps_memWrite _ _ _ (by simp [mayWrite]) (storeLegal_of_ne (by decide)) h0).mono (fun _ _ _ h => h) fun _ h => h.finishes⟩
  | clrvals =>
    exact ⟨_, rfl, (keeps_requireBuilt h0).bind fun _ _ =>
      (keeps_clearSlots _ (by simp [mayWrite]) (by simp [mayWrite]) h0).mono (fun _ _ _ h => h) fun _ h => h.finishes⟩
  | accum =>
    exact ⟨_, rfl, (keeps_accumBody (by simp [mayWrite]) (by simp [mayWrite]) h0).bind fun _ h =>
      h.finishes_res0 _ (by simp)⟩
  | emit => exact ⟨_, rfl, (keeps_emitBody (by simp [mayWrite]) h0).bind fun _ h => h.finishes_res0 _ (by simp)⟩
  | sort p =>
    have hn (b : Bool) : Finishes (.sort p) s (s.sortNothing b) :=
      Keeps.finishes_res0 (t := { s with status := { s.status with outp := b }, outlen := 0 }) { h0 with } 0 (by simp)
    refine ⟨_, rfl, ?_⟩
    cases p with
    | false => exact ends_pure.2 (hn false)
    | true =>
      rw [if_neg (by decide)]
      split
      · exact ends_pure.2 (hn true)
      · exact (keeps_buildBody true (by simp [mayWrite]) h0).bind fun _ h1 =>
          (keeps_accumBody (by simp [mayWrite]) (by simp [mayWrite]) h1).bind fun _ h2 =>
            (keeps_emitBody (by simp [mayWrite]) h2).bind fun _ h3 => h3.finishes_both _ _ (by simp) (by simp)
  | rank =>
    exact ⟨_, rfl, (keeps_requirePosition _ _ h0).bind fun _ _ => (ends_localRank _ _ s).bind fun _ _ =>
      (ends_globalRank _ _ s).bind fun _ _ => h0.finishes_both _ _ (by simp) (by simp)⟩
  | hash =>
    exact ⟨_, rfl, (keeps_require (Q := fun _ => True) (by decide) h0 trivial).bind fun _ _ =>
      h0.finishes_both _ _ (by simp) (by simp)⟩
  | bitget =>
    exact ⟨_, rfl, (keeps_requirePosition _ _ h0).bind fun _ _ => (ends_levelWbase _ s).bind fun _ _ =>
      (ends_any_bit _ _ _ s).bind fun _ _ => h0.finishes_res0 _ (by simp)⟩
  | inval => exact ⟨.ok s.dropFunction, rfl, ends_ok.2 (h0.trans (.dropFunction (by simp [mayWrite]))).finishes⟩

/-- A command that answers a next state has completed or has raised one of the faults of 60_exceptions.md R340. -/
theorem exec_cases (h : exec i s = .next t) :
    (∃ u, Finishes i s u ∧ t = u.complete) ∨
      ∃ c x u, c ≠ .none ∧ Keeps (mayWrite i) s u ∧ t = u.takeFault c x := by
  obtain ⟨r, hr, he⟩ := exec_ends i s
  rcases he.conclude (hr ▸ h) with hu | ⟨c, x, u, ⟨hc, hk⟩, rfl⟩
  · exact .inl hu
  · exact .inr ⟨c, x, u, hc, hk, rfl⟩

/-- The memory after a command comes by storing to the memories its row names (30_encoding.md R127). -/
theorem exec_stores (h : exec i s = .next t) : Stores s.params (mayWrite i) s.mem t.mem := by
  rcases exec_cases h with ⟨u, hu, rfl⟩ | ⟨c, x, u, -, hu, rfl⟩
  · exact hu.keeps.stores
  · exact hu.stores

/-! ### Results and frame of the host's registers -/

/-- Settles O42: a fault keeps RES0 and RES1 as the body does, and a completion writes what `Finishes` allows. -/
theorem resultsOnlyOnCompletion : Obligations.ResultsOnlyOnCompletion := by
  intro i s t h hf
  rcases exec_cases h with ⟨u, hu, rfl⟩ | ⟨c, x, u, -, hu, rfl⟩
  · have hfault : u.status.fault = false := hu.keeps.fault.trans hf
    exact ⟨fun ht => absurd (hfault.symm.trans ht) (by decide), hu.results, hu.second⟩
  · exact ⟨fun _ => ⟨hu.res0, hu.res1⟩, fun _ => ⟨hu.res0, hu.res1⟩, fun _ => hu.res1⟩

/-- Settles O43: the frame of the body holds of both ends of a command. -/
theorem engineLeavesHostRegisters : Obligations.EngineLeavesHostRegisters := by
  intro i s t h
  rcases exec_cases h with ⟨u, hu, rfl⟩ | ⟨c, x, u, -, hu, rfl⟩
  · obtain ⟨hk, -, -⟩ := hu
    exact ⟨hk.params, hk.ctrl, hk.cmd, hk.nkeys, hk.gamma, hk.arg0, hk.arg1, hk.latch, hk.inbox, hk.answer, hk.freeCount⟩
  · exact ⟨hu.params, hu.ctrl, hu.cmd, hu.nkeys, hu.gamma, hu.arg0, hu.arg1, hu.latch, hu.inbox, hu.answer, hu.freeCount⟩

end Sys2Proof.Machine
end

section
/-!
PROOFS. The registers of the built function over all commands: BUILD, SORT.P and INVAL replace them, every other command leaves them
alone (`exec_keepsFn`), and all commands keep what the invariant says of them (`exec_regsInv`).
-/
namespace Sys2Proof.Machine

/-! ### Leaving the built function's registers alone -/

/-- `t` has the built-function registers of `s`, its OUTLEN still counts words of OUTMEM, and its scratch level is at most `L`. -/
structure KeepsFn (L : Nat) (s t : State) : Prop where
  params   : t.params = s.params
  built    : t.status.built = s.status.built
  nlevels  : t.nlevels = s.nlevels
  bnkeys   : t.bnkeys = s.bnkeys
  total    : t.total = s.total
  dups     : t.dups = s.dups
  bvused   : t.bvused = s.bvused
  rankused : t.rankused = s.rankused
  outlen   : s.outlen.toNat ≤ s.params.keyDepth → t.outlen.toNat ≤ t.params.keyDepth
  level    : t.scratch.level ≤ L

/-- The raise half of `Ends` for these bodies. -/
abbrev KeepsFnOnFault (L : Nat) (s : State) : FaultCode → Word → State → Prop := fun _ _ t => KeepsFn L s t

variable {L M : Nat} {s t : State}

theorem KeepsFn.refl (s : State) : KeepsFn s.scratch.level s s := by constructor <;> simp

theorem KeepsFn.mono (h : KeepsFn L s t) (hL : L ≤ M) : KeepsFn M s t := { h with level := h.level.trans hL }

theorem KeepsFn.setScratch (h : KeepsFn L s t) (sc : Scratch) (hl : sc.level ≤ L) : KeepsFn L s (t.setScratch sc) :=
  { h with level := hl }

theorem keepsFn_memWrite {P : FaultCode → Word → State → Prop} (sp : Space) (i : Nat) (v : Word) (h : KeepsFn L s t) :
    Ends P (KeepsFn L s) (memWrite sp i v t) := ends_memWrite fun _ => { h with }

theorem keepsFn_memZero {P : FaultCode → Word → State → Prop} (sp : Space) (i n : Nat) (h : KeepsFn L s t) :
    Ends P (KeepsFn L s) (memZero sp i n t) := ends_memZero fun _ => { h with }

theorem keepsFn_require {ok : Bool} {c : FaultCode} {x : Word} (h : KeepsFn L s t) :
    Ends (KeepsFnOnFault L s) (fun _ => True) (require ok c x t) := ends_require (fun _ => trivial) fun _ => h

theorem keepsFn_requireBuilt (h : KeepsFn L s t) : Ends (KeepsFnOnFault L s) (fun _ => True) (requireBuilt t) :=
  keepsFn_require h

theorem keepsFn_requireIndex (x : Word) (h : KeepsFn L s t) :
    Ends (KeepsFnOnFault L s) (fun _ => True) (requireIndex x t) :=
  (keepsFn_requireBuilt h).bind fun _ _ => keepsFn_require h

theorem keepsFn_requirePosition (l n : Word) (h : KeepsFn L s t) :
    Ends (KeepsFnOnFault L s) (fun _ => True) (requirePosition l n t) :=
  (keepsFn_requireBuilt h).bind fun _ _ => (keepsFn_require h).bind fun _ _ => (ends_levelSize _ t).bind fun _ _ =>
    keepsFn_require h

theorem keepsFn_clearSlots (n : Nat) (h : KeepsFn L s t) : Ends (KeepsFnOnFault L s) (KeepsFn L s) (clearSlots n t) :=
  (keepsFn_memZero _ _ _ h).bind fun _ h1 => (keepsFn_memZero _ _ _ h1).bind fun _ h2 => { h2 with }

/-! ### Construction, up to the record of the function (41_build.md R186) -/

theorem keepsFn_secondPassKey (idx : Word → Nat) (k : Word) (h : KeepsFn L s t) :
    Ends (KeepsFnOnFault L s) (KeepsFn L s) (secondPassKey idx k t) := by
  unfold secondPassKey
  split
  · exact { h with }
  · exact ends_setBit fun _ => { h with }

theorem keepsFn_secondPass (idx : Word → Nat) (size : Nat) (h : KeepsFn L s t) :
    Ends (KeepsFnOnFault L s) (KeepsFn L s) (secondPass idx size t) :=
  (keepsFn_memZero _ _ _ h).bind fun _ h1 => Ends.forKeys h1 fun _ _ _ h2 => keepsFn_secondPassKey _ _ h2

theorem keepsFn_levelRecord (size : Nat) (h : KeepsFn L s t) :
    Ends (KeepsFnOnFault L s) (KeepsFn L s) (levelRecord size t) :=
  (keepsFn_memWrite _ _ _ h).bind fun _ h1 => (keepsFn_memWrite _ _ _ h1).bind fun _ h2 => keepsFn_memWrite _ _ _ h2

/-- The first pass touches the vectors, the survivors and the count of copies only (R189). -/
theorem firstPass_level (d : Bool) (idx : Word → Nat) (ks : List Word) (sc : Scratch) :
    (firstPass d idx ks sc).level = sc.level := by
  unfold firstPass
  induction ks generalizing sc with
  | nil => rfl
  | cons k ks ih =>
    rw [List.foldl_cons, ih]
    simp only [firstPassKey]
    split_ifs <;> rfl

/-- A level of the cascade moves the level counter on by one. -/
theorem keepsFn_buildLevel (d : Bool) (h : KeepsFn L s t) :
    Ends (KeepsFnOnFault L s) (KeepsFn (L + 1) s) (buildLevel d t) := by
  refine (keepsFn_require h).bind fun _ _ => ?_
  refine (keepsFn_secondPass _ _ (h.setScratch _ ?_)).bind fun _ h1 => ?_
  · exact (firstPass_level _ _ _ _).trans_le h.level
  · exact (keepsFn_levelRecord _ h1).bind fun _ h2 =>
      (h2.mono (Nat.le_succ L)).setScratch _ (Nat.succ_le_succ h2.level)

/-- The cascade makes at most as many levels as it has left (R192). -/
theorem keepsFn_cascade (d : Bool) (n : Nat) (h : KeepsFn L s t) :
    Ends (KeepsFnOnFault (L + n) s) (KeepsFn (L + n) s) (cascade d n t) := by
  induction n generalizing L t with
  | zero =>
    unfold cascade
    split <;> exact h
  | succ n ih =>
    unfold cascade
    split
    · exact h.mono (by omega)
    · refine ((keepsFn_buildLevel d h).mono (fun _ _ _ hf => hf.mono (by omega)) fun _ hu => hu).bind fun _ hu => ?_
      simpa only [Nat.add_assoc, Nat.add_comm 1] using ih hu

theorem keepsFn_rankWord (wb rb j : Nat) (h : KeepsFn L s t) :
    Ends (KeepsFnOnFault L s) (KeepsFn L s) (rankWord wb rb j t) := by
  unfold rankWord
  refine Ends.bind (Q := KeepsFn L s) ?_ fun u hu => (ends_any_memRead _ _ u).bind fun _ _ => { hu with }
  unfold sampleBefore
  split
  · exact keepsFn_memWrite _ _ _ h
  · exact h

theorem keepsFn_rankLevel (l : Nat) (h : KeepsFn L s t) : Ends (KeepsFnOnFault L s) (KeepsFn L s) (rankLevel l t) :=
  (ends_levelSize l t).bind fun _ _ => (ends_levelWbase l t).bind fun _ _ => (ends_levelRbase l t).bind fun _ _ =>
    (keepsFn_memWrite _ _ _ h).bind fun _ h1 => Ends.forUp (fun _ => KeepsFn L s) h1 fun _ _ _ _ h2 => keepsFn_rankWord _ _ _ h2

theorem keepsFn_buildRanks (n : Nat) (h : KeepsFn L s t) : Ends (KeepsFnOnFault L s) (KeepsFn L s) (buildRanks n t) :=
  Ends.forUp (fun _ => KeepsFn L s) { h with } fun _ _ _ _ h1 => keepsFn_rankLevel _ h1

/-! ### Counting and emitting (45_sort.md R283, R290) -/

theorem KeepsFn.widenRange (k : Word) (h : KeepsFn L s t) : KeepsFn L s (t.widenRange k) := by
  unfold State.widenRange
  split <;> exact { h with }

theorem keepsFn_accumKey (j : Nat) (h : KeepsFn L s t) : Ends (KeepsFnOnFault L s) (KeepsFn L s) (accumKey j t) :=
  (ends_any_memRead _ _ t).bind fun _ _ => (ends_query _ t).bind fun _ _ => (keepsFn_require h).bind fun _ _ =>
    (ends_readTag _ t).bind fun _ _ => (keepsFn_require h).bind fun _ _ => (ends_any_memRead _ _ t).bind fun _ _ =>
      (keepsFn_memWrite _ _ _ h).bind fun _ h1 => (keepsFn_memWrite _ _ _ h1).bind fun _ h2 =>
        (keepsFn_memWrite _ _ _ h2).bind fun _ h3 => h3.widenRange _

theorem keepsFn_accumBody (h : KeepsFn L s t) : Ends (KeepsFnOnFault L s) (KeepsFn L s) (accumBody t) :=
  (keepsFn_requireBuilt h).bind fun _ _ => (keepsFn_require h).bind fun _ _ =>
    Ends.forUp (fun _ => KeepsFn L s) h fun _ _ _ _ h1 => keepsFn_accumKey _ h1

/-- A word that has been stored in OUTMEM leaves room for its count (10_state.md R53). -/
theorem keepsFn_emitOne (v : Word) (h : KeepsFn L s t) : Ends (KeepsFnOnFault L s) (KeepsFn L s) (emitOne v t) := by
  refine (keepsFn_require h).bind fun _ _ => Ends.bind (ends_memWrite fun hi => ?_) fun _ hu => hu
  have hi : t.outlen.toNat < t.params.keyDepth := hi
  refine { h with outlen := fun _ => ?_ }
  show (t.outlen + 1).toNat ≤ t.params.keyDepth
  have h1 := Nat.mod_le (t.outlen.toNat + 1) (2 ^ 64)
  rw [BitVec.toNat_add]
  exact h1.trans hi

theorem keepsFn_emitValue (v : Word) (h : KeepsFn L s t) : Ends (KeepsFnOnFault L s) (KeepsFn L s) (emitValue v t) := by
  refine (ends_query v t).bind fun (x, _) _ => ?_
  dsimp only
  split
  · exact h
  · refine (ends_readTag _ t).bind fun (valid, tag) _ => ?_
    dsimp only
    split
    · exact (ends_any_memRead _ _ t).bind fun _ _ =>
        Ends.forUp (fun _ => KeepsFn L s) h fun _ _ _ _ h1 => keepsFn_emitOne v h1
    · exact h

theorem keepsFn_emitBody (h : KeepsFn L s t) : Ends (KeepsFnOnFault L s) (KeepsFn L s) (emitBody t) := by
  have h0 : KeepsFn L s t.startOutput := { h with outlen := fun _ => Nat.zero_le _ }
  refine (keepsFn_requireBuilt h).bind fun _ _ => ?_
  split
  · exact Ends.forUp (fun _ => KeepsFn L s) h0 fun _ _ _ _ h1 => keepsFn_emitValue _ h1
  · exact h0

/-! ### What the invariant says of these registers -/

/-- The clauses of `State.Inv` about the built-function registers and OUTLEN. -/
structure RegsInv (s : State) : Prop where
  unbuilt : s.status.built = false →
    s.nlevels = 0 ∧ s.bnkeys = 0 ∧ s.total = 0 ∧ s.dups = 0 ∧ s.bvused = 0 ∧ s.rankused = 0
  levels  : s.nlevels.toNat ≤ 32
  outlen  : s.outlen.toNat ≤ s.params.keyDepth

theorem State.Inv.regsInv (h : s.Inv) : RegsInv s := { h with }

theorem KeepsFn.regsInv (h : KeepsFn L s t) (hs : RegsInv s) : RegsInv t where
  unbuilt hb := by
    rw [h.nlevels, h.bnkeys, h.total, h.dups, h.bvused, h.rankused]
    exact hs.unbuilt (h.built ▸ hb)
  levels := h.nlevels ▸ hs.levels
  outlen := h.outlen hs.outlen

theorem RegsInv.dropFunction (h : RegsInv s) : RegsInv s.dropFunction where
  unbuilt _ := ⟨rfl, rfl, rfl, rfl, rfl, rfl⟩
  levels := Nat.zero_le _
  outlen := h.outlen

theorem RegsInv.recordFunction (h : RegsInv s) (hl : s.scratch.level ≤ 32) (n : Word) : RegsInv (s.recordFunction n) where
  unbuilt hb := nomatch hb
  levels := (Nat.mod_le _ _).trans hl
  outlen := h.outlen

/-- A body that keeps the registers of such a state faults in one. -/
theorem regsInv_of_keepsFn {α : Type} {Q : α → Prop} {r : Except Abort α} (hs : RegsInv s) (h : Ends (KeepsFnOnFault L s) Q r) :
    Ends (fun _ _ => RegsInv) Q r := h.mono (fun _ _ _ ht => ht.regsInv hs) fun _ ha => ha

/-- A build leaves no function, or one of at most MAXLVL levels (10_state.md R48). -/
theorem regsInv_buildBody (d : Bool) (h : RegsInv t) (hl : t.latch.maxlvl.toNat ≤ 32) :
    Ends (fun _ _ => RegsInv) RegsInv (buildBody d t) := by
  have hd := h.dropFunction
  have h0 := KeepsFn.refl t.dropFunction
  have hl' : 0 + t.latch.maxlvl.toNat ≤ 32 := by omega
  refine (regsInv_of_keepsFn hd (keepsFn_require h0)).bind fun _ _ => (ends_readKeys _ _ _).bind fun ks _ => ?_
  have h1 : KeepsFn 0 t.dropFunction (t.dropFunction.startBuild ks) := { h0 with level := Nat.le_refl 0 }
  refine (regsInv_of_keepsFn hd (keepsFn_cascade d _ h1)).bind fun _ h2 => ?_
  refine (regsInv_of_keepsFn hd (keepsFn_buildRanks _ h2)).bind fun _ h3 => ?_
  exact (regsInv_of_keepsFn hd (keepsFn_clearSlots _ h3)).bind fun u h4 =>
    (h4.regsInv hd).recordFunction (h4.level.trans hl') _

/-! ### Over all commands -/

/-- The commands that end the built function: BUILD, SORT.P and INVAL (10_state.md R67, 45_sort.md R300). -/
def endsFunction : Instr → Bool
  | .build _ | .sort true | .inval => true
  | .nop | .query | .lookup | .set | .clrvals | .accum | .emit | .sort false | .rank | .hash | .bitget => false

/-- A command's pseudocode that keeps the registers, as a fact about the state after the command. -/
theorem KeepsFn.of_conclude {r : Except Abort State} (h : Ends (KeepsFnOnFault L s) (KeepsFn L s) r) (ht : conclude r = .next t) :
    KeepsFn L s t := by
  rcases h.conclude ht with ⟨u, hu, rfl⟩ | ⟨c, x, u, hu, rfl⟩
  · exact { hu with }
  · exact { hu with }

/-- Every other command leaves the built function's registers alone. -/
theorem exec_keepsFn {i : Instr} (hi : endsFunction i = false) (h : exec i s = .next t) : KeepsFn s.scratch.level s t := by
  have h0 := KeepsFn.refl s
  suffices hr : ∃ r, exec i s = conclude r ∧ Ends (KeepsFnOnFault s.scratch.level s) (KeepsFn s.scratch.level s) r by
    obtain ⟨r, hr, he⟩ := hr
    exact .of_conclude he (hr ▸ h)
  cases i with
  | nop => exact ⟨.ok s, rfl, h0⟩
  | build d => cases hi
  | query =>
    exact ⟨_, rfl, (keepsFn_requireBuilt h0).bind fun _ _ => (ends_query _ s).bind fun _ _ => { h0 with }⟩
  | lookup =>
    exact ⟨_, rfl, (keepsFn_requireIndex _ h0).bind fun _ _ => (ends_any_memRead _ _ s).bind fun _ _ => { h0 with }⟩
  | set => exact ⟨_, rfl, (keepsFn_requireIndex _ h0).bind fun _ _ => keepsFn_memWrite _ _ _ h0⟩
  | clrvals => exact ⟨_, rfl, (keepsFn_requireBuilt h0).bind fun _ _ => keepsFn_clearSlots _ h0⟩
  | accum => exact ⟨_, rfl, (keepsFn_accumBody h0).bind fun _ h1 => { h1 with }⟩
  | emit => exact ⟨_, rfl, (keepsFn_emitBody h0).bind fun _ h1 => { h1 with }⟩
  | sort p =>
    cases p with
    | true => cases hi
    | false => exact ⟨.ok (s.sortNothing false), rfl, { h0 with outlen := fun _ => Nat.zero_le _ }⟩
  | rank =>
    exact ⟨_, rfl, (keepsFn_requirePosition _ _ h0).bind fun _ _ => (ends_localRank _ _ s).bind fun _ _ =>
      (ends_globalRank _ _ s).bind fun _ _ => { h0 with }⟩
  | hash => exact ⟨_, rfl, (keepsFn_require h0).bind fun _ _ => { h0 with }⟩
  | bitget =>
    exact ⟨_, rfl, (keepsFn_requirePosition _ _ h0).bind fun _ _ => (ends_levelWbase _ s).bind fun _ _ =>
      (ends_any_bit _ _ _ s).bind fun _ _ => { h0 with }⟩
  | inval => cases hi

theorem RegsInv.of_conclude {r : Except Abort State} (h : Ends (fun _ _ => RegsInv) RegsInv r) (ht : conclude r = .next t) :
    RegsInv t := by
  rcases h.conclude ht with ⟨u, hu, rfl⟩ | ⟨c, x, u, hu, rfl⟩
  · exact { hu with }
  · exact { hu with }

/-- SORT.P is a build, then a count and an output that keep its registers (45_sort.md R300). -/
theorem regsInv_sort (h : RegsInv s) (hl : s.latch.maxlvl.toNat ≤ 32) (ht : exec (.sort true) s = .next t) : RegsInv t := by
  refine .of_conclude ?_ ht
  rw [if_neg (by decide)]
  split
  · exact ends_pure.2 { h with outlen := Nat.zero_le _ }
  refine (regsInv_buildBody true h hl).bind fun u hu => ?_
  refine (regsInv_of_keepsFn hu (keepsFn_accumBody (.refl u))).bind fun v hv => ?_
  exact (regsInv_of_keepsFn hu (keepsFn_emitBody hv)).bind fun w hw => { hw.regsInv hu with }

/-- Every command keeps the invariant's clauses about these registers. -/
theorem exec_regsInv {i : Instr} (h : RegsInv s) (hl : s.latch.maxlvl.toNat ≤ 32) (ht : exec i s = .next t) : RegsInv t := by
  cases hi : endsFunction i with
  | false => exact (exec_keepsFn hi ht).regsInv h
  | true =>
    cases i with
    | build d =>
      refine .of_conclude ?_ ht
      exact (regsInv_buildBody d h hl).bind fun u hu => { hu with }
    | sort p => cases p with
      | true => exact regsInv_sort h hl ht
      | false => cases hi
    | inval => exact .of_conclude (r := .ok s.dropFunction) h.dropFunction ht
    | nop | query | lookup | set | clrvals | accum | emit | rank | hash | bitget => cases hi

end Sys2Proof.Machine
end

section
/-!
PROOFS. The host's side of a step: where an address of the CSR window leads, what a write can do (`busWrite_cases`), what an act of host
or platform can do (`serve_cases`), and who moved (`step_cases`).
-/
namespace Sys2Proof.Machine

/-! ### The CSR window (10_state.md R40, 20_memory.md R84) -/

/-- The map of R40 reads both ways. -/
theorem Csr.ofOffset_eq_some {off : Nat} {c : Csr} : Csr.ofOffset off = some c ↔ c.offset = off := by
  constructor
  · intro h
    simpa using List.find?_some h
  · rintro rfl
    cases c <;> rfl

theorem Csr.ofOffset_offset (c : Csr) : Csr.ofOffset c.offset = some c := Csr.ofOffset_eq_some.2 rfl

/-- Every register lies aligned in the window. -/
theorem Csr.addr_toNat (c : Csr) : c.addr.toNat = c.offset := by cases c <;> rfl

theorem Csr.offset_aligned (c : Csr) : c.offset % 8 = 0 ∧ c.offset < 0x1000 := by cases c <;> decide

theorem target_of_window (p : Params) {a : Addr} (h8 : a.toNat % 8 = 0) (ha : a.toNat < 0x1000) :
    target p a = .csr a.toNat := by
  simp only [target]
  rw [if_neg (by omega), if_pos ha]

theorem target_csr_addr (p : Params) (c : Csr) : target p c.addr = .csr c.offset := by
  have h := c.offset_aligned
  rw [← c.addr_toNat] at h ⊢
  exact target_of_window p h.1 h.2

theorem toNat_of_target_csr {p : Params} {a : Addr} {off : Nat} (h : target p a = .csr off) : a.toNat = off := by
  simp only [target] at h
  split_ifs at h
  · exact Target.csr.inj h
  · split at h
    · cases h
    · split at h <;> cases h

theorem lt_of_target_word {p : Params} {a : Addr} {sp : Space} {i : Nat} (h : target p a = .word sp i) : i < sp.words p := by
  simp only [target] at h
  split_ifs at h
  split at h
  · cases h
  · split at h
    · cases h
      assumption
    · cases h

/-- A bus write of a register writes it (R81). -/
theorem busWrite_csr (c : Csr) (v : Word) (s : State) : busWrite c.addr v s = (.okay, writeCsr c v s) := by
  rw [busWrite, target_csr_addr]
  simp only [writeOffset, Csr.ofOffset_offset]

/-- A bus read of a register reads it (R81). -/
theorem busRead_csr (c : Csr) (s : State) : busRead c.addr s = .okay (c.read s) := by
  rw [busRead, target_csr_addr]
  simp only [readOffset, Csr.ofOffset_offset]

/-- What a bus write can do: nothing, write a register, or store a word of KEYMEM or VALMEM (R84, R85). -/
theorem busWrite_cases (a : Addr) (v : Word) (s : State) :
    (busWrite a v s).2 = s ∨ (∃ c : Csr, a = c.addr ∧ (busWrite a v s).2 = writeCsr c v s) ∨
      ∃ (sp : Space) (i : Nat), sp.hostWritable = true ∧ i < sp.words s.params ∧ (busWrite a v s).2 = s.setWord sp i v := by
  unfold busWrite
  split
  case h_1 off ht =>
    simp only [writeOffset]
    split
    · next c hc =>
      refine .inr (.inl ⟨c, BitVec.eq_of_toNat_eq ?_, rfl⟩)
      rw [toNat_of_target_csr ht, c.addr_toNat, Csr.ofOffset_eq_some.1 hc]
    · exact .inl rfl
  case h_2 sp i ht =>
    split
    · next hw => exact .inr (.inr ⟨sp, i, (Bool.and_eq_true_iff.1 hw).2, lt_of_target_word ht, rfl⟩)
    · exact .inl rfl
  case h_3 => exact .inl rfl

/-! ### Serving an act -/

/-- A power-on reset, or a CTRL write with SRST = 1 (70_reset_and_hazards.md R370, R372). -/
def Act.IsReset (act : Act) : Prop := act = .powerOn ∨ ∃ v, act = .write 0x40#32 v ∧ v.getLsbD 31 = true

/-- What serving an act does, apart from the answer and the inbox. -/
inductive Served (act : Act) (s : State) : State → Prop
  | nothing : Served act s s
  | register (c : Csr) (v : Word) (ha : act = .write c.addr v) : Served act s (writeCsr c v s)
  | store (sp : Space) (i : Nat) (v : Word) (hw : sp.hostWritable = true) (hi : i < sp.words s.params) :
      Served act s (s.setWord sp i v)
  | powerOn (ha : act = .powerOn) : Served act s s.powerOn

theorem serve_cases (p : Pending) (rest : List Pending) (s : State) :
    ∃ (u : State) (x : Option Answer) (ps : List Pending), Served p.act s u ∧
      serve p rest s = { u with answer := x, inbox := ps } := by
  unfold serve
  split
  case h_1 a _ => exact ⟨s, _, _, .nothing, rfl⟩
  case h_2 a v ha =>
    refine ⟨(busWrite a v s).2, _, _, ?_, rfl⟩
    rw [ha]
    rcases busWrite_cases a v s with h | ⟨c, rfl, h⟩ | ⟨sp, i, hw, hi, h⟩ <;> rw [h]
    · exact .nothing
    · exact .register c v rfl
    · exact .store sp i v hw hi
  case h_3 => exact ⟨s, _, _, .nothing, rfl⟩
  case h_4 ha => exact ⟨s.powerOn, _, _, .powerOn ha, rfl⟩

/-! ### Who moves -/

theorem State.busy_iff (s : State) : s.busy = true ↔ s.phase = .busy := beq_iff_eq

/-- The engine moves exactly when a command runs and no early act is to come (R100, R390). -/
theorem mover_eq_engine {s : State} : s.mover = .engine ↔ s.EngineMoves := by
  unfold State.mover State.EngineMoves
  rw [← s.busy_iff]
  cases hi : s.inbox with
  | nil => cases s.busy <;> simp
  | cons p rest => cases s.busy <;> simp

theorem inbox_of_mover_outside {s : State} {p : Pending} {rest : List Pending} (h : s.mover = .outside p rest) :
    s.inbox = p :: rest := by
  unfold State.mover at h
  split at h
  · split at h <;> cases h
  · next hi =>
    split at h
    · cases h
    · cases h
      exact hi

/-- What one step can be: the engine's command, an illegal word, an act served, or waiting (60_exceptions.md R332, R390). -/
theorem step_cases {s t : State} (h : step s = .next t) :
    (s.EngineMoves ∧ ∃ i, decode s.latch.word = .ok i ∧ exec i s = .next t) ∨
    (s.EngineMoves ∧ t = illegalCommand s) ∨
    (¬ s.EngineMoves ∧ ∃ p rest, s.inbox = p :: rest ∧ t = serve p rest s) ∨ t = s := by
  unfold step at h
  split at h
  case h_1 hm =>
    have he := mover_eq_engine.1 hm
    unfold engineStep at h
    split at h
    · next i hi => exact .inl ⟨he, i, hi, h⟩
    · exact .inr (.inl ⟨he, by cases h; rfl⟩)
  case h_2 p rest hm =>
    refine .inr (.inr (.inl ⟨fun he => ?_, p, rest, inbox_of_mover_outside hm, by cases h; rfl⟩))
    rw [mover_eq_engine.2 he] at hm
    cases hm
  case h_3 => exact .inr (.inr (.inr (by cases h; rfl)))

/-! ### Acts other than a reset -/

/-- `t` differs from `s` at most in what the host writes: its registers, a command request's effects, three bits of STATUS, and words
of KEYMEM and VALMEM (10_state.md R31, 20_memory.md R84). -/
structure HostKeeps (s t : State) : Prop where
  params    : t.params = s.params
  built     : t.status.built = s.status.built
  nlevels   : t.nlevels = s.nlevels
  bnkeys    : t.bnkeys = s.bnkeys
  total     : t.total = s.total
  dups      : t.dups = s.dups
  bvused    : t.bvused = s.bvused
  rankused  : t.rankused = s.rankused
  faultCode : t.faultCode = s.faultCode
  faultInfo : t.faultInfo = s.faultInfo
  faultCmd  : t.faultCmd = s.faultCmd
  stores    : Stores s.params [.keymem, .valmem] s.mem t.mem

theorem HostKeeps.refl (s : State) : HostKeeps s s := by
  refine ⟨?_, ?_, ?_, ?_, ?_, ?_, ?_, ?_, ?_, ?_, ?_, .refl _⟩ <;> rfl

/-- The memories the host can write are KEYMEM and VALMEM (R84). -/
theorem Space.mem_of_hostWritable {sp : Space} (h : sp.hostWritable = true) : sp ∈ [Space.keymem, .valmem] := by
  revert h
  cases sp <;> decide

theorem hostKeeps_request (w : Word) (s : State) : HostKeeps s (s.request w) := by
  unfold State.request
  split <;> exact { HostKeeps.refl s with }

/-- A register write is a soft reset, or leaves what the engine owns alone. -/
theorem hostKeeps_writeCsr (c : Csr) (v : Word) (s : State) :
    (c = .ctrl ∧ srst v = true) ∨ HostKeeps s (writeCsr c v s) := by
  cases c with
  | ctrl =>
    by_cases hv : srst v = true
    · exact .inl ⟨rfl, hv⟩
    · right
      rw [writeCsr, if_neg hv]
      exact { HostKeeps.refl s with }
  | cmd => exact .inr (hostKeeps_request v s)
  | _ => exact .inr { HostKeeps.refl s with }

/-- Serving an act is a reset, or leaves what the engine owns alone. -/
theorem hostKeeps_serve (p : Pending) (rest : List Pending) (s : State) : p.act.IsReset ∨ HostKeeps s (serve p rest s) := by
  obtain ⟨u, x, ps, hu, hs⟩ := serve_cases p rest s
  rw [hs]
  suffices h : p.act.IsReset ∨ HostKeeps s u from h.imp_right fun hk => { hk with }
  cases hu with
  | nothing => exact .inr (.refl s)
  | register c v ha =>
    refine (hostKeeps_writeCsr c v s).imp_left ?_
    rintro ⟨rfl, hv⟩
    exact .inr ⟨v, ha, hv⟩
  | store sp i v hw hi =>
    exact .inr { HostKeeps.refl s with
      stores := .word (.refl _) sp i v (Space.mem_of_hostWritable hw) hi (storeLegal_of_ne (by rintro rfl; cases hw)) }
  | powerOn ha => exact .inl (.inl ha)

end Sys2Proof.Machine
end

section
/-!
PROOFS. The invariant of the block: the reset state meets it, and every step keeps it.
-/
namespace Sys2Proof.Machine

variable {s t : State}

/-! ### The clauses about memory -/

/-- Stores to existing words, of legal values, keep the clauses of the invariant about memory. -/
theorem State.Inv.stores (h : s.Inv) {sps : List Space} {m : List Host.Cell} (hm : Stores s.params sps s.mem m) :
    memWf m = true ∧ Placed s.params m ∧ TagBits s.params m :=
  ⟨hm.memWf h.mem, hm.placed h.placed, hm.tagBits h.params h.mem h.tagBits⟩

/-- A word that holds a value legal for it. -/
theorem State.Inv.setWord (h : s.Inv) {sp : Space} {i : Nat} {v : Word} (hi : i < sp.words s.params) (hv : StoreLegal sp i v) :
    (s.setWord sp i v).Inv := by
  obtain ⟨hm, hp, ht⟩ := h.stores (.word (sps := [sp]) (.refl _) sp i v (List.mem_singleton_self _) hi hv)
  exact { h with mem := hm, placed := hp, tagBits := ht }

/-! ### Reset (10_state.md R75, 70_reset_and_hazards.md R370, R372) -/

/-- A word of an empty memory list is 0. -/
theorem readWord_nil (a : Nat) : readWord [] a = 0 := by
  show ((0#8 ++ 0#8 ++ 0#8 ++ 0#8 ++ 0#8 ++ 0#8 ++ 0#8 ++ 0#8 : Word)) = 0
  decide

/-- Settles O57: no word is listed, so every clause is about the reset values; no function is built. -/
theorem resetIsSafe : Obligations.ResetIsSafe where
  inv := {
    params := by decide
    mem := memWf_reset
    placed := nofun
    maxlvl := by decide
    latchLvl := by decide
    gamma := by decide
    latchGamma := by decide
    oneEnd := by decide
    busyClear := nofun
    unbuilt := fun _ => ⟨rfl, rfl, rfl, rfl, rfl, rfl⟩
    levels := Nat.zero_le _
    outlen := Nat.zero_le _
    tagBits := fun _ _ => by simp [State.word, State.reset, readWord_nil] }
  fn := nofun

/-- Either reset leads to a state that meets the invariant. -/
theorem State.Inv.resetWith (h : s.Inv) (sps : List Space) : (s.resetWith sps).Inv := by
  obtain ⟨hm, hp, ht⟩ := h.stores <|
    Stores.resetWith (sqs := sps) (sps := sps ++ [.lvltab]) s (fun sp hs => by simp [hs]) (by simp)
  exact {
    params := h.params
    mem := hm
    placed := hp
    maxlvl := resetIsSafe.inv.maxlvl
    latchLvl := h.latchLvl
    gamma := resetIsSafe.inv.gamma
    latchGamma := h.latchGamma
    oneEnd := resetIsSafe.inv.oneEnd
    busyClear := nofun
    unbuilt := fun _ => ⟨rfl, rfl, rfl, rfl, rfl, rfl⟩
    levels := Nat.zero_le _
    outlen := Nat.zero_le _
    tagBits := ht }

/-- LVLTAB is 0 after either reset. -/
theorem resetWith_lvltab (sps : List Space) (s : State) {i : Nat} (hi : i < 128) : (s.resetWith sps).word .lvltab i = 0 :=
  readWord_zeroWords_inside _ (by simp only [Space.addr]; omega) (by simp only [Space.addr]; omega)

/-- Either reset leaves every register but the parameters as after the first power-on. -/
theorem read_resetWith (sps : List Space) (s : State) {c : Csr} (hc : c ∉ [.param0, .param1, .param2, .param3]) :
    Csr.read (s.resetWith sps) c = Csr.read State.reset c := by
  cases c with
  | param0 | param1 | param2 | param3 => simp at hc
  | _ => rfl

/-- Settles O55: both resets set the same fields, and a byte that nothing lists reads as 0. -/
theorem resetRegisterValues : Obligations.ResetRegisterValues := by
  refine ⟨fun c => ?_, fun _ _ => readWord_nil _, rfl, rfl, fun s => ?_⟩
  · cases c <;> rfl
  · exact ⟨fun c hc => read_resetWith _ s hc, rfl, rfl, rfl, fun i hi => resetWith_lvltab _ s hi⟩

/-! ### The end of a command -/

/-- A command keeps the invariant: its memories by what it stores, its registers by `exec_regsInv`, and of DONE and FAULT, both 0 while it
runs (60_exceptions.md R331), it sets one. -/
theorem exec_inv {i : Instr} (h : s.Inv) (hb : s.phase = .busy) (ht : exec i s = .next t) : t.Inv := by
  obtain ⟨hdone, hfault⟩ := h.busyClear hb
  obtain ⟨hunbuilt, hlevels, houtlen⟩ := exec_regsInv h.regsInv h.latchLvl.2 ht
  obtain ⟨hparams, hctrl, -, -, hgamma, -, -, hlatch, -⟩ := engineLeavesHostRegisters i s t ht
  obtain ⟨hmem, hplaced, htags⟩ := h.stores (exec_stores ht)
  have hends : t.phase = .idle ∧ ¬(t.status.done = true ∧ t.status.fault = true) := by
    rcases exec_cases ht with ⟨u, hu, rfl⟩ | ⟨c, x, u, -, hu, rfl⟩
    · exact ⟨rfl, fun hf => absurd ((hu.keeps.fault.trans hfault).symm.trans hf.2) (by decide)⟩
    · exact ⟨rfl, fun hd => absurd ((hu.done.trans hdone).symm.trans hd.1) (by decide)⟩
  exact {
    params := hparams ▸ h.params
    mem := hmem
    placed := by rw [hparams]; exact hplaced
    maxlvl := hctrl ▸ h.maxlvl
    latchLvl := hlatch ▸ h.latchLvl
    gamma := hgamma ▸ h.gamma
    latchGamma := hlatch ▸ h.latchGamma
    oneEnd := hends.2
    busyClear := fun hp => by rw [hends.1] at hp; cases hp
    unbuilt := hunbuilt
    levels := hlevels
    outlen := houtlen
    tagBits := by rw [hparams]; exact htags }

/-- An illegal word faults, with DONE = 0 (R332). -/
theorem illegalCommand_inv (h : s.Inv) (hb : s.phase = .busy) : (illegalCommand s).Inv :=
  { h with
    oneEnd := fun hd => absurd ((h.busyClear hb).1.symm.trans hd.1) (by decide)
    busyClear := nofun }

/-! ### Acts of host and platform -/

/-- MAXLVL as stored is 1 to 32 (10_state.md R43). -/
theorem legalMaxlvl_bounds (m : BitVec 6) : 1 ≤ (legalMaxlvl m).toNat ∧ (legalMaxlvl m).toNat ≤ 32 := by
  unfold legalMaxlvl
  split
  · assumption
  · decide

/-- GAMMA as stored is at least 1.0 (R47). -/
theorem le_legalGamma (v : Word) : 65536 ≤ (legalGamma v).toNat := by
  simp only [legalGamma]
  split
  · next h => exact h
  · decide

/-- A command request keeps the invariant: what it latches is legal, and it is accepted only with FAULT = 0 (60_exceptions.md R331). -/
theorem request_inv (h : s.Inv) (w : Word) : (s.request w).Inv := by
  unfold State.request
  split
  · exact { h with }
  · next hr =>
    have hf : s.status.fault = false := (Bool.or_eq_false_iff.1 (Bool.eq_false_iff.2 hr)).2
    exact { h with
      latchLvl := h.maxlvl
      latchGamma := h.gamma
      oneEnd := fun hd => nomatch hd.1
      busyClear := fun _ => ⟨rfl, hf⟩ }

/-- W1C only clears bits (10_state.md R44). -/
theorem writeStatus_inv (h : s.Inv) (v : Word) : (s.writeStatus v).Inv := by
  have hd : (s.writeStatus v).status.done = true → s.status.done = true := fun hd => (Bool.and_eq_true_iff.1 hd).1
  have hf : (s.writeStatus v).status.fault = true → s.status.fault = true := fun hf => (Bool.and_eq_true_iff.1 hf).1
  exact { h with
    oneEnd := fun hb => h.oneEnd ⟨hd hb.1, hf hb.2⟩
    busyClear := fun hp => by
      obtain ⟨h1, h2⟩ := h.busyClear hp
      exact ⟨Bool.eq_false_iff.2 fun hb => absurd (hd hb) (Bool.eq_false_iff.1 h1),
        Bool.eq_false_iff.2 fun hb => absurd (hf hb) (Bool.eq_false_iff.1 h2)⟩ }

/-- Every register write keeps the invariant. -/
theorem writeCsr_inv (h : s.Inv) (c : Csr) (v : Word) : (writeCsr c v s).Inv := by
  cases c with
  | ctrl =>
    rw [writeCsr]
    split
    · exact h.resetWith _
    · exact { h with maxlvl := legalMaxlvl_bounds _ }
  | status => exact writeStatus_inv h v
  | cmd => exact request_inv h v
  | gamma => exact { h with gamma := le_legalGamma v }
  | _ => exact { h with }

/-- Serving an act keeps the invariant. -/
theorem serve_inv (h : s.Inv) (p : Pending) (rest : List Pending) : (serve p rest s).Inv := by
  obtain ⟨u, x, ps, hu, hs⟩ := serve_cases p rest s
  rw [hs]
  suffices hinv : u.Inv from { hinv with }
  cases hu with
  | nothing => exact h
  | register c v => exact writeCsr_inv h c v
  | store sp i v hw hi => exact h.setWord hi (storeLegal_of_ne (by rintro rfl; cases hw))
  | powerOn => exact h.resetWith _

/-! ### One step -/

/-- Settles O58, by what a step can be (`step_cases`): a command, an illegal word, an act served, or waiting. -/
theorem stepKeepsInvariant : Obligations.StepKeepsInvariant := by
  intro s t h ht
  rcases step_cases ht with ⟨he, i, -, hx⟩ | ⟨he, rfl⟩ | ⟨-, p, rest, -, rfl⟩ | rfl
  · exact exec_inv h he.1 hx
  · exact illegalCommand_inv h he.1
  · exact serve_inv h p rest
  · exact h

/-- Settles O47: a command that completes and an act that is no reset leave the fault registers alone. -/
theorem faultRegistersKept : Obligations.FaultRegistersKept := by
  intro s t _ ht
  rcases step_cases ht with ⟨he, i, -, hx⟩ | ⟨he, rfl⟩ | ⟨he, p, rest, hp, rfl⟩ | rfl
  · rcases exec_cases hx with ⟨u, hu, rfl⟩ | ⟨c, x, u, -, hu, rfl⟩
    · exact .inl ⟨hu.keeps.faultCode, hu.keeps.faultInfo, hu.keeps.faultCmd⟩
    · exact .inr (.inl ⟨he, rfl, congrArg Latch.word hu.latch⟩)
  · exact .inr (.inl ⟨he, rfl, rfl⟩)
  · rcases hostKeeps_serve p rest s with hr | hk
    · exact .inr (.inr ⟨he, p, rest, hp, hr⟩)
    · exact .inl ⟨hk.faultCode, hk.faultInfo, hk.faultCmd⟩
  · exact .inl ⟨rfl, rfl, rfl⟩

/-! ### The built function (10_state.md R67) -/

/-- BUILT, the built-function registers, and the bytes of BVMEM, RANKMEM and LVLTAB (20_memory.md R84) are the same. -/
def FunctionKept (s t : State) : Prop :=
  t.status.built = s.status.built ∧ t.nlevels = s.nlevels ∧ t.bnkeys = s.bnkeys ∧ t.total = s.total ∧ t.dups = s.dups ∧
    t.bvused = s.bvused ∧ t.rankused = s.rankused ∧
    ∀ a : Nat, (0x20000000 ≤ a ∧ a < 0x50000000) → readByte t.mem a = readByte s.mem a

/-- The memories that do not hold the built function. -/
abbrev outsideFunction : List Space := [.keymem, .valmem, .tagmem, .outmem]

/-- Stores outside the function's memories change no byte of theirs. -/
theorem Stores.functionBytes {p : Params} {m n : List Host.Cell} {sps : List Space} (h : Stores p sps m n) (hp : p.Wf)
    (hs : ∀ sp ∈ sps, sp ∈ outsideFunction) (a : Nat) (ha : 0x20000000 ≤ a ∧ a < 0x50000000) : readByte n a = readByte m a := by
  refine h.bytes a fun sp hsp => ?_
  have hw := sp.words_le hp
  have hsp := hs sp hsp
  simp only [List.mem_cons, List.not_mem_nil, or_false] at hsp
  rcases hsp with rfl | rfl | rfl | rfl <;> simp only [Space.base] <;> omega

/-- A command that ends no function writes none of its memories. -/
theorem mayWrite_outsideFunction {i : Instr} (hi : endsFunction i = false) : ∀ sp ∈ mayWrite i, sp ∈ outsideFunction := by
  cases i with
  | build | inval => cases hi
  | sort p => cases p with
    | true => cases hi
    | false => decide
  | _ => decide

theorem exec_functionKept {i : Instr} (hp : s.params.Wf) (hi : endsFunction i = false) (h : exec i s = .next t) :
    FunctionKept s t := by
  have hk := exec_keepsFn hi h
  exact ⟨hk.built, hk.nlevels, hk.bnkeys, hk.total, hk.dups, hk.bvused, hk.rankused,
    (exec_stores h).functionBytes hp (mayWrite_outsideFunction hi)⟩

theorem HostKeeps.functionKept (h : HostKeeps s t) (hp : s.params.Wf) : FunctionKept s t :=
  ⟨h.built, h.nlevels, h.bnkeys, h.total, h.dups, h.bvused, h.rankused, h.stores.functionBytes hp (by decide)⟩

theorem endsFunction_iff {i : Instr} :
    endsFunction i = true ↔ i = .build false ∨ i = .build true ∨ i = .sort true ∨ i = .inval := by
  cases i with
  | build d => cases d <;> simp [endsFunction]
  | sort p => cases p <;> simp [endsFunction]
  | _ => simp [endsFunction]

/-- Settles O46: the commands that are not named, and the acts that are no reset, keep the function. -/
theorem builtFunctionImmutable : Obligations.BuiltFunctionImmutable := by
  intro s t h hb ht
  have kept (hk : FunctionKept s t) : t.status.built = true ∧ _ := hk.imp_left fun h => h.trans hb
  rcases step_cases ht with ⟨he, i, hi, hx⟩ | ⟨he, rfl⟩ | ⟨he, p, rest, hp, rfl⟩ | rfl
  · cases hf : endsFunction i with
    | true => exact .inr (.inl ⟨he, i, hi, endsFunction_iff.1 hf⟩)
    | false => exact .inl (kept (exec_functionKept h.params hf hx))
  · exact .inl (kept ⟨rfl, rfl, rfl, rfl, rfl, rfl, rfl, fun _ _ => rfl⟩)
  · rcases hostKeeps_serve p rest s with hr | hk
    · exact .inr (.inr ⟨he, p, rest, hp, hr⟩)
    · exact .inl (kept (hk.functionKept h.params))
  · exact .inl (kept ⟨rfl, rfl, rfl, rfl, rfl, rfl, rfl, fun _ _ => rfl⟩)

end Sys2Proof.Machine
end

section
/-!
PROOFS. Host writes of the CSR window: what each writable register takes and reads back, and the offsets that ignore a write
(10_state.md R40, R43, R44, R46, R47, R56).
-/
namespace Sys2Proof.Machine

/-! ### Bits of the packed views -/

theorem getLsbD_flagAt (b : Bool) (m : Nat) {n : Nat} (hn : n < 64) : (flagAt b m).getLsbD n = (b && decide (n = m)) := by
  cases b
  · simp [flagAt]
  · have h := getLsbD_or_bit 0#64 (n := m) hn
    rw [BitVec.zero_or, BitVec.getLsbD_zero, Bool.false_or] at h
    simpa [flagAt] using h

/-- Bit `n` of STATUS (R44). -/
theorem getLsbD_statusWord (s : State) {n : Nat} (hn : n < 64) : s.statusWord.getLsbD n =
    (s.busy && decide (n = 0) || s.status.done && decide (n = 1) || s.status.fault && decide (n = 2) ||
      s.status.built && decide (n = 3) || s.status.rangev && decide (n = 4) || s.status.outp && decide (n = 5) ||
      s.status.rej && decide (n = 6) || s.irq && decide (n = 7)) := by
  simp only [State.statusWord, BitVec.getLsbD_or, getLsbD_flagAt _ _ hn]

/-- W1C: every bit but IRQ reads as before, except DONE, FAULT and REJ where written as 1 (R44). -/
theorem getLsbD_statusWord_writeStatus (s : State) (v : Word) {n : Nat} (hn : n < 64) (h7 : n ≠ 7) :
    (s.writeStatus v).statusWord.getLsbD n = (s.statusWord.getLsbD n && !((n = 1 ∨ n = 2 ∨ n = 6) && v.getLsbD n)) := by
  have hb : (s.writeStatus v).busy = s.busy := rfl
  rw [getLsbD_statusWord _ hn, getLsbD_statusWord _ hn, hb, State.writeStatus_status, Status.clearOnes]
  by_cases h1 : n = 1
  · simp [h1]
  by_cases h2 : n = 2
  · simp [h2]
  by_cases h6 : n = 6
  · simp [h6]
  · simp [h1, h2, h6, h7]

/-- The number that CTRL reads as (R43). -/
theorem toNat_ctrl_toWord (c : Ctrl) :
    c.toWord.toNat = c.signed.toNat + 2 * c.doneIe.toNat + 4 * c.faultIe.toNat + 256 * c.maxlvl.toNat := by
  obtain ⟨a, b, f, m⟩ := c
  revert a b f m
  decide

/-- The number of the three enables. -/
theorem toNat_extract_three (v : Word) :
    (v.extractLsb' 0 3).toNat = (v.getLsbD 0).toNat + 2 * (v.getLsbD 1).toNat + 4 * (v.getLsbD 2).toNat := by
  have h : ∀ x : BitVec 3, x.toNat = (x.getLsbD 0).toNat + 2 * (x.getLsbD 1).toNat + 4 * (x.getLsbD 2).toNat := by decide
  simpa using h (v.extractLsb' 0 3)

/-- MAXLVL is stored as written from 1 to 32, and as 32 otherwise (R43). -/
theorem toNat_legalMaxlvl (m : BitVec 6) : (legalMaxlvl m).toNat = if 1 ≤ m.toNat ∧ m.toNat ≤ 32 then m.toNat else 32 := by
  unfold legalMaxlvl
  split <;> rfl

/-- What CTRL reads after a write without SRST (R43). -/
theorem toNat_ctrl_ofWord (v : Word) : (Ctrl.ofWord v).toWord.toNat =
    (v.extractLsb' 0 3).toNat +
      256 * (if 1 ≤ (v.extractLsb' 8 6).toNat ∧ (v.extractLsb' 8 6).toNat ≤ 32 then (v.extractLsb' 8 6).toNat else 32) := by
  rw [toNat_ctrl_toWord, toNat_extract_three, ← toNat_legalMaxlvl]
  rfl

/-- What GAMMA reads after a write (R47). -/
theorem toNat_legalGamma (v : Word) :
    (legalGamma v).toNat = if 65536 ≤ (v.extractLsb' 0 32).toNat then (v.extractLsb' 0 32).toNat else 65536 := by
  simp only [legalGamma]
  split
  · next h => exact (if_pos h).symm
  · next h => exact (if_neg h).symm

/-! ### The writable registers -/

/-- Settles O52: each address is a register's (`busWrite_csr`, `busRead_csr`), and the register takes its legal value. -/
theorem controlWritesReadBackLegal : Obligations.ControlWritesReadBackLegal := by
  intro s v
  have hctrl := busWrite_csr .ctrl v s
  have hgamma := busWrite_csr .gamma v s
  have hstatus := busWrite_csr .status v s
  refine ⟨fun hv => ?_, ?_, ?_, busWrite_csr .nkeys v s, busWrite_csr .arg0 v s, busWrite_csr .arg1 v s, ?_, fun n hn h7 => ?_⟩
  · have hw : busWrite 0x40#32 v s = (.okay, { s with ctrl := Ctrl.ofWord v }) :=
      hctrl.trans (congrArg _ (if_neg (Bool.eq_false_iff.1 hv)))
    rw [hw]
    refine ⟨rfl, ?_⟩
    rw [show busRead 0x40#32 _ = _ from busRead_csr .ctrl _]
    exact toNat_ctrl_ofWord v
  · rw [show busWrite 0x60#32 v s = _ from hgamma]
    rfl
  · rw [show busWrite 0x60#32 v s = _ from hgamma, show busRead 0x60#32 _ = _ from busRead_csr .gamma _]
    refine Eq.trans ?_ (toNat_legalGamma v)
    exact BitVec.toNat_setWidth_of_le (by decide)
  · rw [show busWrite 0x48#32 v s = _ from hstatus]
    rfl
  · rw [show busWrite 0x48#32 v s = _ from hstatus, show busRead 0x48#32 _ = _ from busRead_csr .status _,
      show busRead 0x48#32 s = _ from busRead_csr .status s]
    exact getLsbD_statusWord_writeStatus s v hn h7

/-! ### The offsets that ignore a write -/

/-- The registers a write can change are the seven of R40 that are not read-only. -/
theorem writeCsr_readOnly {c : Csr} (hc : c.offset ∉ [0x40, 0x48, 0x50, 0x58, 0x60, 0x68, 0x70]) (v : Word) (s : State) :
    writeCsr c v s = s := by
  cases c with
  | ctrl | status | cmd | nkeys | gamma | arg0 | arg1 => exact absurd (by decide) hc
  | _ => rfl

/-- No register lies at a reserved offset (R40, R56). -/
theorem ofOffset_reserved {off : Nat} (h : (0x28 ≤ off ∧ off < 0x40) ∨ 0xE8 ≤ off) : Csr.ofOffset off = none := by
  rw [Option.eq_none_iff_forall_ne_some]
  intro c hc
  have hoff := Csr.ofOffset_eq_some.1 hc
  have hnot : ¬((0x28 ≤ c.offset ∧ c.offset < 0x40) ∨ 0xE8 ≤ c.offset) := by cases c <;> decide
  exact hnot (hoff ▸ h)

/-- Settles O53: in the window an offset is a register's or reserved, and neither kind here has an effect. -/
theorem readOnlyAndReservedOffsets : Obligations.ReadOnlyAndReservedOffsets := by
  intro s a v ha h8
  refine ⟨fun hw => ?_, fun hr => ?_⟩
  · simp only [busWrite, target_of_window s.params h8 ha, writeOffset]
    split
    · next c hc =>
      rw [writeCsr_readOnly ((Csr.ofOffset_eq_some.1 hc).symm ▸ hw)]
    · rfl
  · simp only [busRead, target_of_window s.params h8 ha, readOffset, ofOffset_reserved hr]
    rfl

end Sys2Proof.Machine
end

section
/-!
PROOFS. What a command does not read. Two runs from states that differ in the host's operand registers (10_state.md R36) and in the
scratch state (R70) go the same way: `Twin` pairs their ends, `Shadow` their states, and each body gets one lemma.
-/
namespace Sys2Proof.Machine

/-! ### Pairs of states and pairs of ends -/

/-- Values of the registers a command latches (R36). -/
structure HostOperands where
  arg0  : Word
  arg1  : Word
  nkeys : Word
  gamma : Half
  ctrl  : Ctrl

/-- The state with other operand registers and another scratch state. -/
def State.shadow (o : HostOperands) (sc : Scratch) (s : State) : State :=
  (withOperands o.arg0 o.arg1 o.nkeys o.gamma o.ctrl s).setScratch sc

/-- `t'` is `t` with the operand registers `o` and a scratch state that `C` relates to that of `t`; it is the same scratch state
where `same` holds. -/
def Shadow (o : HostOperands) (same : Prop) (C : Scratch → Scratch → Prop) (t t' : State) : Prop :=
  ∃ sc, (same → sc = t.scratch) ∧ C t.scratch sc ∧ t' = t.shadow o sc

/-- Two scratch states of which nothing is known. -/
abbrev AnyScratch : Scratch → Scratch → Prop := fun _ _ => True

/-- Two runs end alike: with values that `Q` relates, in the same fault with states that differ as above, or in the same stop. -/
inductive Twin {α : Type} (o : HostOperands) (same : Prop) (Q : α → α → Prop) : Except Abort α → Except Abort α → Prop
  | ok {a b : α} (h : Q a b) : Twin o same Q (.ok a) (.ok b)
  | raised {c : FaultCode} {x : Word} {t t' : State} (h : Shadow o same AnyScratch t t') :
      Twin o same Q (.error (.raised c x t)) (.error (.raised c x t'))
  | stopped (f : Fault) : Twin o same Q (.error (.stopped f)) (.error (.stopped f))

variable {α β : Type} {o : HostOperands} {same : Prop} {C D : Scratch → Scratch → Prop} {t t' : State}

theorem Shadow.exists_eq (h : Shadow o same C t t') : ∃ sc, t' = t.shadow o sc :=
  let ⟨sc, _, _, he⟩ := h
  ⟨sc, he⟩

theorem Shadow.mono (h : Shadow o same C t t') (hCD : ∀ sc sc', C sc sc' → D sc sc') : Shadow o same D t t' :=
  let ⟨sc, hs, hC, he⟩ := h
  ⟨sc, hs, hCD _ _ hC, he⟩

/-- An update that reads and writes neither operand registers nor the scratch state. -/
theorem Shadow.update (h : Shadow o same C t t') (f : State → State) (hf : ∀ sc, f (t.shadow o sc) = (f t).shadow o sc)
    (hsc : (f t).scratch = t.scratch) : Shadow o same C (f t) (f t') := by
  obtain ⟨sc, hs, hC, rfl⟩ := h
  exact ⟨sc, fun h => (hs h).trans hsc.symm, hsc ▸ hC, hf sc⟩

/-- An update of the scratch state. -/
theorem Shadow.setScratch (h : Shadow o same C t t') (f : Scratch → Scratch) (hf : ∀ sc sc', C sc sc' → D (f sc) (f sc')) :
    Shadow o same D (t.setScratch (f t.scratch)) (t'.setScratch (f t'.scratch)) := by
  obtain ⟨sc, hs, hC, rfl⟩ := h
  exact ⟨f sc, fun h => congrArg f (hs h), hf _ _ hC, rfl⟩

theorem Twin.bind {Q : α → α → Prop} {R : β → β → Prop} {r r' : Except Abort α} {f f' : α → Except Abort β}
    (h : Twin o same Q r r') (hf : ∀ a b, Q a b → Twin o same R (f a) (f' b)) : Twin o same R (r >>= f) (r' >>= f') := by
  cases h with
  | ok h => exact hf _ _ h
  | raised h => exact .raised h
  | stopped e => exact .stopped e

/-- The rest of a run after a value that both runs share. -/
theorem Twin.bind_eq {R : β → β → Prop} {r r' : Except Abort α} {f f' : α → Except Abort β} (h : Twin o same Eq r r')
    (hf : ∀ a, Twin o same R (f a) (f' a)) : Twin o same R (r >>= f) (r' >>= f') := h.bind fun a _ hab => hab ▸ hf a

theorem Twin.mono {Q R : α → α → Prop} {r r' : Except Abort α} (h : Twin o same Q r r') (hQR : ∀ a b, Q a b → R a b) :
    Twin o same R r r' := by
  cases h with
  | ok h => exact .ok (hQR _ _ h)
  | raised h => exact .raised h
  | stopped e => exact .stopped e

theorem Twin.forUp {R : State → State → Prop} {body body' : Nat → State → Except Abort State} {s s' : State} (h0 : R s s')
    (hb : ∀ i t t', R t t' → Twin o same R (body i t) (body' i t')) (count start : Nat) :
    Twin o same R (forUp count start body s) (forUp count start body' s') := by
  induction count generalizing start s s' with
  | zero => exact .ok h0
  | succ n ih => exact (hb start s s' h0).bind fun _ _ h => ih h (start + 1)

theorem Twin.forKeys {R : State → State → Prop} {body body' : Word → State → Except Abort State} {s s' : State} (h0 : R s s')
    (hb : ∀ k t t', R t t' → Twin o same R (body k t) (body' k t')) (ks : List Word) :
    Twin o same R (forKeys ks body s) (forKeys ks body' s') := by
  induction ks generalizing s s' with
  | nil => exact .ok h0
  | cons k ks ih => exact (hb k s s' h0).bind fun _ _ h => ih h

/-! ### Accesses and checks -/

theorem twin_memRead (h : Shadow o same C t t') (sp : Space) (i : Nat) : Twin o same Eq (memRead sp i t) (memRead sp i t') := by
  obtain ⟨sc, rfl⟩ := h.exists_eq
  show Twin o same Eq (memRead sp i t) (memRead sp i t)
  unfold memRead
  split
  · exact .ok rfl
  · exact .stopped _

theorem twin_memWrite (h : Shadow o same C t t') (sp : Space) (i : Nat) (v : Word) :
    Twin o same (Shadow o same C) (memWrite sp i v t) (memWrite sp i v t') := by
  have hu := h.update (fun u => u.setWord sp i v) (fun _ => rfl) rfl
  have hp : t'.params = t.params := by obtain ⟨sc, rfl⟩ := h.exists_eq; rfl
  unfold memWrite
  rw [hp]
  split
  · exact .ok hu
  · exact .stopped _

theorem twin_memZero (h : Shadow o same C t t') (sp : Space) (i n : Nat) :
    Twin o same (Shadow o same C) (memZero sp i n t) (memZero sp i n t') := by
  have hu := h.update (fun u => u.zero sp i n) (fun _ => rfl) rfl
  have hp : t'.params = t.params := by obtain ⟨sc, rfl⟩ := h.exists_eq; rfl
  unfold memZero
  rw [hp]
  split
  · exact .ok hu
  · exact .stopped _

theorem twin_bit (h : Shadow o same C t t') (sp : Space) (b n : Nat) : Twin o same Eq (bit sp b n t) (bit sp b n t') :=
  (twin_memRead h _ _).bind_eq fun _ => .ok rfl

theorem twin_setBit (h : Shadow o same C t t') (sp : Space) (b n : Nat) :
    Twin o same (Shadow o same C) (setBit sp b n t) (setBit sp b n t') :=
  (twin_memRead h _ _).bind_eq fun _ => twin_memWrite h _ _ _

theorem twin_require (h : Shadow o same C t t') (ok : Bool) (c : FaultCode) (x : Word) :
    Twin o same Eq (require ok c x t) (require ok c x t') := by
  cases ok
  · exact .raised (h.mono fun _ _ _ => trivial)
  · exact .ok rfl

theorem twin_requireBuilt (h : Shadow o same C t t') : Twin o same Eq (requireBuilt t) (requireBuilt t') := by
  obtain ⟨sc, rfl⟩ := h.exists_eq
  exact twin_require h _ _ _

theorem twin_requireIndex (h : Shadow o same C t t') (x : Word) : Twin o same Eq (requireIndex x t) (requireIndex x t') := by
  obtain ⟨sc, rfl⟩ := h.exists_eq
  exact (twin_requireBuilt h).bind_eq fun _ => twin_require h _ _ _

/-! ### Reading bodies -/

theorem twin_levelSize (h : Shadow o same C t t') (l : Nat) : Twin o same Eq (levelSize l t) (levelSize l t') :=
  (twin_memRead h _ _).bind_eq fun _ => .ok rfl

theorem twin_levelWbase (h : Shadow o same C t t') (l : Nat) : Twin o same Eq (levelWbase l t) (levelWbase l t') :=
  (twin_memRead h _ _).bind_eq fun _ => .ok rfl

theorem twin_levelRbase (h : Shadow o same C t t') (l : Nat) : Twin o same Eq (levelRbase l t) (levelRbase l t') :=
  (twin_memRead h _ _).bind_eq fun _ => .ok rfl

theorem twin_requirePosition (h : Shadow o same C t t') (l n : Word) :
    Twin o same Eq (requirePosition l n t) (requirePosition l n t') := by
  obtain ⟨sc, rfl⟩ := h.exists_eq
  exact (twin_requireBuilt h).bind_eq fun _ => (twin_require h _ _ _).bind_eq fun _ => (twin_levelSize h _).bind_eq fun _ =>
    twin_require h _ _ _

theorem twin_addPopcounts (h : Shadow o same C t t') (n i : Nat) (r : Word) :
    Twin o same Eq (addPopcounts n i r t) (addPopcounts n i r t') := by
  induction n generalizing i r with
  | zero => exact .ok rfl
  | succ n ih => exact (twin_memRead h _ _).bind_eq fun _ => ih _ _

theorem twin_globalRank (h : Shadow o same C t t') (l i : Nat) : Twin o same Eq (globalRank l i t) (globalRank l i t') :=
  (twin_levelWbase h _).bind_eq fun _ => (twin_levelRbase h _).bind_eq fun _ => (twin_memRead h _ _).bind_eq fun _ =>
    (twin_addPopcounts h _ _ _).bind_eq fun _ => (twin_memRead h _ _).bind_eq fun _ => .ok rfl

theorem twin_localRank (h : Shadow o same C t t') (l i : Nat) : Twin o same Eq (localRank l i t) (localRank l i t') :=
  (twin_globalRank h _ _).bind_eq fun _ => (twin_memRead h _ _).bind_eq fun _ => .ok rfl

theorem twin_probe (h : Shadow o same C t t') (k : Word) (l : Nat) : Twin o same Eq (probe k l t) (probe k l t') := by
  have hp : t'.params = t.params := by obtain ⟨sc, rfl⟩ := h.exists_eq; rfl
  refine (twin_levelSize h _).bind_eq fun size => (twin_levelWbase h _).bind_eq fun _ => Twin.bind_eq ?_ fun _ => ?_
  · unfold positiveSize
    split
    · exact .stopped _
    · exact .ok rfl
  · rw [hp]
    exact (twin_bit h _ _ _).bind_eq fun _ => .ok rfl

theorem twin_queryFrom (h : Shadow o same C t t') (n l : Nat) (k : Word) :
    Twin o same Eq (queryFrom n l k t) (queryFrom n l k t') := by
  induction n generalizing l with
  | zero => exact .ok rfl
  | succ n ih =>
    refine (twin_probe h k l).bind_eq fun (i, b) => ?_
    cases b
    · exact ih _
    · exact (twin_globalRank h _ _).bind_eq fun _ => .ok rfl

theorem twin_query (h : Shadow o same C t t') (k : Word) : Twin o same Eq (query k t) (query k t') := by
  obtain ⟨sc, rfl⟩ := h.exists_eq
  exact twin_queryFrom h _ _ _

theorem twin_readTag (h : Shadow o same C t t') (j : Nat) : Twin o same Eq (readTag j t) (readTag j t') :=
  (twin_memRead h _ _).bind_eq fun _ => (twin_memRead h _ _).bind_eq fun _ => .ok rfl

theorem twin_readKeys (h : Shadow o same C t t') (n i : Nat) : Twin o same Eq (readKeys n i t) (readKeys n i t') := by
  induction n generalizing i with
  | zero => exact .ok rfl
  | succ n ih => exact (twin_memRead h _ _).bind_eq fun _ => (ih _).bind_eq fun _ => .ok rfl

/-! ### Slots, counting, emitting -/

theorem twin_clearSlots (h : Shadow o same C t t') (n : Nat) :
    Twin o same (Shadow o same C) (clearSlots n t) (clearSlots n t') :=
  (twin_memZero h _ _ _).bind fun _ _ h1 => (twin_memZero h1 _ _ _).bind fun _ _ h2 =>
    .ok (h2.update State.forgetRange (fun _ => rfl) rfl)

theorem Shadow.widenRange (h : Shadow o same C t t') (k : Word) : Shadow o same C (t.widenRange k) (t'.widenRange k) := by
  refine h.update (fun u => u.widenRange k) (fun sc => ?_) ?_
  · show (t.shadow o sc).widenRange k = (t.widenRange k).shadow o sc
    unfold State.widenRange
    rw [apply_ite (State.shadow o sc)]
    rfl
  · show (t.widenRange k).scratch = t.scratch
    unfold State.widenRange
    split <;> rfl

theorem twin_accumKey (h : Shadow o same C t t') (i : Nat) :
    Twin o same (Shadow o same C) (accumKey i t) (accumKey i t') :=
  (twin_memRead h _ _).bind_eq fun _ => (twin_query h _).bind_eq fun _ => (twin_require h _ _ _).bind_eq fun _ =>
    (twin_readTag h _).bind_eq fun _ => (twin_require h _ _ _).bind_eq fun _ => (twin_memRead h _ _).bind_eq fun _ =>
      (twin_memWrite h _ _ _).bind fun _ _ h1 => (twin_memWrite h1 _ _ _).bind fun _ _ h2 =>
        (twin_memWrite h2 _ _ _).bind fun _ _ h3 => .ok (h3.widenRange _)

theorem twin_accumBody (h : Shadow o same C t t') : Twin o same (Shadow o same C) (accumBody t) (accumBody t') := by
  obtain ⟨sc, rfl⟩ := h.exists_eq
  exact (twin_requireBuilt h).bind_eq fun _ => (twin_require h _ _ _).bind_eq fun _ =>
    Twin.forUp h (fun i _ _ h1 => twin_accumKey h1 i) _ _

theorem twin_emitOne (h : Shadow o same C t t') (v : Word) :
    Twin o same (Shadow o same C) (emitOne v t) (emitOne v t') := by
  obtain ⟨sc, rfl⟩ := h.exists_eq
  exact (twin_require h _ _ _).bind_eq fun _ => (twin_memWrite h _ _ _).bind fun _ _ h1 =>
    .ok (h1.update State.countOut (fun _ => rfl) rfl)

theorem twin_emitValue (h : Shadow o same C t t') (v : Word) :
    Twin o same (Shadow o same C) (emitValue v t) (emitValue v t') := by
  refine (twin_query h v).bind_eq fun (x, _) => ?_
  dsimp only
  split
  · exact .ok h
  · refine (twin_readTag h _).bind_eq fun (valid, tag) => ?_
    dsimp only
    split
    · exact (twin_memRead h _ _).bind_eq fun _ => Twin.forUp h (fun _ _ _ h1 => twin_emitOne h1 v) _ _
    · exact .ok h

theorem twin_emitScan (h : Shadow o same C t t') : Twin o same (Shadow o same C) (emitScan t) (emitScan t') := by
  obtain ⟨sc, rfl⟩ := h.exists_eq
  exact Twin.forUp h (fun i _ _ h1 => twin_emitValue h1 (t.min + BitVec.ofNat 64 i)) _ _

theorem twin_emitBody (h : Shadow o same C t t') : Twin o same (Shadow o same C) (emitBody t) (emitBody t') := by
  have h0 := h.update State.startOutput (fun _ => rfl) rfl
  obtain ⟨sc, rfl⟩ := h.exists_eq
  refine (twin_requireBuilt h).bind_eq fun _ => ?_
  show Twin o same (Shadow o same C) (if t.status.rangev then _ else _) (if t.status.rangev then _ else _)
  split
  · exact twin_emitScan h0
  · exact .ok h0

end Sys2Proof.Machine
end

section
/-!
PROOFS. A build writes its scratch state before it reads it (41_build.md R186, R188, R222): the counters at its start, the vectors below
the table size at the start of a level, the popcount at the start of the ranks.
-/
namespace Sys2Proof.Machine.Sparse

variable {α : Type} [DecidableEq α] {d : α} {p q m m' : List (Nat × α)} {a n : Nat}

/-! ### Sparse lists that agree below a position -/

/-- Two lists with a common first part, and only positions from `n` on after it. -/
def AgreeBelow (n : Nat) (m m' : List (Nat × α)) : Prop :=
  ∃ p q q', m = p ++ q ∧ m' = p ++ q' ∧ (∀ e ∈ q, n ≤ e.1) ∧ ∀ e ∈ q', n ≤ e.1

omit [DecidableEq α] in
theorem get_append_of_lt (ha : a < n) (hq : ∀ e ∈ q, n ≤ e.1) : get d (p ++ q) a = get d p a := by
  induction p with
  | nil => exact get_of_not_mem fun e he => by have := hq e he; omega
  | cons e p ih => rw [List.cons_append, get_cons, get_cons, ih]

theorem put_append_of_lt (ha : a < n) (hq : ∀ e ∈ q, n ≤ e.1) (v : α) : put d (p ++ q) a v = put d p a v ++ q := by
  induction p with
  | nil =>
    cases q with
    | nil => simp
    | cons e q =>
      have he : a < e.1 := ha.trans_le (hq e (by simp))
      simp only [List.nil_append, put, if_pos he]
      split <;> rfl
  | cons e p ih =>
    simp only [List.cons_append, put, ih]
    split_ifs <;> rfl

omit [DecidableEq α] in
theorem AgreeBelow.get (h : AgreeBelow n m m') (ha : a < n) : Sparse.get d m' a = Sparse.get d m a := by
  obtain ⟨p, q, q', rfl, rfl, hq, hq'⟩ := h
  rw [get_append_of_lt ha hq, get_append_of_lt ha hq']

theorem AgreeBelow.put (h : AgreeBelow n m m') (ha : a < n) (v : α) : AgreeBelow n (Sparse.put d m a v) (Sparse.put d m' a v) := by
  obtain ⟨p, q, q', rfl, rfl, hq, hq'⟩ := h
  exact ⟨Sparse.put d p a v, q, q', put_append_of_lt ha hq v, put_append_of_lt ha hq' v, hq, hq'⟩

omit [DecidableEq α] in
/-- Cleared below `n`, any two lists agree there. -/
theorem agreeBelow_clear (m m' : List (Nat × α)) (n : Nat) : AgreeBelow n (clear m 0 n) (clear m' 0 n) := by
  have h : ∀ (l : List (Nat × α)), ∀ e ∈ clear l 0 n, n ≤ e.1 := fun l e he => by simpa using (List.mem_filter.1 he).2
  exact ⟨[], _, _, rfl, rfl, h m, h m'⟩

end Sys2Proof.Machine.Sparse

namespace Sys2Proof.Machine

/-! ### Scratch states that a build cannot tell apart -/

/-- Between levels: the working set and the counters are the same. -/
structure SameCounters (sc sc' : Scratch) : Prop where
  working : sc'.working = sc.working
  level   : sc'.level = sc.level
  wbase   : sc'.wbase = sc.wbase
  rbase   : sc'.rbase = sc.rbase
  dups    : sc'.dups = sc.dups

/-- Inside a level of table size `size`: also the sequences, and the vectors below `size`. -/
structure SameLevel (size : Nat) (sc sc' : Scratch) : Prop extends SameCounters sc sc' where
  survivors : sc'.survivors = sc.survivors
  deferred  : sc'.deferred = sc.deferred
  occ       : Sparse.AgreeBelow size sc.occ sc'.occ
  coll      : Sparse.AgreeBelow size sc.coll sc'.coll
  claim     : Sparse.AgreeBelow size sc.claim sc'.claim

/-- In BuildRanks: the counters and the running popcount. -/
structure SameRanks (sc sc' : Scratch) : Prop extends SameCounters sc sc' where
  pop : sc'.pop = sc.pop

variable {size i : Nat} {sc sc' : Scratch}

theorem SameCounters.levelStart (h : SameCounters sc sc') : SameLevel size (levelStart size sc) (levelStart size sc') :=
  { h with
    survivors := rfl
    deferred := rfl
    occ := Sparse.agreeBelow_clear _ _ _
    coll := Sparse.agreeBelow_clear _ _ _
    claim := Sparse.agreeBelow_clear _ _ _ }

theorem SameLevel.collided (h : SameLevel size sc sc') (hi : i < size) : sc'.collided i = sc.collided i := h.coll.get hi

theorem SameLevel.firstPassKey (h : SameLevel size sc sc') (d : Bool) (hi : i < size) (k : Word) :
    SameLevel size (firstPassKey d i k sc) (firstPassKey d i k sc') := by
  have hocc : sc'.occupied i = sc.occupied i := h.occ.get hi
  have hclaim : sc'.claimOf i = sc.claimOf i := h.claim.get hi
  have hsurv : sc'.survivors ++ [k] = sc.survivors ++ [k] := congrArg (· ++ [k]) h.survivors
  simp only [Sys2Proof.Machine.firstPassKey]
  rw [hocc, hclaim, h.collided hi]
  split_ifs
  · exact { h with dups := congrArg (· + 1) h.dups }
  · exact { h with survivors := hsurv }
  · exact { h with survivors := hsurv, coll := h.coll.put hi true }
  · exact { h with survivors := hsurv, occ := h.occ.put hi true, claim := h.claim.put hi k }

theorem SameLevel.firstPass (h : SameLevel size sc sc') (d : Bool) {idx : Word → Nat} (hi : ∀ k, idx k < size) (ks : List Word) :
    SameLevel size (firstPass d idx ks sc) (firstPass d idx ks sc') := by
  unfold Sys2Proof.Machine.firstPass
  induction ks generalizing sc sc' with
  | nil => exact h
  | cons k ks ih => exact ih (h.firstPassKey d (hi k) k)

theorem SameLevel.nextLevel (h : SameLevel size sc sc') : SameCounters (sc.nextLevel size) (sc'.nextLevel size) where
  working := h.deferred
  level := congrArg (· + 1) h.level
  wbase := congrArg (· + size / 64) h.wbase
  rbase := congrArg (· + sampleCount (size / 64)) h.rbase
  dups := h.dups

/-- Every table size is positive (R176). -/
theorem tableSize_pos (g m : Nat) : 0 < tableSize g m := lt_of_lt_of_le (by decide) (le_max_right _ 64)

/-! ### The bodies of a build -/

variable {o : HostOperands} {same : Prop} {C : Scratch → Scratch → Prop} {t t' : State}

/-- Related states of a pair. -/
theorem Shadow.scratch (h : Shadow o same C t t') : C t.scratch t'.scratch := by
  obtain ⟨sc, -, hC, rfl⟩ := h
  exact hC

theorem twin_secondPassKey (h : Shadow o same (SameLevel size) t t') {idx : Word → Nat} (hi : ∀ k, idx k < size) (k : Word) :
    Twin o same (Shadow o same (SameLevel size)) (secondPassKey idx k t) (secondPassKey idx k t') := by
  unfold secondPassKey
  rw [h.scratch.collided (hi k), h.scratch.wbase]
  split
  · exact .ok (h.setScratch (fun sc => { sc with deferred := sc.deferred ++ [k] }) fun _ _ hs =>
      { hs with deferred := congrArg (· ++ [k]) hs.deferred })
  · exact twin_setBit h _ _ _

theorem twin_secondPass (h : Shadow o same (SameLevel size) t t') {idx : Word → Nat} (hi : ∀ k, idx k < size) :
    Twin o same (Shadow o same (SameLevel size)) (secondPass idx size t) (secondPass idx size t') := by
  unfold secondPass
  rw [h.scratch.wbase]
  refine (twin_memZero h _ _ _).bind fun _ _ h1 => ?_
  rw [h1.scratch.survivors]
  exact Twin.forKeys h1 (fun k _ _ h2 => twin_secondPassKey h2 hi k) _

theorem twin_levelRecord (h : Shadow o same (SameLevel size) t t') (n : Nat) :
    Twin o same (Shadow o same (SameLevel size)) (levelRecord n t) (levelRecord n t') := by
  simp only [levelRecord]
  rw [h.scratch.level, h.scratch.wbase, h.scratch.rbase]
  exact (twin_memWrite h _ _ _).bind fun _ _ h1 => (twin_memWrite h1 _ _ _).bind fun _ _ h2 => twin_memWrite h2 _ _ _

theorem twin_buildLevel (h : Shadow o same SameCounters t t') (d : Bool) :
    Twin o same (Shadow o same SameCounters) (buildLevel d t) (buildLevel d t') := by
  have hp : t'.params = t.params := by obtain ⟨sc, rfl⟩ := h.exists_eq; rfl
  have hl : t'.latch = t.latch := by obtain ⟨sc, rfl⟩ := h.exists_eq; rfl
  simp only [buildLevel]
  rw [hp, hl, h.scratch.working, h.scratch.level, h.scratch.wbase, h.scratch.rbase]
  refine (twin_require h _ _ _).bind_eq fun _ => ?_
  have hi := fun k => bucket_lt t.params.hash k t.scratch.level (tableSize_pos t.latch.gamma.toNat t.scratch.working.length)
  have h0 := h.setScratch (fun sc => firstPass d _ t.scratch.working (levelStart _ sc)) fun _ _ hs =>
    hs.levelStart.firstPass d hi t.scratch.working
  exact (twin_secondPass h0 hi).bind fun _ _ h1 => (twin_levelRecord h1 _).bind fun _ _ h2 =>
    .ok (h2.setScratch (fun sc => sc.nextLevel _) fun _ _ hs => hs.nextLevel)

theorem twin_cascade (h : Shadow o same SameCounters t t') (d : Bool) (n : Nat) :
    Twin o same (Shadow o same SameCounters) (cascade d n t) (cascade d n t') := by
  induction n generalizing t t' with
  | zero =>
    unfold cascade
    rw [h.scratch.working]
    split
    · exact .ok h
    · exact .raised (h.mono fun _ _ _ => trivial)
  | succ n ih =>
    unfold cascade
    rw [h.scratch.working]
    split
    · exact .ok h
    · exact (twin_buildLevel h d).bind fun _ _ h1 => ih h1

theorem twin_rankWord (h : Shadow o same SameRanks t t') (wb rb j : Nat) :
    Twin o same (Shadow o same SameRanks) (rankWord wb rb j t) (rankWord wb rb j t') := by
  have hs : Twin o same (Shadow o same SameRanks) (sampleBefore rb j t) (sampleBefore rb j t') := by
    unfold sampleBefore
    rw [h.scratch.pop]
    split
    · exact twin_memWrite h _ _ _
    · exact .ok h
  exact hs.bind fun _ _ h1 => (twin_memRead h1 _ _).bind_eq fun w =>
    .ok (h1.setScratch (fun sc => { sc with pop := sc.pop + popcount64 w }) fun _ _ hs =>
      { hs with pop := congrArg (· + popcount64 w) hs.pop })

theorem twin_rankLevel (h : Shadow o same SameRanks t t') (l : Nat) :
    Twin o same (Shadow o same SameRanks) (rankLevel l t) (rankLevel l t') := by
  unfold rankLevel
  rw [h.scratch.pop]
  exact (twin_levelSize h _).bind_eq fun _ => (twin_levelWbase h _).bind_eq fun _ => (twin_levelRbase h _).bind_eq fun _ =>
    (twin_memWrite h _ _ _).bind fun _ _ h1 => Twin.forUp h1 (fun j _ _ h2 => twin_rankWord h2 _ _ j) _ _

theorem twin_buildRanks (h : Shadow o same SameCounters t t') (n : Nat) :
    Twin o same (Shadow o same SameRanks) (buildRanks n t) (buildRanks n t') := by
  have h0 := h.setScratch (D := SameRanks) (fun sc => { sc with pop := 0 }) fun _ _ hs => { hs with pop := rfl }
  exact Twin.forUp h0 (fun l _ _ h1 => twin_rankLevel h1 l) _ _

theorem Shadow.recordFunction (h : Shadow o same SameRanks t t') (n : Word) :
    Shadow o same AnyScratch (t.recordFunction n) (t'.recordFunction n) := by
  obtain ⟨sc, hs, hC, rfl⟩ := h
  refine ⟨sc, hs, trivial, ?_⟩
  show (t.shadow o sc).recordFunction n = (t.recordFunction n).shadow o sc
  have hl : (t.shadow o sc).scratch.level = t.scratch.level := hC.level
  have hw : (t.shadow o sc).scratch.wbase = t.scratch.wbase := hC.wbase
  have hr : (t.shadow o sc).scratch.rbase = t.scratch.rbase := hC.rbase
  have hd : (t.shadow o sc).scratch.dups = t.scratch.dups := hC.dups
  have hp : (t.shadow o sc).scratch.pop = t.scratch.pop := hC.pop
  simp only [State.recordFunction, hl, hw, hr, hd, hp]
  rfl

theorem twin_completeBuild (h : Shadow o same SameRanks t t') (n : Word) :
    Twin o same (Shadow o same AnyScratch) (completeBuild n t) (completeBuild n t') :=
  (twin_clearSlots h _).bind fun _ _ h1 => .ok (h1.recordFunction n)

theorem twin_buildBody (h : Shadow o same C t t') (d : Bool) :
    Twin o same (Shadow o same AnyScratch) (buildBody d t) (buildBody d t') := by
  have h0 := h.update State.dropFunction (fun _ => rfl) rfl
  obtain ⟨sc, rfl⟩ := h.exists_eq
  refine (twin_require h0 _ _ _).bind_eq fun _ => (twin_readKeys h0 _ _).bind_eq fun ks => ?_
  have h1 := h0.setScratch (D := SameCounters) (fun sc => { sc with working := ks, level := 0, wbase := 0, rbase := 0, dups := 0 })
    fun _ _ _ => ⟨rfl, rfl, rfl, rfl, rfl⟩
  refine (twin_cascade h1 d _).bind fun u u' h2 => ?_
  rw [h2.scratch.level]
  exact (twin_buildRanks h2 _).bind fun _ _ h3 => twin_completeBuild h3 _

end Sys2Proof.Machine
end

section
/-!
PROOFS. Over all commands: neither the host's operand registers (10_state.md R36) nor the scratch state of an earlier command (R70) has
any part in what a command does.
-/
namespace Sys2Proof.Machine

variable {o : HostOperands} {same : Prop} {C : Scratch → Scratch → Prop} {s t t' : State}

/-- The pseudocode of every command, run from two such states. -/
theorem exec_twin (i : Instr) {sc : Scratch} (hsc : same → sc = s.scratch) :
    ∃ r r', exec i s = conclude r ∧ exec i (s.shadow o sc) = conclude r' ∧ Twin o same (Shadow o same AnyScratch) r r' := by
  have h : Shadow o same AnyScratch s (s.shadow o sc) := ⟨sc, hsc, trivial, rfl⟩
  cases i with
  | nop => exact ⟨.ok s, .ok (s.shadow o sc), rfl, rfl, .ok h⟩
  | build d =>
    exact ⟨_, _, rfl, rfl, (twin_buildBody h d).bind fun _ _ h1 =>
      .ok (h1.update (fun u => { u with res0 := u.nlevels, res1 := u.total }) (fun _ => rfl) rfl)⟩
  | query =>
    exact ⟨_, _, rfl, rfl, (twin_requireBuilt h).bind_eq fun _ => (twin_query h _).bind_eq fun (x, lv) =>
      .ok (h.update (fun u => { u with res0 := x, res1 := levelWord lv }) (fun _ => rfl) rfl)⟩
  | lookup =>
    exact ⟨_, _, rfl, rfl, (twin_requireIndex h _).bind_eq fun _ => (twin_memRead h _ _).bind_eq fun v =>
      .ok (h.update (fun u => { u with res0 := v }) (fun _ => rfl) rfl)⟩
  | set => exact ⟨_, _, rfl, rfl, (twin_requireIndex h _).bind_eq fun _ => twin_memWrite h _ _ _⟩
  | clrvals => exact ⟨_, _, rfl, rfl, (twin_requireBuilt h).bind_eq fun _ => twin_clearSlots h _⟩
  | accum =>
    exact ⟨_, _, rfl, rfl, (twin_accumBody h).bind fun _ _ h1 =>
      .ok (h1.update (fun u => { u with res0 := u.opKeys }) (fun _ => rfl) rfl)⟩
  | emit =>
    exact ⟨_, _, rfl, rfl, (twin_emitBody h).bind fun _ _ h1 =>
      .ok (h1.update (fun u => { u with res0 := u.outlen }) (fun _ => rfl) rfl)⟩
  | sort p =>
    have hn (b : Bool) := h.update (State.sortNothing b) (fun _ => rfl) rfl
    cases p with
    | false => exact ⟨_, _, rfl, rfl, .ok (hn false)⟩
    | true =>
      refine ⟨_, _, rfl, rfl, ?_⟩
      show Twin o same (Shadow o same AnyScratch) (if s.latch.nkeys = 0 then _ else _) (if s.latch.nkeys = 0 then _ else _)
      split
      · exact .ok (hn true)
      · exact (twin_buildBody h true).bind fun _ _ h1 => (twin_accumBody h1).bind fun _ _ h2 =>
          (twin_emitBody h2).bind fun _ _ h3 => .ok (h3.update (fun u => { u with res0 := u.outlen, res1 := u.total }) (fun _ => rfl) rfl)
  | rank =>
    exact ⟨_, _, rfl, rfl, (twin_requirePosition h _ _).bind_eq fun _ => (twin_localRank h _ _).bind_eq fun l =>
      (twin_globalRank h _ _).bind_eq fun g => .ok (h.update (fun u => { u with res0 := l, res1 := g }) (fun _ => rfl) rfl)⟩
  | hash =>
    exact ⟨_, _, rfl, rfl, (twin_require h _ _ _).bind_eq fun _ => .ok (h.update (fun u =>
      let x := hash64 s.params.hash s.opA
      { u with res0 := x, res1 := (combOfHash x s.opB.toNat).zeroExtend 64 }) (fun _ => rfl) rfl)⟩
  | bitget =>
    exact ⟨_, _, rfl, rfl, (twin_requirePosition h _ _).bind_eq fun _ => (twin_levelWbase h _).bind_eq fun _ =>
      (twin_bit h _ _ _).bind_eq fun b => .ok (h.update (fun u => { u with res0 := flagAt b 0 }) (fun _ => rfl) rfl)⟩
  | inval => exact ⟨.ok _, .ok _, rfl, rfl, .ok (h.update State.dropFunction (fun _ => rfl) rfl)⟩

/-- A command ends alike from two states that differ in operand registers and scratch state only. -/
theorem exec_shadow (o : HostOperands) (i : Instr) {sc : Scratch} (hsc : same → sc = s.scratch) :
    (∃ t t', exec i s = .next t ∧ exec i (s.shadow o sc) = .next t' ∧ Shadow o same AnyScratch t t') ∨
      ∃ f, exec i s = .fault f ∧ exec i (s.shadow o sc) = .fault f := by
  obtain ⟨r, r', hr, hr', h⟩ := exec_twin (o := o) i hsc
  rw [hr, hr']
  cases h with
  | ok h => exact .inl ⟨_, _, rfl, rfl, h.update State.complete (fun _ => rfl) rfl⟩
  | raised h => exact .inl ⟨_, _, rfl, rfl, h.update (State.takeFault _ _) (fun _ => rfl) rfl⟩
  | stopped f => exact .inr ⟨f, rfl, rfl⟩

/-- Settles O7: the run from the state with other operand registers is a shadow with the same scratch state. -/
theorem commandUsesLatchedOperands : Obligations.CommandUsesLatchedOperands := by
  intro i s a0 a1 n g c
  rcases exec_shadow (same := True) (s := s) ⟨a0, a1, n, g, c⟩ i (fun _ => rfl) with ⟨t, t', h, h', sc, hsc, -, rfl⟩ | ⟨f, h, h'⟩
  · obtain rfl := hsc trivial
    rw [h]
    exact h'
  · rw [h]
    exact h'

/-- Settles O45: the run from the state with another scratch state is a shadow with the same operand registers, which no command
writes. -/
theorem hiddenScratchNeverRead : Obligations.HiddenScratchNeverRead := by
  intro i s t sc ht
  obtain ⟨-, hctrl, -, hnkeys, hgamma, harg0, harg1, -⟩ := engineLeavesHostRegisters i s t ht
  rcases exec_shadow (same := False) (sc := sc) ⟨s.arg0, s.arg1, s.nkeys, s.gamma, s.ctrl⟩ i nofun with
    ⟨u, u', h, h', r, -, -, rfl⟩ | ⟨f, h, -⟩
  · cases ht.symm.trans h
    refine ⟨r, h'.trans ?_⟩
    rw [← harg0, ← harg1, ← hnkeys, ← hgamma, ← hctrl]
    rfl
  · cases ht.symm.trans h

end Sys2Proof.Machine
end

section
/-!
PROOFS. That nothing stops: `Runs P Q r` says that `r` ends well in `Q` or in a fault whose state meets `P`, and that no index is out of
range (20_memory.md R95). The shared operations, and every command but a build, from a state whose function is usable.
-/
namespace Sys2Proof.Machine

/-! ### It runs to an end -/

/-- `r` does not stop: a value meets `Q`, and the state of a fault meets `P`. -/
def Runs {α : Type} (P : State → Prop) (Q : α → Prop) : Except Abort α → Prop
  | .ok a => Q a
  | .error (.raised _ _ t) => P t
  | .error (.stopped _) => False

variable {α β : Type} {P : State → Prop} {s t u : State}

theorem Runs.bind {Q : α → Prop} {R : β → Prop} {r : Except Abort α} {f : α → Except Abort β} (h : Runs P Q r)
    (hf : ∀ a, Q a → Runs P R (f a)) : Runs P R (r >>= f) := by
  match r with
  | .ok a => exact hf a h
  | .error (.raised _ _ _) => exact h
  | .error (.stopped _) => exact h.elim

theorem Runs.mono {P' : State → Prop} {Q R : α → Prop} {r : Except Abort α} (h : Runs P Q r) (hP : ∀ t, P t → P' t)
    (hQ : ∀ a, Q a → R a) : Runs P' R r := by
  match r with
  | .ok a => exact hQ a h
  | .error (.raised _ _ _) => exact hP _ h
  | .error (.stopped _) => exact h.elim

/-- What else is known of a good end. -/
theorem Runs.and {P' : FaultCode → Word → State → Prop} {Q Q' : α → Prop} {r : Except Abort α} (h : Runs P Q r)
    (h' : Ends P' Q' r) : Runs P (fun a => Q a ∧ Q' a) r := by
  match r with
  | .ok _ => exact ⟨h, h'⟩
  | .error (.raised _ _ _) => exact h
  | .error (.stopped _) => exact h

theorem Runs.forUp {body : Nat → State → Except Abort State} (I : Nat → State → Prop) {count start : Nat} (h0 : I start s)
    (hb : ∀ i t, start ≤ i → i < start + count → I i t → Runs P (I (i + 1)) (body i t)) :
    Runs P (I (start + count)) (forUp count start body s) := by
  induction count generalizing start s with
  | zero => exact h0
  | succ n ih =>
    refine (hb start s (Nat.le_refl _) (by omega) h0).bind fun t ht => ?_
    rw [show start + (n + 1) = start + 1 + n by omega]
    exact ih ht fun i t h1 h2 => hb i t (by omega) (by omega)

/-- The loop rule over keys, with an invariant that counts them. -/
theorem Runs.forKeys {body : Word → State → Except Abort State} (I : Nat → State → Prop) {n : Nat} {ks : List Word} (h0 : I n s)
    (hb : ∀ k n t, I n t → Runs P (I (n + 1)) (body k t)) : Runs P (I (n + ks.length)) (forKeys ks body s) := by
  induction ks generalizing n s with
  | nil => exact h0
  | cons k ks ih =>
    refine (hb k n s h0).bind fun t ht => ?_
    rw [List.length_cons, Nat.add_comm ks.length 1, ← Nat.add_assoc]
    exact ih ht

theorem runs_ok {Q : α → Prop} {r : Except Abort α} {a : α} (h : r = .ok a) (hQ : Q a) : Runs P Q r := by
  subst h
  exact hQ

theorem runs_raised {Q : α → Prop} {r : Except Abort α} {c : FaultCode} {x : Word} (h : r = .error (.raised c x t)) (hP : P t) :
    Runs P Q r := by
  subst h
  exact hP

theorem runs_memRead {sp : Space} {i : Nat} (h : i < sp.words s.params) : Runs P (fun w => w = s.word sp i) (memRead sp i s) :=
  runs_ok (memRead_of_lt h) rfl

theorem runs_require {ok : Bool} {c : FaultCode} {x : Word} (hP : P s) : Runs P (fun _ => ok = true) (require ok c x s) := by
  cases ok
  · exact hP
  · exact rfl

/-- A command whose pseudocode runs to an end answers a next state: the one the pseudocode left, completed (R333) or faulted (R335). -/
theorem Runs.conclude {r : Except Abort State} (h : Runs P P r) :
    ∃ u, P u ∧ (Sys2Proof.Machine.conclude r = .next u.complete ∨
      ∃ c x, Sys2Proof.Machine.conclude r = .next (u.takeFault c x)) := by
  match r with
  | .ok u => exact ⟨u, h, .inl rfl⟩
  | .error (.raised c x u) => exact ⟨u, h, .inr ⟨c, x, rfl⟩⟩
  | .error (.stopped _) => exact h.elim

/-! ### A usable function -/

/-- Where a function is built, it is well formed: the second half of `State.Safe`. -/
def State.FnOk (s : State) : Prop := s.status.built = true → s.FnInv

/-- A well-formed function is built, so that the engine's reads of it stay inside the memories (R95). -/
structure State.Usable (s : State) : Prop where
  params : s.params.Wf
  built  : s.status.built = true
  levels : s.nlevels.toNat ≤ 32
  fn     : s.FnInv

theorem State.Usable.fnOk (h : s.Usable) : s.FnOk := fun _ => h.fn

theorem State.Safe.usable (h : s.Safe) (hb : s.status.built = true) : s.Usable :=
  ⟨h.inv.params, hb, h.inv.levels, h.fn hb⟩

/-- The built function is the same when its registers and the bytes of its memories are. -/
theorem FunctionKept.sameFunction (h : FunctionKept s t) (hp : s.params.Wf) (ht : t.params = s.params) : SameFunction s t := by
  obtain ⟨hbuilt, hnl, hbn, htot, -, hbv, hrk, hbytes⟩ := h
  have word (sp : Space) (hsp : 0x20000000 ≤ sp.base ∧ sp.base + 0x10000000 ≤ 0x50000000) (i : Nat) (hi : i < sp.words s.params) :
      t.word sp i = s.word sp i := readWord_congr fun k hk => by
    have := Space.addr_bounds hp hi
    exact hbytes _ (by omega)
  exact ⟨ht, hbuilt, hnl, hbn, htot, hbv, hrk, word .lvltab (by decide), word .bvmem (by decide), word .rankmem (by decide)⟩

/-- Commands that leave the function's registers and memories alone keep it usable. -/
theorem State.Usable.kept (h : s.Usable) {L : Nat} {sps : List Space} (hk : Keeps sps s t) (hf : KeepsFn L s t)
    (hs : ∀ sp ∈ sps, sp ∈ outsideFunction) : t.Usable where
  params := hf.params ▸ h.params
  built := hf.built.trans h.built
  levels := hf.nlevels ▸ h.levels
  fn := by
    have hkept : FunctionKept s t := ⟨hf.built, hf.nlevels, hf.bnkeys, hf.total, hf.dups, hf.bvused, hf.rankused,
      hk.stores.functionBytes h.params hs⟩
    exact (hkept.sameFunction h.params hf.params).fnInv h.levels h.fn

/-- So a body that only runs to an end, and touches nothing of the function, runs from a usable function to a usable function. -/
theorem State.Usable.runs (h : s.Usable) {L : Nat} {sps : List Space} (hs : ∀ sp ∈ sps, sp ∈ outsideFunction)
    {r : Except Abort State} (hr : Runs (fun _ => True) (fun _ => True) r) (hk : Ends (KeepsOnFault sps s) (Keeps sps s) r)
    (hf : Ends (KeepsFnOnFault L s) (KeepsFn L s) r) : Runs State.Usable (fun t => t.Usable ∧ KeepsFn L s t) r := by
  match r with
  | .ok _ => exact ⟨h.kept hk hf hs, hf⟩
  | .error (.raised _ _ _) => exact h.kept hk.2 hf hs
  | .error (.stopped _) => exact hr.elim

/-! ### Checks -/

theorem runs_requireBuilt (h : s.status.built = true → s.Usable) : Runs State.FnOk (fun _ => s.Usable) (requireBuilt s) :=
  (runs_require (P := State.FnOk) fun hb => (h hb).fn).mono (fun _ ht => ht) fun _ => h

theorem runs_requireIndex (h : s.status.built = true → s.Usable) (x : Word) :
    Runs State.FnOk (fun _ => s.Usable ∧ x.toNat - 1 < s.params.keyDepth) (requireIndex x s) :=
  (runs_requireBuilt h).bind fun _ hu => (runs_require hu.fnOk).mono (fun _ ht => ht) fun _ hx => by
    obtain ⟨h0, hle⟩ := of_decide_eq_true hx
    have h0' : x.toNat ≠ 0 := fun h => h0 (BitVec.eq_of_toNat_eq h)
    have := hu.fn.slots
    exact ⟨hu, by omega⟩

theorem runs_requirePosition (h : s.status.built = true → s.Usable) (l n : Word) : Runs State.FnOk
    (fun _ => s.Usable ∧ l.toNat < s.nlevels.toNat ∧ n.toNat < s.sizeAt l.toNat) (requirePosition l n s) := by
  refine (runs_requireBuilt h).bind fun _ hu => (runs_require hu.fnOk).bind fun _ hl => ?_
  have hl := of_decide_eq_true hl
  rw [levelSize_eq hu.levels hl, ok_bind]
  exact (runs_require hu.fnOk).mono (fun _ ht => ht) fun _ hn => ⟨hu, hl, of_decide_eq_true hn⟩

/-! ### Clearing, counting and emitting (44_hashmap.md R266; 45_sort.md R283, R290) -/

theorem runs_clearSlots (h : s.Usable) : Runs State.Usable State.Usable (clearSlots s.bnkeys.toNat s) :=
  (h.runs (sps := [.valmem, .tagmem]) (by decide) (runs_ok (clearSlots_eq _ h.fn.slots) trivial)
    (keeps_clearSlots _ (by decide) (by decide) (.refl _ s)) (keepsFn_clearSlots _ (.refl s))).mono (fun _ ht => ht) fun _ ht => ht.1

theorem runs_accumKey (h : s.Usable) {j : Nat} (hj : j < s.params.keyDepth) :
    Runs State.Usable (fun t => t.Usable ∧ t.params = s.params) (accumKey j s) := by
  have hruns : Runs (fun _ => True) (fun _ => True) (accumKey j s) := by
    by_cases hx : s.indexOf (s.word .keymem j) = 0
    · exact runs_raised (accumKey_notFound h.fn h.levels hj hx) trivial
    by_cases hk : s.tagValid ((s.indexOf (s.word .keymem j)).toNat - 1) = true →
        s.tag ((s.indexOf (s.word .keymem j)).toNat - 1) = s.word .keymem j
    · exact runs_ok (accumKey_counts h.fn h.levels hj hx hk) trivial
    · obtain ⟨hv, ht⟩ := Classical.not_imp.1 hk
      exact runs_raised (accumKey_mismatch h.fn h.levels hj hx hv ht) trivial
  exact (h.runs (sps := [.valmem, .tagmem]) (by decide) hruns (keeps_accumKey j (by decide) (by decide) (.refl _ s))
    (keepsFn_accumKey j (.refl s))).mono (fun _ ht => ht) fun _ ht => ⟨ht.1, ht.2.params⟩

theorem runs_accumBody (h : s.status.built = true → s.Usable) : Runs State.FnOk State.Usable (accumBody s) := by
  refine (runs_requireBuilt h).bind fun _ hu => (runs_require hu.fnOk).bind fun _ hn => ?_
  have hn := of_decide_eq_true hn
  refine (Runs.forUp (fun _ t => t.Usable ∧ t.params = s.params) ⟨hu, rfl⟩ fun j t _ hj ht => ?_).mono
    (fun _ ht => State.Usable.fnOk ht) fun _ ht => ht.1
  exact (runs_accumKey ht.1 (by rw [ht.2]; omega)).mono (fun _ hv => hv) fun _ hv => ⟨hv.1, hv.2.trans ht.2⟩

/-- A usable function and an OUTLEN that counts words of OUTMEM (10_state.md R53). -/
def State.Emitting (s : State) : Prop := s.Usable ∧ s.outlen.toNat ≤ s.params.keyDepth

theorem runs_emitOne (hs : s.Emitting) (v : Word) : Runs State.Usable State.Emitting (emitOne v s) := by
  obtain ⟨h, ho⟩ := hs
  have hruns : Runs (fun _ => True) (fun _ => True) (emitOne v s) := by
    rcases Nat.lt_or_eq_of_le ho with ho | ho
    · exact runs_ok (emitOne_eq v ho) trivial
    · exact runs_raised (emitOne_full v ho) trivial
  exact (h.runs (sps := [.outmem]) (by decide) hruns (keeps_emitOne v (by decide) (.refl _ s)) (keepsFn_emitOne v (.refl s))).mono
    (fun _ ht => ht) fun _ ht => ⟨ht.1, ht.2.outlen ho⟩

theorem runs_emitBody (h : s.status.built = true → s.Usable) : Runs State.FnOk State.Usable (emitBody s) := by
  refine (runs_requireBuilt h).bind fun _ hu => ?_
  have h0 : s.startOutput.Usable := ⟨hu.params, hu.built, hu.levels, { hu.fn with }⟩
  split
  · refine (Runs.forUp (fun _ => State.Emitting) ⟨h0, Nat.zero_le _⟩ fun i t _ _ ht => ?_).mono (fun _ ht => State.Usable.fnOk ht)
      fun _ ht => ht.1
    rw [emitValue_eq ht.1.fn ht.1.levels]
    exact Runs.forUp (fun _ => State.Emitting) ht fun _ u _ _ hu => runs_emitOne hu _
  · exact h0

end Sys2Proof.Machine
end

section
/-!
PROOFS. A build (41_build.md R186) from a state that meets the invariant: no access of it leaves its memory, and where it completes, the
function is well formed. The levels as recorded are `State.Laid`; each pass of the build keeps that, and counts its 1 bits.
-/
namespace Sys2Proof.Machine

variable {s t : State} {n w r : Nat}

/-! ### Levels as recorded in LVLTAB -/

/-- LVLTAB records `n` levels, which fill the first `w` words of BVMEM and the first `r` entries of RANKMEM (10_state.md R63;
41_build.md R177, R180, R191). -/
structure State.Laid (s : State) (n w r : Nat) : Prop where
  count   : n ≤ 32
  sizes   : ∀ l < n, s.sizeAt l % 64 = 0 ∧ 64 ≤ s.sizeAt l ∧ s.sizeAt l ≤ s.params.scratchBits
  wbases  : ∀ l < n, s.wbaseAt l = s.wordsBefore l
  rbases  : ∀ l < n, s.rbaseAt l = s.samplesBefore l
  words   : s.wordsBefore n = w ∧ w ≤ s.params.bvWords
  samples : s.samplesBefore n = r ∧ r ≤ s.params.rankDepth

theorem wordsBefore_congr (h : ∀ l < n, t.sizeAt l = s.sizeAt l) : t.wordsBefore n = s.wordsBefore n := by
  rw [State.wordsBefore_eq, State.wordsBefore_eq]
  exact sumFrom_congr fun i hi => by rw [h _ (by omega)]

theorem samplesBefore_congr (h : ∀ l < n, t.sizeAt l = s.sizeAt l) : t.samplesBefore n = s.samplesBefore n := by
  rw [State.samplesBefore_eq, State.samplesBefore_eq]
  exact sumFrom_congr fun i hi => by rw [h _ (by omega)]

theorem popBefore_congr (h : ∀ i < n, t.word .bvmem i = s.word .bvmem i) : t.popBefore n = s.popBefore n := by
  rw [State.popBefore_eq, State.popBefore_eq]
  exact sumFrom_congr fun i hi => by rw [State.popWord, State.popWord, h _ (by omega)]

/-- What the records say depends on the first three words of each. -/
theorem State.Laid.congr (h : s.Laid n w r) (hp : t.params = s.params)
    (hw : ∀ i < 4 * n, i % 4 ≠ 3 → t.word .lvltab i = s.word .lvltab i) : t.Laid n w r := by
  have hsize (l : Nat) (hl : l < n) : t.sizeAt l = s.sizeAt l := by
    rw [State.sizeAt, State.sizeAt, hw _ (by omega) (by omega)]
  have hwords (l : Nat) (hl : l ≤ n) : t.wordsBefore l = s.wordsBefore l := wordsBefore_congr fun k hk => hsize k (by omega)
  have hsamples (l : Nat) (hl : l ≤ n) : t.samplesBefore l = s.samplesBefore l :=
    samplesBefore_congr fun k hk => hsize k (by omega)
  refine ⟨h.count, fun l hl => ?_, fun l hl => ?_, fun l hl => ?_, ?_, ?_⟩
  · rw [hsize l hl, hp]
    exact h.sizes l hl
  · rw [State.wbaseAt, hw _ (by omega) (by omega), hwords l hl.le]
    exact h.wbases l hl
  · rw [State.rbaseAt, hw _ (by omega) (by omega), hsamples l hl.le]
    exact h.rbases l hl
  · rw [hwords n le_rfl, hp]
    exact h.words
  · rw [hsamples n le_rfl, hp]
    exact h.samples

/-- The capacity test of R180. -/
theorem levelFits_iff {p : Params} {size : Nat} : levelFits p size w r = true ↔
    size ≤ p.scratchBits ∧ w + size / 64 ≤ p.bvWords ∧ r + sampleCount (size / 64) ≤ p.rankDepth := by
  simp [levelFits, and_assoc]

/-- One more record (R191). -/
theorem State.Laid.push (h : s.Laid n w r) (hn : n < 32) (h64 : s.sizeAt n % 64 = 0 ∧ 64 ≤ s.sizeAt n)
    (hfits : levelFits s.params (s.sizeAt n) w r = true) (hwb : s.wbaseAt n = w) (hrb : s.rbaseAt n = r) :
    s.Laid (n + 1) (w + s.sizeAt n / 64) (r + sampleCount (s.sizeAt n / 64)) := by
  obtain ⟨hbits, hwords, hsamples⟩ := levelFits_iff.1 hfits
  refine ⟨hn, fun l hl => ?_, fun l hl => ?_, fun l hl => ?_, ?_, ?_⟩
  · rcases Nat.lt_succ_iff_lt_or_eq.1 hl with hl | rfl
    · exact h.sizes l hl
    · exact ⟨h64.1, h64.2, hbits⟩
  · rcases Nat.lt_succ_iff_lt_or_eq.1 hl with hl | rfl
    · exact h.wbases l hl
    · exact hwb.trans h.words.1.symm
  · rcases Nat.lt_succ_iff_lt_or_eq.1 hl with hl | rfl
    · exact h.rbases l hl
    · exact hrb.trans h.samples.1.symm
  · rw [State.wordsBefore_succ, h.words.1]
    exact ⟨rfl, hwords⟩
  · rw [State.samplesBefore_succ, h.samples.1]
    exact ⟨rfl, hsamples⟩

/-- A level's words and samples lie among those of all levels. -/
theorem State.Laid.level_le (h : s.Laid n w r) {l : Nat} (hl : l < n) :
    s.wordsBefore l + s.sizeAt l / 64 ≤ w ∧ s.samplesBefore l + sampleCount (s.sizeAt l / 64) ≤ r := by
  rw [← State.wordsBefore_succ, ← State.samplesBefore_succ, ← h.words.1, ← h.samples.1]
  exact ⟨s.wordsBefore_mono hl, s.samplesBefore_mono hl⟩

/-! ### Counting 1 bits -/

theorem ones_or_le (p q : Nat → Bool) (m : Nat) : ones (fun i => p i || q i) m ≤ ones p m + ones q m := by
  induction m with
  | zero => exact Nat.zero_le _
  | succ m ih =>
    rw [ones_succ, ones_succ, ones_succ]
    cases p m <;> cases q m <;> simp <;> omega

theorem ones_eq_le (a m : Nat) : ones (fun i => decide (i = a)) m ≤ if a < m then 1 else 0 := by
  induction m with
  | zero => exact Nat.zero_le _
  | succ m ih =>
    simp only [ones_succ, decide_eq_true_eq]
    split_ifs at ih ⊢ <;> omega

/-- `SetBit` (R151) adds at most one 1 bit to a word. -/
theorem popcount64_setBit_le (v : Word) (a : Nat) : popcount64 (v ||| (1#64 <<< a)) ≤ popcount64 v + 1 := by
  have hbits : popcount64 (v ||| (1#64 <<< a)) = ones (fun i => v.getLsbD i || decide (i = a)) 64 :=
    ones_congr fun i hi => getLsbD_or_bit v hi
  have hone := ones_eq_le a 64
  have hor := ones_or_le v.getLsbD (fun i => decide (i = a)) 64
  rw [hbits, popcount64_eq_ones]
  split at hone <;> omega

/-- Replacing a word of BVMEM by one with at most one more 1 bit. -/
theorem popBefore_setWord_le (hs : memWf s.mem = true) (hp : s.params.Wf) {i : Nat} (hn : n ≤ s.params.bvWords)
    (hi : i < s.params.bvWords) {v : Word} (hv : popcount64 v ≤ popcount64 (s.word .bvmem i) + 1) :
    (s.setWord .bvmem i v).popBefore n ≤ s.popBefore n + 1 := by
  have hother (j : Nat) (hj : j < s.params.bvWords) (hne : i ≠ j) : (s.setWord .bvmem i v).popWord j = s.popWord j :=
    congrArg popcount64 (State.word_setWord_of_ne hp v hi hj (.inr hne))
  have hsame : (s.setWord .bvmem i v).popWord i ≤ s.popWord i + 1 := by
    rw [State.popWord, State.word_setWord_same hs]
    exact hv
  have key (m : Nat) (hm : m ≤ s.params.bvWords) : (s.setWord .bvmem i v).popBefore m ≤ s.popBefore m + if i < m then 1 else 0 := by
    rw [State.popBefore_eq, State.popBefore_eq]
    induction m with
    | zero => exact Nat.zero_le _
    | succ m ih =>
      have := ih (by omega)
      rw [sumFrom_succ, sumFrom_succ, Nat.zero_add]
      by_cases him : i = m
      · subst him
        split_ifs at this ⊢ <;> omega
      · rw [hother m (by omega) him]
        split_ifs at this ⊢ <;> omega
  have := key n hn
  split at this <;> omega

end Sys2Proof.Machine
end

section
/-!
PROOFS. The cascade of a build (41_build.md R186): each level is recorded where it fits (R180), and its 1 bits and deferred keys are
together no more than its keys.
-/
namespace Sys2Proof.Machine

variable {s t : State} {L m : Nat}

/-! ### Between the passes -/

/-- A build that has recorded `L` levels and nothing above them, and has not recorded its function yet. -/
structure State.Building (L : Nat) (s : State) : Prop where
  params  : s.params.Wf
  mem     : memWf s.mem = true
  unbuilt : s.status.built = false
  level   : s.scratch.level = L
  laid    : s.Laid L s.scratch.wbase s.scratch.rbase
  above   : ∀ i, 4 * L ≤ i → i < 128 → s.word .lvltab i = 0

theorem State.Building.fnOk (h : s.Building L) : s.FnOk := fun hb => absurd (h.unbuilt.symm.trans hb) (by decide)

/-- A build's levels depend on its counters and the records in LVLTAB, but for POPBASE (R222). -/
theorem State.Building.congr (h : s.Building L) (hm : memWf t.mem = true) (hp : t.params = s.params) (hst : t.status = s.status)
    (hsc : t.scratch.level = s.scratch.level ∧ t.scratch.wbase = s.scratch.wbase ∧ t.scratch.rbase = s.scratch.rbase)
    (hw : ∀ i < 128, i % 4 ≠ 3 ∨ 4 * L ≤ i → t.word .lvltab i = s.word .lvltab i) : t.Building L where
  params := hp ▸ h.params
  mem := hm
  unbuilt := hst ▸ h.unbuilt
  level := hsc.1.trans h.level
  laid := by
    have := h.laid.count
    rw [hsc.2.1, hsc.2.2]
    exact h.laid.congr hp fun i hi h3 => hw i (by omega) (.inl h3)
  above i h1 h2 := (hw i h2 (.inr h1)).trans (h.above i h1 h2)

theorem State.Building.setScratch (h : s.Building L) {sc : Scratch}
    (hsc : sc.level = s.scratch.level ∧ sc.wbase = s.scratch.wbase ∧ sc.rbase = s.scratch.rbase) : (s.setScratch sc).Building L :=
  h.congr h.mem rfl rfl hsc fun _ _ _ => rfl

theorem State.Building.setWord (h : s.Building L) {sp : Space} {i : Nat} (v : Word) (hi : i < sp.words s.params)
    (hsp : sp ≠ .lvltab ∨ i % 4 = 3 ∧ i < 4 * L) : (s.setWord sp i v).Building L := by
  refine h.congr (memWf_setWord h.mem _ _ _) rfl rfl ⟨rfl, rfl, rfl⟩ fun j hj hj3 => ?_
  exact State.word_setWord_of_ne h.params v hi hj (hsp.imp_right fun hi => by omega)

/-! ### The first pass (R189) -/

/-- It leaves the counters of the build alone, defers no key, and lets no more keys survive than it has seen. -/
theorem firstPass_frame (d : Bool) (idx : Word → Nat) (ks : List Word) (sc : Scratch) :
    (firstPass d idx ks sc).wbase = sc.wbase ∧ (firstPass d idx ks sc).rbase = sc.rbase ∧
      (firstPass d idx ks sc).deferred = sc.deferred ∧
      (firstPass d idx ks sc).survivors.length ≤ sc.survivors.length + ks.length := by
  unfold firstPass
  induction ks generalizing sc with
  | nil => exact ⟨rfl, rfl, rfl, le_rfl⟩
  | cons k ks ih =>
    obtain ⟨hw, hr, hd, hl⟩ := ih (firstPassKey d (idx k) k sc)
    rw [List.foldl_cons, hw, hr, hd]
    have hkey : (firstPassKey d (idx k) k sc).wbase = sc.wbase ∧ (firstPassKey d (idx k) k sc).rbase = sc.rbase ∧
        (firstPassKey d (idx k) k sc).deferred = sc.deferred ∧
        (firstPassKey d (idx k) k sc).survivors.length ≤ sc.survivors.length + 1 := by
      simp only [firstPassKey]
      split_ifs <;> simp
    obtain ⟨h1, h2, h3, h4⟩ := hkey
    exact ⟨h1, h2, h3, by rw [List.length_cons]; omega⟩

/-! ### The second pass (R190) -/

/-- A build that sets the bits of a level that fits: the bits set and the keys deferred so far are at most `m`. -/
structure State.Placing (L size m : Nat) (s : State) : Prop where
  building : s.Building L
  fits     : levelFits s.params size s.scratch.wbase s.scratch.rbase = true
  pops     : s.popBefore (s.scratch.wbase + size / 64) + s.scratch.deferred.length ≤ m

variable {size : Nat}

/-- Each key sets a bit or is deferred. -/
theorem runs_secondPassKey {idx : Word → Nat} (h64 : size % 64 = 0) (hidx : ∀ k, idx k < size) (k : Word)
    (h : s.Placing L size m) : Runs State.FnOk (State.Placing L size (m + 1)) (secondPassKey idx k s) := by
  have hwords := (levelFits_iff.1 h.fits).2.1
  have hpops := h.pops
  unfold secondPassKey
  split
  · refine ⟨h.building.setScratch ⟨rfl, rfl, rfl⟩, h.fits, ?_⟩
    show s.popBefore (s.scratch.wbase + size / 64) + (s.scratch.deferred ++ [k]).length ≤ m + 1
    rw [List.length_append, List.length_singleton]
    omega
  · have hi : s.scratch.wbase + idx k / 64 < s.params.bvWords := by
      have := hidx k
      omega
    refine runs_ok (setBit_eq hi) ⟨h.building.setWord _ hi (.inl (by decide)), h.fits, ?_⟩
    have := popBefore_setWord_le h.building.mem h.building.params hwords hi (popcount64_setBit_le (s.word .bvmem _) (idx k % 64))
    rw [State.setWord_scratch]
    omega

/-- The level's words are zeroed, then every survivor sets a bit or is deferred. -/
theorem runs_secondPass {idx : Word → Nat} (h64 : size % 64 = 0) (hidx : ∀ k, idx k < size) (h : s.Building L)
    (hfits : levelFits s.params size s.scratch.wbase s.scratch.rbase = true) (hd : s.scratch.deferred = [])
    (hm : s.popBefore s.scratch.wbase + s.scratch.survivors.length ≤ m) :
    Runs State.FnOk (State.Placing L size m) (secondPass idx size s) := by
  have hwords : s.scratch.wbase + size / 64 ≤ s.params.bvWords := (levelFits_iff.1 hfits).2.1
  rw [secondPass, memZero_of_le (.inr hwords), ok_bind]
  have hzero : (s.zero .bvmem s.scratch.wbase (size / 64)).popBefore (s.scratch.wbase + size / 64) = s.popBefore s.scratch.wbase := by
    rw [State.popBefore_add, popBefore_congr fun i hi =>
      State.word_zero_of_outside h.params hwords (show i < s.params.bvWords by omega) (.inr (.inl hi))]
    have hz : sumFrom (s.zero .bvmem s.scratch.wbase (size / 64)).popWord s.scratch.wbase (size / 64) =
        sumFrom (fun _ => 0) s.scratch.wbase (size / 64) :=
      sumFrom_congr fun i hi => congrArg popcount64 (s.word_zero_inside (by omega) (by omega))
    rw [hz]
    simp [sumFrom]
  have h0 : (s.zero .bvmem s.scratch.wbase (size / 64)).Placing L size (s.popBefore s.scratch.wbase) := by
    refine ⟨h.congr (memWf_zero h.mem _ _ _) rfl rfl ⟨rfl, rfl, rfl⟩ fun i hi _ => ?_, hfits, ?_⟩
    · exact State.word_zero_of_outside h.params hwords hi (.inl (by decide))
    · show (s.zero .bvmem s.scratch.wbase (size / 64)).popBefore (s.scratch.wbase + size / 64) + s.scratch.deferred.length ≤ _
      rw [hzero, hd]
      exact le_rfl
  exact (Runs.forKeys (State.Placing L size) h0 fun k n t ht => runs_secondPassKey h64 hidx k ht).mono (fun _ ht => ht)
    fun t ht => { ht with pops := ht.pops.trans hm }

/-! ### The record (R191) -/

/-- The state after a level's record: three words of LVLTAB written (R191). -/
def State.recordLevel (s : State) (L size w r : Nat) : State :=
  ((s.setWord .lvltab (4 * L) (BitVec.ofNat 64 size)).setWord .lvltab (4 * L + 1) (BitVec.ofNat 64 w)).setWord .lvltab (4 * L + 2)
    (BitVec.ofNat 64 r)

theorem levelRecord_eq_recordLevel (size : Nat) (h : s.scratch.level < 32) :
    levelRecord size s = .ok (s.recordLevel s.scratch.level size s.scratch.wbase s.scratch.rbase) := levelRecord_eq size h

@[simp] theorem recordLevel_params (s : State) (L size w r : Nat) : (s.recordLevel L size w r).params = s.params := by
  simp only [State.recordLevel, State.setWord_params]

@[simp] theorem recordLevel_status (s : State) (L size w r : Nat) : (s.recordLevel L size w r).status = s.status := by
  simp only [State.recordLevel, State.setWord_status]

@[simp] theorem recordLevel_scratch (s : State) (L size w r : Nat) : (s.recordLevel L size w r).scratch = s.scratch := by
  simp only [State.recordLevel, State.setWord_scratch]

theorem memWf_recordLevel (hm : memWf s.mem = true) (L size w r : Nat) : memWf (s.recordLevel L size w r).mem = true :=
  memWf_setWord (memWf_setWord (memWf_setWord hm _ _ _) _ _ _) _ _ _

/-- Every other word is as before. -/
theorem word_recordLevel_of_ne (hp : s.params.Wf) (hL : L < 32) (size w r : Nat) {sp : Space} {i : Nat} (hi : i < sp.words s.params)
    (hne : sp ≠ .lvltab ∨ i < 4 * L ∨ 4 * L + 2 < i) : (s.recordLevel L size w r).word sp i = s.word sp i := by
  have store (t : State) (ht : t.params = s.params) (k : Nat) (hk : k < 3) (v : Word) :
      (t.setWord .lvltab (4 * L + k) v).word sp i = t.word sp i :=
    State.word_setWord_of_ne (ht ▸ hp) v (show 4 * L + k < 128 by omega) (ht ▸ hi) (hne.imp Ne.symm (by omega))
  unfold State.recordLevel
  rw [store _ (by simp) 2 (by omega), store _ (by simp) 1 (by omega)]
  exact store s rfl 0 (by omega) _

/-- The words of the record. -/
theorem word_recordLevel (hp : s.params.Wf) (hm : memWf s.mem = true) (hL : L < 32) (size w r : Nat) :
    (s.recordLevel L size w r).word .lvltab (4 * L) = BitVec.ofNat 64 size ∧
    (s.recordLevel L size w r).word .lvltab (4 * L + 1) = BitVec.ofNat 64 w ∧
    (s.recordLevel L size w r).word .lvltab (4 * L + 2) = BitVec.ofNat 64 r := by
  have store (t : State) (ht : t.params = s.params) (j k : Nat) (hj : j < 3) (hjk : j ≠ k) (hk : k < 3) (v : Word) :
      (t.setWord .lvltab (4 * L + k) v).word .lvltab (4 * L + j) = t.word .lvltab (4 * L + j) :=
    State.word_setWord_of_ne (ht ▸ hp) v (show 4 * L + k < 128 by omega) (show 4 * L + j < 128 by omega) (.inr (by omega))
  have hm0 := memWf_setWord hm .lvltab (4 * L) (BitVec.ofNat 64 size)
  have hm1 := memWf_setWord hm0 .lvltab (4 * L + 1) (BitVec.ofNat 64 w)
  unfold State.recordLevel
  refine ⟨?_, ?_, State.word_setWord_same hm1 _ _ _⟩
  · have h1 := store (s.setWord .lvltab (4 * L) (BitVec.ofNat 64 size)) (by simp) 0 1 (by omega) (by omega) (by omega) (BitVec.ofNat 64 w)
    exact (store _ (by simp) 0 2 (by omega) (by omega) (by omega) _).trans (h1.trans (State.word_setWord_same hm _ _ _))
  · rw [store _ (by simp) 1 2 (by omega) (by omega) (by omega), State.word_setWord_same hm0]

/-! ### The cascade (R192) -/

/-- A level's table size is a multiple of 64 and at least 64 (R176). -/
theorem tableSize_words (g n : Nat) : tableSize g n % 64 = 0 ∧ 64 ≤ tableSize g n := by
  simp only [tableSize]
  omega

/-- The build between two levels: the bits set and the keys still to place are at most `m`. -/
def State.Cascading (L m : Nat) (s : State) : Prop :=
  s.Building L ∧ s.popBefore s.scratch.wbase + s.scratch.working.length ≤ m

/-- Recording the level that has been placed moves the cascade on. -/
theorem runs_levelRecord (hL : L < 32) (h64 : size % 64 = 0 ∧ 64 ≤ size) (h : s.Placing L size m) :
    Runs State.FnOk (fun t => (t.setScratch (t.scratch.nextLevel size)).Cascading (L + 1) m) (levelRecord size s) := by
  obtain ⟨hb, hfits, hpops⟩ := h
  obtain ⟨hbits, hwords, hsamples⟩ := levelFits_iff.1 hfits
  obtain ⟨-, ⟨-, hbv⟩, ⟨-, hrk⟩, -, hscr⟩ := hb.params
  obtain ⟨hw0, hw1, hw2⟩ := word_recordLevel hb.params hb.mem hL size s.scratch.wbase s.scratch.rbase
  have hother {sp : Space} {i : Nat} := word_recordLevel_of_ne hb.params hL size s.scratch.wbase s.scratch.rbase (sp := sp) (i := i)
  refine runs_ok (levelRecord_eq_recordLevel size (hb.level ▸ hL)) ?_
  rw [hb.level]
  have hmem := memWf_recordLevel hb.mem L size s.scratch.wbase s.scratch.rbase
  have hparams : (s.recordLevel L size s.scratch.wbase s.scratch.rbase).params = s.params := recordLevel_params ..
  have hstatus : (s.recordLevel L size s.scratch.wbase s.scratch.rbase).status = s.status := recordLevel_status ..
  have hscratch : (s.recordLevel L size s.scratch.wbase s.scratch.rbase).scratch = s.scratch := recordLevel_scratch ..
  generalize s.recordLevel L size s.scratch.wbase s.scratch.rbase = u at *
  have hsize : u.sizeAt L = size := by
    rw [State.sizeAt, hw0]
    exact Nat.mod_eq_of_lt (by omega)
  have hwb : u.wbaseAt L = s.scratch.wbase := by
    rw [State.wbaseAt, hw1]
    exact Nat.mod_eq_of_lt (by omega)
  have hrb : u.rbaseAt L = s.scratch.rbase := by
    rw [State.rbaseAt, hw2]
    exact Nat.mod_eq_of_lt (by omega)
  have hlaid : u.Laid (L + 1) (s.scratch.wbase + size / 64) (s.scratch.rbase + sampleCount (size / 64)) := by
    have hold := hb.laid.congr hparams fun i hi _ => hother (show i < 128 by omega) (.inr (.inl hi))
    have hnew := hold.push hL (by rwa [hsize]) (by rwa [hsize, hparams]) hwb hrb
    rwa [hsize] at hnew
  refine ⟨⟨hparams ▸ hb.params, hmem, hstatus ▸ hb.unbuilt, ?_, ?_, fun i h1 h2 => ?_⟩, ?_⟩
  · exact congrArg (· + 1) (hscratch ▸ hb.level)
  · rw [State.setScratch_scratch, Scratch.nextLevel, hscratch]
    exact hlaid.congr rfl fun _ _ _ => rfl
  · exact (hother h2 (.inr (.inr (by omega)))).trans (hb.above i (by omega) h2)
  · show u.popBefore (u.scratch.wbase + size / 64) + u.scratch.deferred.length ≤ m
    rw [hscratch, popBefore_congr fun i hi => hother (show i < s.params.bvWords by omega) (.inl (by decide))]
    exact hpops

theorem runs_buildLevel (d : Bool) (hL : L < 32) (h : s.Cascading L m) :
    Runs State.FnOk (State.Cascading (L + 1) m) (buildLevel d s) := by
  obtain ⟨hb, hm⟩ := h
  simp only [buildLevel]
  have h64 := tableSize_words s.latch.gamma.toNat s.scratch.working.length
  generalize tableSize s.latch.gamma.toNat s.scratch.working.length = size at h64 ⊢
  refine (runs_require hb.fnOk).bind fun _ hfits => ?_
  obtain ⟨hwb, hrb, hdef, hsurv⟩ := firstPass_frame d (fun k => bucket s.params.hash k s.scratch.level size) s.scratch.working
    (levelStart size s.scratch)
  have hlvl := firstPass_level d (fun k => bucket s.params.hash k s.scratch.level size) s.scratch.working
    (levelStart size s.scratch)
  generalize firstPass d (fun k => bucket s.params.hash k s.scratch.level size) s.scratch.working (levelStart size s.scratch) = sc
    at hwb hrb hdef hsurv hlvl ⊢
  have hsc : (s.setScratch sc).Building L := hb.setScratch ⟨hlvl, hwb, hrb⟩
  refine (runs_secondPass (m := m) h64.1 (fun k => bucket_lt _ _ _ (by omega)) hsc ?_ hdef ?_).bind fun u hu => ?_
  · show levelFits s.params size sc.wbase sc.rbase = true
    rw [hwb, hrb]
    exact hfits
  · show s.popBefore sc.wbase + sc.survivors.length ≤ m
    rw [hwb]
    exact (Nat.add_le_add_left (hsurv.trans (Nat.zero_add _).le) _).trans hm
  · exact (runs_levelRecord hL h64 hu).bind fun v hv => hv

/-- The cascade ends with every key placed, or in a fault that leaves no function (R192, R196). -/
theorem runs_cascade (d : Bool) (left : Nat) (hL : L + left ≤ 32) (h : s.Cascading L m) :
    Runs State.FnOk (fun t => ∃ N, t.Cascading N m) (cascade d left s) := by
  induction left generalizing L s with
  | zero =>
    unfold cascade
    split
    · exact ⟨L, h⟩
    · exact h.1.fnOk
  | succ left ih =>
    unfold cascade
    split
    · exact ⟨L, h⟩
    · exact (runs_buildLevel d (by omega) h).bind fun t ht => ih (by omega) ht

end Sys2Proof.Machine
end

section
/-!
PROOFS. The rank samples of a build (42_rank.md R222) and its completion (41_build.md R195): the scan adds up the 1 bits of BVMEM, so
that every POPBASE, every sample and TOTAL is the number of 1 bits before its place.
-/
namespace Sys2Proof.Machine

variable {s t : State} {N m a l j c : Nat}

/-! ### What the scan leaves alone -/

/-- `t` has the sizes and bases of the levels of `s`, and its bits. -/
structure SameLevels (s t : State) : Prop where
  params : t.params = s.params
  lvltab : ∀ i < 128, i % 4 ≠ 3 → t.word .lvltab i = s.word .lvltab i
  bvmem  : ∀ i < s.params.bvWords, t.word .bvmem i = s.word .bvmem i

theorem SameLevels.record (h : SameLevels s t) (hl : l < 32) :
    t.sizeAt l = s.sizeAt l ∧ t.wbaseAt l = s.wbaseAt l ∧ t.rbaseAt l = s.rbaseAt l := by
  simp only [State.sizeAt, State.wbaseAt, State.rbaseAt]
  rw [h.lvltab _ (by omega) (by omega), h.lvltab _ (by omega) (by omega), h.lvltab _ (by omega) (by omega)]
  exact ⟨rfl, rfl, rfl⟩

theorem SameLevels.wordsBefore (h : SameLevels s t) (hl : l ≤ 32) : t.wordsBefore l = s.wordsBefore l :=
  wordsBefore_congr fun _ hk => (h.record (by omega)).1

theorem SameLevels.samplesBefore (h : SameLevels s t) (hl : l ≤ 32) : t.samplesBefore l = s.samplesBefore l :=
  samplesBefore_congr fun _ hk => (h.record (by omega)).1

theorem SameLevels.popBefore (h : SameLevels s t) (hj : j ≤ s.params.bvWords) : t.popBefore j = s.popBefore j :=
  popBefore_congr fun i hi => h.bvmem i (by omega)

/-- A store to RANKMEM or to a POPBASE word. -/
theorem SameLevels.setWord (hp : s.params.Wf) {sp : Space} {i : Nat} (hi : i < sp.words s.params) (v : Word)
    (hsp : sp = .rankmem ∨ sp = .lvltab ∧ i % 4 = 3) : SameLevels s (s.setWord sp i v) where
  params := rfl
  lvltab k hk h3 := State.word_setWord_of_ne hp v hi hk <| by
    rcases hsp with rfl | ⟨rfl, h⟩
    · exact .inl (by decide)
    · exact .inr (by omega)
  bvmem k hk := State.word_setWord_of_ne hp v hi hk <| by
    rcases hsp with rfl | ⟨rfl, -⟩ <;> exact .inl (by decide)

/-! ### The scan so far -/

/-- Sample `b` of level `k` is the number of 1 bits before word `8 b` of the level (42_rank.md R220). -/
def State.SampleOk (s : State) (k b : Nat) : Prop :=
  (s.word .rankmem (s.samplesBefore k + b)).toNat = s.popBefore (s.wordsBefore k + 8 * b)

/-- BuildRanks over `N` levels with at most `m` bits: `a` levels have their POPBASE, the levels before `l` their samples, and of level
`l` the scan has counted `j` words and written `c` samples. -/
structure State.Ranking (N m a l j c : Nat) (s : State) : Prop where
  building : s.Building N
  bound    : s.popBefore s.scratch.wbase ≤ m
  pop      : s.scratch.pop = s.popBefore (s.wordsBefore l + j)
  popbase  : ∀ k < a, (s.popbaseAt k).toNat = s.popBefore (s.wordsBefore k)
  done     : ∀ k < l, ∀ b < sampleCount (s.sizeAt k / 64), s.SampleOk k b
  part     : ∀ b < c, s.SampleOk l b

/-- A word of a level comes before the end of the levels, and they end in BVMEM. -/
theorem State.Building.word_le (h : s.Building N) (hl : l < N) (hj : j ≤ s.sizeAt l / 64) :
    s.wordsBefore l + j ≤ s.scratch.wbase ∧ s.scratch.wbase ≤ s.params.bvWords := by
  have := (h.laid.level_le hl).1
  exact ⟨by omega, h.laid.words.2⟩

theorem State.SampleOk.congr (h : s.SampleOk l c) (hs : SameLevels s t) (hl : l ≤ 32)
    (hw : s.wordsBefore l + 8 * c ≤ s.params.bvWords)
    (hr : t.word .rankmem (s.samplesBefore l + c) = s.word .rankmem (s.samplesBefore l + c)) : t.SampleOk l c := by
  rw [State.SampleOk, hs.samplesBefore hl, hs.wordsBefore hl, hs.popBefore hw, hr]
  exact h

/-- The scan so far depends on the levels, their POPBASE words and the samples written. -/
theorem State.Ranking.congr (h : s.Ranking N m a l j c) (hl : l < N) (hj : j ≤ s.sizeAt l / 64) (ha : a ≤ N)
    (hc : c ≤ sampleCount (s.sizeAt l / 64)) (hs : SameLevels s t) (hb : t.Building N) (hsc : t.scratch = s.scratch)
    (hpb : ∀ k < a, t.popbaseAt k = s.popbaseAt k)
    (hrk : ∀ i < s.samplesBefore l + c, t.word .rankmem i = s.word .rankmem i) : t.Ranking N m a l j c := by
  have hN := h.building.laid.count
  have hw := h.building.word_le hl hj
  unfold sampleCount at hc
  refine ⟨hb, ?_, ?_, fun k hk => ?_, fun k hk b hb => ?_, fun b hb => ?_⟩
  · rw [hsc, hs.popBefore hw.2]
    exact h.bound
  · rw [hsc, hs.wordsBefore (by omega), hs.popBefore (by omega)]
    exact h.pop
  · have := h.building.word_le (l := k) (by omega) (Nat.zero_le _)
    rw [hpb k hk, hs.wordsBefore (by omega), hs.popBefore (by omega)]
    exact h.popbase k hk
  · rw [(hs.record (by omega)).1] at hb
    have hmono := s.samplesBefore_mono (Nat.succ_le_of_lt hk)
    rw [Nat.succ_eq_add_one, s.samplesBefore_succ] at hmono
    have hwk := h.building.word_le (l := k) (j := 8 * b) (by omega) (by unfold sampleCount at hb; omega)
    exact (h.done k hk b hb).congr hs (by omega) (by omega) (hrk _ (by omega))
  · have hwl := h.building.word_le (j := 8 * b) hl (by omega)
    exact (h.part b hb).congr hs (by omega) (by omega) (hrk _ (by omega))

/-! ### One level (R222) -/

theorem levelSize_of_lt (hl : l < 32) : levelSize l s = .ok (s.sizeAt l) := by
  rw [levelSize, memRead_of_lt (by simp only [Space.words]; omega)]; rfl

theorem levelWbase_of_lt (hl : l < 32) : levelWbase l s = .ok (s.wbaseAt l) := by
  rw [levelWbase, memRead_of_lt (by simp only [Space.words]; omega)]; rfl

theorem levelRbase_of_lt (hl : l < 32) : levelRbase l s = .ok (s.rbaseAt l) := by
  rw [levelRbase, memRead_of_lt (by simp only [Space.words]; omega)]; rfl

/-- The running popcount is small enough to be stored in a word. -/
theorem State.Ranking.pop_toNat (h : s.Ranking N m a l j c) (hm : m < 2 ^ 64) (hl : l < N) (hj : j ≤ s.sizeAt l / 64) :
    (BitVec.ofNat 64 s.scratch.pop).toNat = s.popBefore (s.wordsBefore l + j) := by
  have := s.popBefore_mono (h.building.word_le hl hj).1
  have := h.bound
  rw [BitVec.toNat_ofNat, h.pop, Nat.mod_eq_of_lt (by omega)]

/-- POPBASE of the next level. -/
theorem State.Ranking.setPopbase (h : s.Ranking N m l l 0 0) (hm : m < 2 ^ 64) (hl : l < N) :
    (s.setWord .lvltab (4 * l + 3) (BitVec.ofNat 64 s.scratch.pop)).Ranking N m (l + 1) l 0 0 := by
  have hN := h.building.laid.count
  have hi : 4 * l + 3 < Space.lvltab.words s.params := show 4 * l + 3 < 128 by omega
  have hs := SameLevels.setWord h.building.params hi (BitVec.ofNat 64 s.scratch.pop) (.inr ⟨rfl, by omega⟩)
  have hr := (h.building.laid.level_le hl).2
  have hrd := h.building.laid.samples.2
  have hw := h.building.word_le hl (Nat.zero_le _)
  have hkept := h.congr hl (Nat.zero_le _) hl.le (Nat.zero_le _) hs (h.building.setWord _ hi (.inr ⟨by omega, by omega⟩)) rfl
    (fun k hk => State.word_setWord_of_ne h.building.params _ hi (show 4 * k + 3 < 128 by omega) (.inr (by omega)))
    (fun i hi' => State.word_setWord_of_ne h.building.params _ hi (show i < s.params.rankDepth by omega) (.inl (by decide)))
  refine { hkept with popbase := fun k hk => ?_ }
  rcases Nat.lt_succ_iff_lt_or_eq.1 hk with hk | rfl
  · exact hkept.popbase k hk
  · rw [State.popbaseAt, State.word_setWord_same h.building.mem, h.pop_toNat hm hl (Nat.zero_le _), hs.wordsBefore (by omega),
      hs.popBefore (by omega)]
    rfl

/-- A sample before every eighth word. -/
theorem State.Ranking.setSample (h : s.Ranking N m a l j (sampleCount j)) (hm : m < 2 ^ 64) (hl : l < N) (ha : a ≤ N)
    (hj : j < s.sizeAt l / 64) (hj8 : j % 8 = 0) :
    s.rbaseAt l + j / 8 < s.params.rankDepth ∧
    (s.setWord .rankmem (s.rbaseAt l + j / 8) (BitVec.ofNat 64 s.scratch.pop)).Ranking N m a l j (sampleCount (j + 1)) := by
  have hN := h.building.laid.count
  have hr := (h.building.laid.level_le hl).2
  have hrd := h.building.laid.samples.2
  have hw := h.building.word_le hl hj.le
  have hc : sampleCount j = j / 8 := by unfold sampleCount; omega
  have hc' : sampleCount (j + 1) = j / 8 + 1 := by unfold sampleCount; omega
  have hcs : j / 8 < sampleCount (s.sizeAt l / 64) := by unfold sampleCount; omega
  rw [h.building.laid.rbases l hl]
  have hi : s.samplesBefore l + j / 8 < Space.rankmem.words s.params := show _ < s.params.rankDepth by omega
  refine ⟨hi, ?_⟩
  have hs := SameLevels.setWord h.building.params hi (BitVec.ofNat 64 s.scratch.pop) (.inl rfl)
  have hkept := h.congr hl hj.le ha (by omega) hs (h.building.setWord _ hi (.inl (by decide))) rfl
    (fun k hk => State.word_setWord_of_ne h.building.params _ hi (show 4 * k + 3 < 128 by omega) (.inl (by decide)))
    (fun i hi' => State.word_setWord_of_ne h.building.params _ hi (show i < s.params.rankDepth by omega) (.inr (by omega)))
  refine { hkept with part := fun b hb => ?_ }
  rcases Nat.lt_succ_iff_lt_or_eq.1 (hc' ▸ hb) with hb | rfl
  · exact hkept.part b (hc ▸ hb)
  · rw [State.SampleOk, hs.samplesBefore (by omega), hs.wordsBefore (by omega), State.word_setWord_same h.building.mem,
      h.pop_toNat hm hl hj.le, hs.popBefore (by omega), show 8 * (j / 8) = j by omega]

/-- The word's popcount. -/
theorem State.Ranking.countWord (h : s.Ranking N m a l j c) (hl : l < N) :
    (s.setScratch { s.scratch with pop := s.scratch.pop + popcount64 (s.word .bvmem (s.wbaseAt l + j)) }).Ranking N m a l (j + 1) c :=
  { h with
    building := h.building.setScratch ⟨rfl, rfl, rfl⟩
    pop := by
      show s.scratch.pop + s.popWord (s.wbaseAt l + j) = s.popBefore (s.wordsBefore l + j + 1)
      rw [h.pop, h.building.laid.wbases l hl, State.popBefore_eq, State.popBefore_eq, sumFrom_succ, Nat.zero_add] }

/-- A level scanned through is done. -/
theorem State.Ranking.nextLevel (h : s.Ranking N m a l (s.sizeAt l / 64) (sampleCount (s.sizeAt l / 64))) :
    s.Ranking N m a (l + 1) 0 0 :=
  { h with
    pop := by rw [h.pop, State.wordsBefore_succ, Nat.add_zero]
    done := fun k hk b hb => by
      rcases Nat.lt_succ_iff_lt_or_eq.1 hk with hk | rfl
      · exact h.done k hk b hb
      · exact h.part b hb
    part := fun b hb => absurd hb (Nat.not_lt_zero b) }

/-- The scan of a level whose record reads `size`, `wb` and `rb`. -/
structure State.Scanning (N m l size wb rb j : Nat) (s : State) : Prop where
  ranking : s.Ranking N m (l + 1) l j (sampleCount j)
  record  : s.sizeAt l = size ∧ s.wbaseAt l = wb ∧ s.rbaseAt l = rb

variable {size wb rb : Nat} {P : State → Prop}

theorem runs_rankWord (hm : m < 2 ^ 64) (hl : l < N) (hj : j < size / 64) (h : s.Scanning N m l size wb rb j) :
    Runs P (State.Scanning N m l size wb rb (j + 1)) (rankWord wb rb j s) := by
  obtain ⟨h, rfl, rfl, rfl⟩ := h
  have hN := h.building.laid.count
  have hw := h.building.word_le hl (Nat.succ_le_of_lt hj)
  have hwb := h.building.laid.wbases l hl
  have hwlt : s.wbaseAt l + j < s.params.bvWords := by omega
  have hrlt : s.rbaseAt l + j / 8 < s.params.rankDepth := by
    have hr := (h.building.laid.level_le hl).2
    have hrd := h.building.laid.samples.2
    have hrb := h.building.laid.rbases l hl
    unfold sampleCount at hr
    omega
  refine runs_ok (rankWord_eq hwlt hrlt) ?_
  by_cases hj8 : j % 8 = 0
  · simp only [hj8, if_true]
    have hs := h.setSample hm hl hl hj hj8
    have hsame := SameLevels.setWord h.building.params (sp := .rankmem) hrlt (BitVec.ofNat 64 s.scratch.pop) (.inl rfl)
    have hrec := hsame.record (l := l) (by omega)
    have hnext := hs.2.countWord hl
    rw [hrec.2.1] at hnext
    exact ⟨hnext, hrec⟩
  · simp only [hj8, if_false]
    have hc : sampleCount j = sampleCount (j + 1) := by unfold sampleCount; omega
    exact ⟨(hc ▸ h).countWord hl, rfl, rfl, rfl⟩

theorem runs_rankLevel (hm : m < 2 ^ 64) (hl : l < N) (h : s.Ranking N m l l 0 0) :
    Runs P (State.Ranking N m (l + 1) (l + 1) 0 0) (rankLevel l s) := by
  have hN := h.building.laid.count
  have hi : 4 * l + 3 < Space.lvltab.words s.params := show 4 * l + 3 < 128 by omega
  have hl32 : l < 32 := by omega
  rw [rankLevel, levelSize_of_lt hl32, ok_bind, levelWbase_of_lt hl32, ok_bind, levelRbase_of_lt hl32, ok_bind,
    memWrite_of_lt hi, ok_bind]
  have hs := SameLevels.setWord h.building.params hi (BitVec.ofNat 64 s.scratch.pop) (.inr ⟨rfl, by omega⟩)
  refine (Runs.forUp (State.Scanning N m l (s.sizeAt l) (s.wbaseAt l) (s.rbaseAt l)) ⟨h.setPopbase hm hl, hs.record hl32⟩
    fun j t _ hj ht => runs_rankWord hm hl (by omega) ht).mono (fun _ ht => ht) fun t ht => ?_
  obtain ⟨hr, hsize, -, -⟩ := ht
  rw [Nat.zero_add, ← hsize] at hr
  exact hr.nextLevel

/-- BuildRanks after a cascade. -/
theorem runs_buildRanks (hm : m < 2 ^ 64) (h : s.Cascading N m) :
    Runs P (State.Ranking N m N N 0 0) (buildRanks s.scratch.level s) := by
  obtain ⟨hb, hpops⟩ := h
  have h0 : (s.setScratch { s.scratch with pop := 0 }).Ranking N m 0 0 0 0 := by
    refine ⟨hb.setScratch ⟨rfl, rfl, rfl⟩, ?_, rfl, ?_, ?_, ?_⟩
    · exact (Nat.le_add_right _ _).trans hpops
    · exact fun k hk => absurd hk (Nat.not_lt_zero k)
    · exact fun k hk => absurd hk (Nat.not_lt_zero k)
    · exact fun b hb => absurd hb (Nat.not_lt_zero b)
  rw [hb.level]
  have := Runs.forUp (P := P) (fun l => State.Ranking N m l l 0 0) (count := N) h0 fun l t _ hl ht =>
    runs_rankLevel hm (by omega) ht
  rwa [Nat.zero_add] at this

/-! ### Completion (R195) -/

/-- The function of a build whose levels are recorded and whose ranks are built is well formed. -/
theorem State.Ranking.recordFunction {n : Word} (h : s.Ranking N n.toNat N N 0 0) (hn : n.toNat ≤ s.params.keyDepth) :
    (s.recordFunction n).Usable := by
  have hN := h.building.laid.count
  obtain ⟨-, ⟨-, hbv⟩, ⟨-, hrk⟩, -⟩ := h.building.params
  have hw := h.building.laid.words
  have hr := h.building.laid.samples
  have hpop := h.pop
  have hbound := h.bound
  rw [Nat.add_zero, hw.1] at hpop
  have hnl : (s.recordFunction n).nlevels.toNat = N := by
    rw [State.recordFunction_nlevels, h.building.level]
    exact Nat.mod_eq_of_lt (by omega)
  have hbu : (s.recordFunction n).bvused.toNat = s.scratch.wbase := Nat.mod_eq_of_lt (by omega)
  have hru : (s.recordFunction n).rankused.toNat = s.scratch.rbase := Nat.mod_eq_of_lt (by omega)
  have htot : (s.recordFunction n).total.toNat = s.popBefore s.scratch.wbase := by
    rw [State.recordFunction_total, hpop]
    exact Nat.mod_eq_of_lt (by omega)
  refine ⟨h.building.params, rfl, by omega, ?_, ?_, ?_, ?_, ?_, ?_, ?_, ?_, hn, ?_⟩
  all_goals simp only [hnl, hbu, hru, htot]
  · exact h.building.laid.sizes
  · exact h.building.laid.wbases
  · exact h.building.laid.rbases
  · exact ⟨hw.1.symm, hw.2⟩
  · exact ⟨hr.1.symm, hr.2⟩
  · exact h.popbase
  · exact h.done
  · exact ⟨rfl, hbound⟩
  · exact h.building.above

/-- Zeroing the slots touches no word of the function. -/
theorem runs_completeBuild {n : Word} (h : s.Ranking N n.toNat N N 0 0) (hn : n.toNat ≤ s.params.keyDepth) :
    Runs P State.Usable (completeBuild n s) := by
  refine runs_ok (completeBuild_eq n hn) ?_
  have hu := h.recordFunction hn
  have hslots : 0 + n.toNat ≤ Space.valmem.words s.params := by simp only [Space.words]; omega
  have htags : 0 + 2 * n.toNat ≤ Space.tagmem.words s.params := by simp only [Space.words]; omega
  have word (sp : Space) (hsp : sp ≠ .valmem ∧ sp ≠ .tagmem) (i : Nat) (hi : i < sp.words s.params) :
      ((s.zero .valmem 0 n.toNat).zero .tagmem 0 (2 * n.toNat)).word sp i = s.word sp i :=
    (State.word_zero_of_outside (s := s.zero .valmem 0 n.toNat) h.building.params htags hi (.inl hsp.2.symm)).trans
      (State.word_zero_of_outside h.building.params hslots hi (.inl hsp.1.symm))
  have hsame : SameFunction (s.recordFunction n)
      (((s.zero .valmem 0 n.toNat).zero .tagmem 0 (2 * n.toNat)).forgetRange.recordFunction n) :=
    ⟨rfl, rfl, rfl, rfl, rfl, rfl, rfl, word .lvltab (by decide), word .bvmem (by decide), word .rankmem (by decide)⟩
  exact ⟨hu.params, rfl, hu.levels, hsame.fnInv hu.levels hu.fn⟩

end Sys2Proof.Machine
end

section
/-!
PROOFS. From a safe state no step stops (20_memory.md R95, 40_bitvector.md R154): a build makes a usable function or none, every command
runs to an end, and the acts of host and platform keep the function or reset it.
-/
namespace Sys2Proof.Machine

variable {s t : State}

/-! ### BUILD (41_build.md R186) -/

/-- The start of a build: no level is recorded, and every key is to be placed. -/
theorem cascading_startBuild (h : s.Inv) (ks : List Word) : (s.dropFunction.startBuild ks).Cascading 0 ks.length := by
  refine ⟨⟨h.params, memWf_zero h.mem _ _ _, rfl, rfl, ?_, fun i _ hi => ?_⟩, (Nat.zero_add _).le⟩
  · exact ⟨Nat.zero_le _, nofun, nofun, nofun, ⟨rfl, Nat.zero_le _⟩, ⟨rfl, Nat.zero_le _⟩⟩
  · exact s.word_zero_inside (Nat.zero_le i) (by omega)

/-- A build ends with a usable function, or in a fault and with none. -/
theorem runs_buildBody (d : Bool) (h : s.Inv) : Runs State.FnOk State.Usable (buildBody d s) := by
  have hdrop : s.dropFunction.FnOk := nofun
  refine (runs_require hdrop).bind fun _ hn => ?_
  have hn : s.opKeys.toNat ≤ s.dropFunction.params.keyDepth := of_decide_eq_true hn
  rw [readKeys_zero _ hn, ok_bind]
  have hstart := cascading_startBuild h (s.dropFunction.keys s.opKeys.toNat)
  rw [show (s.dropFunction.keys s.opKeys.toNat).length = s.opKeys.toNat by simp [State.keys]] at hstart
  have hkeeps : Keeps buildSpaces s.dropFunction (s.dropFunction.startBuild (s.dropFunction.keys s.opKeys.toNat)) :=
    (Keeps.refl _ _).setScratch _
  have hlevels : 0 + s.latch.maxlvl.toNat ≤ 32 := (Nat.zero_add _).trans_le h.latchLvl.2
  have hcascade := (runs_cascade d s.latch.maxlvl.toNat hlevels hstart).and
    (keeps_cascade d s.latch.maxlvl.toNat (by decide) (by decide) hkeeps)
  refine hcascade.bind fun t ht => ?_
  obtain ⟨⟨N, ht⟩, hkt⟩ := ht
  refine ((runs_buildRanks s.opKeys.isLt ht).and (keeps_buildRanks _ (by decide) (by decide) hkt)).bind fun u ⟨hu, hku⟩ => ?_
  exact runs_completeBuild hu (hku.params ▸ hn)

/-! ### Every command -/

/-- The pseudocode of every command runs to an end, and leaves a well-formed function where one is built. -/
theorem exec_runs (h : s.Safe) (i : Instr) : ∃ r, exec i s = conclude r ∧ Runs State.FnOk State.FnOk r := by
  have hf : s.FnOk := h.fn
  have husable := h.usable
  cases i with
  | nop => exact ⟨.ok s, rfl, hf⟩
  | build d => exact ⟨_, rfl, (runs_buildBody d h.inv).bind fun u hu _ => { hu.fn with }⟩
  | query =>
    refine ⟨_, rfl, (runs_requireBuilt husable).bind fun _ hu => ?_⟩
    obtain ⟨lv, hq⟩ := query_index hu.fn hu.levels s.opA
    rw [hq, ok_bind]
    exact fun _ => { hu.fn with }
  | lookup =>
    exact ⟨_, rfl, (runs_requireIndex husable _).bind fun _ hu => (runs_memRead hu.2).bind fun _ _ _ => { hu.1.fn with }⟩
  | set =>
    refine ⟨_, rfl, (runs_requireIndex husable _).bind fun _ ⟨hu, hi⟩ => runs_ok (memWrite_of_lt hi) ?_⟩
    have hk : Keeps [.valmem] s (s.setWord .valmem (s.opA.toNat - 1) s.opB) :=
      .setWord _ _ _ (by decide) hi (storeLegal_of_ne (by decide))
    exact (hu.kept hk { KeepsFn.refl s with } (by decide)).fnOk
  | clrvals =>
    exact ⟨_, rfl, (runs_requireBuilt husable).bind fun _ hu =>
      (runs_clearSlots hu).mono (fun _ ht => ht.fnOk) fun _ ht => ht.fnOk⟩
  | accum => exact ⟨_, rfl, (runs_accumBody husable).bind fun u hu _ => { hu.fn with }⟩
  | emit => exact ⟨_, rfl, (runs_emitBody husable).bind fun u hu _ => { hu.fn with }⟩
  | sort p =>
    have hn (b : Bool) : (s.sortNothing b).FnOk := fun hb => { hf hb with }
    refine ⟨_, rfl, ?_⟩
    cases p with
    | false => exact hn false
    | true =>
      rw [if_neg (by decide)]
      split
      · exact hn true
      · exact (runs_buildBody true h.inv).bind fun u hu => (runs_accumBody fun _ => hu).bind fun v hv =>
          (runs_emitBody fun _ => hv).bind fun w hw _ => { hw.fn with }
  | rank =>
    refine ⟨_, rfl, (runs_requirePosition husable _ _).bind fun _ ⟨hu, hl, hn⟩ => ?_⟩
    rw [localRank_eq hu.fn hu.levels hl hn, ok_bind, globalRank_eq hu.fn hu.levels hl hn, ok_bind]
    exact fun _ => { hu.fn with }
  | hash => exact ⟨_, rfl, (runs_require hf).bind fun _ _ hb => { hf hb with }⟩
  | bitget =>
    refine ⟨_, rfl, (runs_requirePosition husable _ _).bind fun _ ⟨hu, hl, hn⟩ => ?_⟩
    have hsize := hu.fn.sizes _ hl
    rw [levelWbase_eq hu.levels hl, ok_bind, bit_eq (hu.fn.word_lt hl (by omega)).2, ok_bind]
    exact fun _ => { hu.fn with }
  | inval => exact ⟨.ok s.dropFunction, rfl, nofun⟩

/-- From a safe state every command answers a next state, whose function, where one is built, is well formed. -/
theorem exec_next (h : s.Safe) (i : Instr) : ∃ t, exec i s = .next t ∧ t.FnOk := by
  obtain ⟨r, hr, hruns⟩ := exec_runs h i
  obtain ⟨u, hu, hend | ⟨c, x, hend⟩⟩ := hruns.conclude
  · exact ⟨u.complete, hr.trans hend, fun hb => { hu hb with }⟩
  · exact ⟨u.takeFault c x, hr.trans hend, fun hb => { hu hb with }⟩

/-! ### Acts of host and platform -/

/-- A reset leaves no function (70_reset_and_hazards.md R370, R372). -/
theorem serve_reset_unbuilt {p : Pending} (rest : List Pending) (s : State) (hp : p.act.IsReset) :
    (serve p rest s).status.built = false := by
  obtain ⟨act, early⟩ := p
  rcases hp with rfl | ⟨v, rfl, hv⟩
  · rfl
  · have hw : busWrite 0x40#32 v s = (.okay, s.softReset) := (busWrite_csr .ctrl v s).trans (congrArg _ (if_pos hv))
    simp only [serve, hw]
    rfl

theorem serve_fnOk (h : s.Safe) (p : Pending) (rest : List Pending) : (serve p rest s).FnOk := by
  intro hb
  rcases hostKeeps_serve p rest s with hr | hk
  · exact absurd ((serve_reset_unbuilt rest s hr).symm.trans hb) (by decide)
  · have hsame := (hk.functionKept h.inv.params).sameFunction h.inv.params hk.params
    exact hsame.fnInv h.inv.levels (h.fn (hk.built.symm.trans hb))

/-! ### One step -/

/-- From a safe state the step answers a next state with a well-formed function where one is built. -/
theorem step_next (h : s.Safe) : ∃ t, step s = .next t ∧ t.FnOk := by
  unfold step
  split
  · unfold engineStep
    split
    · exact exec_next h _
    · exact ⟨_, rfl, fun hb => { h.fn hb with }⟩
  · exact ⟨_, rfl, serve_fnOk h _ _⟩
  · exact ⟨s, rfl, h.fn⟩

/-- Settles O59: the step answers a next state (`step_next`), and every step keeps the invariant. -/
theorem safeStepNeverStops : Obligations.SafeStepNeverStops := by
  intro s h
  obtain ⟨t, ht, hf⟩ := step_next h
  exact ⟨t, ht, stepKeepsInvariant s t h.inv ht, hf⟩

end Sys2Proof.Machine
end

section
/-!
PROOFS. The host bus (20_memory.md R81-R92): which act a step serves, where every address leads, what a read returns, which transactions
answer SLVERR, and that a stored word reads back.
-/
namespace Sys2Proof.Machine

variable {s : State} {p : Params}

/-! ### The act a step serves (R100, R390) -/

theorem State.busy_eq_false (h : s.phase = .idle) : s.busy = false := by
  rw [State.busy, h]
  rfl

/-- On an idle block every act is served, and while a command runs an early one is. -/
theorem step_outside {q : Pending} {rest : List Pending} (hi : s.inbox = q :: rest) (h : s.phase = .idle ∨ q.early ≠ 0) :
    step s = .next (serve q rest s) := by
  have hmove : (s.busy && q.early == 0) = false := by
    rcases h with h | h
    · rw [State.busy_eq_false h, Bool.false_and]
    · rw [beq_false_of_ne h, Bool.and_false]
  have hm : s.mover = .outside q rest := by
    rw [State.mover, hi]
    exact if_neg (Bool.eq_false_iff.1 hmove)
  rw [step, hm]

/-- With no act to come an idle block waits. -/
theorem step_nobody (hi : s.inbox = []) (h : s.phase = .idle) : step s = .next s := by
  have hm : s.mover = .nobody := by
    rw [State.mover, hi]
    exact if_neg (Bool.eq_false_iff.1 (State.busy_eq_false h))
  rw [step, hm]

/-- Settles O5: the step serves the act (`step_outside`), and the kind of the act says how. -/
theorem stepServesOutside : Obligations.StepServesOutside := by
  refine ⟨fun s q rest hi h => ?_, fun s h hi => step_nobody hi h⟩
  rw [step_outside hi h]
  obtain ⟨act, early⟩ := q
  refine ⟨?_, ?_, ?_, ?_, ?_⟩
  · rintro a rfl
    rfl
  · rintro a v rfl
    rfl
  · rintro rfl
    rfl
  · rintro rfl hidle
    simp only [serve, State.busy_eq_false hidle]
    rfl
  · rintro rfl hbusy
    simp only [serve, s.busy_iff.2 hbusy]
    rfl

/-- Settles O48: serving a read sets the answer and takes the read from the inbox. -/
theorem readsHaveNoSideEffect : Obligations.ReadsHaveNoSideEffect :=
  fun s a _ _ hi h => ⟨busRead a s, step_outside hi h⟩

/-! ### Where an address leads (R84) -/

/-- The aperture numbers are those of the bases. -/
theorem Space.ofAperture_eq_some {n : Nat} {sp : Space} : Space.ofAperture n = some sp ↔ sp.base = 0x10000000 * n := by
  constructor
  · intro h
    unfold Space.ofAperture at h
    split at h <;> cases h <;> rfl
  · intro h
    obtain rfl : n = sp.base / 0x10000000 := by omega
    cases sp <;> rfl

/-- Every number from 1 to 7 is an aperture's. -/
theorem Space.exists_base {n : Nat} (h1 : 1 ≤ n) (h7 : n ≤ 7) : ∃ sp : Space, sp.base = 0x10000000 * n := by
  interval_cases n
  exacts [⟨.keymem, rfl⟩, ⟨.bvmem, rfl⟩, ⟨.rankmem, rfl⟩, ⟨.lvltab, rfl⟩, ⟨.valmem, rfl⟩, ⟨.tagmem, rfl⟩, ⟨.outmem, rfl⟩]

theorem Space.base_bounds (sp : Space) : sp.base % 0x10000000 = 0 ∧ 0x10000000 ≤ sp.base ∧ sp.base ≤ 0x70000000 := by
  cases sp <;> decide

/-- The address of an existing word leads to it. -/
theorem target_of_addr (hp : p.Wf) {sp : Space} {i : Nat} (hi : i < sp.words p) {a : Addr} (ha : a.toNat = sp.addr i) :
    target p a = .word sp i := by
  have hw := sp.words_le hp
  have hb := sp.base_bounds
  simp only [Space.addr] at ha
  have hap : Space.ofAperture (a.toNat / 0x10000000) = some sp := Space.ofAperture_eq_some.2 (by omega)
  have hidx : a.toNat % 0x10000000 / 8 = i := by omega
  simp only [target]
  rw [if_neg (by omega), if_neg (by omega), hap]
  simp only [hidx, if_pos hi]

theorem toNat_addr (hp : p.Wf) {sp : Space} {i : Nat} (hi : i < sp.words p) :
    (BitVec.ofNat 32 (sp.base + 8 * i)).toNat = sp.addr i := by
  have hw := sp.words_le hp
  have hb := sp.base_bounds
  exact Nat.mod_eq_of_lt (by omega)

/-- The addresses that lead nowhere: the cases of R85 that do not depend on the block's state. -/
def Unmapped (p : Params) (a : Addr) : Prop :=
  a.toNat % 8 ≠ 0 ∨ (0x1000 ≤ a.toNat ∧ a.toNat < 0x10000000) ∨ 0x80000000 ≤ a.toNat ∨
  ∃ sp : Space, sp.base + 8 * sp.words p ≤ a.toNat ∧ a.toNat < sp.base + 0x10000000

/-- No aperture lies below or above those of the memories. -/
theorem Space.ofAperture_eq_none {n : Nat} (h : n = 0 ∨ 8 ≤ n) : Space.ofAperture n = none := by
  rw [Option.eq_none_iff_forall_ne_some]
  intro sp hsp
  have := Space.ofAperture_eq_some.1 hsp
  have := sp.base_bounds
  omega

theorem target_of_unmapped {a : Addr} (h : Unmapped p a) : target p a = .nowhere := by
  by_cases h8 : a.toNat % 8 ≠ 0
  · exact if_pos h8
  simp only [target]
  rw [if_neg h8]
  rcases h with h | ⟨h1, h2⟩ | h | ⟨sp, h1, h2⟩
  · exact absurd h h8
  · rw [if_neg (by omega), Space.ofAperture_eq_none (.inl (by omega))]
  · rw [if_neg (by omega), Space.ofAperture_eq_none (.inr (by omega))]
  · have hb := sp.base_bounds
    have hap : Space.ofAperture (a.toNat / 0x10000000) = some sp := Space.ofAperture_eq_some.2 (by omega)
    rw [if_neg (by omega), hap]
    exact if_neg (by omega)

/-- Every address is an offset of the CSR window, an existing word's, or unmapped. -/
theorem addr_cases (p : Params) (a : Addr) :
    (a.toNat < 0x1000 ∧ a.toNat % 8 = 0) ∨ (∃ (sp : Space) (i : Nat), i < sp.words p ∧ a.toNat = sp.addr i) ∨ Unmapped p a := by
  by_cases h8 : a.toNat % 8 ≠ 0
  · exact .inr (.inr (.inl h8))
  by_cases hc : a.toNat < 0x1000
  · exact .inl ⟨hc, by omega⟩
  by_cases hlow : a.toNat < 0x10000000
  · exact .inr (.inr (.inr (.inl ⟨by omega, hlow⟩)))
  by_cases hhigh : 0x80000000 ≤ a.toNat
  · exact .inr (.inr (.inr (.inr (.inl hhigh))))
  obtain ⟨sp, hsp⟩ := Space.exists_base (n := a.toNat / 0x10000000) (by omega) (by omega)
  by_cases hi : a.toNat % 0x10000000 / 8 < sp.words p
  · exact .inr (.inl ⟨sp, _, hi, by simp only [Space.addr]; omega⟩)
  · exact .inr (.inr (.inr (.inr (.inr ⟨sp, by omega, by omega⟩))))

/-! ### Reads (R81, R40) -/

theorem toNat_statusWord (s : State) : s.statusWord.toNat =
    s.busy.toNat + 2 * s.status.done.toNat + 4 * s.status.fault.toNat + 8 * s.status.built.toNat + 16 * s.status.rangev.toNat +
      32 * s.status.outp.toNat + 64 * s.status.rej.toNat + 128 * s.irq.toNat := by
  unfold State.statusWord
  generalize s.busy = b0, s.status.done = b1, s.status.fault = b2, s.status.built = b3, s.status.rangev = b4, s.status.outp = b5,
    s.status.rej = b6, s.irq = b7
  revert b0 b1 b2 b3 b4 b5 b6 b7
  decide

/-- CTRL reads as the row that R43 numbers. -/
theorem controlRow_eq (s : State) : s.controlRow = s.ctrl.toWord := by
  rw [State.controlRow, ← toNat_ctrl_toWord, BitVec.ofNat_toNat, BitVec.setWidth_eq]

/-- STATUS reads as the row that R44 numbers. -/
theorem statusRow_eq (s : State) : s.statusRow = s.statusWord := by
  have hb : decide (s.phase = .busy) = s.busy := Bool.eq_iff_iff.2 (decide_eq_true_iff.trans s.busy_iff.symm)
  rw [State.statusRow, hb, show (s.status.done && s.ctrl.doneIe || s.status.fault && s.ctrl.faultIe) = s.irq from rfl,
    ← toNat_statusWord, BitVec.ofNat_toNat, BitVec.setWidth_eq]

/-- FAULT_CODE reads as R340 numbers it. -/
theorem FaultCode.row_eq (c : FaultCode) : c.row = c.code := by cases c <;> rfl

/-- The table of R40 written out is the map of the registers. -/
theorem registerTable_eq (s : State) : registerTable s = Csr.all.map fun c => (c.addr, c.read s) := by
  rw [registerTable, controlRow_eq, statusRow_eq, FaultCode.row_eq]
  rfl

/-- A read of an existing word of an idle block's memory answers it. -/
theorem busRead_word (hp : s.params.Wf) (h : s.phase = .idle) {sp : Space} {i : Nat} (hi : i < sp.words s.params) :
    busRead (BitVec.ofNat 32 (sp.base + 8 * i)) s = .okay (s.word sp i) := by
  simp only [busRead, target_of_addr hp hi (toNat_addr hp hi), State.busy_eq_false h]
  rfl

/-- Settles O49: a register is read at its offset, and a word where its address leads. -/
theorem busReadReturnsAddressedWord : Obligations.BusReadReturnsAddressedWord := by
  refine fun s hp => ⟨fun e he => ?_, fun h sp i hi => busRead_word hp h hi⟩
  rw [registerTable_eq, List.mem_map] at he
  obtain ⟨c, -, rfl⟩ := he
  exact busRead_csr c s

/-! ### Errors (R85) -/

/-- The CSR window has no error. -/
theorem not_busError_of_window {a : Addr} (hc : a.toNat < 0x1000) (h8 : a.toNat % 8 = 0) (w : Bool) : ¬ BusError s a w := by
  rintro (h | h | h | ⟨sp, h1, -⟩ | ⟨sp, h1, -⟩)
  · exact h h8
  · omega
  · omega
  · have := sp.base_bounds
    omega
  · have := sp.base_bounds
    omega

/-- An existing word: errors are any access while BUSY, and a write of a read-only memory. -/
theorem busError_of_addr (hp : s.params.Wf) {sp : Space} {i : Nat} (hi : i < sp.words s.params) {a : Addr}
    (ha : a.toNat = sp.addr i) (w : Bool) : BusError s a w ↔ (w = true ∧ sp.hostWritable = false) ∨ s.phase = .busy := by
  have hw := sp.words_le hp
  have hb := sp.base_bounds
  simp only [Space.addr] at ha
  have hin (sq : Space) (h1 : sq.base ≤ a.toNat) (h2 : a.toNat < sq.base + 0x10000000) : sq = sp := by
    by_contra hne
    have := Space.base_apart hne
    omega
  have hro : sp ∈ [Space.bvmem, .rankmem, .lvltab, .tagmem, .outmem] ↔ sp.hostWritable = false := by cases sp <;> decide
  constructor
  · rintro (h | h | h | ⟨sq, h1, h2⟩ | ⟨sq, h1, h2, h⟩)
    · omega
    · omega
    · omega
    · obtain rfl := hin sq (by omega) h2
      omega
    · obtain rfl := hin sq h1 h2
      exact h.imp_left fun h => ⟨h.1, hro.1 h.2⟩
  · intro h
    exact .inr (.inr (.inr (.inr ⟨sp, by omega, by omega, h.imp_left fun h => ⟨h.1, hro.2 h.2⟩⟩)))

theorem busError_of_unmapped {a : Addr} (h : Unmapped s.params a) (w : Bool) : BusError s a w :=
  h.imp_right (Or.imp_right (Or.imp_right .inl))

/-- An address that leads nowhere, and every memory while BUSY, answers SLVERR to a read and to a write. -/
theorem bus_slverr {a : Addr} {v : Word} (ht : target s.params a = .nowhere ∨
    ∃ sp i, target s.params a = .word sp i ∧ s.phase = .busy) : busRead a s = .slverr ∧ busWrite a v s = (.slverr, s) := by
  rcases ht with ht | ⟨sp, i, ht, hb⟩
  · simp only [busRead, busWrite, ht, and_self]
  · simp only [busRead, busWrite, ht, s.busy_iff.2 hb]
    exact ⟨rfl, rfl⟩

/-- Settles O50: in each of the three cases of `addr_cases`, both the answers and `BusError` are known. -/
theorem busErrorsHaveNoEffect : Obligations.BusErrorsHaveNoEffect := by
  intro s a v hp
  rcases addr_cases s.params a with ⟨hc, h8⟩ | ⟨sp, i, hi, ha⟩ | hu
  · have hr := not_busError_of_window (s := s) hc h8
    have ht := target_of_window s.params h8 hc
    refine ⟨fun h => absurd h (hr _), fun _ => ?_, fun h => absurd h (hr _), fun _ => ?_⟩
    · simp only [busRead, ht]
      rfl
    · simp only [busWrite, ht]
  · have ht := target_of_addr hp hi ha
    have hr := busError_of_addr hp hi ha
    by_cases hb : s.phase = .busy
    · have he := bus_slverr (v := v) (.inr ⟨sp, i, ht, hb⟩)
      exact ⟨fun _ => he.1, fun h => absurd ((hr _).2 (.inr hb)) h, fun _ => he.2, fun h => absurd ((hr _).2 (.inr hb)) h⟩
    · have hidle : s.busy = false := Bool.eq_false_iff.2 (mt s.busy_iff.1 hb)
      refine ⟨fun h => absurd h ?_, fun _ => ?_, fun h => ?_, fun h => ?_⟩
      · exact fun h => ((hr _).1 h).elim (fun h => nomatch h.1) hb
      · simp only [busRead, ht, hidle]
        rfl
      · have hw := (((hr _).1 h).resolve_right hb).2
        simp only [busWrite, ht, hidle, hw]
        rfl
      · have hw : sp.hostWritable = true := Bool.eq_true_of_not_eq_false fun hw => h ((hr _).2 (.inl ⟨rfl, hw⟩))
        simp only [busWrite, ht, hidle, hw]
        rfl
  · have hr := busError_of_unmapped hu
    have he := bus_slverr (v := v) (.inl (target_of_unmapped hu))
    exact ⟨fun _ => he.1, fun h => absurd (hr _) h, fun _ => he.2, fun h => absurd (hr _) h⟩

/-! ### Writes (R84, R90) -/

/-- A write of an existing word of a writable memory of an idle block stores it. -/
theorem busWrite_word (hp : s.params.Wf) (h : s.phase = .idle) {sp : Space} {i : Nat} (hi : i < sp.words s.params)
    (hw : sp.hostWritable = true) (v : Word) : busWrite (BitVec.ofNat 32 (sp.base + 8 * i)) v s = (.okay, s.setWord sp i v) := by
  simp only [busWrite, target_of_addr hp hi (toNat_addr hp hi), State.busy_eq_false h, hw]
  rfl

/-- Settles O51: the write stores the word (`busWrite_word`), the read answers it, and the bytes are those of a stored word. -/
theorem hostWriteReadsBack : Obligations.HostWriteReadsBack := by
  intro s sp i v hp hm h hsp hi
  have hw : sp.hostWritable = true := by rcases hsp with rfl | rfl <;> rfl
  refine ⟨s.setWord sp i v, busWrite_word hp h hi hw v, rfl, ?_, fun k hk => ?_, fun a ha => ?_⟩
  · exact (busRead_word (s := s.setWord sp i v) hp h hi).trans (congrArg Answer.okay (State.word_setWord_same hm sp i v))
  · exact readByte_writeWord_lane hm _ _ hk
  · exact readByte_writeWord_of_outside _ _ ha

end Sys2Proof.Machine
end

section
/-!
PROOFS. Decoding: a word is command `i` exactly when its fields are those `i` is written with (`decode_eq_ok_iff_fields`), and the fields
determine the word (`Fields.ofWord_injective`). With it the engine's step on every word, legal or not, and the memories a command writes.
-/
namespace Sys2Proof

variable {f : Fields} {i : Instr} {w : Word}

/-! ### The fields of a command (30_encoding.md R120, R125) -/

theorem Instr.fields_op (i : Instr) : i.fields.op.toNat = i.opcode := by cases i <;> rfl

theorem Instr.fields_command (i : Instr) : i.fields.command = some i := by cases i <;> rfl

/-- The family `Laws.WordFields` over all commands. -/
theorem Instr.wordFields (i : Instr) : Laws.WordFields.Statement i := by
  cases i with
  | nop => exact Laws.WordFields.nop
  | build d => exact Laws.WordFields.build d
  | query => exact Laws.WordFields.query
  | lookup => exact Laws.WordFields.lookup
  | set => exact Laws.WordFields.set
  | clrvals => exact Laws.WordFields.clrvals
  | accum => exact Laws.WordFields.accum
  | emit => exact Laws.WordFields.emit
  | sort p => exact Laws.WordFields.sort p
  | rank => exact Laws.WordFields.rank
  | hash => exact Laws.WordFields.hash
  | bitget => exact Laws.WordFields.bitget
  | inval => exact Laws.WordFields.inval

theorem Instr.ofWord_encode (i : Instr) : Fields.ofWord (encode i) = i.fields := i.wordFields.1

theorem Instr.fields_legal (i : Instr) : i.fields.legal = true := i.wordFields.2

/-! ### Legal fields (R126) -/

theorem Fields.legal_iff : f.legal = true ↔
    f.reserved = 0 ∧ f.op.toNat ≤ 0x0C ∧ (f.p = false ∨ f.op.toNat = 0x08) ∧ (f.d = false ∨ f.op.toNat = 0x01) := by
  simp [Fields.legal, Fields.reservedClear, Fields.opDefined, Fields.pOnSortOnly, Fields.dOnBuildOnly, BitVec.le_def,
    BitVec.toNat_eq, and_assoc]

/-- Check 2 of R126 leaves only the OP values of the map. -/
theorem Fields.exists_command (h : f.op.toNat ≤ 0x0C) : ∃ i, f.command = some i := by
  unfold Fields.command
  generalize f.op.toNat = n at h
  interval_cases n <;> exact ⟨_, rfl⟩

/-- The opcode map goes by OP, and takes the flag of BUILD from D and that of SORT from P (R125). -/
theorem Fields.of_command (h : f.command = some i) :
    f.op.toNat = i.opcode ∧ (∀ d, i = .build d → d = f.d) ∧ (∀ p, i = .sort p → p = f.p) := by
  unfold Fields.command at h
  split at h <;> cases h <;> exact ⟨by assumption, by simp, by simp⟩

/-- Legal fields are those of the command they stand for: what the map does not read is 0. -/
theorem Fields.eq_of_command (hl : f.legal = true) (hc : f.command = some i) : f = i.fields := by
  obtain ⟨hr, -, hp, hd⟩ := Fields.legal_iff.1 hl
  obtain ⟨hop, hD, hP⟩ := Fields.of_command hc
  have hOP : f.op = i.fields.op := BitVec.eq_of_toNat_eq (hop.trans i.fields_op.symm)
  rw [hop] at hp hd
  obtain ⟨op, p, d, r⟩ := f
  subst hOP hr
  cases i with
  | build d' =>
    obtain rfl : p = false := hp.resolve_right (by simp [Instr.opcode])
    obtain rfl : d' = d := hD _ rfl
    rfl
  | sort p' =>
    obtain rfl : d = false := hd.resolve_right (by simp [Instr.opcode])
    obtain rfl : p' = p := hP _ rfl
    rfl
  | _ =>
    obtain rfl : p = false := hp.resolve_right (by simp [Instr.opcode])
    obtain rfl : d = false := hd.resolve_right (by simp [Instr.opcode])
    rfl

/-! ### The decoder -/

theorem Fields.ofWord_injective {v w : Word} (h : Fields.ofWord v = Fields.ofWord w) : v = w := by
  simp only [Fields.ofWord, Fields.mk.injEq] at h
  obtain ⟨hop, hp, hd, hr⟩ := h
  refine BitVec.eq_of_getLsbD_eq fun j hj => ?_
  obtain hj8 | rfl | rfl | hj10 : j < 8 ∨ j = 8 ∨ j = 9 ∨ 10 ≤ j := by omega
  · have hb := congrArg (BitVec.getLsbD · j) hop
    simpa [hj8] using hb
  · exact hp
  · exact hd
  · have hb := congrArg (BitVec.getLsbD · (j - 10)) hr
    have hlt : j - 10 < 54 := by omega
    simpa [hlt, Nat.add_sub_cancel' hj10] using hb

/-- The checks of the decoder are those of `Fields.legal`. -/
theorem decode_eq_ok_iff : decode w = .ok i ↔ (Fields.ofWord w).legal = true ∧ (Fields.ofWord w).command = some i := by
  simp only [decode, Fields.legal, Bool.not_eq_true']
  split_ifs with hr ho hp hd
  · simp [hr]
  · simp [ho]
  · simp [hp]
  · simp [hd]
  · split <;> simp_all

theorem decode_eq_ok_iff_fields : decode w = .ok i ↔ Fields.ofWord w = i.fields := by
  rw [decode_eq_ok_iff]
  constructor
  · rintro ⟨hl, hc⟩
    exact Fields.eq_of_command hl hc
  · intro h
    rw [h]
    exact ⟨i.fields_legal, i.fields_command⟩

/-- Settles O2: the word of `i` has the fields of `i`, and no other word has them. -/
theorem decodeExactlyEncode : Obligations.DecodeExactlyEncode := by
  intro w i
  rw [decode_eq_ok_iff_fields, ← i.ofWord_encode]
  exact ⟨fun h => Fields.ofWord_injective h, congrArg Fields.ofWord⟩

theorem decode_encode (i : Instr) : decode (encode i) = .ok i := (decodeExactlyEncode _ _).2 rfl

/-- Settles O1: each of the words is the one its command encodes to. -/
theorem knownWordsDecode : Obligations.KnownWordsDecode :=
  ⟨decode_encode .nop, decode_encode (.build false), decode_encode (.build true), decode_encode .query, decode_encode .lookup,
   decode_encode .set, decode_encode .clrvals, decode_encode .accum, decode_encode .emit, decode_encode (.sort false),
   decode_encode (.sort true), decode_encode .rank, decode_encode .hash, decode_encode .bitget, decode_encode .inval⟩

end Sys2Proof

namespace Sys2Proof.Machine

variable {s : State} {w : Word}

/-! ### The engine's step (R126, 60_exceptions.md R332) -/

theorem legalWord_iff : LegalWord w ↔ (Fields.ofWord w).legal = true := (Fields.legal_iff (f := Fields.ofWord w)).symm

theorem exists_decode_of_legalWord (h : LegalWord w) : ∃ i, decode w = .ok i := by
  have hl := legalWord_iff.1 h
  obtain ⟨-, hop, -⟩ := Fields.legal_iff.1 hl
  obtain ⟨i, hi⟩ := Fields.exists_command hop
  exact ⟨i, decode_eq_ok_iff.2 ⟨hl, hi⟩⟩

theorem legalWord_of_decode {i : Instr} (h : decode w = .ok i) : LegalWord w := legalWord_iff.2 (decode_eq_ok_iff.1 h).1

theorem step_of_engineMoves (h : s.EngineMoves) : step s = engineStep s := by
  rw [step, mover_eq_engine.2 h]

theorem engineStep_of_decode {i : Instr} (h : decode s.latch.word = .ok i) : engineStep s = exec i s := by
  rw [engineStep, h]

theorem engineStep_of_not_legalWord (h : ¬ LegalWord s.latch.word) : engineStep s = .next (illegalCommand s) := by
  unfold engineStep
  split
  · next hi => exact absurd (legalWord_of_decode hi) h
  · rfl

/-- Settles O3: a word decodes exactly when it is legal, to the command the opcode map gives (`Fields.of_command`). -/
theorem legalWordsRunOthersFault : Obligations.LegalWordsRunOthersFault := by
  intro s hs
  rw [step_of_engineMoves hs]
  refine ⟨fun hl => ?_, fun hl => engineStep_of_not_legalWord hl⟩
  obtain ⟨i, hi⟩ := exists_decode_of_legalWord hl
  obtain ⟨hop, hd, hp⟩ := Fields.of_command (decode_eq_ok_iff.1 hi).2
  exact ⟨i, engineStep_of_decode hi, hop.symm, hd, hp⟩

/-! ### The memories a command writes (R127) -/

/-- KEYMEM is the host's: no command writes it (10_state.md R60). -/
theorem keymem_notMem_mayWrite (i : Instr) : Space.keymem ∉ mayWrite i := by
  cases i with
  | sort p => cases p <;> simp [mayWrite]
  | _ => simp [mayWrite]

/-- Settles O44: the memory after a command comes by stores to the memories of its row (`exec_stores`), and KEYMEM is none of them. -/
theorem commandWritesOnlyItsMemories : Obligations.CommandWritesOnlyItsMemories := fun i _ _ h =>
  ⟨(exec_stores h).bytes, fun hp _ hj => (exec_stores h).word_of_not_mem hp (keymem_notMem_mayWrite i) hj⟩

end Sys2Proof.Machine
end

section
/-!
PROOFS. The position checks BITGET and RANK share, in their order (40_bitvector.md R155, 42_rank.md R226), and the bit BITGET reads.
-/
namespace Sys2Proof.Machine

variable {s : State} {l n : Word}

/-! ### The position checks: one equation for each end -/

theorem requirePosition_of_unbuilt (hb : s.status.built = false) (l n : Word) :
    requirePosition l n s = .error (.raised .notBuilt 0 s) := by
  rw [requirePosition, requireBuilt_of_not hb, error_bind]

theorem requirePosition_of_level_ge (hb : s.status.built = true) (hl : s.nlevels.toNat ≤ l.toNat) (n : Word) :
    requirePosition l n s = .error (.raised .badArg l s) := by
  rw [requirePosition, requireBuilt_of hb, ok_bind, require_of_not (decide_eq_false hl.not_gt), error_bind]

/-- A built function with the level below NLEVELS: only the check of the position is left, against the recorded table size. -/
theorem requirePosition_of_level_lt (hs : s.nlevels.toNat ≤ 32) (hb : s.status.built = true) (hl : l.toNat < s.nlevels.toNat)
    (n : Word) : requirePosition l n s = require (decide (n.toNat < s.sizeAt l.toNat)) .badArg n s := by
  rw [requirePosition, requireBuilt_of hb, ok_bind, require_of (decide_eq_true hl), ok_bind, levelSize_eq hs hl, ok_bind]

theorem requirePosition_of_position_ge (hs : s.nlevels.toNat ≤ 32) (hb : s.status.built = true) (hl : l.toNat < s.nlevels.toNat)
    (hn : s.sizeAt l.toNat ≤ n.toNat) : requirePosition l n s = .error (.raised .badArg n s) := by
  rw [requirePosition_of_level_lt hs hb hl, require_of_not (decide_eq_false hn.not_gt)]

theorem requirePosition_of_position_lt (hs : s.nlevels.toNat ≤ 32) (hb : s.status.built = true) (hl : l.toNat < s.nlevels.toNat)
    (hn : n.toNat < s.sizeAt l.toNat) : requirePosition l n s = .ok () := by
  rw [requirePosition_of_level_lt hs hb hl, require_of (decide_eq_true hn)]

/-! ### BITGET -/

theorem exec_bitget (s : State) : exec .bitget s = execBitget s := rfl

/-- A check that fails is the end of BITGET. -/
theorem exec_bitget_of_raised {c : FaultCode} {x : Word}
    (h : requirePosition s.latch.arg0 s.latch.arg1 s = .error (.raised c x s)) : exec .bitget s = .next (s.takeFault c x) := by
  rw [exec_bitget, execBitget, h, error_bind, conclude_raised]

/-- A position of a well-formed function lies inside BVMEM, so it is read there (R61, R95). -/
theorem levelBit_eq (h : s.FnInv) {l n : Nat} (hl : l < s.nlevels.toNat) (hn : n < s.sizeAt l) :
    bit .bvmem (s.wbaseAt l) n s = .ok (s.bitAt l n) := by
  have hsize := h.sizes l hl
  exact bit_eq (h.word_lt hl (by omega)).2

/-- Settles O15: each check that fails ends the command in its fault; where all pass, the level's base and the bit are read. -/
theorem bitgetReadsBit : Obligations.BitgetReadsBit := by
  intro s hs
  have hlevels := hs.inv.levels
  refine ⟨fun hb => ?_, fun hb hl => ?_, fun hb hl hn => ?_, fun hb hl hn => ?_⟩
  · exact exec_bitget_of_raised (requirePosition_of_unbuilt hb _ _)
  · exact exec_bitget_of_raised (requirePosition_of_level_ge hb hl _)
  · exact exec_bitget_of_raised (requirePosition_of_position_ge hlevels hb hl hn)
  · rw [exec_bitget, execBitget, requirePosition_of_position_lt hlevels hb hl hn, ok_bind, levelWbase_eq hlevels hl, ok_bind,
      levelBit_eq (hs.fn hb) hl hn, ok_bind, pure_eq_ok, conclude_ok]
    rfl

end Sys2Proof.Machine
end

section
/-!
PROOFS. The hash as HASH reports it (41_build.md R170-R172, R200), and the table size as a least multiple of 64 (R176).
-/
namespace Sys2Proof.Machine

/-! ### The combined bucket value (R172) -/

/-- A bit of the rotated half is the bit `r` places further right, around the end (00_scope.md R13). -/
theorem getLsbD_rotl32 (v : Half) {r i : Nat} (hr : r < 32) (hi : i < 32) :
    (rotl32 v r).getLsbD i = v.getLsbD ((i + 32 - r) % 32) := by
  unfold rotl32
  split
  · subst r
    rw [Nat.sub_zero, Nat.add_mod_right, Nat.mod_eq_of_lt hi]
  · rw [BitVec.getLsbD_or, BitVec.getLsbD_shiftLeft, BitVec.getLsbD_ushiftRight]
    by_cases hir : i < r
    · rw [Nat.mod_eq_of_lt (by omega), show 32 - r + i = i + 32 - r by omega]
      simp [hir]
    · rw [show i + 32 - r = i - r + 32 by omega, Nat.add_mod_right, Nat.mod_eq_of_lt (by omega),
        BitVec.getLsbD_of_ge v (32 - r + i) (by omega)]
      simp [hir, hi]

/-- A bit of the combined value: the low half's bit, xor the bit of the high half rotated left by the level. -/
theorem getLsbD_combOfHash (h : Word) {l i : Nat} (hl : l < 32) (hi : i < 32) :
    (combOfHash h l).getLsbD i = (h.getLsbD i ^^ h.getLsbD (32 + (i + 32 - l) % 32)) := by
  have hm : (i + 32 - l) % 32 < 32 := Nat.mod_lt _ (by decide)
  rw [combOfHash, BitVec.getLsbD_xor, getLsbD_rotl32 _ hl hi, BitVec.getLsbD_extractLsb', BitVec.getLsbD_extractLsb']
  simp [hi, hm]

/-- HASH, by its level check. -/
theorem exec_hash (s : State) : exec .hash s = conclude (
    require (decide (s.latch.arg1.toNat < 32)) .badArg s.latch.arg1 s >>= fun _ => .ok
      { s with res0 := hash64 s.params.hash s.latch.arg0,
               res1 := (combOfHash (hash64 s.params.hash s.latch.arg0) s.latch.arg1.toNat).zeroExtend 64 }) := rfl

/-- Settles O10: the level check passes below 32, and the bits of RES1 are those of `getLsbD_combOfHash`, extended by zeros. -/
theorem hashReportsHashAndBucketValue : Obligations.HashReportsHashAndBucketValue := by
  intro s
  refine ⟨fun hl => ?_, fun hl => ?_⟩
  · refine ⟨(combOfHash (hash64 s.params.hash s.latch.arg0) s.latch.arg1.toNat).zeroExtend 64, ?_, fun i hi => ?_⟩
    · rw [exec_hash, require_of (decide_eq_true hl), ok_bind, conclude_ok]
      rfl
    · rw [BitVec.zeroExtend, BitVec.getLsbD_setWidth]
      by_cases h32 : i < 32
      · rw [getLsbD_combOfHash _ hl h32]
        simp [hi, h32]
      · rw [BitVec.getLsbD_of_ge _ i (by omega)]
        simp [h32]
  · rw [exec_hash, require_of_not (decide_eq_false hl.not_gt), error_bind, conclude_raised]

/-- Settles O11: the mix of R171 evaluated on two words. -/
theorem defaultHashKnownValues : Obligations.DefaultHashKnownValues := by
  unfold Obligations.DefaultHashKnownValues
  decide

/-! ### The table size (R176) -/

/-- Settles O19: both divisions round up, so a multiple of 64 is at least the table size exactly when it holds the load. -/
theorem tableSizeIsLeastMultiple : Obligations.TableSizeIsLeastMultiple := by
  intro g m _ _
  obtain ⟨hmul, hmin⟩ := tableSize_words g m
  refine ⟨hmul, hmin, ?_, fun n h64 hn hload => ?_⟩
  all_goals
    simp only [tableSize]
    omega

end Sys2Proof.Machine
end

section
/-!
PROOFS. The two ends of a build that no level decides: too many keys (41_build.md R182) and none (R186).
-/
namespace Sys2Proof.Machine

variable {s : State}

/-- A build whose body completes. -/
theorem exec_build_of_ok {d : Bool} {u : State} (h : buildBody d s = .ok u) :
    exec (.build d) s = .next { u.complete with res0 := u.nlevels, res1 := u.total } := by
  show execBuild d s = _
  rw [execBuild, h, ok_bind, pure_eq_ok, conclude_ok]
  rfl

/-- A build whose body raises a fault. -/
theorem exec_build_of_raised {d : Bool} {c : FaultCode} {x : Word} {u : State} (h : buildBody d s = .error (.raised c x u)) :
    exec (.build d) s = .next (u.takeFault c x) := by
  show execBuild d s = _
  rw [execBuild, h, error_bind, conclude_raised]

/-- The body of a build, by its check of the key count (R182). -/
theorem buildBody_eq (d : Bool) (s : State) : buildBody d s =
    require (decide (s.latch.nkeys.toNat ≤ s.params.keyDepth)) .badArg s.latch.nkeys s.dropFunction >>= fun _ =>
      readKeys s.latch.nkeys.toNat 0 s.dropFunction >>= fun ks =>
        cascade d s.latch.maxlvl.toNat (s.dropFunction.startBuild ks) >>= fun t =>
          buildRanks t.scratch.level t >>= completeBuild s.latch.nkeys := rfl

/-- Over more keys than KEYMEM holds a build raises BAD_ARG before it reads a key (R182). -/
theorem buildBody_of_lt (d : Bool) (h : s.params.keyDepth < s.latch.nkeys.toNat) :
    buildBody d s = .error (.raised .badArg s.latch.nkeys s.dropFunction) := by
  rw [buildBody_eq, require_of_not (decide_eq_false h.not_ge), error_bind]

/-- Over keys that KEYMEM holds a build is the cascade over them, then the ranks and the completion. -/
theorem buildBody_of_le (d : Bool) (h : s.latch.nkeys.toNat ≤ s.params.keyDepth) : buildBody d s =
    cascade d s.latch.maxlvl.toNat (s.dropFunction.startBuild (s.dropFunction.keys s.latch.nkeys.toNat)) >>= fun t =>
      buildRanks t.scratch.level t >>= completeBuild s.latch.nkeys := by
  rw [buildBody_eq, require_of (decide_eq_true h), ok_bind,
    readKeys_zero _ (show _ ≤ s.dropFunction.params.keyDepth from h), ok_bind]

/-- Settles O21: the check of the key count comes first in BUILD and in SORT.P, and second in ACCUM. -/
theorem buildRefusesTooManyKeys : Obligations.BuildRefusesTooManyKeys := by
  intro s h
  have hne : s.latch.nkeys ≠ 0 := fun h0 => absurd (h0 ▸ h) (Nat.not_lt_zero _)
  refine ⟨fun d => exec_build_of_raised (buildBody_of_lt d h), ?_, fun hb => ?_⟩
  · show execSort true s = _
    rw [execSort, Bool.not_true, if_neg (by decide), if_neg hne, buildBody_of_lt true h, error_bind, conclude_raised]
  · show execAccum s = _
    rw [execAccum, accumBody, requireBuilt_of hb, ok_bind, require_of_not (decide_eq_false h.not_ge), error_bind, error_bind,
      conclude_raised]
    rfl

/-- A cascade with nothing to place is done (R192). -/
theorem cascade_nil (d : Bool) (left : Nat) (h : s.scratch.working = []) : cascade d left s = .ok s := by
  unfold cascade
  rw [h, List.isEmpty_nil, if_pos rfl]

/-- A build over no key clears LVLTAB alone, and records a function of no level (R186). -/
theorem buildBody_of_no_keys (d : Bool) (h : s.latch.nkeys = 0) : ∃ u, buildBody d s = .ok u ∧
    u = { s.dropFunction with
      mem := u.mem, scratch := u.scratch, min := 0, max := 0, status := { s.status with built := true, rangev := false } } ∧
    ∀ a, readByte u.mem a = readByte s.dropFunction.mem a := by
  have hn : s.latch.nkeys.toNat = 0 := congrArg BitVec.toNat h
  rw [buildBody_of_le d (hn.trans_le (Nat.zero_le _)), hn, cascade_nil d _ rfl, ok_bind]
  refine ⟨_, completeBuild_eq _ (hn.trans_le (Nat.zero_le _)), ?_, fun a => ?_⟩
  · rw [h]
    rfl
  · rw [hn]
    show readByte (zeroWords (zeroWords s.dropFunction.mem _ 0) _ 0) a = _
    rw [readByte_zeroWords, readByte_zeroWords, if_neg (by omega), if_neg (by omega)]

/-- Settles O22: the body leaves a function of no level, and clearing no slot changes no byte. -/
theorem buildOverNoKeys : Obligations.BuildOverNoKeys := by
  intro s d h
  obtain ⟨u, hbody, hu, hbytes⟩ := buildBody_of_no_keys d h
  refine ⟨_, exec_build_of_ok hbody, ?_, fun a => ?_⟩
  · rw [hu]
    rfl
  · exact (hbytes a).trans (readByte_zeroWords _ _ _ _)

end Sys2Proof.Machine
end

section
/-!
PROOFS. The collision detector (41_build.md R188, R189): after the first pass over cleared vectors, A and C say how many survivors
share a bucket, CLAIM holds the first of them, and the survivors are the plain ones.
-/
namespace Sys2Proof.Machine.Sparse

variable {α : Type} [DecidableEq α] {d : α} {m : List (Nat × α)} {n a : Nat}

/-! ### Lists that are canonical below a position -/

/-- The part of the list below `n` is in canonical form. A level clears its vectors below the table size only. -/
def CanonicalBelow (d : α) (n : Nat) (m : List (Nat × α)) : Prop :=
  ∃ p q, m = p ++ q ∧ Canonical d p ∧ ∀ e ∈ q, n ≤ e.1

omit [DecidableEq α] in
theorem canonicalBelow_clear (d : α) (m : List (Nat × α)) (n : Nat) : CanonicalBelow d n (clear m 0 n) :=
  ⟨[], clear m 0 n, rfl, ⟨.nil, nofun⟩, fun e he => by simpa using (List.mem_filter.1 he).2⟩

theorem CanonicalBelow.put (h : CanonicalBelow d n m) (ha : a < n) (v : α) : CanonicalBelow d n (Sparse.put d m a v) := by
  obtain ⟨p, q, rfl, hp, hq⟩ := h
  exact ⟨Sparse.put d p a v, q, put_append_of_lt ha hq v, canonical_put hp a v, hq⟩

theorem CanonicalBelow.get_put (h : CanonicalBelow d n m) (ha : a < n) (v : α) (b : Nat) :
    Sparse.get d (Sparse.put d m a v) b = if b = a then v else Sparse.get d m b := by
  split
  · subst b
    obtain ⟨p, q, rfl, hp, hq⟩ := h
    rw [put_append_of_lt ha hq, get_append_of_lt ha hq, get_put_same d p a v hp]
  · exact get_put_of_ne d m v ‹_›

end Sys2Proof.Machine.Sparse

namespace Sys2Proof.Machine

/-! ### Survivors and shared buckets -/

variable {d : Bool} {idx : Word → Nat} {size i : Nat} {k : Word} {ks v : List Word} {sc r r' : Scratch} {n : Nat}

/-- The first of the keys `v` in a bucket: the key that claims it. -/
def claimant (idx : Word → Nat) (v : List Word) (i : Nat) : Option Word := v.find? fun u => idx u == i

/-- One more key survives, or is dropped as a copy of the claimant of its bucket (R189). -/
theorem survivorsOf_concat (d : Bool) (idx : Word → Nat) (ks : List Word) (k : Word) : survivorsOf d idx (ks ++ [k]) =
    if (d && claimant idx (survivorsOf d idx ks) (idx k) == some k) = true then survivorsOf d idx ks
    else survivorsOf d idx ks ++ [k] := by
  rw [survivorsOf, List.foldl_append]
  rfl

/-- Without D every key survives. -/
theorem survivorsOf_false (idx : Word → Nat) (ks : List Word) : survivorsOf false idx ks = ks := by
  induction ks using List.reverseRecOn with
  | nil => rfl
  | append_singleton ks k ih => rw [survivorsOf_concat, ih, Bool.false_and, if_neg (by decide)]

theorem sharing_concat (idx : Word → Nat) (v : List Word) (k : Word) (i : Nat) :
    sharing idx (v ++ [k]) i = sharing idx v i + if i = idx k then 1 else 0 := by
  rw [sharing, List.filter_append, List.length_append, ← sharing]
  by_cases h : i = idx k
  · simp [h]
  · simp [h, Ne.symm h]

theorem claimant_concat (idx : Word → Nat) (v : List Word) (k : Word) (i : Nat) :
    claimant idx (v ++ [k]) i = (claimant idx v i).or (if i = idx k then some k else none) := by
  rw [claimant, List.find?_append, ← claimant]
  by_cases h : i = idx k
  · simp [h]
  · simp [h, Ne.symm h]

/-- A bucket is claimed exactly when a key falls into it. -/
theorem claimant_isSome : (claimant idx v i).isSome = decide (1 ≤ sharing idx v i) := by
  rw [claimant, sharing, Bool.eq_iff_iff, List.find?_isSome, decide_eq_true_eq, Nat.succ_le_iff, List.length_pos_iff_exists_mem]
  simp only [List.mem_filter]

/-! ### The first pass -/

/-- What the vectors say after the keys `ks` of a level of `size` buckets: how many survivors share each bucket, and its claimant. -/
structure Detected (d : Bool) (idx : Word → Nat) (size dups : Nat) (ks : List Word) (r : Scratch) : Prop where
  survivors : r.survivors = survivorsOf d idx ks
  occupied  : ∀ i < size, r.occupied i = decide (1 ≤ sharing idx r.survivors i)
  collided  : ∀ i < size, r.collided i = decide (2 ≤ sharing idx r.survivors i)
  claim     : ∀ i < size, ∀ u, claimant idx r.survivors i = some u → r.claimOf i = u
  count     : r.dups + r.survivors.length = dups + ks.length
  occForm   : Sparse.CanonicalBelow false size r.occ
  collForm  : Sparse.CanonicalBelow false size r.coll
  claimForm : Sparse.CanonicalBelow 0#64 size r.claim

theorem detected_levelStart (d : Bool) (idx : Word → Nat) (size : Nat) (sc : Scratch) :
    Detected d idx size sc.dups [] (levelStart size sc) where
  survivors := rfl
  occupied _ hi := levelStart_occupied size sc hi
  collided _ hi := levelStart_collided size sc hi
  claim _ _ _ hu := nomatch hu
  count := rfl
  occForm := Sparse.canonicalBelow_clear _ _ _
  collForm := Sparse.canonicalBelow_clear _ _ _
  claimForm := Sparse.canonicalBelow_clear _ _ _

/-- The test of R189 for a copy reads the claimant off A and CLAIM. -/
theorem Detected.copy_iff (h : Detected d idx size n ks r) (hi : i < size) (k : Word) :
    (d && r.occupied i && r.claimOf i == k) = (d && claimant idx r.survivors i == some k) := by
  rw [h.occupied i hi, ← claimant_isSome, Bool.and_assoc]
  congr 1
  cases hc : claimant idx r.survivors i with
  | none => rfl
  | some u => rw [h.claim i hi u hc]; rfl

/-- What a key that survives does to the vectors: it marks its bucket occupied, or collided where it was occupied, and claims it where
it was free. -/
structure Survives (size i : Nat) (k : Word) (r r' : Scratch) : Prop where
  survivors : r'.survivors = r.survivors ++ [k]
  dups      : r'.dups = r.dups
  occupied  : ∀ j, r'.occupied j = (r.occupied j || decide (j = i))
  collided  : ∀ j, r'.collided j = (r.collided j || (decide (j = i) && r.occupied i))
  claim     : ∀ j, r'.claimOf j = if j = i ∧ r.occupied i = false then k else r.claimOf j
  occForm   : Sparse.CanonicalBelow false size r'.occ
  collForm  : Sparse.CanonicalBelow false size r'.coll
  claimForm : Sparse.CanonicalBelow 0#64 size r'.claim

/-- The three ways a key survives (R189). -/
theorem Detected.survives (h : Detected d idx size n ks r) (hi : i < size) (hcopy : (d && r.occupied i && r.claimOf i == k) = false) :
    Survives size i k r (firstPassKey d i k r) := by
  have hocc := h.occupied i hi
  have hcoll := h.collided i hi
  cases hc : r.collided i with
  | true =>
    have ho : r.occupied i = true := by
      rw [hocc, decide_eq_true_eq]
      exact Nat.le_of_succ_le (of_decide_eq_true (hcoll.symm.trans hc))
    rw [firstPassKey_collided hcopy hc]
    refine ⟨rfl, rfl, fun j => ?_, fun j => ?_, fun j => by simp [ho, Scratch.claimOf], h.occForm, h.collForm, h.claimForm⟩
    · show r.occupied j = _
      by_cases hj : j = i <;> simp [hj, ho]
    · show r.collided j = _
      by_cases hj : j = i <;> simp [hj, hc]
  | false =>
    cases ho : r.occupied i with
    | true =>
      rw [firstPassKey_occupied hcopy hc ho]
      refine ⟨rfl, rfl, fun j => ?_, fun j => ?_, fun j => by simp [ho, Scratch.claimOf], h.occForm,
        h.collForm.put hi true, h.claimForm⟩
      · show r.occupied j = _
        by_cases hj : j = i <;> simp [hj, ho]
      · refine (h.collForm.get_put hi true j).trans ?_
        by_cases hj : j = i <;> simp [hj, ho, Scratch.collided]
    | false =>
      rw [firstPassKey_claims hcopy hc ho]
      refine ⟨rfl, rfl, fun j => ?_, fun j => by simp [ho, Scratch.collided], fun j => ?_, h.occForm.put hi true, h.collForm,
        h.claimForm.put hi k⟩
      · refine (h.occForm.get_put hi true j).trans ?_
        by_cases hj : j = i <;> simp [hj, Scratch.occupied]
      · refine (h.claimForm.get_put hi k j).trans ?_
        by_cases hj : j = i <;> simp [hj, ho, Scratch.claimOf]

/-- The vectors after a key that survives. -/
theorem Detected.concat (h : Detected d idx size n ks r) (hk : idx k < size)
    (hnew : survivorsOf d idx (ks ++ [k]) = survivorsOf d idx ks ++ [k]) (hs : Survives size (idx k) k r r') :
    Detected d idx size n (ks ++ [k]) r' where
  survivors := by rw [hs.survivors, hnew, h.survivors]
  occupied i hi := by
    rw [hs.occupied, h.occupied i hi, hs.survivors, sharing_concat, ← Bool.decide_or, decide_eq_decide]
    split <;> omega
  collided i hi := by
    rw [hs.collided, h.collided i hi, h.occupied _ hk, hs.survivors, sharing_concat, ← Bool.decide_and, ← Bool.decide_or,
      decide_eq_decide]
    by_cases hik : i = idx k
    · subst hik
      simp only [if_true, true_and]
      omega
    · simp [hik]
  claim i hi u hu := by
    have hsome := claimant_isSome (idx := idx) (v := r.survivors) (i := idx k)
    rw [← h.occupied _ hk] at hsome
    rw [hs.survivors, claimant_concat] at hu
    rw [hs.claim, ← hsome]
    by_cases hik : i = idx k
    · subst hik
      cases hold : claimant idx r.survivors (idx k) with
      | some w =>
        rw [hold, Option.some_or] at hu
        rw [if_neg (by simp)]
        exact h.claim _ hk u (hold.trans hu)
      | none =>
        rw [hold, Option.none_or, if_pos rfl] at hu
        rw [if_pos ⟨rfl, rfl⟩]
        exact Option.some.inj hu
    · rw [if_neg hik, Option.or_none] at hu
      rw [if_neg fun h => hik h.1]
      exact h.claim i hi u hu
  count := by
    have := h.count
    rw [hs.survivors, hs.dups, List.length_append, List.length_append]
    simp only [List.length_singleton]
    omega
  occForm := hs.occForm
  collForm := hs.collForm
  claimForm := hs.claimForm

/-- One key of the first pass (R189). -/
theorem Detected.firstPassKey (h : Detected d idx size n ks r) (hk : idx k < size) :
    Detected d idx size n (ks ++ [k]) (firstPassKey d (idx k) k r) := by
  have hnew := survivorsOf_concat d idx ks k
  rw [← h.survivors, ← h.copy_iff hk k, h.survivors] at hnew
  cases hcopy : d && r.occupied (idx k) && r.claimOf (idx k) == k with
  | true =>
    rw [firstPassKey_drop hcopy]
    rw [if_pos hcopy] at hnew
    have hcount := h.count
    exact { h with
      survivors := h.survivors.trans hnew.symm
      count := by simp only [List.length_append, List.length_singleton]; omega }
  | false =>
    rw [if_neg (by simp [hcopy])] at hnew
    exact h.concat hk hnew (h.survives hk hcopy)

/-- The whole first pass over cleared vectors (R188, R189). -/
theorem detected_firstPass (d : Bool) (hidx : ∀ k, idx k < size) (ks : List Word) (sc : Scratch) :
    Detected d idx size sc.dups ks (firstPass d idx ks (levelStart size sc)) := by
  induction ks using List.reverseRecOn with
  | nil => exact detected_levelStart d idx size sc
  | append_singleton ks k ih =>
    rw [firstPass, List.foldl_append]
    exact ih.firstPassKey (hidx k)

/-- Settles O20: the clauses are those of `Detected`. -/
theorem collisionDetectorExact : Obligations.CollisionDetectorExact := by
  intro d idx size ks sc hidx
  have h := detected_firstPass d hidx ks sc
  refine ⟨h.survivors, h.occupied, h.collided, h.count, ?_⟩
  rintro rfl
  exact h.survivors.trans (survivorsOf_false idx ks)

end Sys2Proof.Machine
end

section
/-!
PROOFS. What a build stores to, level by level: BVMEM words below its counter `wb`, RANKMEM entries below `rb`, LVLTAB, and the slots
and tags of its keys (41_build.md R187, R190, R191, R195, R196). No other field changes before the function is recorded.
-/
namespace Sys2Proof.Machine

variable {P : FaultCode → Word → State → Prop} {s t u : State} {w r n w' r' n' : Nat}

/-! ### Stores below given bounds -/

/-- The words a build may have stored to, as memories of that size: `w` words of BVMEM, `r` entries of RANKMEM, the slots and tags of
`n` keys. -/
def footprint (p : Params) (w r n : Nat) : Params := { p with bvWords := w, rankDepth := r, keyDepth := n }

theorem Stores.grow {p q : Params} {sps : List Space} {m m' : List Host.Cell} (h : Stores p sps m m')
    (hpq : ∀ sp ∈ sps, sp.words p ≤ sp.words q) : Stores q sps m m' := by
  induction h with
  | refl => exact .refl _
  | word _ sp i v hs hi hv ih => exact .word ih sp i v hs (hi.trans_le (hpq sp hs)) hv
  | zero _ sp i c hs hi ih => exact .zero ih sp i c hs (hi.imp_right fun hi => hi.trans (hpq sp hs))

theorem footprint_words_le (p : Params) (hw : w ≤ w') (hr : r ≤ r') (hn : n ≤ n') :
    ∀ sp ∈ buildSpaces, sp.words (footprint p w r n) ≤ sp.words (footprint p w' r' n') := by
  intro sp hsp
  cases sp <;> simp only [Space.words, footprint] <;> omega

/-- `t` comes from `s` by stores inside the footprint and changes of the scratch state. -/
def State.Wrote (w r n : Nat) (s t : State) : Prop :=
  ∃ m sc, t = { s with mem := m, scratch := sc } ∧ Stores (footprint s.params w r n) buildSpaces s.mem m

theorem State.Wrote.refl (s : State) : s.Wrote w r n s := ⟨s.mem, s.scratch, rfl, .refl _⟩

theorem State.Wrote.trans (h : s.Wrote w r n t) (h' : t.Wrote w r n u) : s.Wrote w r n u := by
  obtain ⟨m, sc, rfl, hm⟩ := h
  obtain ⟨m', sc', rfl, hm'⟩ := h'
  exact ⟨m', sc', rfl, hm.trans hm'⟩

theorem State.Wrote.grow (h : s.Wrote w r n t) (hw : w ≤ w') (hr : r ≤ r') (hn : n ≤ n') : s.Wrote w' r' n' t := by
  obtain ⟨m, sc, rfl, hm⟩ := h
  exact ⟨m, sc, rfl, hm.grow (footprint_words_le _ hw hr hn)⟩

theorem State.Wrote.setScratch (h : s.Wrote w r n t) (sc : Scratch) : s.Wrote w r n (t.setScratch sc) := by
  obtain ⟨m, _, rfl, hm⟩ := h
  exact ⟨m, sc, rfl, hm⟩

theorem State.Wrote.setWord (h : s.Wrote w r n t) {sp : Space} {i : Nat} {v : Word} (hs : sp ∈ buildSpaces)
    (hi : i < sp.words (footprint s.params w r n)) (hv : StoreLegal sp i v) : s.Wrote w r n (t.setWord sp i v) := by
  obtain ⟨m, sc, rfl, hm⟩ := h
  exact ⟨_, sc, rfl, .word hm sp i v hs hi hv⟩

theorem State.Wrote.zero (h : s.Wrote w r n t) {sp : Space} {i c : Nat} (hs : sp ∈ buildSpaces)
    (hi : i + c ≤ sp.words (footprint s.params w r n)) : s.Wrote w r n (t.zero sp i c) := by
  obtain ⟨m, sc, rfl, hm⟩ := h
  exact ⟨_, sc, rfl, .zero hm sp i c hs (.inr hi)⟩

theorem State.Wrote.params (h : s.Wrote w r n t) : t.params = s.params := by
  obtain ⟨m, sc, rfl, -⟩ := h
  rfl

/-- Every byte outside the footprint is as before (20_memory.md R84). -/
theorem State.Wrote.bytes (h : s.Wrote w r n t) (a : Nat) (hb : ¬ (0x20000000 ≤ a ∧ a < 0x20000000 + 8 * w))
    (hr : ¬ (0x30000000 ≤ a ∧ a < 0x30000000 + 8 * r)) (hl : ¬ (0x40000000 ≤ a ∧ a < 0x40000400))
    (hv : ¬ (0x50000000 ≤ a ∧ a < 0x50000000 + 8 * n)) (ht : ¬ (0x60000000 ≤ a ∧ a < 0x60000000 + 16 * n)) :
    readByte t.mem a = readByte s.mem a := by
  obtain ⟨m, sc, rfl, hm⟩ := h
  refine hm.bytes a fun sp hsp => ?_
  simp only [List.mem_cons, List.not_mem_nil, or_false] at hsp
  rcases hsp with rfl | rfl | rfl | rfl | rfl <;> simp only [Space.base, Space.words, footprint] <;> omega

/-! ### The cascade (R186) -/

/-- The second pass stores to the level's words (R190). -/
theorem ends_secondPass_wrote {idx : Word → Nat} {size w : Nat} (h64 : size % 64 = 0) (hidx : ∀ k, idx k < size)
    (h : s.Wrote (w + size / 64) 0 0 t) (hw : t.scratch.wbase = w) :
    Ends P (fun u => s.Wrote (w + size / 64) 0 0 u ∧ u.scratch.wbase = w) (secondPass idx size t) := by
  refine (ends_memZero (Q := fun u => s.Wrote (w + size / 64) 0 0 u ∧ u.scratch.wbase = w) fun _ =>
    ⟨h.zero (by decide) (hw ▸ le_rfl), hw⟩).bind fun u hu => Ends.forKeys hu fun k v _ hv => ?_
  unfold secondPassKey
  split
  · exact ⟨hv.1.setScratch _, hv.2⟩
  · refine ends_setBit fun _ => ⟨hv.1.setWord (by decide) ?_ (storeLegal_of_ne (by decide)), hv.2⟩
    have := hidx k
    show v.scratch.wbase + idx k / 64 < w + size / 64
    omega

theorem ends_levelRecord_wrote (size : Nat) (h : s.Wrote w r n t) :
    Ends P (fun u => s.Wrote w r n u ∧ u.scratch = t.scratch) (levelRecord size t) :=
  have stored {u : State} (hu : s.Wrote w r n u ∧ u.scratch = t.scratch) (i : Nat) (v : Word) :
      Ends P (fun u => s.Wrote w r n u ∧ u.scratch = t.scratch) (memWrite .lvltab i v u) :=
    ends_memWrite fun hi => ⟨hu.1.setWord (by decide) hi (storeLegal_of_ne (by decide)), hu.2⟩
  (stored ⟨h, rfl⟩ _ _).bind fun _ h1 => (stored h1 _ _).bind fun _ h2 => stored h2 _ _

/-- The levels so far store to the BVMEM words that the counter `wb` counts, and to LVLTAB. -/
def State.Extends (s t : State) : Prop := s.Wrote t.scratch.wbase 0 0 t ∧ t.scratch.wbase ≤ s.params.bvWords

/-- The table size of the level a build is about to make (R176). -/
def State.nextSize (t : State) : Nat := tableSize t.latch.gamma.toNat t.scratch.working.length

/-- The bucket of a key at that level (R173). -/
def State.bucketOf (t : State) (k : Word) : Nat := bucket t.params.hash k t.scratch.level t.nextSize

/-- The scratch state after that level's first pass (R188, R189). -/
def State.firstPassed (d : Bool) (t : State) : Scratch := firstPass d t.bucketOf t.scratch.working (levelStart t.nextSize t.scratch)

theorem State.nextSize_words (t : State) : t.nextSize % 64 = 0 ∧ 64 ≤ t.nextSize := tableSize_words _ _

theorem State.bucketOf_lt (t : State) (k : Word) : t.bucketOf k < t.nextSize :=
  bucket_lt _ _ _ (lt_of_lt_of_le (by decide) t.nextSize_words.2)

/-- The first pass leaves the counters of the levels alone. -/
theorem State.firstPassed_frame (d : Bool) (t : State) : (t.firstPassed d).level = t.scratch.level ∧
    (t.firstPassed d).wbase = t.scratch.wbase ∧ (t.firstPassed d).rbase = t.scratch.rbase ∧ (t.firstPassed d).deferred = [] :=
  have h := firstPass_frame d t.bucketOf t.scratch.working (levelStart t.nextSize t.scratch)
  ⟨firstPass_level _ _ _ _, h.1, h.2.1, h.2.2.1⟩

theorem buildLevel_eq (d : Bool) (t : State) : buildLevel d t =
    require (levelFits t.params t.nextSize t.scratch.wbase t.scratch.rbase) .capacity (BitVec.ofNat 64 t.scratch.level) t >>= fun _ =>
      secondPass t.bucketOf t.nextSize (t.setScratch (t.firstPassed d)) >>= fun u =>
        levelRecord t.nextSize u >>= fun v => .ok (v.setScratch (v.scratch.nextLevel t.nextSize)) := rfl

/-- A level stores to its own words, or raises CAPACITY before it stores anything (R180). -/
theorem ends_buildLevel_extends (d : Bool) (h : s.Extends t) :
    Ends (fun c _ u => c = .capacity ∧ s.Extends u) s.Extends (buildLevel d t) := by
  have hp := h.1.params
  have hgrown := h.1.grow (Nat.le_add_right _ (t.nextSize / 64)) le_rfl le_rfl
  rw [buildLevel_eq]
  refine (ends_require (Q := fun _ => t.scratch.wbase + t.nextSize / 64 ≤ s.params.bvWords)
    (fun hf => hp ▸ (levelFits_iff.1 hf).2.1) fun _ => ⟨rfl, h⟩).bind fun _ hfits => ?_
  refine (ends_secondPass_wrote t.nextSize_words.1 t.bucketOf_lt (hgrown.setScratch _) (t.firstPassed_frame d).2.1).bind
    fun u hu => ?_
  refine (ends_levelRecord_wrote t.nextSize hu.1).bind fun v hv => ?_
  have hwb : v.scratch.wbase = t.scratch.wbase := (congrArg Scratch.wbase hv.2).trans hu.2
  have hnext : (v.scratch.nextLevel t.nextSize).wbase = t.scratch.wbase + t.nextSize / 64 := congrArg (· + t.nextSize / 64) hwb
  exact ⟨hnext.symm ▸ hv.1.setScratch _, hnext.trans_le hfits⟩

theorem ends_cascade_extends (d : Bool) (left : Nat) (h : s.Extends t) :
    Ends (fun c _ u => (c = .capacity ∨ c = .buildDepth) ∧ s.Extends u) s.Extends (cascade d left t) := by
  induction left generalizing t with
  | zero =>
    unfold cascade
    split
    · exact h
    · exact ⟨.inr rfl, h⟩
  | succ left ih =>
    unfold cascade
    split
    · exact h
    · exact ((ends_buildLevel_extends d h).mono (fun _ _ _ hf => hf.imp_left .inl) fun _ hu => hu).bind fun u hu => ih hu

/-! ### The rank samples (42_rank.md R222) -/

theorem SameLevels.refl (s : State) : SameLevels s s := ⟨rfl, fun _ _ _ => rfl, fun _ _ => rfl⟩

theorem SameLevels.trans (h : SameLevels s t) (h' : SameLevels t u) : SameLevels s u where
  params := h'.params.trans h.params
  lvltab i hi h3 := (h'.lvltab i hi h3).trans (h.lvltab i hi h3)
  bvmem i hi := (h'.bvmem i (h.params ▸ hi)).trans (h.bvmem i hi)

/-- BuildRanks leaves the levels' records but for POPBASE, their bits, and the counters alone; it stores to LVLTAB and to RANKMEM
entries below `R`. -/
structure State.Scanned (R : Nat) (s t : State) : Prop where
  levels   : SameLevels s t
  wrote    : s.Wrote 0 R 0 t
  counters : t.scratch = { s.scratch with pop := t.scratch.pop }

variable {R : Nat}

theorem State.Scanned.setWord (h : s.Scanned R t) (hp : s.params.Wf) {sp : Space} {i : Nat} {v : Word} (hi : i < sp.words s.params)
    (hsp : sp = .rankmem ∧ i < R ∨ sp = .lvltab ∧ i % 4 = 3) : s.Scanned R (t.setWord sp i v) := by
  have hpt : t.params = s.params := h.levels.params
  refine ⟨h.levels.trans (.setWord (hpt ▸ hp) (hpt ▸ hi) v (hsp.imp_left And.left)), ?_, h.counters⟩
  rcases hsp with ⟨rfl, hR⟩ | ⟨rfl, -⟩
  · exact h.wrote.setWord (by decide) hR (storeLegal_of_ne (by decide))
  · exact h.wrote.setWord (by decide) hi (storeLegal_of_ne (by decide))

theorem State.Scanned.setPop (h : s.Scanned R t) (pop : Nat) : s.Scanned R (t.setScratch { t.scratch with pop := pop }) where
  levels := { h.levels with }
  wrote := h.wrote.setScratch _
  counters := by
    rw [State.setScratch_scratch, h.counters]

theorem ends_rankWord_scanned (hp : s.params.Wf) (wb rb j : Nat) (hR : rb + j / 8 < s.params.rankDepth → rb + j / 8 < R)
    (h : s.Scanned R t) : Ends P (s.Scanned R) (rankWord wb rb j t) := by
  unfold rankWord
  refine Ends.bind (Q := s.Scanned R) ?_ fun u hu => (ends_any_memRead _ _ u).bind fun _ _ => hu.setPop _
  unfold sampleBefore
  split
  · refine ends_memWrite fun hi => ?_
    rw [h.levels.params] at hi
    exact h.setWord hp hi (.inl ⟨rfl, hR hi⟩)
  · exact h

/-- A level number past LVLTAB stops the scan (20_memory.md R95); another one's record reads as at the start. -/
theorem ends_rankLevel_scanned (hp : s.params.Wf) (l : Nat)
    (hR : ∀ b < sampleCount (s.sizeAt l / 64), s.rbaseAt l + b < s.params.rankDepth → s.rbaseAt l + b < R) (h : s.Scanned R t) :
    Ends P (s.Scanned R) (rankLevel l t) := by
  by_cases hl : l < 32
  · obtain ⟨hsize, -, hrb⟩ := h.levels.record hl
    rw [rankLevel, levelSize_of_lt hl, ok_bind, levelWbase_of_lt hl, ok_bind, levelRbase_of_lt hl, ok_bind, hsize, hrb]
    refine Ends.bind (Q := s.Scanned R) (ends_memWrite fun hi => ?_) fun u hu => ?_
    · rw [h.levels.params] at hi
      exact h.setWord hp hi (.inr ⟨rfl, by omega⟩)
    · refine Ends.forUp (fun _ => s.Scanned R) hu fun j v _ hj hv => ends_rankWord_scanned hp _ _ j (hR _ ?_) hv
      unfold sampleCount
      omega
  · have hstop : ¬ 4 * l < Space.lvltab.words t.params := show ¬ 4 * l < 128 by omega
    rw [rankLevel, levelSize, memRead, if_neg hstop]
    trivial

theorem ends_buildRanks_scanned (hp : s.params.Wf) (N : Nat)
    (hR : ∀ l < N, ∀ b < sampleCount (s.sizeAt l / 64), s.rbaseAt l + b < s.params.rankDepth → s.rbaseAt l + b < R) :
    Ends P (s.Scanned R) (buildRanks N s) :=
  Ends.forUp (fun _ => s.Scanned R) ⟨{ SameLevels.refl s with }, (State.Wrote.refl s).setScratch _, rfl⟩ fun l _ _ hl ht =>
    ends_rankLevel_scanned hp l (hR l (by omega)) ht

/-! ### A build that faults (R187, R196) -/

/-- Only the check of the key count, and the levels, raise a fault. -/
theorem ends_buildBody_faults (d : Bool) (hp : s.params.Wf) :
    Ends (fun c _ t => (c = .badArg ∨ c = .capacity ∨ c = .buildDepth) ∧ s.dropFunction.Wrote s.params.bvWords 0 0 t)
      (fun _ => True) (buildBody d s) := by
  by_cases hn : s.latch.nkeys.toNat ≤ s.params.keyDepth
  · rw [buildBody_of_le d hn]
    have h0 : s.dropFunction.Extends (s.dropFunction.startBuild (s.dropFunction.keys s.latch.nkeys.toNat)) :=
      ⟨(State.Wrote.refl _).setScratch _, Nat.zero_le _⟩
    refine ((ends_cascade_extends d _ h0).mono (fun c _ t ht => ?_) fun t ht => ht).bind fun t ht => ?_
    · exact ⟨.inr ht.1, ht.2.1.grow ht.2.2 le_rfl le_rfl⟩
    · have hpt : t.params = s.params := ht.1.params
      refine (ends_buildRanks_scanned (R := t.params.rankDepth) (hpt ▸ hp) _ fun _ _ _ _ h => h).bind fun u hu => ?_
      rw [completeBuild_eq _ (by rw [hu.levels.params, hpt]; exact hn)]
      trivial
  · rw [buildBody_of_lt d (by omega)]
    exact ⟨.inl rfl, .refl _⟩

/-- Settles O26: BUILD did not complete, since that keeps FAULT, so its body raised the fault after dropping the function. -/
theorem faultedBuildLeavesNoFunction : Obligations.FaultedBuildLeavesNoFunction := by
  intro s t d hp hf ht hfault
  have hends := ends_buildBody_faults d hp
  have hkeeps := keeps_buildBody d (fun _ h => h) (.refl buildSpaces s)
  match hbody : buildBody d s with
  | .ok u =>
    rw [hbody] at hkeeps
    rw [exec_build_of_ok hbody] at ht
    cases ht
    exact absurd (hfault.symm.trans (hkeeps.fault.trans hf)) (by decide)
  | .error (.raised c x u) =>
    rw [hbody] at hends
    rw [exec_build_of_raised hbody] at ht
    cases ht
    obtain ⟨hc, hw⟩ := hends
    refine ⟨?_, hc, fun a hb hl => ?_⟩
    · obtain ⟨m, sc, rfl, -⟩ := hw
      rfl
    · refine (hw.bytes a hb (by omega) hl (by omega) (by omega)).trans ?_
      exact (readByte_zeroWords _ _ _ _).trans (if_neg hl)
  | .error (.stopped f) =>
    have : exec (.build d) s = .fault f := by
      show execBuild d s = _
      rw [execBuild, hbody, error_bind, conclude_stopped]
    rw [this] at ht
    cases ht

end Sys2Proof.Machine
end

section
/-!
PROOFS. A build read plainly (`cascadeFault`, `cascadeLevels`): a level places the survivors that are alone in their bucket and defers
the others, so that a cascade without a fault places every key once (41_build.md R190, R192, R198), and one over a repeated key with
D = 0 never ends without one (R199).
-/
namespace Sys2Proof.Machine

variable {d : Bool} {idx : Word → Nat} {k : Word} {ks v : List Word} {i : Nat}

/-! ### Survivors -/

/-- A key is dropped only as a copy of a survivor, so that every key has a survivor of its value. -/
theorem mem_survivorsOf : k ∈ survivorsOf d idx ks ↔ k ∈ ks := by
  induction ks using List.reverseRecOn with
  | nil => exact Iff.rfl
  | append_singleton ks u ih =>
    rw [survivorsOf_concat, List.mem_append, List.mem_singleton]
    split
    · next hcopy =>
      rw [Bool.and_eq_true, beq_iff_eq] at hcopy
      have hu : u ∈ survivorsOf d idx ks := List.mem_of_find?_eq_some hcopy.2
      exact ⟨fun h => .inl (ih.1 h), fun h => h.elim ih.2 fun h => h ▸ hu⟩
    · rw [List.mem_append, List.mem_singleton, ih]

theorem length_survivorsOf_le (d : Bool) (idx : Word → Nat) (ks : List Word) : (survivorsOf d idx ks).length ≤ ks.length := by
  induction ks using List.reverseRecOn with
  | nil => exact Nat.le_refl _
  | append_singleton ks u ih =>
    rw [survivorsOf_concat, List.length_append]
    split
    · exact ih.trans (Nat.le_add_right _ _)
    · rw [List.length_append]
      exact Nat.add_le_add_right ih _

/-! ### Placed and deferred -/

/-- How many keys share a bucket is how often the bucket is hit. -/
theorem sharing_eq_count (idx : Word → Nat) (v : List Word) (i : Nat) : sharing idx v i = (v.map idx).count i := by
  rw [sharing, List.count, List.countP_map, List.countP_eq_length_filter]
  rfl

theorem one_le_sharing (h : k ∈ v) : 1 ≤ sharing idx v (idx k) := by
  rw [sharing_eq_count, Nat.succ_le_iff, List.count_pos_iff]
  exact List.mem_map_of_mem h

theorem mem_placedOf : k ∈ placedOf idx v ↔ k ∈ v ∧ sharing idx v (idx k) = 1 := by
  rw [placedOf, List.mem_filter, decide_eq_true_eq]

theorem mem_deferredOf : k ∈ deferredOf idx v ↔ k ∈ v ∧ 2 ≤ sharing idx v (idx k) := by
  rw [deferredOf, List.mem_filter, decide_eq_true_eq]

/-- A survivor is placed or deferred. -/
theorem mem_placedOf_or_deferredOf (h : k ∈ v) : k ∈ placedOf idx v ∨ k ∈ deferredOf idx v := by
  have := one_le_sharing (idx := idx) h
  rw [mem_placedOf, mem_deferredOf]
  by_cases h1 : sharing idx v (idx k) = 1
  · exact .inl ⟨h, h1⟩
  · exact .inr ⟨h, by omega⟩

theorem length_placedOf_add_deferredOf (idx : Word → Nat) (v : List Word) :
    (placedOf idx v).length + (deferredOf idx v).length = v.length := by
  have hcompl : deferredOf idx v = v.filter fun k => !decide (sharing idx v (idx k) = 1) := by
    refine List.filter_congr fun k hk => ?_
    have := one_le_sharing (idx := idx) hk
    rw [← decide_not, decide_eq_decide]
    omega
  rw [hcompl, placedOf]
  exact (List.length_eq_length_filter_add _).symm

theorem length_deferredOf_le (d : Bool) (idx : Word → Nat) (ks : List Word) :
    (deferredOf idx (survivorsOf d idx ks)).length ≤ ks.length :=
  (List.length_filter_le _ _).trans (length_survivorsOf_le d idx ks)

/-- The positions of the level's 1 bits are those hit once. -/
theorem map_placedOf (idx : Word → Nat) (v : List Word) :
    (placedOf idx v).map idx = (v.map idx).filter fun i => decide ((v.map idx).count i = 1) := by
  simp only [placedOf, List.filter_map, sharing_eq_count]
  rfl

theorem mem_map_placedOf : i ∈ (placedOf idx v).map idx ↔ sharing idx v i = 1 := by
  rw [map_placedOf, List.mem_filter, decide_eq_true_eq, sharing_eq_count]
  exact ⟨And.right, fun h => ⟨List.count_pos_iff.1 (by omega), h⟩⟩

theorem nodup_map_placedOf (idx : Word → Nat) (v : List Word) : ((placedOf idx v).map idx).Nodup := by
  rw [List.nodup_iff_count_le_one]
  intro i
  by_cases hi : i ∈ (placedOf idx v).map idx
  · have hone := mem_map_placedOf.1 hi
    rw [sharing_eq_count] at hone
    rw [map_placedOf]
    exact ((List.filter_sublist).count_le i).trans hone.le
  · rw [List.count_eq_zero_of_not_mem hi]
    exact Nat.zero_le 1

/-! ### The cascade: one equation for each way it goes on -/

variable {p : Params} {g left level wb rb : Nat}

/-- The buckets of a level over the keys `ks`. -/
def levelIdx (p : Params) (g level : Nat) (ks : List Word) (k : Word) : Nat := bucket p.hash k level (tableSize g ks.length)

/-- The keys a level leaves to the next one. -/
def leftOver (p : Params) (g : Nat) (d : Bool) (level : Nat) (ks : List Word) : List Word :=
  deferredOf (levelIdx p g level ks) (survivorsOf d (levelIdx p g level ks) ks)

/-- The level itself. -/
def plainLevel (p : Params) (g : Nat) (d : Bool) (level wb rb : Nat) (ks : List Word) : PlainLevel where
  size := tableSize g ks.length
  wbase := wb
  rbase := rb
  ones := (placedOf (levelIdx p g level ks) (survivorsOf d (levelIdx p g level ks) ks)).map (levelIdx p g level ks)

theorem levelIdx_lt (p : Params) (g level : Nat) (ks : List Word) (k : Word) : levelIdx p g level ks k < tableSize g ks.length :=
  bucket_lt _ _ _ (tableSize_pos _ _)

@[simp] theorem cascadeFault_nil : cascadeFault p g d left level wb rb [] = none := by
  unfold cascadeFault
  rw [if_pos rfl]

@[simp] theorem cascadeLevels_nil : cascadeLevels p g d left level wb rb [] = [] := by
  unfold cascadeLevels
  rw [if_pos rfl]

theorem cascadeFault_depth (hks : ks ≠ []) : cascadeFault p g d 0 level wb rb ks = some (.buildDepth, ks.length) := by
  unfold cascadeFault
  rw [if_neg hks]

theorem cascadeLevels_depth : cascadeLevels p g d 0 level wb rb ks = [] := by
  unfold cascadeLevels
  split <;> rfl

theorem cascadeFault_capacity (hks : ks ≠ []) (hfits : levelFits p (tableSize g ks.length) wb rb = false) :
    cascadeFault p g d (left + 1) level wb rb ks = some (.capacity, level) := by
  unfold cascadeFault
  simp only [if_neg hks, hfits]
  rfl

theorem cascadeLevels_capacity (hfits : levelFits p (tableSize g ks.length) wb rb = false) :
    cascadeLevels p g d (left + 1) level wb rb ks = [] := by
  unfold cascadeLevels
  simp only [hfits]
  split <;> rfl

theorem cascadeFault_level (hks : ks ≠ []) (hfits : levelFits p (tableSize g ks.length) wb rb = true) :
    cascadeFault p g d (left + 1) level wb rb ks = cascadeFault p g d left (level + 1) (wb + tableSize g ks.length / 64)
      (rb + sampleCount (tableSize g ks.length / 64)) (leftOver p g d level ks) := by
  rw [cascadeFault]
  simp only [if_neg hks, hfits, if_true]
  rfl

theorem cascadeLevels_level (hks : ks ≠ []) (hfits : levelFits p (tableSize g ks.length) wb rb = true) :
    cascadeLevels p g d (left + 1) level wb rb ks = plainLevel p g d level wb rb ks ::
      cascadeLevels p g d left (level + 1) (wb + tableSize g ks.length / 64)
        (rb + sampleCount (tableSize g ks.length / 64)) (leftOver p g d level ks) := by
  rw [cascadeLevels]
  simp only [if_neg hks, hfits, if_true]
  rfl

/-! ### A cascade without a fault (R198) -/

/-- Every level's 1 bits are at different positions of it. -/
theorem cascadeLevels_ones : ∀ l ∈ cascadeLevels p g d left level wb rb ks, l.ones.Nodup ∧ ∀ i ∈ l.ones, i < l.size := by
  induction left generalizing level wb rb ks with
  | zero => simp [cascadeLevels_depth]
  | succ left ih =>
    by_cases hks : ks = []
    · simp [hks]
    cases hfits : levelFits p (tableSize g ks.length) wb rb with
    | false => simp [cascadeLevels_capacity hfits]
    | true =>
      rw [cascadeLevels_level hks hfits, List.forall_mem_cons]
      refine ⟨⟨nodup_map_placedOf _ _, fun i hi => ?_⟩, ih⟩
      obtain ⟨k, -, rfl⟩ := List.mem_map.1 hi
      exact levelIdx_lt _ _ _ _ _

/-- Level `L` of `levels`, which are numbered from `level` on, is the first whose bit at the key's bucket is 1. -/
def FoundAt (p : Params) (level : Nat) (levels : List PlainLevel) (k : Word) (L : Nat) : Prop :=
  (∃ l, levels[L]? = some l ∧ bucket p.hash k (level + L) l.size ∈ l.ones) ∧
    ∀ j < L, ∀ l, levels[j]? = some l → bucket p.hash k (level + j) l.size ∉ l.ones

theorem FoundAt.cons {levels : List PlainLevel} {L : Nat} (h : FoundAt p (level + 1) levels k L) {l0 : PlainLevel}
    (h0 : bucket p.hash k level l0.size ∉ l0.ones) : FoundAt p level (l0 :: levels) k (L + 1) := by
  obtain ⟨⟨l, hl, hbit⟩, hbefore⟩ := h
  refine ⟨⟨l, hl, by rwa [show level + (L + 1) = level + 1 + L by omega]⟩, fun j hj l' hl' => ?_⟩
  cases j with
  | zero =>
    obtain rfl : l0 = l' := Option.some.inj hl'
    exact h0
  | succ j =>
    rw [show level + (j + 1) = level + 1 + j by omega]
    exact hbefore j (by omega) l' hl'

/-- Every key is placed at some level, and deferred at each one before it, where its bucket is shared and its bit 0. -/
theorem cascadeLevels_found (h : cascadeFault p g d left level wb rb ks = none) (hk : k ∈ ks) :
    ∃ L, FoundAt p level (cascadeLevels p g d left level wb rb ks) k L := by
  have hks : ks ≠ [] := List.ne_nil_of_mem hk
  induction left generalizing level wb rb ks with
  | zero => rw [cascadeFault_depth hks] at h; cases h
  | succ left ih =>
    cases hfits : levelFits p (tableSize g ks.length) wb rb with
    | false => rw [cascadeFault_capacity hks hfits] at h; cases h
    | true =>
      rw [cascadeFault_level hks hfits] at h
      rw [cascadeLevels_level hks hfits]
      rcases mem_placedOf_or_deferredOf (idx := levelIdx p g level ks) (mem_survivorsOf.2 hk) with hp | hd
      · exact ⟨0, ⟨_, rfl, List.mem_map_of_mem hp⟩, fun j hj => absurd hj (Nat.not_lt_zero j)⟩
      · obtain ⟨L, hL⟩ := ih h hd (List.ne_nil_of_mem hd)
        refine ⟨L + 1, hL.cons fun hbit => ?_⟩
        have hone : sharing (levelIdx p g level ks) _ (levelIdx p g level ks k) = 1 := mem_map_placedOf.1 hbit
        have htwo := (mem_deferredOf.1 hd).2
        omega

/-- The different values of a level's keys are those it places and those it defers. -/
theorem card_placed_add_card_leftOver : (plainLevel p g d level wb rb ks).ones.length + (leftOver p g d level ks).toFinset.card =
    ks.toFinset.card := by
  unfold plainLevel leftOver
  generalize levelIdx p g level ks = idx
  have hplaced : (placedOf idx (survivorsOf d idx ks)).toFinset.card = (placedOf idx (survivorsOf d idx ks)).length :=
    List.toFinset_card_of_nodup (nodup_map_placedOf _ _).of_map
  have hdisj : Disjoint (placedOf idx (survivorsOf d idx ks)).toFinset (deferredOf idx (survivorsOf d idx ks)).toFinset :=
    Finset.disjoint_left.2 fun k hp hd => by
      have hone := (mem_placedOf.1 (List.mem_toFinset.1 hp)).2
      have htwo := (mem_deferredOf.1 (List.mem_toFinset.1 hd)).2
      omega
  have hunion : (placedOf idx (survivorsOf d idx ks)).toFinset ∪ (deferredOf idx (survivorsOf d idx ks)).toFinset = ks.toFinset := by
    ext k
    rw [Finset.mem_union, List.mem_toFinset, List.mem_toFinset, List.mem_toFinset, ← mem_survivorsOf (d := d) (idx := idx) (ks := ks)]
    exact ⟨fun h => h.elim (fun h => (mem_placedOf.1 h).1) fun h => (mem_deferredOf.1 h).1, mem_placedOf_or_deferredOf⟩
  rw [List.length_map, ← hplaced, ← hunion, Finset.card_union_of_disjoint hdisj]

/-- The 1 bits of all levels are as many as the different keys. -/
theorem cascadeLevels_count (h : cascadeFault p g d left level wb rb ks = none) :
    ((cascadeLevels p g d left level wb rb ks).map fun l => l.ones.length).sum = ks.toFinset.card := by
  induction left generalizing level wb rb ks with
  | zero =>
    by_cases hks : ks = []
    · simp [hks]
    · rw [cascadeFault_depth hks] at h; cases h
  | succ left ih =>
    by_cases hks : ks = []
    · simp [hks]
    cases hfits : levelFits p (tableSize g ks.length) wb rb with
    | false => rw [cascadeFault_capacity hks hfits] at h; cases h
    | true =>
      rw [cascadeFault_level hks hfits] at h
      rw [cascadeLevels_level hks hfits, List.map_cons, List.sum_cons, ih h, card_placed_add_card_leftOver]

/-! ### A cascade over a repeated key, with D = 0 (R199, R385) -/

theorem count_leftOver_of_two_le (h : 2 ≤ ks.count k) : (leftOver p g false level ks).count k = ks.count k := by
  rw [leftOver, survivorsOf_false, deferredOf, List.count_filter]
  rw [decide_eq_true_eq, sharing_eq_count]
  exact h.trans (List.count_le_count_map)

/-- Copies share their bucket at every level, so that at least two keys are left. -/
theorem cascadeFault_of_repeated (h : 2 ≤ ks.count k) : ∃ c x, cascadeFault p g false left level wb rb ks = some (c, x) ∧
    (c = .capacity ∨ (c = .buildDepth ∧ 2 ≤ x ∧ x ≤ ks.length)) := by
  have hks : ks ≠ [] := by rintro rfl; simp at h
  induction left generalizing level wb rb ks with
  | zero => exact ⟨_, _, cascadeFault_depth hks, .inr ⟨rfl, h.trans List.count_le_length, le_rfl⟩⟩
  | succ left ih =>
    cases hfits : levelFits p (tableSize g ks.length) wb rb with
    | false => exact ⟨_, _, cascadeFault_capacity hks hfits, .inl rfl⟩
    | true =>
      have hcount := count_leftOver_of_two_le (p := p) (g := g) (level := level) h
      have hmem : k ∈ leftOver p g false level ks := List.count_pos_iff.1 (by omega)
      rw [cascadeFault_level hks hfits]
      obtain ⟨c, x, hf, hx⟩ := ih (hcount.symm ▸ h) (List.ne_nil_of_mem hmem)
      refine ⟨c, x, hf, hx.imp_right fun ⟨h1, h2, h3⟩ => ⟨h1, h2, h3.trans (length_deferredOf_le _ _ _)⟩⟩

theorem tableSize_mono (g : Nat) {m n : Nat} (h : m ≤ n) : tableSize g m ≤ tableSize g n := by
  have := Nat.mul_le_mul_left g h
  simp only [tableSize]
  omega

/-- Where the memories hold `left` levels of a size that no level exceeds, no level raises CAPACITY (R180). -/
theorem cascadeFault_ne_capacity {size : Nat} (hsize : tableSize g ks.length ≤ size) (hbits : size ≤ p.scratchBits)
    (hwords : wb + left * (size / 64) ≤ p.bvWords) (hsamples : rb + left * sampleCount (size / 64) ≤ p.rankDepth) {x : Nat} :
    cascadeFault p g d left level wb rb ks ≠ some (.capacity, x) := by
  by_cases hks : ks = []
  · simp [hks]
  induction left generalizing level wb rb ks with
  | zero => simp [cascadeFault_depth hks]
  | succ left ih =>
    have h64 : tableSize g ks.length / 64 ≤ size / 64 := Nat.div_le_div_right hsize
    have hsc : sampleCount (tableSize g ks.length / 64) ≤ sampleCount (size / 64) := by unfold sampleCount; omega
    rw [Nat.succ_mul] at hwords hsamples
    have hfits : levelFits p (tableSize g ks.length) wb rb = true := levelFits_iff.2 ⟨by omega, by omega, by omega⟩
    rw [cascadeFault_level hks hfits]
    by_cases hleft : leftOver p g d level ks = []
    · simp [hleft]
    · exact ih ((tableSize_mono g (length_deferredOf_le _ _ _)).trans hsize) (by omega) (by omega) hleft

end Sys2Proof.Machine
end

section
/-!
PROOFS. The cascade of a build against its plain reading (41_build.md R186): the second pass sets the bits of the placed survivors and
defers the others (R190), each level is recorded as the plain level (R191), and the cascade ends as `cascadeFault` says (R192).
-/
namespace Sys2Proof.Machine

variable {P : FaultCode → Word → State → Prop} {s t u v : State} {L n w i size : Nat} {idx : Word → Nat} {vs vs' : List Word}
  {k : Word} {d : Bool}

/-! ### Bits of BVMEM from a word on -/

/-- Bit `n` of the vector that starts at BVMEM word `w` (10_state.md R61). -/
def State.bvBit (s : State) (w n : Nat) : Bool := (s.word .bvmem (w + n / 64)).getLsbD (n % 64)

theorem bitAt_eq_bvBit (s : State) (L n : Nat) : s.bitAt L n = s.bvBit (s.wbaseAt L) n := rfl

/-- `SetBit` (R151) sets its bit and no other. -/
theorem bvBit_setBit (hp : s.params.Wf) (hm : memWf s.mem = true) (hi : w + i / 64 < s.params.bvWords)
    (hn : w + n / 64 < s.params.bvWords) :
    (s.setWord .bvmem (w + i / 64) (s.word .bvmem (w + i / 64) ||| (1#64 <<< (i % 64)))).bvBit w n =
      (s.bvBit w n || decide (n = i)) := by
  by_cases hw : n / 64 = i / 64
  · rw [State.bvBit, hw, State.word_setWord_same hm, getLsbD_or_bit _ (Nat.mod_lt _ (by decide)), State.bvBit, hw]
    congr 1
    rw [decide_eq_decide]
    omega
  · rw [State.bvBit, State.word_setWord_of_ne hp _ hi hn (.inr (by omega)), decide_eq_false (by omega), Bool.or_false]
    rfl

/-! ### The second pass (R190) -/

/-- `u` comes from `s` by the second pass over the survivors `vs` of level `L`: a survivor whose bucket collided is deferred, and the
bits of the others are set. -/
structure State.SecondPassed (L size : Nat) (idx : Word → Nat) (vs : List Word) (s u : State) : Prop where
  building : u.Building L
  params   : u.params = s.params
  latch    : u.latch = s.latch
  scratch  : u.scratch = { s.scratch with deferred := s.scratch.deferred ++ vs.filter fun k => s.scratch.collided (idx k) }
  bits     : ∀ n < size, u.bvBit s.scratch.wbase n =
    (s.bvBit s.scratch.wbase n || decide (n ∈ (vs.filter fun k => !s.scratch.collided (idx k)).map idx))
  below    : ∀ i < s.scratch.wbase, u.word .bvmem i = s.word .bvmem i
  lvltab   : ∀ i < 128, u.word .lvltab i = s.word .lvltab i

theorem State.SecondPassed.refl (h : s.Building L) : s.SecondPassed L size idx [] s :=
  ⟨h, rfl, rfl, by simp, by simp, fun _ _ => rfl, fun _ _ => rfl⟩

theorem State.SecondPassed.trans (h : s.SecondPassed L size idx vs t) (h' : t.SecondPassed L size idx vs' u) :
    s.SecondPassed L size idx (vs ++ vs') u := by
  have hwb : t.scratch.wbase = s.scratch.wbase := by rw [h.scratch]
  have hcoll : t.scratch.collided = s.scratch.collided := by rw [h.scratch]; rfl
  have hbits := h'.bits
  have hbelow := h'.below
  have hscr := h'.scratch
  rw [hcoll, h.scratch] at hscr
  rw [hwb, hcoll] at hbits
  rw [hwb] at hbelow
  refine ⟨h'.building, h'.params.trans h.params, h'.latch.trans h.latch, ?_, fun n hn => ?_,
    fun i hi => (hbelow i hi).trans (h.below i hi), fun i hi => (h'.lvltab i hi).trans (h.lvltab i hi)⟩
  · rw [hscr, List.filter_append, List.append_assoc]
  · rw [hbits n hn, h.bits n hn, List.filter_append, List.map_append, Bool.or_assoc, ← Bool.decide_or]
    simp only [List.mem_append]

/-- One survivor. -/
theorem ends_secondPassKey_passed (h : s.Building L) (h64 : size % 64 = 0) (hidx : ∀ k, idx k < size)
    (hwords : s.scratch.wbase + size / 64 ≤ s.params.bvWords) (k : Word) :
    Ends P (s.SecondPassed L size idx [k]) (secondPassKey idx k s) := by
  have hk := hidx k
  unfold secondPassKey
  cases hc : s.scratch.collided (idx k) with
  | true =>
    exact ⟨h.setScratch ⟨rfl, rfl, rfl⟩, rfl, rfl, by simp [hc], by simp [hc, State.bvBit, State.word], fun _ _ => rfl,
      fun _ _ => rfl⟩
  | false =>
    refine ends_setBit fun hi => ⟨h.setWord _ hi (.inl (by decide)), rfl, rfl, by simp [hc], fun n hn => ?_, fun i hi' => ?_,
      fun i hi' => ?_⟩
    · have hn' : s.scratch.wbase + n / 64 < s.params.bvWords := by omega
      simp [bvBit_setBit h.params h.mem hi hn', hc]
    · exact State.word_setWord_of_ne h.params _ hi (show i < s.params.bvWords by omega) (.inr (by omega))
    · exact State.word_setWord_of_ne h.params _ hi (show i < 128 from hi') (.inl (by decide))

theorem ends_forKeys_passed (h : s.Building L) (h64 : size % 64 = 0) (hidx : ∀ k, idx k < size)
    (hwords : s.scratch.wbase + size / 64 ≤ s.params.bvWords) (vs : List Word) :
    Ends P (s.SecondPassed L size idx vs) (forKeys vs (secondPassKey idx) s) := by
  induction vs generalizing s with
  | nil => exact .refl h
  | cons k vs ih =>
    refine (ends_secondPassKey_passed h h64 hidx hwords k).bind fun t ht => ?_
    have hwb : t.scratch.wbase = s.scratch.wbase := by rw [ht.scratch]
    exact (ih ht.building (by rw [hwb, ht.params]; exact hwords)).mono (fun _ _ _ hf => hf) fun u hu => ht.trans hu

/-- The survivors of the level a build is about to make. -/
def State.plainSurvivors (d : Bool) (s : State) : List Word := survivorsOf d s.bucketOf s.scratch.working

/-- `u` comes from `s` by the two passes of level `L`: its bits and its deferred keys are those of the plain level. -/
structure State.Placed (L : Nat) (d : Bool) (s u : State) : Prop where
  building : u.Building L
  params   : u.params = s.params
  latch    : u.latch = s.latch
  bases    : u.scratch.wbase = s.scratch.wbase ∧ u.scratch.rbase = s.scratch.rbase
  count    : u.scratch.dups + (s.plainSurvivors d).length = s.scratch.dups + s.scratch.working.length
  deferred : u.scratch.deferred = deferredOf s.bucketOf (s.plainSurvivors d)
  bits     : ∀ n < s.nextSize, u.bvBit s.scratch.wbase n = decide (n ∈ (placedOf s.bucketOf (s.plainSurvivors d)).map s.bucketOf)
  below    : ∀ i < s.scratch.wbase, u.word .bvmem i = s.word .bvmem i
  lvltab   : ∀ i < 128, u.word .lvltab i = s.word .lvltab i

theorem State.detected_firstPassed (d : Bool) (s : State) :
    Detected d s.bucketOf s.nextSize s.scratch.dups s.scratch.working (s.firstPassed d) := detected_firstPass d s.bucketOf_lt _ _

/-- The second pass tells the survivors apart by C, which says who shares a bucket (R189, R198). -/
theorem State.filter_collided (d : Bool) (s : State) :
    ((s.firstPassed d).survivors.filter fun k => (s.firstPassed d).collided (s.bucketOf k)) =
      deferredOf s.bucketOf (s.plainSurvivors d) ∧
    ((s.firstPassed d).survivors.filter fun k => !(s.firstPassed d).collided (s.bucketOf k)) =
      placedOf s.bucketOf (s.plainSurvivors d) := by
  have h := s.detected_firstPassed d
  have hv : s.plainSurvivors d = (s.firstPassed d).survivors := h.survivors.symm
  rw [hv]
  refine ⟨List.filter_congr fun k _ => h.collided _ (s.bucketOf_lt k), List.filter_congr fun k hk => ?_⟩
  have hone := one_le_sharing (idx := s.bucketOf) hk
  rw [h.collided _ (s.bucketOf_lt k), ← decide_not, decide_eq_decide]
  omega

/-- The level's words are zeroed first, so that its 1 bits are those of the survivors whose bucket did not collide. -/
theorem ends_secondPass_placed (d : Bool) (h : s.Building L) (hwords : s.scratch.wbase + s.nextSize / 64 ≤ s.params.bvWords) :
    Ends P (s.Placed L d) (secondPass s.bucketOf s.nextSize (s.setScratch (s.firstPassed d))) := by
  obtain ⟨hlevel, hwb, hrb, hdef⟩ := s.firstPassed_frame d
  obtain ⟨hcoll, hplaced⟩ := s.filter_collided d
  have hdet := s.detected_firstPassed d
  have hsurv : (s.firstPassed d).survivors = s.plainSurvivors d := hdet.survivors
  have hz {sp : Space} {i : Nat} (hi : i < sp.words s.params) (hne : sp ≠ .bvmem ∨ i < s.scratch.wbase) :
      ((s.setScratch (s.firstPassed d)).zero .bvmem s.scratch.wbase (s.nextSize / 64)).word sp i = s.word sp i :=
    State.word_zero_of_outside (s := s.setScratch (s.firstPassed d)) h.params hwords hi (hne.imp Ne.symm .inl)
  have hb : ((s.setScratch (s.firstPassed d)).zero .bvmem s.scratch.wbase (s.nextSize / 64)).Building L :=
    h.congr (memWf_zero h.mem _ _ _) rfl rfl ⟨hlevel, hwb, hrb⟩ fun i hi _ => hz (show i < 128 from hi) (.inl (by decide))
  rw [secondPass, State.setScratch_scratch, hwb, memZero_of_le (s := s.setScratch (s.firstPassed d)) (.inr hwords), ok_bind]
  refine (ends_forKeys_passed hb s.nextSize_words.1 s.bucketOf_lt (hwb.symm ▸ hwords) _).mono (fun _ _ _ hf => hf) fun u hu => ?_
  obtain ⟨hbuild, hparams, hlatch, hscr, hbits, hbelow, hlvl⟩ := hu
  simp only [State.zero_scratch, State.setScratch_scratch, hwb, hcoll, hplaced] at hscr hbits hbelow
  refine ⟨hbuild, hparams, hlatch, ?_, ?_, ?_, fun n hn => (hbits n hn).trans ?_, fun i hi => (hbelow i hi).trans ?_,
    fun i hi => (hlvl i hi).trans (hz (show i < 128 from hi) (.inl (by decide)))⟩
  · rw [hscr]
    exact ⟨rfl, hrb⟩
  · rw [hscr, ← hsurv]
    exact hdet.count
  · rw [hscr, hdef, List.nil_append]
  · rw [State.bvBit, State.word_zero_inside _ (Nat.le_add_right _ _) (by have := s.nextSize_words.1; omega)]
    simp
  · exact hz (show i < s.params.bvWords by omega) (.inr hi)

/-! ### The record of the level (R191) -/

@[simp] theorem recordLevel_latch (s : State) (L size w r : Nat) : (s.recordLevel L size w r).latch = s.latch := by
  simp only [State.recordLevel, State.setWord_latch]

/-- `v` comes from `u` by the record of level `L`, which fits. -/
structure State.Recorded (L size : Nat) (u v : State) : Prop where
  params   : v.params = u.params
  latch    : v.latch = u.latch
  scratch  : v.scratch = u.scratch
  reads    : v.sizeAt L = size ∧ v.wbaseAt L = u.scratch.wbase ∧ v.rbaseAt L = u.scratch.rbase
  other    : ∀ (sp : Space) (i : Nat), i < sp.words u.params → sp ≠ .lvltab ∨ i < 4 * L ∨ 4 * L + 2 < i → v.word sp i = u.word sp i
  building : (v.setScratch (v.scratch.nextLevel size)).Building (L + 1)

theorem levelRecord_recorded (hL : L < 32) (h64 : size % 64 = 0 ∧ 64 ≤ size) (h : s.Building L)
    (hfits : levelFits s.params size s.scratch.wbase s.scratch.rbase = true) :
    ∃ v, levelRecord size s = .ok v ∧ s.Recorded L size v := by
  have hv := levelRecord_eq_recordLevel size (h.level ▸ hL)
  have hrun := runs_levelRecord hL h64 ⟨h, hfits, le_rfl⟩
  rw [h.level] at hv
  rw [hv] at hrun
  obtain ⟨h0, h1, h2⟩ := word_recordLevel h.params h.mem hL size s.scratch.wbase s.scratch.rbase
  obtain ⟨hbits, hwords, hsamples⟩ := levelFits_iff.1 hfits
  obtain ⟨-, ⟨-, hbv⟩, ⟨-, hrk⟩, -, hscr⟩ := h.params
  refine ⟨_, hv, recordLevel_params .., recordLevel_latch .., recordLevel_scratch .., ⟨?_, ?_, ?_⟩,
    fun sp i => word_recordLevel_of_ne h.params hL _ _ _, hrun.1⟩
  · rw [State.sizeAt, h0]
    exact Nat.mod_eq_of_lt (by omega)
  · rw [State.wbaseAt, h1]
    exact Nat.mod_eq_of_lt (by omega)
  · rw [State.rbaseAt, h2]
    exact Nat.mod_eq_of_lt (by omega)

/-- A level that reads as the plain one depends on the first three words of its record and on its words of BVMEM. -/
theorem State.HasLevel.congr {l : PlainLevel} (h : s.HasLevel L l)
    (hl : ∀ i < 3, t.word .lvltab (4 * L + i) = s.word .lvltab (4 * L + i))
    (hw : ∀ n < l.size, t.word .bvmem (l.wbase + n / 64) = s.word .bvmem (l.wbase + n / 64)) : t.HasLevel L l := by
  obtain ⟨hsize, hwb, hrb, hbits⟩ := h
  have hwb' : t.wbaseAt L = l.wbase := by rw [← hwb, State.wbaseAt, State.wbaseAt, hl 1 (by decide)]
  refine ⟨?_, hwb', ?_, fun n hn => ?_⟩
  · rw [← hsize, State.sizeAt, State.sizeAt]
    exact congrArg _ (hl 0 (by decide))
  · rw [← hrb, State.rbaseAt, State.rbaseAt, hl 2 (by decide)]
  · rw [← hbits n hn, State.bitAt, State.bitAt, hwb, hwb', hw n hn]

/-- A build that has made the plain levels `done` of a cascade over `m` keys: each reads as the plain one, its POPBASE is still 0, and
every key is dropped as a copy, placed, or still to place. -/
structure State.Cascaded (m : Nat) (done : List PlainLevel) (s : State) : Prop where
  building : s.Building done.length
  levels   : ∀ L l, done[L]? = some l → s.HasLevel L l ∧ s.popbaseAt L = 0
  count    : s.scratch.dups + (done.map fun l => l.ones.length).sum + s.scratch.working.length = m

variable {m : Nat} {done : List PlainLevel}

/-- The words of a level made lie before the counter `wb`. -/
theorem State.Building.hasLevel_lt (h : s.Building n) (hL : L < n) {l : PlainLevel} (hl : s.HasLevel L l) {j : Nat} (hj : j < l.size) :
    l.wbase + j / 64 < s.scratch.wbase := by
  obtain ⟨hsize, hwb, -, -⟩ := hl
  have hend := (h.laid.level_le hL).1
  have h64 := (h.laid.sizes L hL).1
  rw [← h.laid.wbases L hL, hwb, hsize] at hend
  rw [hsize] at h64
  omega

/-- The plain level that a build is about to make. -/
def State.plainLevel (d : Bool) (s : State) : PlainLevel :=
  Sys2Proof.Machine.plainLevel s.params s.latch.gamma.toNat d s.scratch.level s.scratch.wbase s.scratch.rbase s.scratch.working

/-- The levels made before a level is placed and recorded still read as before. -/
theorem State.Cascaded.level_kept (h : s.Cascaded m done) (hu : s.Placed done.length d u) (hv : u.Recorded done.length s.nextSize v)
    (hwords : s.scratch.wbase ≤ s.params.bvWords) {l : PlainLevel} (hl : done[L]? = some l) :
    v.HasLevel L l ∧ v.popbaseAt L = 0 := by
  obtain ⟨hlevel, hpop⟩ := h.levels L l hl
  have hlt : L < done.length := (List.getElem?_eq_some_iff.1 hl).1
  have hcount := h.building.laid.count
  have hrec (i : Nat) (hi : i < 4) : v.word .lvltab (4 * L + i) = s.word .lvltab (4 * L + i) :=
    (hv.other .lvltab _ (show 4 * L + i < 128 by omega) (.inr (.inl (by omega)))).trans (hu.lvltab _ (by omega))
  refine ⟨hlevel.congr (fun i hi => hrec i (by omega)) fun n hn => ?_, (hrec 3 (by omega)).trans hpop⟩
  have hn := h.building.hasLevel_lt hlt hlevel hn
  exact (hv.other .bvmem _ (show _ < u.params.bvWords by rw [hu.params]; omega) (.inl (by decide))).trans (hu.below _ hn)

/-- The level placed and recorded reads as the plain level. -/
theorem State.Placed.hasLevel (hu : s.Placed L d u) (hL : L < 32) (hv : u.Recorded L s.nextSize v)
    (hwords : s.scratch.wbase + s.nextSize / 64 ≤ s.params.bvWords) : v.HasLevel L (s.plainLevel d) ∧ v.popbaseAt L = 0 := by
  obtain ⟨hsize, hwb, hrb⟩ := hv.reads
  rw [hu.bases.1] at hwb
  rw [hu.bases.2] at hrb
  refine ⟨⟨hsize, hwb, hrb, fun n hn => ?_⟩, ?_⟩
  · have hn : n < s.nextSize := hn
    have hlt : s.scratch.wbase + n / 64 < u.params.bvWords := by
      have := s.nextSize_words.1
      rw [hu.params]
      omega
    rw [bitAt_eq_bvBit, hwb, State.bvBit, hv.other .bvmem _ hlt (.inl (by decide))]
    exact hu.bits n hn
  · exact (hv.other .lvltab (4 * L + 3) (show 4 * L + 3 < 128 by omega) (.inr (.inr (by omega)))).trans
      (hu.building.above _ (by omega) (by omega))

/-- So recording it adds the plain level to those made (R191). -/
theorem State.Cascaded.concat (h : s.Cascaded m done) (hL : done.length < 32)
    (hwords : s.scratch.wbase + s.nextSize / 64 ≤ s.params.bvWords) (hu : s.Placed done.length d u)
    (hv : u.Recorded done.length s.nextSize v) :
    (v.setScratch (v.scratch.nextLevel s.nextSize)).Cascaded m (done ++ [s.plainLevel d]) where
  building := by
    rw [List.length_append, List.length_singleton]
    exact hv.building
  levels L l hl := by
    show v.HasLevel L l ∧ v.popbaseAt L = 0
    rcases Nat.lt_or_ge L done.length with hlt | hge
    · rw [List.getElem?_append_left hlt] at hl
      exact h.level_kept hu hv (by omega) hl
    · obtain rfl : L = done.length := by
        have := (List.getElem?_eq_some_iff.1 hl).1
        rw [List.length_append, List.length_singleton] at this
        omega
      rw [List.getElem?_concat_length] at hl
      obtain rfl := Option.some.inj hl
      exact hu.hasLevel hL hv hwords
  count := by
    have hsplit := length_placedOf_add_deferredOf s.bucketOf (s.plainSurvivors d)
    have hkeys := hu.count
    have hm := h.count
    have hones : (s.plainLevel d).ones.length = (placedOf s.bucketOf (s.plainSurvivors d)).length := List.length_map _
    rw [hv.scratch, List.map_append, List.sum_append, List.map_singleton, List.sum_singleton, hones]
    show u.scratch.dups + _ + u.scratch.deferred.length = m
    rw [hu.deferred]
    omega

/-- A level of the cascade is the plain level where it fits, and raises CAPACITY where it does not (R180). -/
theorem ends_buildLevel_cascaded (d : Bool) (h : s.Cascaded m done) (hL : done.length < 32) :
    Ends (fun c x t => levelFits s.params s.nextSize s.scratch.wbase s.scratch.rbase = false ∧ c = .capacity ∧
        x = BitVec.ofNat 64 s.scratch.level ∧ t = s)
      (fun t => levelFits s.params s.nextSize s.scratch.wbase s.scratch.rbase = true ∧ t.Cascaded m (done ++ [s.plainLevel d]) ∧
        t.params = s.params ∧ t.latch = s.latch ∧ t.scratch.wbase = s.scratch.wbase + s.nextSize / 64 ∧
        t.scratch.rbase = s.scratch.rbase + sampleCount (s.nextSize / 64) ∧
        t.scratch.working = deferredOf s.bucketOf (s.plainSurvivors d)) (buildLevel d s) := by
  rw [buildLevel_eq]
  refine (ends_require (Q := fun _ => levelFits s.params s.nextSize s.scratch.wbase s.scratch.rbase = true) id
    fun hf => ⟨hf, rfl, rfl, rfl⟩).bind fun _ hfits => ?_
  have hwords := (levelFits_iff.1 hfits).2.1
  refine (ends_secondPass_placed d h.building hwords).bind fun u hu => ?_
  obtain ⟨v, hok, hv⟩ := levelRecord_recorded hL s.nextSize_words hu.building (by rwa [hu.params, hu.bases.1, hu.bases.2])
  rw [hok, ok_bind]
  refine ends_ok.2 ⟨hfits, h.concat hL hwords hu hv, hv.params.trans hu.params, hv.latch.trans hu.latch, ?_, ?_, ?_⟩
  all_goals rw [State.setScratch_scratch, hv.scratch]
  · exact congrArg (· + s.nextSize / 64) hu.bases.1
  · exact congrArg (· + sampleCount (s.nextSize / 64)) hu.bases.2
  · exact hu.deferred

/-- The fault of the cascade from a state with `left` levels to go, read plainly. -/
def State.plainFault (d : Bool) (left : Nat) (s : State) : Option (FaultCode × Nat) :=
  cascadeFault s.params s.latch.gamma.toNat d left s.scratch.level s.scratch.wbase s.scratch.rbase s.scratch.working

/-- The levels it finishes. -/
def State.plainLevels (d : Bool) (left : Nat) (s : State) : List PlainLevel :=
  cascadeLevels s.params s.latch.gamma.toNat d left s.scratch.level s.scratch.wbase s.scratch.rbase s.scratch.working

/-- The cascade ends as its plain reading says, with the plain levels made (R186, R192). -/
theorem ends_cascade_cascaded (d : Bool) (left : Nat) (h : s.Cascaded m done) (hL : done.length + left ≤ 32) :
    Ends (fun c x t => ∃ n, s.plainFault d left = some (c, n) ∧ x = BitVec.ofNat 64 n ∧ t.Cascaded m (done ++ s.plainLevels d left))
      (fun t => s.plainFault d left = none ∧ t.scratch.working = [] ∧ t.Cascaded m (done ++ s.plainLevels d left))
      (cascade d left s) := by
  have hnil {s : State} {done : List PlainLevel} (left : Nat) (h : s.Cascaded m done) (hw : s.scratch.working = []) :
      s.plainFault d left = none ∧ s.scratch.working = [] ∧ s.Cascaded m (done ++ s.plainLevels d left) := by
    rw [State.plainFault, State.plainLevels, hw, cascadeFault_nil, cascadeLevels_nil, List.append_nil]
    exact ⟨rfl, rfl, h⟩
  induction left generalizing s done with
  | zero =>
    unfold cascade
    split
    · next hw => exact hnil 0 h (List.isEmpty_iff.1 hw)
    next hw =>
    have hw : s.scratch.working ≠ [] := fun h => hw (List.isEmpty_iff.2 h)
    rw [State.plainFault, State.plainLevels, cascadeFault_depth hw, cascadeLevels_depth, List.append_nil]
    exact ⟨_, rfl, rfl, h⟩
  | succ left ih =>
    unfold cascade
    split
    · next hw => exact hnil _ h (List.isEmpty_iff.1 hw)
    next hw =>
    have hw : s.scratch.working ≠ [] := fun h => hw (List.isEmpty_iff.2 h)
    refine ((ends_buildLevel_cascaded d h (by omega)).mono (fun c x t ht => ?_) fun t ht => ht).bind fun t ht => ?_
    · obtain ⟨hfits, rfl, rfl, rfl⟩ := ht
      rw [State.plainFault, State.plainLevels, cascadeFault_capacity hw hfits, cascadeLevels_capacity hfits, List.append_nil]
      exact ⟨_, rfl, rfl, h⟩
    · obtain ⟨hfits, hcasc, hparams, hlatch, hwb, hrb, hwork⟩ := ht
      have hlevel : t.scratch.level = s.scratch.level + 1 := by
        rw [hcasc.building.level, h.building.level, List.length_append, List.length_singleton]
      have hfault : s.plainFault d (left + 1) = t.plainFault d left := by
        rw [State.plainFault, cascadeFault_level hw hfits, State.plainFault, hparams, hlatch, hlevel, hwb, hrb, hwork]
        rfl
      have hlevels : s.plainLevels d (left + 1) = s.plainLevel d :: t.plainLevels d left := by
        rw [State.plainLevels, cascadeLevels_level hw hfits, State.plainLevels, hparams, hlatch, hlevel, hwb, hrb, hwork]
        rfl
      rw [hfault, hlevels, List.append_cons]
      exact ih hcasc (by rw [List.length_append, List.length_singleton]; omega)

end Sys2Proof.Machine
end

section
/-!
PROOFS. A build from end to end (41_build.md R186): from a state that meets the invariant its body ends as the plain cascade says, in a
fault with the finished levels left (R196), or with the function of all of them recorded and its slots cleared (R195).
-/
namespace Sys2Proof.Machine

variable {s t u : State} {d : Bool} {m : Nat} {done : List PlainLevel}

theorem Ends.and {α : Type} {P P' : FaultCode → Word → State → Prop} {Q Q' : α → Prop} {r : Except Abort α} (h : Ends P Q r)
    (h' : Ends P' Q' r) : Ends (fun c x t => P c x t ∧ P' c x t) (fun a => Q a ∧ Q' a) r := by
  match r with
  | .ok _ => exact ⟨h, h'⟩
  | .error (.raised _ _ _) => exact ⟨h, h'⟩
  | .error (.stopped _) => trivial

/-! ### The ranks and the completion, from a cascade that is done (R195, R222) -/

/-- The state after clearing the slots and tags of `n` keys (R195). -/
def State.cleared (n : Nat) (s : State) : State := (s.zero .valmem 0 n).zero .tagmem 0 (2 * n)

/-- Clearing slots touches no other memory. -/
theorem word_cleared (hp : s.params.Wf) {n : Nat} (hn : n ≤ s.params.keyDepth) {sp : Space} (hsp : sp ≠ .valmem ∧ sp ≠ .tagmem)
    {i : Nat} (hi : i < sp.words s.params) : (s.cleared n).word sp i = s.word sp i := by
  have hslots : 0 + n ≤ Space.valmem.words s.params := by simp only [Space.words]; omega
  have htags : 0 + 2 * n ≤ Space.tagmem.words s.params := by simp only [Space.words]; omega
  exact (State.word_zero_of_outside (s := s.zero .valmem 0 n) hp htags hi (.inl hsp.2.symm)).trans
    (State.word_zero_of_outside hp hslots hi (.inl hsp.1.symm))

/-- The slots and tags cleared. -/
theorem word_cleared_slot (hp : s.params.Wf) {n : Nat} (hn : n ≤ s.params.keyDepth) {j : Nat} (hj : j < n) :
    (s.cleared n).word .valmem j = 0 ∧ (s.cleared n).word .tagmem (2 * j) = 0 ∧ (s.cleared n).word .tagmem (2 * j + 1) = 0 := by
  have htags : 0 + 2 * n ≤ Space.tagmem.words s.params := by simp only [Space.words]; omega
  refine ⟨?_, State.word_zero_inside _ (Nat.zero_le _) (by omega), State.word_zero_inside _ (Nat.zero_le _) (by omega)⟩
  rw [State.cleared, State.word_zero_of_outside (s := s.zero .valmem 0 n) hp htags (show j < s.params.keyDepth by omega)
    (.inl (by decide))]
  exact State.word_zero_inside _ (Nat.zero_le _) (by omega)

/-- What a build over the latched keys leaves when it completes, but for RES0 and RES1: the registers of R195, the plain levels, the
slots and tags of its keys cleared, every key counted, and no byte changed outside what it counts. -/
structure State.Built (d : Bool) (s u : State) : Prop where
  frame   : u = { s with
    mem := u.mem, scratch := u.scratch, status := { s.status with built := true, rangev := false },
    nlevels := u.nlevels, bnkeys := s.latch.nkeys, total := u.total, dups := u.dups, bvused := u.bvused,
    rankused := u.rankused, min := 0, max := 0 }
  nlevels : u.nlevels.toNat = (s.buildLevels d).length
  levels  : ∀ L l, (s.buildLevels d)[L]? = some l → u.HasLevel L l
  slots   : ∀ j < s.latch.nkeys.toNat, u.word .valmem j = 0 ∧ u.word .tagmem (2 * j) = 0 ∧ u.word .tagmem (2 * j + 1) = 0
  count   : u.dups.toNat + ((s.buildLevels d).map fun l => l.ones.length).sum = s.latch.nkeys.toNat
  bytes   : ∀ a : Nat, ¬ (0x20000000 ≤ a ∧ a < 0x20000000 + 8 * u.bvused.toNat) →
    ¬ (0x30000000 ≤ a ∧ a < 0x30000000 + 8 * u.rankused.toNat) → ¬ (0x40000000 ≤ a ∧ a < 0x40000400) →
    ¬ (0x50000000 ≤ a ∧ a < 0x50000000 + 8 * s.latch.nkeys.toNat) →
    ¬ (0x60000000 ≤ a ∧ a < 0x60000000 + 16 * s.latch.nkeys.toNat) → readByte u.mem a = readByte s.mem a

/-- A level's samples lie below the counter `rb`. -/
theorem State.Building.sample_lt {N : Nat} (h : s.Building N) {l : Nat} (hl : l < N) {b : Nat}
    (hb : b < sampleCount (s.sizeAt l / 64)) : s.rbaseAt l + b < s.scratch.rbase := by
  have := (h.laid.level_le hl).2
  rw [h.laid.rbases l hl]
  omega

/-- The plain levels still read as such after the scan and the clearing. -/
theorem State.Cascaded.hasLevel_cleared (h : t.Cascaded m done) {R n : Nat} (hu : t.Scanned R u) (hn : n ≤ u.params.keyDepth) {L : Nat}
    {l : PlainLevel} (hl : done[L]? = some l) : (u.cleared n).HasLevel L l := by
  have hlt : L < done.length := (List.getElem?_eq_some_iff.1 hl).1
  have hlevel := (h.levels L l hl).1
  have hcount := h.building.laid.count
  have hbv := h.building.laid.words.2
  have hpu : u.params = t.params := hu.levels.params
  have hp : u.params.Wf := hpu ▸ h.building.params
  refine hlevel.congr (fun i hi => ?_) fun j hj => ?_
  · exact (word_cleared hp hn (by decide) (show 4 * L + i < 128 by omega)).trans (hu.levels.lvltab _ (by omega) (by omega))
  · have hj := h.building.hasLevel_lt hlt hlevel hj
    exact (word_cleared hp hn (by decide) (show _ < u.params.bvWords by rw [hpu]; omega)).trans (hu.levels.bvmem _ (by omega))

/-- From a cascade with no key left, the ranks and the completion leave the function of its levels. -/
theorem State.Cascaded.built (h : t.Cascaded s.latch.nkeys.toNat (s.buildLevels d)) (hnone : t.scratch.working = [])
    (hext : s.dropFunction.Extends t) (hu : t.Scanned t.scratch.rbase u) (hn : s.latch.nkeys.toNat ≤ u.params.keyDepth) :
    s.Built d ((u.cleared s.latch.nkeys.toNat).forgetRange.recordFunction s.latch.nkeys) := by
  obtain ⟨-, ⟨-, hbv⟩, ⟨-, hrk⟩, -⟩ := h.building.params
  have hw := h.building.laid.words.2
  have hr := h.building.laid.samples.2
  have hcount := h.building.laid.count
  have hm := h.count
  have hsc := hu.counters
  have hp : u.params.Wf := hu.levels.params ▸ h.building.params
  have hscr : u.scratch.level = (s.buildLevels d).length ∧ u.scratch.wbase = t.scratch.wbase ∧ u.scratch.rbase = t.scratch.rbase ∧
      u.scratch.dups = t.scratch.dups := by
    rw [hsc]
    exact ⟨h.building.level, rfl, rfl, rfl⟩
  obtain ⟨hlevel, hwb, hrb, hdups⟩ := hscr
  have hwrote : s.dropFunction.Wrote t.scratch.wbase t.scratch.rbase s.latch.nkeys.toNat (u.cleared s.latch.nkeys.toNat) := by
    have h1 := hext.1.grow (w' := t.scratch.wbase) (r' := t.scratch.rbase) (n' := s.latch.nkeys.toNat) le_rfl (Nat.zero_le _)
      (Nat.zero_le _)
    have h2 := hu.wrote.grow (w' := t.scratch.wbase) (r' := t.scratch.rbase) (n' := s.latch.nkeys.toNat) (Nat.zero_le _) le_rfl
      (Nat.zero_le _)
    exact ((h1.trans h2).zero (by decide) (Nat.zero_add _).le).zero (by decide) (Nat.zero_add _).le
  refine ⟨?_, ?_, fun L l hl => h.hasLevel_cleared hu hn hl, fun j hj => word_cleared_slot hp hn hj, ?_, fun a h1 h2 h3 h4 h5 => ?_⟩
  · obtain ⟨mem, sc, heq, -⟩ := hwrote
    rw [heq]
    rfl
  · show (BitVec.ofNat 64 u.scratch.level).toNat = _
    rw [hlevel]
    exact Nat.mod_eq_of_lt (by omega)
  · show (BitVec.ofNat 64 u.scratch.dups).toNat + _ = _
    have := s.latch.nkeys.isLt
    rw [hdups, BitVec.toNat_ofNat, Nat.mod_eq_of_lt (by omega)]
    rw [hnone, List.length_nil] at hm
    exact hm
  · have hbu : (BitVec.ofNat 64 u.scratch.wbase).toNat = t.scratch.wbase := by
      rw [hwb]
      exact Nat.mod_eq_of_lt (by omega)
    have hru : (BitVec.ofNat 64 u.scratch.rbase).toNat = t.scratch.rbase := by
      rw [hrb]
      exact Nat.mod_eq_of_lt (by omega)
    refine (hwrote.bytes a (hbu ▸ h1) (hru ▸ h2) h3 h4 h5).trans ?_
    exact (readByte_zeroWords _ _ _ _).trans (if_neg h3)

/-! ### The body -/

/-- Dropping the function leaves KEYMEM alone. -/
theorem keys_dropFunction (hp : s.params.Wf) {n : Nat} (hn : n ≤ s.params.keyDepth) : s.dropFunction.keys n = s.keys n := by
  refine List.map_congr_left fun i hi => ?_
  have hi := List.mem_range.1 hi
  exact State.word_zero_of_outside hp (sp := .lvltab) (i := 0) (n := 128) le_rfl (show i < s.params.keyDepth by omega)
    (.inl (by decide))

/-- The start of a build over the keys of KEYMEM: no level made, no key dropped or placed. -/
theorem cascaded_startBuild (h : s.Inv) (n : Nat) : (s.dropFunction.startBuild (s.keys n)).Cascaded n [] where
  building := (cascading_startBuild h (s.keys n)).1
  levels _ _ hl := nomatch hl
  count := by
    show 0 + 0 + (s.keys n).length = n
    simp [State.keys]

/-- The body of a build ends as the plain cascade over the keys of KEYMEM. -/
theorem ends_buildBody_plain (d : Bool) (h : s.Inv) (hn : s.latch.nkeys.toNat ≤ s.params.keyDepth) :
    Ends (fun c x t => ∃ n, s.buildFault d = some (c, n) ∧ x = BitVec.ofNat 64 n ∧
        t.Cascaded s.latch.nkeys.toNat (s.buildLevels d) ∧ s.dropFunction.Extends t)
      (fun u => s.buildFault d = none ∧ s.Built d u) (buildBody d s) := by
  rw [buildBody_of_le d hn, keys_dropFunction h.params hn]
  have hext : s.dropFunction.Extends (s.dropFunction.startBuild (s.keys s.latch.nkeys.toNat)) :=
    ⟨(State.Wrote.refl _).setScratch _, Nat.zero_le _⟩
  have hcascade := (ends_cascade_cascaded d s.latch.maxlvl.toNat (cascaded_startBuild h s.latch.nkeys.toNat)
    ((Nat.zero_add _).trans_le h.latchLvl.2)).and (ends_cascade_extends d s.latch.maxlvl.toNat hext)
  refine (hcascade.mono (fun c x t ht => ?_) fun t ht => ht).bind fun t ht => ?_
  · obtain ⟨⟨n, hf, hx, hc⟩, -, he⟩ := ht
    exact ⟨n, hf, hx, hc, he⟩
  · obtain ⟨⟨hf, hnone, hc⟩, he⟩ := ht
    have hpt : t.params = s.params := he.1.params
    refine (ends_buildRanks_scanned (R := t.scratch.rbase) hc.building.params _ fun l hl b hb _ =>
      hc.building.sample_lt (hc.building.level ▸ hl) hb).bind fun u hu => ?_
    have hnu : s.latch.nkeys.toNat ≤ u.params.keyDepth := by rwa [hu.levels.params, hpt]
    rw [completeBuild_eq _ hnu]
    exact ⟨hf, hc.built hnone he hu hnu⟩

/-- A build that can succeed does (R195). -/
theorem buildBody_of_canBuild (h : s.Inv) (hb : s.CanBuild d) : ∃ u, buildBody d s = .ok u ∧ u.Usable ∧ s.Built d u := by
  have hruns := runs_buildBody d h
  have hends := ends_buildBody_plain d h hb.1
  match hbody : buildBody d s with
  | .ok u =>
    rw [hbody] at hruns hends
    exact ⟨u, rfl, hruns, hends.2⟩
  | .error (.raised c x t) =>
    rw [hbody] at hends
    obtain ⟨n, hf, -⟩ := hends
    rw [hb.2] at hf
    cases hf
  | .error (.stopped f) =>
    rw [hbody] at hruns
    exact hruns.elim

/-- A build whose plain cascade meets a fault raises it, with the finished levels left (R196). -/
theorem buildBody_of_buildFault (h : s.Inv) (hn : s.latch.nkeys.toNat ≤ s.params.keyDepth) {c : FaultCode} {x : Nat}
    (hf : s.buildFault d = some (c, x)) : ∃ t, buildBody d s = .error (.raised c (BitVec.ofNat 64 x) t) ∧
      t.Cascaded s.latch.nkeys.toNat (s.buildLevels d) ∧ s.dropFunction.Extends t := by
  have hruns := runs_buildBody d h
  have hends := ends_buildBody_plain d h hn
  match hbody : buildBody d s with
  | .ok u =>
    rw [hbody] at hends
    rw [hends.1] at hf
    cases hf
  | .error (.raised c' x' t) =>
    rw [hbody] at hends
    obtain ⟨n, hf', rfl, ht⟩ := hends
    rw [hf] at hf'
    cases hf'
    exact ⟨t, rfl, ht⟩
  | .error (.stopped f) =>
    rw [hbody] at hruns
    exact hruns.elim

/-- BUILD leaves a built function only where its body completes, which means that the build could succeed (R187, R196). -/
theorem canBuild_of_built (h : s.Inv) (ht : exec (.build d) s = .next t) (hb : t.status.built = true) :
    s.CanBuild d ∧ ∃ u, t = { u.complete with res0 := u.nlevels, res1 := u.total } ∧ u.Usable ∧ s.Built d u := by
  have unbuilt {c : FaultCode} {x : Word} {u : State} {w : Nat} (hbody : buildBody d s = .error (.raised c x u))
      (hu : s.dropFunction.Wrote w 0 0 u) : False := by
    rw [exec_build_of_raised hbody] at ht
    cases ht
    obtain ⟨mem, sc, rfl, -⟩ := hu
    cases hb
  by_cases hn : s.latch.nkeys.toNat ≤ s.params.keyDepth
  · cases hf : s.buildFault d with
    | none =>
      obtain ⟨u, hbody, hu⟩ := buildBody_of_canBuild h ⟨hn, hf⟩
      rw [exec_build_of_ok hbody] at ht
      cases ht
      exact ⟨⟨hn, hf⟩, u, rfl, hu⟩
    | some f =>
      obtain ⟨u, hbody, -, hu⟩ := buildBody_of_buildFault h hn hf
      exact (unbuilt hbody hu.1).elim
  · exact (unbuilt (w := 0) (buildBody_of_lt d (by omega)) (.refl _)).elim

/-! ### The obligations -/

/-- Settles O28: the body of a build that succeeds leaves a usable function, and its last writes touch no word of it. -/
theorem buildMakesWellFormedFunction : Obligations.BuildMakesWellFormedFunction := by
  intro s t d h ht hb
  obtain ⟨-, u, rfl, hu, -⟩ := canBuild_of_built h ht hb
  exact { hu.fn with }

/-- Settles O24: a build that can succeed ends in `State.Built`, and BUILD then writes RES0 and RES1. -/
theorem buildCompletesWhenCascadeEnds : Obligations.BuildCompletesWhenCascadeEnds := by
  intro s d h hb
  obtain ⟨u, hbody, -, hu⟩ := buildBody_of_canBuild h hb
  refine ⟨_, exec_build_of_ok hbody, ?_, hu.nlevels, hu.levels, hu.slots, hu.bytes⟩
  rw [hu.frame]
  rfl

/-- A sum over level numbers is a sum over the list of levels. -/
theorem sumFrom_eq_sum_map {levels : List PlainLevel} {f : Nat → Nat} {g : PlainLevel → Nat}
    (h : ∀ L l, levels[L]? = some l → f L = g l) : sumFrom f 0 levels.length = (levels.map g).sum := by
  refine congrArg List.sum (List.ext_getElem (by simp) fun L h1 h2 => ?_)
  rw [List.getElem_map, List.getElem_map, List.getElem_range, Nat.zero_add]
  exact h L _ (List.getElem?_eq_getElem _)

/-- The BVMEM words of the levels made are those the counter `wb` counts (R180). -/
theorem State.Cascaded.wbase_eq (h : t.Cascaded m done) : t.scratch.wbase = (done.map fun l => l.size / 64).sum := by
  rw [← h.building.laid.words.1, State.wordsBefore_eq]
  exact sumFrom_eq_sum_map fun L l hl => congrArg (· / 64) (h.levels L l hl).1.1

/-- Settles O25: the body raises the plain fault with the finished levels left, and taking the fault writes no memory. -/
theorem buildFaultsWhenCascadeFails : Obligations.BuildFaultsWhenCascadeFails := by
  intro s d c x h hn hf
  obtain ⟨u, hbody, hc, he, -⟩ := buildBody_of_buildFault h hn hf
  have hbytes := he.bytes
  rw [hc.wbase_eq] at hbytes
  obtain ⟨mem, sc, rfl, -⟩ := he
  refine ⟨_, exec_build_of_raised hbody, rfl, rfl, rfl, rfl, rfl, hc.levels, hc.building.above, fun a h1 h2 => ?_⟩
  exact (hbytes a h1 (by omega) h2 (by omega) (by omega)).trans ((readByte_zeroWords _ _ _ _).trans (if_neg h2))

end Sys2Proof.Machine
end

section
/-!
PROOFS. What a build says of its keys (41_build.md R198, R199): after one that succeeds every key meets its bit and TOTAL counts the
different keys, a repeated key with D = 0 ends it in a fault, and one key makes one level (R186).
-/
namespace Sys2Proof.Machine

variable {s t u : State} {d : Bool}

/-! ### A repeated key (R199, R385) -/

/-- Settles O27: the plain cascade over a key that occurs twice never ends without a fault, and the build raises that fault. -/
theorem repeatedKeyNeverBuilds : Obligations.RepeatedKeyNeverBuilds := by
  intro s h _ hn hrep
  obtain ⟨k, hk⟩ : ∃ k, 2 ≤ (s.keys s.latch.nkeys.toNat).count k := by
    simpa [List.nodup_iff_count_le_one, Nat.lt_iff_add_one_le] using hrep
  have hlen : (s.keys s.latch.nkeys.toNat).length = s.latch.nkeys.toNat := by simp [State.keys]
  obtain ⟨c, x, hf, hx⟩ := cascadeFault_of_repeated (p := s.params) (g := s.latch.gamma.toNat) (left := s.latch.maxlvl.toNat)
    (level := 0) (wb := 0) (rb := 0) hk
  have hf : s.buildFault false = some (c, x) := hf
  obtain ⟨u, hbody, -, ⟨mem, sc, rfl, -⟩, -⟩ := buildBody_of_buildFault h hn hf
  refine ⟨_, exec_build_of_raised hbody, rfl, rfl, ?_, fun hbits hwords hsamples => ?_⟩
  · refine hx.imp_right fun ⟨hc, htwo, hle⟩ => ⟨hc, ?_⟩
    show 2 ≤ (BitVec.ofNat 64 x).toNat
    have := s.latch.nkeys.isLt
    rwa [BitVec.toNat_ofNat, Nat.mod_eq_of_lt (by omega)]
  · rcases hx with rfl | ⟨hc, -⟩
    · refine absurd hf (cascadeFault_ne_capacity (hlen.symm ▸ le_rfl) hbits ?_ ?_) <;> rwa [Nat.zero_add]
    · exact hc

/-! ### The keys of a build that succeeds (R198) -/

/-- As many positions hold as there are in a list of different ones. -/
theorem ones_mem {l : List Nat} {n : Nat} (hl : l.Nodup) (hn : ∀ i ∈ l, i < n) : ones (fun i => decide (i ∈ l)) n = l.length := by
  refine List.Perm.length_eq ((List.perm_ext_iff_of_nodup (List.nodup_range.filter _) hl).2 fun i => ?_)
  simp only [List.mem_filter, List.mem_range, decide_eq_true_eq]
  exact ⟨And.right, fun hi => ⟨hn i hi, hi⟩⟩

theorem State.onesBelow_eq_ones (s : State) (L n : Nat) : s.onesBelow L n = ones (s.bitAt L) n := rfl

/-- The 1 bits before a level, level by level. -/
theorem State.FnInv.popBefore_wordsBefore (h : s.FnInv) {n : Nat} (hn : n ≤ s.nlevels.toNat) :
    s.popBefore (s.wordsBefore n) = sumFrom (fun L => s.onesBelow L (s.sizeAt L)) 0 n := by
  induction n with
  | zero => rw [s.wordsBefore_eq, sumFrom_zero, s.popBefore_eq, sumFrom_zero, sumFrom_zero]
  | succ n ih =>
    have hsize := (h.sizes n (by omega)).1
    have hlevel : sumFrom s.popWord (s.wordsBefore n) (s.sizeAt n / 64) = s.onesBelow n (s.sizeAt n) := by
      rw [← h.wbases n (by omega), ← s.ones_words, Nat.mul_div_cancel' (Nat.dvd_of_mod_eq_zero hsize), s.onesBelow_eq_ones]
    rw [s.wordsBefore_succ, s.popBefore_add, ih (by omega), sumFrom_succ, hlevel, Nat.zero_add]

/-- The 1 bits of a level that reads as a plain one. -/
theorem State.HasLevel.onesBelow {L : Nat} {l : PlainLevel} (h : s.HasLevel L l) (hl : l.ones.Nodup ∧ ∀ i ∈ l.ones, i < l.size) :
    s.onesBelow L (s.sizeAt L) = l.ones.length := by
  obtain ⟨hsize, -, -, hbits⟩ := h
  rw [hsize, ← ones_mem hl.1 hl.2, State.onesBelow_eq_ones]
  exact ones_congr hbits

/-- TOTAL is the number of 1 bits of the plain levels. -/
theorem State.Built.total_eq (h : s.Built d u) (hu : u.FnInv) :
    u.total.toNat = ((s.buildLevels d).map fun l => l.ones.length).sum := by
  rw [hu.total.1, hu.bvused.1, hu.popBefore_wordsBefore le_rfl, h.nlevels]
  exact sumFrom_eq_sum_map fun L l hl => (h.levels L l hl).onesBelow (cascadeLevels_ones l (List.mem_of_getElem? hl))

theorem State.Built.params (h : s.Built d u) : u.params = s.params := by rw [h.frame]

/-- A key's bucket at a level is occupied exactly when the plain level has it. -/
theorem State.Built.hits_eq (h : s.Built d u) (hu : u.FnInv) (k : Word) {L : Nat} {l : PlainLevel}
    (hl : (s.buildLevels d)[L]? = some l) : u.hits k L = decide (bucket s.params.hash k L l.size ∈ l.ones) := by
  have hlt : L < u.nlevels.toNat := h.nlevels.symm ▸ (List.getElem?_eq_some_iff.1 hl).1
  obtain ⟨hsize, -, -, hbits⟩ := h.levels L l hl
  have hpos := (hu.sizes L hlt).2.1
  rw [State.hits, hsize, h.params, hbits _ (bucket_lt _ _ _ (by omega))]

/-- Every key meets its bit at a first level. -/
theorem State.Built.finds (h : s.Built d u) (hu : u.FnInv) (hf : s.buildFault d = none) {k : Word}
    (hk : k ∈ s.keys s.latch.nkeys.toNat) : ∃ L < u.nlevels.toNat, u.hits k L = true ∧ ∀ j < L, u.hits k j = false := by
  obtain ⟨L, ⟨l, hl, hbit⟩, hbefore⟩ := cascadeLevels_found hf hk
  have hlt := (List.getElem?_eq_some_iff.1 hl).1
  refine ⟨L, h.nlevels.symm ▸ hlt, ?_, fun j hj => ?_⟩
  · rw [h.hits_eq hu k hl, decide_eq_true_eq]
    rwa [Nat.zero_add] at hbit
  · have hl' : (s.buildLevels d)[j]? = some _ := List.getElem?_eq_getElem (hj.trans hlt)
    have hmiss := hbefore j hj _ hl'
    rw [Nat.zero_add] at hmiss
    rw [h.hits_eq hu k hl', decide_eq_false_iff_not]
    exact hmiss

/-- A build leaves the keys alone. -/
theorem State.Built.keys_eq (h : s.Built d u) (hp : s.params.Wf) (hn : s.latch.nkeys.toNat ≤ s.params.keyDepth) :
    u.keys s.latch.nkeys.toNat = s.keys s.latch.nkeys.toNat := by
  refine List.map_congr_left fun i hi => readWord_congr fun k hk => ?_
  have hi := List.mem_range.1 hi
  have := Space.addr_bounds hp (show i < Space.keymem.words s.params from hi.trans_le hn)
  simp only [Space.base] at this
  exact h.bytes _ (by omega) (by omega) (by omega) (by omega) (by omega)

/-- Settles O29: the plain cascade places every key once, and the function has its levels. -/
theorem everyKeyFoundAndCounted : Obligations.EveryKeyFoundAndCounted := by
  intro s t d h ht hb
  obtain ⟨⟨hn, hf⟩, u, rfl, hu, hbuilt⟩ := canBuild_of_built h ht hb
  have hbn : u.bnkeys = s.latch.nkeys := by rw [hbuilt.frame]
  have hkeys : u.keys u.bnkeys.toNat = s.keys s.latch.nkeys.toNat := by
    rw [hbn]
    exact hbuilt.keys_eq h.params hn
  have htotal := hbuilt.total_eq hu.fn
  have hcount := hbuilt.count
  refine ⟨fun k hk => hbuilt.finds hu.fn hf (hkeys ▸ hk), ?_, ?_⟩
  · show u.total.toNat = (u.keys u.bnkeys.toNat).dedup.length
    rw [hkeys, ← List.card_toFinset, ← cascadeLevels_count hf]
    exact htotal
  · show u.total.toNat + u.dups.toNat = u.bnkeys.toNat
    rw [hbn]
    omega

/-! ### One key (R186) -/

/-- A single key is placed alone. -/
theorem level_singleton (d : Bool) (idx : Word → Nat) (k : Word) : survivorsOf d idx [k] = [k] ∧ placedOf idx [k] = [k] ∧
    deferredOf idx [k] = [] := by
  refine ⟨?_, ?_, ?_⟩
  · cases d <;> rfl
  · simp [placedOf, sharing]
  · simp [deferredOf, sharing]

/-- The plain cascade over one key whose table has 64 positions: one level, where it fits, and no fault. -/
theorem cascade_singleton {p : Params} {g left : Nat} {k : Word} (hg : tableSize g 1 = 64) (hfits : levelFits p 64 0 0 = true) :
    cascadeFault p g d (left + 1) 0 0 0 [k] = none ∧ cascadeLevels p g d (left + 1) 0 0 0 [k] =
      [{ size := 64, wbase := 0, rbase := 0, ones := [bucket p.hash k 0 64] }] := by
  have hsize : tableSize g [k].length = 64 := hg
  obtain ⟨hsurv, hplaced, hdef⟩ := level_singleton d (levelIdx p g 0 [k]) k
  have hleft : leftOver p g d 0 [k] = [] := by rw [leftOver, hsurv, hdef]
  have hlevel : plainLevel p g d 0 0 0 [k] = { size := 64, wbase := 0, rbase := 0, ones := [bucket p.hash k 0 64] } := by
    rw [plainLevel, hsurv, hplaced, hsize, List.map_singleton, levelIdx, hsize]
  rw [cascadeFault_level (List.cons_ne_nil _ _) (hsize.symm ▸ hfits), cascadeLevels_level (List.cons_ne_nil _ _) (hsize.symm ▸ hfits),
    hleft, hlevel, cascadeFault_nil, cascadeLevels_nil]
  exact ⟨rfl, rfl⟩

/-- At gamma 2.0 a build over one key can succeed in any memories (R9), with one level. -/
theorem canBuild_one_key (d : Bool) (h : s.Inv) (hn : s.latch.nkeys = 1) (hg : s.latch.gamma = 0x00020000) : s.CanBuild d ∧
    s.buildLevels d = [{ size := 64, wbase := 0, rbase := 0, ones := [bucket s.params.hash (s.word .keymem 0) 0 64] }] := by
  obtain ⟨⟨hkey, -⟩, ⟨hbv, -⟩, ⟨hrk, -⟩, -, hscr, -⟩ := h.params
  obtain ⟨left, hleft⟩ : ∃ left, s.latch.maxlvl.toNat = left + 1 := ⟨_, (Nat.sub_add_cancel h.latchLvl.1).symm⟩
  have hfits : levelFits s.params 64 0 0 = true := levelFits_iff.2 ⟨hscr, hbv, hrk⟩
  have hcascade := cascade_singleton (d := d) (left := left) (k := s.word .keymem 0) (show tableSize 0x20000 1 = 64 by decide) hfits
  unfold State.CanBuild State.buildFault State.buildLevels
  rw [hn, hg, hleft]
  exact ⟨⟨hkey, hcascade.1⟩, hcascade.2⟩

theorem word_eq_of_toNat {w : Word} {n : Nat} (h : w.toNat = n) (hn : n < 2 ^ 64) : w = BitVec.ofNat 64 n :=
  BitVec.eq_of_toNat_eq (h.trans (Nat.mod_eq_of_lt hn).symm)

/-- A word whose only 1 bit is at position `i`. -/
theorem word_eq_bit {w : Word} {i : Nat} (h : ∀ n < 64, w.getLsbD n = decide (n = i)) : w = 1#64 <<< i := by
  refine BitVec.eq_of_getLsbD_eq fun n hn => ?_
  have := getLsbD_or_bit 0#64 (n := i) hn
  rw [BitVec.zero_or, BitVec.getLsbD_zero, Bool.false_or] at this
  rw [h n hn, this]

/-- The function built over one key: one level of 64 positions, whose record, bits and ranks are known. -/
theorem State.Built.one_level {i : Nat} (h : s.Built d u) (hu : u.FnInv)
    (hl : s.buildLevels d = [{ size := 64, wbase := 0, rbase := 0, ones := [i] }]) :
    (u.nlevels = 1 ∧ u.total = 1) ∧ (u.word .lvltab 0 = 64 ∧ u.word .lvltab 1 = 0 ∧ u.word .lvltab 2 = 0 ∧ u.word .lvltab 3 = 0) ∧
      u.word .bvmem 0 = 1#64 <<< i ∧ u.word .rankmem 0 = 0 := by
  have hnl := h.nlevels
  have htotal := h.total_eq hu
  obtain ⟨hsize, hwb, hrb, hbits⟩ := h.levels 0 _ (by rw [hl]; rfl)
  rw [hl] at hnl htotal
  have hnl : u.nlevels.toNat = 1 := hnl
  have hpop := hu.popbase 0 (by omega)
  have hsample := hu.samples 0 (by omega) 0 (hsize.symm ▸ show 0 < sampleCount (64 / 64) by decide)
  refine ⟨⟨word_eq_of_toNat hnl (by decide), word_eq_of_toNat htotal (by decide)⟩, ⟨word_eq_of_toNat hsize (by decide),
    word_eq_of_toNat hwb (by decide), word_eq_of_toNat hrb (by decide), word_eq_of_toNat hpop (by decide)⟩,
    word_eq_bit fun n hn => ?_, word_eq_of_toNat hsample (by decide)⟩
  have hbit := hbits n hn
  rw [bitAt_eq_bvBit, hwb, State.bvBit, Nat.div_eq_of_lt hn, Nat.mod_eq_of_lt hn] at hbit
  simpa using hbit

/-- Settles O23: the build succeeds with the one plain level, and its function is well formed. -/
theorem buildOverOneKey : Obligations.BuildOverOneKey := by
  intro s d h hn hg
  obtain ⟨hcan, hlevels⟩ := canBuild_one_key d h hn hg
  obtain ⟨u, hbody, hu, hbuilt⟩ := buildBody_of_canBuild h hcan
  obtain ⟨⟨hnl, htotal⟩, ⟨hsize, hwb, hrb, hpop⟩, hbits, hsample⟩ := hbuilt.one_level hu.fn hlevels
  have hcount := hbuilt.count
  rw [hlevels, hn] at hcount
  have hdups : u.dups = 0 := word_eq_of_toNat (Nat.add_right_cancel (m := 1) hcount) (by decide)
  obtain ⟨hval, htag, htagv⟩ := hbuilt.slots 0 (by rw [hn]; decide)
  have hbn : u.bnkeys = 1 := by rw [hbuilt.frame, hn]
  exact ⟨_, exec_build_of_ok hbody, hu.built, rfl, hnl, htotal, hdups, hbn, hnl, htotal, hsize, hwb, hrb, hpop, hbits, hsample, hval,
    htag, htagv⟩

end Sys2Proof.Machine
end

section
/-!
PROOFS. RANK (42_rank.md R226): the position checks of BITGET, then the count of 1 bits below the position (R228).
-/
namespace Sys2Proof.Machine

theorem exec_rank (s : State) : exec .rank s = execRank s := rfl

/-- A check that fails is the end of RANK. -/
theorem exec_rank_of_raised {s : State} {c : FaultCode} {x : Word}
    (h : requirePosition s.latch.arg0 s.latch.arg1 s = .error (.raised c x s)) : exec .rank s = .next (s.takeFault c x) := by
  rw [exec_rank, execRank, h, error_bind, conclude_raised]

/-- Settles O16: each check that fails ends the command in its fault; where all pass, the samples of a well-formed function make the
local rank the brute-force count (`localRank_eq`), and the global rank that count on top of POPBASE (`globalRank_eq`). -/
theorem rankCountsOnesBelow : Obligations.RankCountsOnesBelow := by
  intro s hs
  have hlevels := hs.inv.levels
  refine ⟨fun hb => ?_, fun hb hl => ?_, fun hb hl hn => ?_, fun hb hl hn => ?_⟩
  · exact exec_rank_of_raised (requirePosition_of_unbuilt hb _ _)
  · exact exec_rank_of_raised (requirePosition_of_level_ge hb hl _)
  · exact exec_rank_of_raised (requirePosition_of_position_ge hlevels hb hl hn)
  · have hfn := hs.fn hb
    rw [exec_rank, execRank, requirePosition_of_position_lt hlevels hb hl hn, ok_bind, localRank_eq hfn hlevels hl hn, ok_bind,
      globalRank_eq hfn hlevels hl hn, ok_bind, pure_eq_ok, conclude_ok]
    rfl

end Sys2Proof.Machine
end

section
/-!
PROOFS. QUERY and the query function (43_query.md R240-R244): the first level whose bit at the key's bucket is 1 gives the index. A 1 bit
is known by its global rank, and after a build no two keys of different values are found at one bit.
-/
namespace Sys2Proof.Machine

variable {s u : State} {d : Bool} {k k' : Word} {l m i j : Nat}

/-! ### The command (R240) -/

theorem exec_query (s : State) : exec .query s = execQuery s := rfl

/-- QUERY reports what the query function answers over a built function. -/
theorem exec_query_of_query (hb : s.status.built = true) {x : Word} {lv : Option Nat} (hq : query s.latch.arg0 s = .ok (x, lv)) :
    exec .query s = .next { s.complete with res0 := x, res1 := levelWord lv } := by
  rw [exec_query, execQuery, requireBuilt_of hb, ok_bind, hq]
  rfl

/-- Settles O17: the check for a built function comes first (`requireBuilt_of_not`); with one, the walk over the levels ends at the first
hit (`query_some`) or below them all (`query_none`). -/
theorem queryFindsFirstLevel : Obligations.QueryFindsFirstLevel := by
  intro s hs
  have hlevels := hs.inv.levels
  refine ⟨fun hb => ?_, fun hb hmiss => ?_, fun hb l hl hit hbefore => ?_⟩
  · rw [exec_query, execQuery, requireBuilt_of_not hb, error_bind, conclude_raised]
  · exact exec_query_of_query hb (query_none (hs.fn hb) hlevels _ hmiss)
  · exact exec_query_of_query hb (query_some (hs.fn hb) hlevels _ hl hit hbefore)

/-! ### The index (R241, R242) -/

/-- The index of a key whose first hit is at level `l`: the 1 bits of all levels before its own, and 1. -/
theorem State.FnInv.indexOf_of_first_hit (h : s.FnInv) (hn : s.nlevels.toNat ≤ 32) (hl : l < s.nlevels.toNat)
    (hit : s.hits k l = true) (hbefore : ∀ j < l, s.hits k j = false) :
    (s.indexOf k).toNat = s.popBefore (s.wordsBefore l) + s.onesBelow l (bucket s.params.hash k l (s.sizeAt l)) + 1 := by
  rw [State.indexOf, query_some h hn k hl hit hbefore]
  exact (h.index_toNat hl k hit).1

/-- The sentinel: the index is 0 exactly when the key's bit is 0 at every level. -/
theorem State.FnInv.indexOf_eq_zero_iff (h : s.FnInv) (hn : s.nlevels.toNat ≤ 32) (k : Word) :
    s.indexOf k = 0 ↔ ∀ l < s.nlevels.toNat, s.hits k l = false := by
  rcases query_cases h hn k with ⟨-, hzero, hmiss⟩ | ⟨l, hl, -, hit, -, hindex, -⟩
  · exact iff_of_true hzero hmiss
  · refine iff_of_false (fun hzero => ?_) fun hmiss => ?_
    · rw [hzero] at hindex
      exact Nat.succ_ne_zero _ hindex.symm
    · exact Bool.false_ne_true ((hmiss l hl).symm.trans hit)

/-- Settles O18: QUERY answers the key's index, which is at most TOTAL and the sentinel only for a key without a bit. -/
theorem queryIndexWithinTotal : Obligations.QueryIndexWithinTotal := by
  intro s hs hb
  have hfn := hs.fn hb
  have hlevels := hs.inv.levels
  obtain ⟨lv, hq⟩ := query_index hfn hlevels s.latch.arg0
  exact ⟨_, exec_query_of_query hb hq, (hfn.indexOf_le hlevels _).1, hfn.indexOf_eq_zero_iff hlevels _⟩

/-! ### A 1 bit is known by its global rank -/

/-- The counts below two positions that hold differ. -/
theorem ones_injective {p : Nat → Bool} (hi : p i = true) (hj : p j = true) (h : ones p i = ones p j) : i = j := by
  rcases Nat.lt_trichotomy i j with hlt | heq | hgt
  · exact absurd h (ones_lt hlt hi).ne
  · exact heq
  · exact absurd h (ones_lt hgt hj).ne'

/-- The global rank of a 1 bit is below the ranks of all later levels. -/
theorem State.FnInv.rank_lt_popBefore (h : s.FnInv) (hlm : l < m) (hm : m < s.nlevels.toNat) (hi : i < s.sizeAt l)
    (hbit : s.bitAt l i = true) : s.popBefore (s.wordsBefore l) + s.onesBelow l i < s.popBefore (s.wordsBefore m) := by
  have hlevel : s.onesBelow l i < s.onesBelow l (s.sizeAt l) := ones_lt hi hbit
  have hnext : s.popBefore (s.wordsBefore (l + 1)) = s.popBefore (s.wordsBefore l) + s.onesBelow l (s.sizeAt l) := by
    rw [h.popBefore_wordsBefore (by omega), h.popBefore_wordsBefore (by omega), sumFrom_succ, Nat.zero_add]
  have hmono := s.popBefore_mono (s.wordsBefore_mono (Nat.succ_le_of_lt hlm))
  rw [Nat.succ_eq_add_one, hnext] at hmono
  omega

theorem State.FnInv.rank_injective (h : s.FnInv) (hl : l < s.nlevels.toNat) (hm : m < s.nlevels.toNat) (hi : i < s.sizeAt l)
    (hj : j < s.sizeAt m) (hbi : s.bitAt l i = true) (hbj : s.bitAt m j = true)
    (heq : s.popBefore (s.wordsBefore l) + s.onesBelow l i = s.popBefore (s.wordsBefore m) + s.onesBelow m j) : l = m ∧ i = j := by
  rcases Nat.lt_trichotomy l m with hlt | rfl | hgt
  · have := h.rank_lt_popBefore hlt hm hi hbi
    omega
  · exact ⟨rfl, ones_injective hbi hbj (Nat.add_left_cancel heq)⟩
  · have := h.rank_lt_popBefore hgt hl hj hbj
    omega

/-! ### A build places one key at a bit -/

/-- A bucket that a single survivor has. -/
theorem eq_of_sharing_eq_one {idx : Word → Nat} {v : List Word} (hk : k ∈ v) (hk' : k' ∈ v) (hsame : idx k = idx k')
    (hone : sharing idx v (idx k) = 1) : k = k' := by
  obtain ⟨a, ha⟩ := List.length_eq_one_iff.1 hone
  have mem_bucket {w : Word} (hw : w ∈ v) (hidx : idx w = idx k) : w = a :=
    List.mem_singleton.1 (ha ▸ List.mem_filter.2 ⟨hw, beq_iff_eq.2 hidx⟩)
  rw [mem_bucket hk rfl, mem_bucket hk' hsame.symm]

variable {p : Params} {g left level wb rb L : Nat} {ks : List Word}

/-- A key found after the first level has no bit there, and is found among the other levels. -/
theorem FoundAt.of_cons {l0 : PlainLevel} {levels : List PlainLevel} (h : FoundAt p level (l0 :: levels) k (L + 1)) :
    bucket p.hash k level l0.size ∉ l0.ones ∧ FoundAt p (level + 1) levels k L := by
  obtain ⟨⟨l, hl, hbit⟩, hbefore⟩ := h
  refine ⟨hbefore 0 (Nat.succ_pos L) l0 rfl, ⟨l, hl, ?_⟩, fun j hj l' hl' => ?_⟩
  · rwa [show level + 1 + L = level + (L + 1) by omega]
  · rw [show level + 1 + j = level + (j + 1) by omega]
    exact hbefore (j + 1) (by omega) l' hl'

/-- A key whose bucket has no 1 bit is left to the next level. -/
theorem mem_leftOver_of_not_mem_ones (hk : k ∈ ks) (hbit : levelIdx p g level ks k ∉ (plainLevel p g d level wb rb ks).ones) :
    k ∈ leftOver p g d level ks :=
  (mem_placedOf_or_deferredOf (mem_survivorsOf.2 hk)).resolve_left fun hp => hbit (List.mem_map_of_mem hp)

/-- Two keys of a build that are found at the same bit of the same level are one value. -/
theorem cascadeLevels_found_injective (hk : k ∈ ks) (hk' : k' ∈ ks)
    (hL : FoundAt p level (cascadeLevels p g d left level wb rb ks) k L)
    (hL' : FoundAt p level (cascadeLevels p g d left level wb rb ks) k' L)
    (hsame : ∀ l, (cascadeLevels p g d left level wb rb ks)[L]? = some l →
      bucket p.hash k (level + L) l.size = bucket p.hash k' (level + L) l.size) : k = k' := by
  induction left generalizing level wb rb ks L with
  | zero =>
    obtain ⟨⟨l, hl, -⟩, -⟩ := hL
    rw [cascadeLevels_depth] at hl
    cases hl
  | succ left ih =>
    cases hfits : levelFits p (tableSize g ks.length) wb rb with
    | false =>
      obtain ⟨⟨l, hl, -⟩, -⟩ := hL
      rw [cascadeLevels_capacity hfits] at hl
      cases hl
    | true =>
      rw [cascadeLevels_level (List.ne_nil_of_mem hk) hfits] at hL hL' hsame
      cases L with
      | zero =>
        obtain ⟨⟨l, hl, hbit⟩, -⟩ := hL
        cases hl
        exact eq_of_sharing_eq_one (idx := levelIdx p g level ks) (mem_survivorsOf.2 hk) (mem_survivorsOf.2 hk') (hsame _ rfl)
          (mem_map_placedOf.1 hbit)
      | succ L =>
        obtain ⟨hnot, hrest⟩ := hL.of_cons
        obtain ⟨hnot', hrest'⟩ := hL'.of_cons
        refine ih (mem_leftOver_of_not_mem_ones hk hnot) (mem_leftOver_of_not_mem_ones hk' hnot') hrest hrest' fun l hl => ?_
        rw [show level + 1 + L = level + (L + 1) by omega]
        exact hsame l hl

/-- The first hit of a key in the built function is where the plain levels have it. -/
theorem State.Built.foundAt (h : s.Built d u) (hu : u.FnInv) (hL : L < u.nlevels.toNat) (hit : u.hits k L = true)
    (hbefore : ∀ j < L, u.hits k j = false) : FoundAt s.params 0 (s.buildLevels d) k L := by
  have hl : (s.buildLevels d)[L]? = some _ := List.getElem?_eq_getElem (h.nlevels ▸ hL)
  refine ⟨⟨_, hl, ?_⟩, fun j hj l' hl' => ?_⟩
  · rw [h.hits_eq hu k hl] at hit
    rw [Nat.zero_add]
    exact of_decide_eq_true hit
  · have hmiss := hbefore j hj
    rw [h.hits_eq hu k hl'] at hmiss
    rw [Nat.zero_add]
    exact of_decide_eq_false hmiss

/-- Keys with one index are one value: the index is the rank of a bit, and the bit is one key's. -/
theorem State.Built.indexOf_injective (h : s.Built d u) (hu : u.Usable) (hf : s.buildFault d = none)
    (hk : k ∈ s.keys s.latch.nkeys.toNat) (hk' : k' ∈ s.keys s.latch.nkeys.toNat) (heq : u.indexOf k = u.indexOf k') : k = k' := by
  have hfn := hu.fn
  obtain ⟨L, hL, hit, hbefore⟩ := h.finds hfn hf hk
  obtain ⟨L', hL', hit', hbefore'⟩ := h.finds hfn hf hk'
  have hpos := (hfn.sizes L hL).2.1
  have hpos' := (hfn.sizes L' hL').2.1
  have hrank := congrArg BitVec.toNat heq
  rw [hfn.indexOf_of_first_hit hu.levels hL hit hbefore, hfn.indexOf_of_first_hit hu.levels hL' hit' hbefore'] at hrank
  obtain ⟨rfl, hbucket⟩ := hfn.rank_injective hL hL' (bucket_lt _ _ _ (by omega)) (bucket_lt _ _ _ (by omega)) hit hit'
    (Nat.succ.inj hrank)
  refine cascadeLevels_found_injective hk hk' (h.foundAt hfn hL hit hbefore) (h.foundAt hfn hL hit' hbefore') fun l hl => ?_
  rw [Nat.zero_add, ← (h.levels L l hl).1, ← h.params]
  exact hbucket

/-- The index of a key of the build is in `1 .. TOTAL`. -/
theorem State.Built.indexOf_mem_Icc (h : s.Built d u) (hu : u.Usable) (hf : s.buildFault d = none)
    (hk : k ∈ s.keys s.latch.nkeys.toNat) : (u.indexOf k).toNat ∈ Finset.Icc 1 u.total.toNat := by
  obtain ⟨L, hL, hit, hbefore⟩ := h.finds hu.fn hf hk
  have hindex := hu.fn.indexOf_of_first_hit hu.levels hL hit hbefore
  exact Finset.mem_Icc.2 ⟨hindex ▸ Nat.succ_pos _, (hu.fn.indexOf_le hu.levels k).1⟩

/-- Every number in `1 .. TOTAL` is an index, since the different keys are TOTAL many with as many indices. -/
theorem State.Built.indexOf_surjective (h : s.Built d u) (hu : u.Usable) (hf : s.buildFault d = none) {x : Nat}
    (hx : x ∈ Finset.Icc 1 u.total.toNat) : ∃ k ∈ s.keys s.latch.nkeys.toNat, (u.indexOf k).toNat = x := by
  have hmaps : Set.MapsTo (fun k => (u.indexOf k).toNat) (s.keys s.latch.nkeys.toNat).toFinset (Finset.Icc 1 u.total.toNat) :=
    fun k hk => h.indexOf_mem_Icc hu hf (List.mem_toFinset.1 hk)
  have hinj : Set.InjOn (fun k => (u.indexOf k).toNat) (s.keys s.latch.nkeys.toNat).toFinset := fun k hk k' hk' heq =>
    h.indexOf_injective hu hf (List.mem_toFinset.1 hk) (List.mem_toFinset.1 hk') (BitVec.eq_of_toNat_eq heq)
  have hcard : (Finset.Icc 1 u.total.toNat).card ≤ (s.keys s.latch.nkeys.toNat).toFinset.card := by
    rw [Nat.card_Icc, Nat.add_sub_cancel, h.total_eq hu.fn]
    exact (cascadeLevels_count hf).le
  obtain ⟨k, hk, heq⟩ := Finset.surjOn_of_injOn_of_card_le _ hmaps hinj hcard hx
  exact ⟨k, List.mem_toFinset.1 hk, heq⟩

/-- Settles O30: the last writes of the build change no word `Query` reads, so its indices are those of the function built. -/
theorem queryIsBijectionOnKeys : Obligations.QueryIsBijectionOnKeys := by
  intro s t d h ht hb
  obtain ⟨⟨hn, hf⟩, u, hlast, hu, hbuilt⟩ := canBuild_of_built h ht hb
  have hsame : SameFunction u t := by
    rw [hlast]
    constructor <;> intros <;> rfl
  have hkeys : t.keys t.bnkeys.toNat = s.keys s.latch.nkeys.toNat := by
    rw [hsame.bnkeys, show u.bnkeys = s.latch.nkeys by rw [hbuilt.frame], ← hbuilt.keys_eq h.params hn, hlast]
    rfl
  rw [hkeys, hsame.total]
  simp only [hsame.indexOf hu.levels hu.fn]
  exact ⟨fun k hk => Finset.mem_Icc.1 (hbuilt.indexOf_mem_Icc hu hf hk), fun k hk j hj => hbuilt.indexOf_injective hu hf hk hj,
    fun x hx hle => hbuilt.indexOf_surjective hu hf (Finset.mem_Icc.2 ⟨hx, hle⟩)⟩

end Sys2Proof.Machine
end

section
/-!
PROOFS. The value array's commands (44_hashmap.md R260-R266): the index check LOOKUP and SET share, in its order, the slot each of them
accesses, and the words CLRVALS clears.
-/
namespace Sys2Proof.Machine

variable {s : State} {x : Word}

/-! ### The index check (R261): one equation for each end -/

theorem requireIndex_of_unbuilt (hb : s.status.built = false) (x : Word) :
    requireIndex x s = .error (.raised .notBuilt 0 s) := by
  rw [requireIndex, requireBuilt_of_not hb, error_bind]

theorem requireIndex_of_out_of_range (hb : s.status.built = true) (hx : x = 0 ∨ s.bnkeys.toNat < x.toNat) :
    requireIndex x s = .error (.raised .badIndex x s) := by
  have hbad : ¬(x ≠ 0 ∧ x.toNat ≤ s.bnkeys.toNat) := fun ⟨hne, hle⟩ => hx.elim hne hle.not_gt
  rw [requireIndex, requireBuilt_of hb, ok_bind, require_of_not (decide_eq_false hbad)]

theorem requireIndex_of_in_range (hb : s.status.built = true) (hpos : 1 ≤ x.toNat) (hle : x.toNat ≤ s.bnkeys.toNat) :
    requireIndex x s = .ok () := by
  have hne : x ≠ 0 := fun h0 => absurd (h0 ▸ hpos) (by decide)
  rw [requireIndex, requireBuilt_of hb, ok_bind, require_of (decide_eq_true ⟨hne, hle⟩)]

/-- An index from 1 to BNKEYS names a word of VALMEM, which holds as many words as there can be keys (R64, R260). -/
theorem slot_lt_words (hk : s.bnkeys.toNat ≤ s.params.keyDepth) (hpos : 1 ≤ x.toNat) (hle : x.toNat ≤ s.bnkeys.toNat) :
    x.toNat - 1 < Space.valmem.words s.params := by
  simp only [Space.words]
  omega

/-! ### LOOKUP (R262) -/

theorem exec_lookup (s : State) : exec .lookup s = execLookup s := rfl

/-- A check that fails is the end of LOOKUP. -/
theorem exec_lookup_of_raised {c : FaultCode} {i : Word} (h : requireIndex s.latch.arg0 s = .error (.raised c i s)) :
    exec .lookup s = .next (s.takeFault c i) := by
  rw [exec_lookup, execLookup, h, error_bind, conclude_raised]

/-- Settles O12: each index check that fails ends the command in its fault; where both pass, the slot lies inside VALMEM and is read. -/
theorem lookupReadsSlot : Obligations.LookupReadsSlot := by
  intro s hk
  refine ⟨fun hb => ?_, fun hb hx => ?_, fun hb hpos hle => ?_⟩
  · exact exec_lookup_of_raised (requireIndex_of_unbuilt hb _)
  · exact exec_lookup_of_raised (requireIndex_of_out_of_range hb hx)
  · rw [exec_lookup, execLookup, requireIndex_of_in_range hb hpos hle, ok_bind, memRead_of_lt (slot_lt_words hk hpos hle), ok_bind,
      pure_eq_ok, conclude_ok]
    rfl

/-! ### SET (R264) -/

theorem exec_set (s : State) : exec .set s = execSet s := rfl

/-- A check that fails is the end of SET. -/
theorem exec_set_of_raised {c : FaultCode} {i : Word} (h : requireIndex s.latch.arg0 s = .error (.raised c i s)) :
    exec .set s = .next (s.takeFault c i) := by
  rw [exec_set, execSet, h, error_bind, conclude_raised]

/-- SET with an index that names a slot completes with the slot's word stored. -/
theorem exec_set_of_in_range (hk : s.bnkeys.toNat ≤ s.params.keyDepth) (hb : s.status.built = true) (hpos : 1 ≤ s.latch.arg0.toNat)
    (hle : s.latch.arg0.toNat ≤ s.bnkeys.toNat) :
    exec .set s = .next (s.setWord .valmem (s.latch.arg0.toNat - 1) s.latch.arg1).complete := by
  rw [exec_set, execSet, requireIndex_of_in_range hb hpos hle, ok_bind, memWrite_of_lt (slot_lt_words hk hpos hle), conclude_ok]

/-- Settles O13: each index check that fails ends the command in its fault; where both pass, one word of VALMEM is stored, and
completing writes no memory. -/
theorem setWritesSlot : Obligations.SetWritesSlot := by
  intro s hk hm
  refine ⟨fun hb => ?_, fun hb hx => ?_, fun hb hpos hle => ?_⟩
  · exact exec_set_of_raised (requireIndex_of_unbuilt hb _)
  · exact exec_set_of_raised (requireIndex_of_out_of_range hb hx)
  · exact ⟨_, exec_set_of_in_range hk hb hpos hle, rfl, State.word_setWord_same hm _ _ _,
      fun _ ha => readByte_writeWord_of_outside _ _ ha⟩

/-! ### CLRVALS (R266) -/

/-- The bytes after the slots and tags of `n` keys are cleared: 0 in the two ranges, and as before elsewhere. -/
theorem readByte_zero_slots (s : State) (n a : Nat) :
    readByte ((s.zero .valmem 0 n).zero .tagmem 0 (2 * n)).mem a =
      if (0x50000000 ≤ a ∧ a < 0x50000000 + 8 * n) ∨ (0x60000000 ≤ a ∧ a < 0x60000000 + 16 * n) then 0 else readByte s.mem a := by
  simp only [State.zero, readByte_zeroWords, Space.addr, Space.base]
  rw [← ite_or]
  exact if_congr (by omega) rfl rfl

theorem exec_clrvals (s : State) : exec .clrvals s = execClrvals s := rfl

/-- CLRVALS over a built function completes with the slots and tags cleared and the range forgotten. -/
theorem exec_clrvals_of_built (hk : s.bnkeys.toNat ≤ s.params.keyDepth) (hb : s.status.built = true) :
    exec .clrvals s =
      .next ((s.zero .valmem 0 s.bnkeys.toNat).zero .tagmem 0 (2 * s.bnkeys.toNat)).forgetRange.complete := by
  rw [exec_clrvals, execClrvals, requireBuilt_of hb, ok_bind, clearSlots_eq _ hk, conclude_ok]

/-- Settles O14: the check for a built function is the only one, and forgetting the range and completing write no memory. -/
theorem clrvalsClearsSlotsAndRange : Obligations.ClrvalsClearsSlotsAndRange := by
  intro s hk
  refine ⟨fun hb => ?_, fun hb => ?_⟩
  · rw [exec_clrvals, execClrvals, requireBuilt_of_not hb, error_bind, conclude_raised]
  · exact ⟨_, exec_clrvals_of_built hk hb, rfl, readByte_zero_slots s _⟩

end Sys2Proof.Machine
end

section
/-!
PROOFS. The key order of 45_sort.md R280 as an order of integers, the words from one bound to another in that order (R290), and a list
that holds each of them its number of times.
-/
namespace Sys2Proof.Machine

variable {signed : Bool} {a b lo hi v : Word}

/-! ### The order (R280) -/

/-- The integer by which `Less` orders a word: its two's-complement value, or its unsigned value. -/
def orderValue (signed : Bool) (w : Word) : Int := if signed then w.toInt else w.toNat

theorem less_eq_decide (signed : Bool) (a b : Word) : less signed a b = decide (orderValue signed a < orderValue signed b) := by
  cases signed
  · exact decide_eq_decide.2 Int.ofNat_lt.symm
  · rfl

theorem less_iff : less signed a b = true ↔ orderValue signed a < orderValue signed b := by
  rw [less_eq_decide, decide_eq_true_eq]

/-- Not less, the other way round, is at most. -/
theorem not_less_iff : less signed b a = false ↔ orderValue signed a ≤ orderValue signed b := by
  rw [less_eq_decide, decide_eq_false_iff_not, Int.not_lt]

/-- Settles O31: the order values are the two's-complement and the unsigned value. -/
theorem keyOrderBySignedness : Obligations.KeyOrderBySignedness := fun _ _ => ⟨less_iff, less_iff.trans Int.ofNat_lt⟩

/-! ### The words from one bound to another (R290) -/

/-- The distance from the lower to the higher of two words does not wrap. -/
theorem orderValue_sub (h : orderValue signed lo ≤ orderValue signed hi) :
    ((hi - lo).toNat : Int) = orderValue signed hi - orderValue signed lo := by
  have h1 := lo.isLt
  have h2 := hi.isLt
  simp only [orderValue, BitVec.toNat_sub, BitVec.toInt] at h ⊢
  cases signed <;> simp only [Bool.false_eq_true, if_true, if_false] at h ⊢ <;> omega

/-- Going up from a word by no more than the distance to a higher one does not wrap. -/
theorem orderValue_add (h : orderValue signed lo ≤ orderValue signed hi) {t : Nat} (ht : t ≤ (hi - lo).toNat) :
    orderValue signed (lo + BitVec.ofNat 64 t) = orderValue signed lo + t := by
  have h1 := lo.isLt
  have h2 := hi.isLt
  simp only [orderValue, BitVec.toNat_sub, BitVec.toNat_add, BitVec.toNat_ofNat, BitVec.toInt] at h ht ⊢
  cases signed <;> simp only [Bool.false_eq_true, if_true, if_false] at h ⊢ <;> omega

/-- The words EMIT visits: from `lo` up to `hi`. -/
def wordsFrom (lo hi : Word) : List Word := (List.range ((hi - lo).toNat + 1)).map fun t => lo + BitVec.ofNat 64 t

theorem mem_wordsFrom (hlo : orderValue signed lo ≤ orderValue signed v) (hhi : orderValue signed v ≤ orderValue signed hi) :
    v ∈ wordsFrom lo hi := by
  refine List.mem_map.2 ⟨(v - lo).toNat, List.mem_range.2 ?_, ?_⟩
  · have h1 := orderValue_sub hlo
    have h2 := orderValue_sub (hlo.trans hhi)
    omega
  · rw [BitVec.ofNat_toNat, BitVec.setWidth_eq, BitVec.add_comm, BitVec.sub_add_cancel]

/-- They rise. -/
theorem wordsFrom_rising (h : orderValue signed lo ≤ orderValue signed hi) :
    (wordsFrom lo hi).Pairwise fun a b => orderValue signed a < orderValue signed b := by
  refine List.pairwise_map.2 (List.pairwise_lt_range.imp_of_mem fun {i j} hi' hj' hij => ?_)
  have hi' := List.mem_range.1 hi'
  have hj' := List.mem_range.1 hj'
  rw [orderValue_add h (by omega), orderValue_add h (by omega)]
  omega

/-! ### Each word its number of times -/

/-- The words of `l`, each as often as `c` says. -/
def repeated (c : Word → Nat) (l : List Word) : List Word := l.flatMap fun v => List.replicate (c v) v

theorem count_repeated (c : Word → Nat) (l : List Word) (v : Word) : (repeated c l).count v = l.count v * c v := by
  induction l with
  | nil => simp [repeated]
  | cons w l ih =>
    rw [repeated, List.flatMap_cons, List.count_append, ← repeated, ih, List.count_replicate, List.count_cons]
    by_cases hw : w = v
    · simp [hw, Nat.add_mul, Nat.add_comm]
    · simp [hw]

/-- Repetitions of rising words do not fall. -/
theorem repeated_sorted (c : Word → Nat) {l : List Word} (h : l.Pairwise fun a b => orderValue signed a < orderValue signed b) :
    (repeated c l).Pairwise fun a b => less signed b a = false := by
  refine List.pairwise_flatMap.2 ⟨fun v _ => ?_, h.imp fun {a b} hab x hx y hy => ?_⟩
  · exact List.pairwise_replicate.2 (.inr (not_less_iff.2 le_rfl))
  · rw [List.eq_of_mem_replicate hx, List.eq_of_mem_replicate hy]
    exact not_less_iff.2 hab.le

/-- A list whose words all lie between the bounds is a permutation of its own counts, repeated. -/
theorem repeated_perm {ks : List Word} (h : orderValue signed lo ≤ orderValue signed hi)
    (hks : ∀ k ∈ ks, orderValue signed lo ≤ orderValue signed k ∧ orderValue signed k ≤ orderValue signed hi) :
    (repeated ks.count (wordsFrom lo hi)).Perm ks := by
  have hnodup : (wordsFrom lo hi).Nodup := (wordsFrom_rising h).imp fun hab he => absurd (he ▸ hab) (lt_irrefl _)
  refine List.perm_iff_count.2 fun v => ?_
  rw [count_repeated]
  by_cases hv : v ∈ ks
  · rw [List.count_eq_one_of_mem hnodup (mem_wordsFrom (hks v hv).1 (hks v hv).2), Nat.one_mul]
  · rw [List.count_eq_zero_of_not_mem hv, Nat.mul_zero]

end Sys2Proof.Machine
end

section
/-!
PROOFS. ACCUM (45_sort.md R283): what counting one key writes (`State.countKey`), and what counting a list of keys leaves
(`State.Counted`), from a usable function on.
-/
namespace Sys2Proof.Machine

variable {s t u : State} {k : Word} {ks : List Word} {i j n : Nat}

/-! ### The same function -/

/-- Words whose bytes are the same are the same. -/
theorem word_eq_of_bytes {sp : Space} (h : ∀ a, sp.addr i ≤ a → a < sp.addr i + 8 → readByte t.mem a = readByte s.mem a) :
    t.word sp i = s.word sp i := readWord_congr fun k hk => h _ (Nat.le_add_right _ _) (by omega)

/-- A state with the same function is as usable. -/
theorem SameFunction.usable (h : SameFunction s t) (hs : s.Usable) : t.Usable :=
  ⟨h.params ▸ hs.params, h.built.trans hs.built, h.nlevels ▸ hs.levels, h.fnInv hs.levels hs.fn⟩

/-- A key with an index has a slot, of a key the function was built over (R283). -/
theorem State.Usable.slot_lt (h : s.Usable) (hk : s.indexOf k ≠ 0) :
    (s.indexOf k).toNat - 1 < s.bnkeys.toNat ∧ (s.indexOf k).toNat = (s.indexOf k).toNat - 1 + 1 := by
  have hpos : (s.indexOf k).toNat ≠ 0 := fun h0 => hk (BitVec.eq_of_toNat_eq h0)
  have := (h.fn.indexOf_le h.levels k).2
  omega

/-! ### One key -/

/-- Key `k` counted into slot `j` (R283): the count, the tag, the range. -/
def State.countKey (j : Nat) (k : Word) (s : State) : State :=
  (((s.setWord .valmem j (s.word .valmem j + 1)).setWord .tagmem (2 * j) k).setWord .tagmem (2 * j + 1) 1).widenRange k

theorem State.widenRange_of_range (h : s.status.rangev = true) (k : Word) : s.widenRange k = { s with
    min := if less s.latch.signed k s.min then k else s.min, max := if less s.latch.signed s.max k then k else s.max } := if_pos h

theorem State.widenRange_of_no_range (h : s.status.rangev = false) (k : Word) : s.widenRange k = { s with
    min := k, max := k, status := { s.status with rangev := true } } := if_neg (h ▸ Bool.false_ne_true)

/-- Stores and the range do not meet. -/
theorem State.widenRange_setWord (s : State) (sp : Space) (i : Nat) (v k : Word) :
    (s.setWord sp i v).widenRange k = (s.widenRange k).setWord sp i v := by
  cases h : s.status.rangev with
  | true => rw [State.widenRange_of_range h, State.widenRange_of_range (s := s.setWord sp i v) h]; rfl
  | false => rw [State.widenRange_of_no_range h, State.widenRange_of_no_range (s := s.setWord sp i v) h]; rfl

/-- Counting a key is widening the range and storing three words. -/
theorem State.countKey_eq (j : Nat) (k : Word) (s : State) : s.countKey j k = { s.widenRange k with
    mem := writeWord (writeWord (writeWord s.mem (Space.valmem.addr j) (s.word .valmem j + 1)) (Space.tagmem.addr (2 * j)) k)
      (Space.tagmem.addr (2 * j + 1)) 1 } := by
  have hmem : (s.widenRange k).mem = s.mem := by
    unfold State.widenRange
    split <;> rfl
  rw [State.countKey, State.widenRange_setWord, State.widenRange_setWord, State.widenRange_setWord]
  simp only [State.setWord, hmem]

theorem State.countKey_mem (j : Nat) (k : Word) (s : State) : (s.countKey j k).mem =
    writeWord (writeWord (writeWord s.mem (Space.valmem.addr j) (s.word .valmem j + 1)) (Space.tagmem.addr (2 * j)) k)
      (Space.tagmem.addr (2 * j + 1)) 1 := by rw [State.countKey_eq]

/-- Counting a key changes memory and the range alone. -/
theorem State.countKey_frame (j : Nat) (k : Word) (s : State) : s.countKey j k = { s with
    mem := (s.countKey j k).mem, status := { s.status with rangev := true },
    min := if s.status.rangev then (if less s.latch.signed k s.min then k else s.min) else k,
    max := if s.status.rangev then (if less s.latch.signed s.max k then k else s.max) else k } := by
  rw [State.countKey_eq]
  cases h : s.status.rangev with
  | true => rw [State.widenRange_of_range h, if_pos rfl, if_pos rfl, ← h]
  | false => rw [State.widenRange_of_no_range h, if_neg Bool.false_ne_true, if_neg Bool.false_ne_true]

theorem memWf_countKey (hm : memWf s.mem = true) (j : Nat) (k : Word) : memWf (s.countKey j k).mem = true := by
  rw [State.countKey_mem]
  exact memWf_writeWord (memWf_writeWord (memWf_writeWord hm _ _) _ _) _ _

/-- The slot's count grows by 1, and no other slot's changes. -/
theorem word_countKey_valmem (hp : s.params.Wf) (hm : memWf s.mem = true) (hj : j < s.params.keyDepth) (hi : i < s.params.keyDepth)
    (k : Word) : (s.countKey j k).word .valmem i = if i = j then s.word .valmem i + 1 else s.word .valmem i := by
  have apart {x : Nat} (hx : x < 2 * s.params.keyDepth) :=
    Space.addr_apart hp (sp := .valmem) (sq := .tagmem) hi hx (.inl (by decide))
  rw [State.word, State.countKey_mem, readWord_writeWord_of_disjoint _ _ (apart (by omega)),
    readWord_writeWord_of_disjoint _ _ (apart (by omega))]
  split
  · next h => rw [h, readWord_writeWord_same hm]
  · next h => exact readWord_writeWord_of_disjoint _ _ (Space.addr_apart hp (sp := .valmem) (sq := .valmem) hi hj (.inr h))

/-- The slot's tag is the key. -/
theorem tag_countKey_same (hm : memWf s.mem = true) (j : Nat) (k : Word) :
    (s.countKey j k).tagValid j = true ∧ (s.countKey j k).tag j = k := by
  have hm1 := memWf_writeWord hm (Space.valmem.addr j) (s.word .valmem j + 1)
  constructor
  · rw [State.tagValid, State.word, State.countKey_mem, readWord_writeWord_same (memWf_writeWord hm1 _ _)]
    decide
  · rw [State.tag, State.word, State.countKey_mem,
      readWord_writeWord_of_disjoint _ _ (.inl (by simp only [Space.addr]; omega)), readWord_writeWord_same hm1]

/-- No other slot's tag words change. -/
theorem word_countKey_tagmem (hp : s.params.Wf) (hj : j < s.params.keyDepth) (hi : i < 2 * s.params.keyDepth)
    (hij : i ≠ 2 * j ∧ i ≠ 2 * j + 1) (k : Word) : (s.countKey j k).word .tagmem i = s.word .tagmem i := by
  have apart {sp : Space} {x : Nat} (hx : x < sp.words s.params) (h : .tagmem ≠ sp ∨ i ≠ x) :=
    Space.addr_apart hp (sp := .tagmem) hi hx h
  have htag {x : Nat} (hx : x < 2 * s.params.keyDepth) : x < Space.tagmem.words s.params := hx
  rw [State.word, State.countKey_mem, readWord_writeWord_of_disjoint _ _ (apart (htag (by omega)) (.inr hij.2)),
    readWord_writeWord_of_disjoint _ _ (apart (htag (by omega)) (.inr hij.1)),
    readWord_writeWord_of_disjoint _ _ (apart (sp := .valmem) hj (.inl (by decide)))]
  rfl

/-- No byte outside the slot and its tag words changes. -/
theorem readByte_countKey {a : Nat} (hv : a < Space.valmem.addr j ∨ Space.valmem.addr j + 8 ≤ a)
    (ht : a < Space.tagmem.addr (2 * j) ∨ Space.tagmem.addr (2 * j) + 16 ≤ a) (k : Word) (s : State) :
    readByte (s.countKey j k).mem a = readByte s.mem a := by
  rw [State.countKey_mem, readByte_writeWord_of_outside _ _ (by simp only [Space.addr] at ht ⊢; omega),
    readByte_writeWord_of_outside _ _ (by omega), readByte_writeWord_of_outside _ _ hv]

/-! ### The range -/

/-- A least value by `f`, next to one more. -/
theorem least_concat {f : Word → Int} {l : List Word} {m : Word} (hm : m ∈ l ∧ ∀ x ∈ l, f m ≤ f x) (k : Word) :
    (if f k < f m then k else m) ∈ l ++ [k] ∧ ∀ x ∈ l ++ [k], f (if f k < f m then k else m) ≤ f x := by
  obtain ⟨hmem, hle⟩ := hm
  split
  · next h =>
    refine ⟨by simp, fun x hx => ?_⟩
    rcases List.mem_append.1 hx with hx | hx
    · exact h.le.trans (hle x hx)
    · rw [List.mem_singleton.1 hx]
  · next h =>
    refine ⟨by simp [hmem], fun x hx => ?_⟩
    rcases List.mem_append.1 hx with hx | hx
    · exact hle x hx
    · rw [List.mem_singleton.1 hx]
      exact not_lt.1 h

/-- What MIN is the least of after counting `ks`: the keys counted, and MIN before where there was a range. -/
def State.lows (s : State) (ks : List Word) : List Word := if s.status.rangev then s.min :: ks else ks

/-- What MAX is the greatest of. -/
def State.highs (s : State) (ks : List Word) : List Word := if s.status.rangev then s.max :: ks else ks

theorem mem_lows : k ∈ s.lows ks ↔ k ∈ ks ∨ (s.status.rangev = true ∧ k = s.min) := by
  unfold State.lows
  split <;> next h => simp [h, or_comm]

theorem mem_highs : k ∈ s.highs ks ↔ k ∈ ks ∨ (s.status.rangev = true ∧ k = s.max) := by
  unfold State.highs
  split <;> next h => simp [h, or_comm]

theorem State.lows_concat (s : State) (ks : List Word) (k : Word) : s.lows (ks ++ [k]) = s.lows ks ++ [k] := by
  unfold State.lows
  split <;> rfl

theorem State.highs_concat (s : State) (ks : List Word) (k : Word) : s.highs (ks ++ [k]) = s.highs ks ++ [k] := by
  unfold State.highs
  split <;> rfl

/-- The range is that of the keys counted from `s` on: where there is one, MIN is the least and MAX the greatest. -/
structure State.Ranged (s : State) (ks : List Word) (t : State) : Prop where
  valid : t.status.rangev = (s.status.rangev || !ks.isEmpty)
  min   : t.status.rangev = true →
    t.min ∈ s.lows ks ∧ ∀ k ∈ s.lows ks, orderValue s.latch.signed t.min ≤ orderValue s.latch.signed k
  max   : t.status.rangev = true →
    t.max ∈ s.highs ks ∧ ∀ k ∈ s.highs ks, -orderValue s.latch.signed t.max ≤ -orderValue s.latch.signed k

theorem State.Ranged.nil (s : State) : s.Ranged [] s where
  valid := by simp
  min h := by simp [State.lows, h]
  max h := by simp [State.highs, h]

/-- Counting a key widens the range to it. -/
theorem State.Ranged.countKey (h : s.Ranged ks t) (hl : t.latch.signed = s.latch.signed) (j : Nat) (k : Word) :
    s.Ranged (ks ++ [k]) (t.countKey j k) := by
  rw [State.countKey_frame]
  cases hv : t.status.rangev with
  | true =>
    refine ⟨by simp, fun _ => ?_, fun _ => ?_⟩
    · simp only [if_true, hl, less_iff, s.lows_concat]
      exact least_concat (h.min hv) k
    · simp only [if_true, hl, less_iff, s.highs_concat, ← Int.neg_lt_neg_iff (a := orderValue _ k)]
      exact least_concat (f := fun w => -orderValue s.latch.signed w) (h.max hv) k
  | false =>
    obtain ⟨hs, hks⟩ : s.status.rangev = false ∧ ks = [] := by
      have := h.valid
      rw [hv] at this
      simpa using this.symm
    refine ⟨by simp, fun _ => ?_, fun _ => ?_⟩ <;> simp [State.lows, State.highs, hs, hks]

end Sys2Proof.Machine
end

section
/-!
PROOFS. ACCUM (45_sort.md R283) over any number of keys: from a usable function on, what the loop leaves after counting the keys `ks`
(`State.Counted`), the three ends of one more key, and the command.
-/
namespace Sys2Proof.Machine

variable {s t u : State} {k : Word} {ks : List Word} {i j m n : Nat}

/-! ### The keys counted -/

/-- How many of the keys have slot `j`. -/
def State.keysAt (s : State) (ks : List Word) (j : Nat) : Nat := (ks.filter fun k => decide ((s.indexOf k).toNat = j + 1)).length

theorem State.keysAt_concat (s : State) (ks : List Word) (k : Word) (j : Nat) :
    s.keysAt (ks ++ [k]) j = s.keysAt ks j + if (s.indexOf k).toNat = j + 1 then 1 else 0 := by
  rw [State.keysAt, List.filter_append, List.length_append, State.keysAt]
  split <;> next h => simp [h]

/-- The keys `ks` have been counted into the slots of `s`, in this order, and `t` is what they left. -/
structure State.Counted (s : State) (ks : List Word) (t : State) : Prop where
  frame    : t = { s with
    mem := t.mem, min := t.min, max := t.max, status := { s.status with rangev := t.status.rangev } }
  ranged   : s.Ranged ks t
  memWf    : memWf t.mem = true
  counts   : ∀ j < s.bnkeys.toNat, t.word .valmem j = s.word .valmem j + BitVec.ofNat 64 (s.keysAt ks j)
  tagged   : ∀ k ∈ ks, t.tagValid ((s.indexOf k).toNat - 1) = true ∧ t.tag ((s.indexOf k).toNat - 1) = k
  untagged : ∀ j < s.bnkeys.toNat, (∀ k ∈ ks, (s.indexOf k).toNat ≠ j + 1) →
    t.word .tagmem (2 * j) = s.word .tagmem (2 * j) ∧ t.word .tagmem (2 * j + 1) = s.word .tagmem (2 * j + 1)
  bytes    : ∀ a : Nat, ¬ (0x50000000 ≤ a ∧ a < 0x50000000 + 8 * s.bnkeys.toNat) →
    ¬ (0x60000000 ≤ a ∧ a < 0x60000000 + 16 * s.bnkeys.toNat) → readByte t.mem a = readByte s.mem a

theorem State.Counted.nil (hm : Sys2Proof.Machine.memWf s.mem = true) : s.Counted [] s where
  frame := rfl
  ranged := .nil s
  memWf := hm
  counts _ _ := by simp [State.keysAt]
  tagged _ hk := nomatch hk
  untagged _ _ _ := ⟨rfl, rfl⟩
  bytes _ _ _ := rfl

/-- Counting leaves the function alone. -/
theorem State.Counted.sameFunction (h : s.Counted ks t) (hp : s.params.Wf) : SameFunction s t := by
  have hbytes := h.bytes
  have hkept : FunctionKept s t := by
    rw [h.frame]
    exact ⟨rfl, rfl, rfl, rfl, rfl, rfl, rfl, fun a ha => hbytes a (by omega) (by omega)⟩
  exact hkept.sameFunction hp (by rw [h.frame])

/-- Counting leaves the keys alone. -/
theorem State.Counted.key_eq (h : s.Counted ks t) (hp : s.params.Wf) (hi : i < s.params.keyDepth) :
    t.word .keymem i = s.word .keymem i := by
  have hb := Space.addr_bounds hp (show i < Space.keymem.words s.params from hi)
  simp only [Space.base] at hb
  exact word_eq_of_bytes fun a h1 h2 => h.bytes a (by omega) (by omega)

/-- One more key, whose slot carries no other key's tag. -/
theorem State.Counted.concat (h : s.Counted ks t) (hs : s.Usable) (hx : s.indexOf k ≠ 0)
    (hk : t.tagValid ((s.indexOf k).toNat - 1) = true → t.tag ((s.indexOf k).toNat - 1) = k) :
    s.Counted (ks ++ [k]) (t.countKey ((s.indexOf k).toNat - 1) k) := by
  obtain ⟨hj, hjx⟩ := hs.slot_lt hx
  have hpt : t.params = s.params := by rw [h.frame]
  have hp : t.params.Wf := hpt ▸ hs.params
  have hdepth : s.bnkeys.toNat ≤ t.params.keyDepth := hpt ▸ hs.fn.slots
  generalize hslot : (s.indexOf k).toNat - 1 = j at hj hjx hk ⊢
  have other {i : Nat} (hi : i < s.bnkeys.toNat) (hij : i ≠ j) : (t.countKey j k).word .tagmem (2 * i) = t.word .tagmem (2 * i) ∧
      (t.countKey j k).word .tagmem (2 * i + 1) = t.word .tagmem (2 * i + 1) :=
    ⟨word_countKey_tagmem hp (by omega) (by omega) (by omega) k, word_countKey_tagmem hp (by omega) (by omega) (by omega) k⟩
  refine ⟨?_, h.ranged.countKey (by rw [h.frame]) j k, memWf_countKey h.memWf j k, fun i hi => ?_, fun k' hk' => ?_,
    fun i hi hks => ?_, fun a hv ht => ?_⟩
  · obtain ⟨mem, lo, hi, r, rfl⟩ : ∃ mem lo hi r, t = { s with
        mem := mem, min := lo, max := hi, status := { s.status with rangev := r } } := ⟨_, _, _, _, h.frame⟩
    rw [State.countKey_frame]
  · rw [word_countKey_valmem hp h.memWf (by omega) (by omega), h.counts i hi, s.keysAt_concat]
    by_cases hij : i = j
    · rw [if_pos hij, if_pos (by omega), BitVec.ofNat_add, BitVec.add_assoc]
      rfl
    · rw [if_neg hij, if_neg (by omega), Nat.add_zero]
  · by_cases hsame : (s.indexOf k').toNat - 1 = j
    · have hkk : k' = k := by
        rcases List.mem_append.1 hk' with hmem | hmem
        · obtain ⟨hvalid, htag⟩ := h.tagged k' hmem
          rw [hsame] at hvalid htag
          exact htag.symm.trans (hk hvalid)
        · exact List.mem_singleton.1 hmem
      rw [hsame, hkk]
      exact tag_countKey_same h.memWf j k
    · have hmem : k' ∈ ks := (List.mem_append.1 hk').resolve_right fun hmem =>
        hsame (by rw [List.mem_singleton.1 hmem, hslot])
      have hlt : (s.indexOf k').toNat - 1 < s.bnkeys.toNat := by
        have := (hs.fn.indexOf_le hs.levels k').2
        omega
      rw [State.tagValid, State.tag, (other hlt hsame).1, (other hlt hsame).2]
      exact h.tagged k' hmem
  · have hij : i ≠ j := fun hij => hks k (by simp) (by omega)
    rw [(other hi hij).1, (other hi hij).2]
    exact h.untagged i hi fun k' hk' => hks k' (by simp [hk'])
  · rw [readByte_countKey (by simp only [Space.addr, Space.base]; omega) (by simp only [Space.addr, Space.base]; omega)]
    exact h.bytes a hv ht

/-- A slot carries the tag of a key counted into it, or its tag from before. -/
theorem State.Counted.tag_cases (h : s.Counted ks t) (hj : j < s.bnkeys.toNat) :
    (∃ k ∈ ks, (s.indexOf k).toNat = j + 1 ∧ t.tag j = k) ∨ t.tagValid j = s.tagValid j ∧ t.tag j = s.tag j := by
  by_cases hkey : ∃ k ∈ ks, (s.indexOf k).toNat = j + 1
  · obtain ⟨k, hk, heq⟩ := hkey
    have htag := (h.tagged k hk).2
    rw [heq, Nat.add_sub_cancel] at htag
    exact .inl ⟨k, hk, heq, htag⟩
  · obtain ⟨heven, hodd⟩ := h.untagged j hj fun k hk heq => hkey ⟨k, hk, heq⟩
    exact .inr ⟨congrArg (·.getLsbD 0) hodd, heven⟩

/-! ### The three ends of one more key -/

/-- What the count of the next key reads is as at the start. -/
theorem State.Counted.reads (h : s.Counted ks t) (hs : s.Usable) (hi : i < s.params.keyDepth) : t.Usable ∧ i < t.params.keyDepth ∧
    t.word .keymem i = s.word .keymem i ∧ t.indexOf (t.word .keymem i) = s.indexOf (t.word .keymem i) := by
  have hsame := h.sameFunction hs.params
  exact ⟨hsame.usable hs, hsame.params ▸ hi, h.key_eq hs.params hi, hsame.indexOf hs.levels hs.fn _⟩

/-- A key with no index. -/
theorem State.Counted.accumKey_notFound (h : s.Counted ks t) (hs : s.Usable) (hi : i < s.params.keyDepth)
    (hx : s.indexOf (s.word .keymem i) = 0) : accumKey i t = .error (.raised .keyNotFound (s.word .keymem i) t) := by
  obtain ⟨ht, hit, hkey, hindex⟩ := h.reads hs hi
  rw [← hkey] at hx ⊢
  exact Sys2Proof.Machine.accumKey_notFound ht.fn ht.levels hit (hindex.trans hx)

/-- A key whose slot carries another key's tag. -/
theorem State.Counted.accumKey_mismatch (h : s.Counted ks t) (hs : s.Usable) (hi : i < s.params.keyDepth)
    (hx : s.indexOf (s.word .keymem i) ≠ 0) (hv : t.tagValid ((s.indexOf (s.word .keymem i)).toNat - 1) = true)
    (hk : t.tag ((s.indexOf (s.word .keymem i)).toNat - 1) ≠ s.word .keymem i) :
    accumKey i t = .error (.raised .tagMismatch (s.word .keymem i) t) := by
  obtain ⟨ht, hit, hkey, hindex⟩ := h.reads hs hi
  rw [← hkey] at hx hv hk ⊢
  rw [← hindex] at hx hv hk
  exact Sys2Proof.Machine.accumKey_mismatch ht.fn ht.levels hit hx hv hk

/-- A key that is counted. -/
theorem State.Counted.accumKey_counts (h : s.Counted ks t) (hs : s.Usable) (hi : i < s.params.keyDepth)
    (hx : s.indexOf (s.word .keymem i) ≠ 0) (hk : t.tagValid ((s.indexOf (s.word .keymem i)).toNat - 1) = true →
      t.tag ((s.indexOf (s.word .keymem i)).toNat - 1) = s.word .keymem i) :
    accumKey i t = .ok (t.countKey ((s.indexOf (s.word .keymem i)).toNat - 1) (s.word .keymem i)) := by
  obtain ⟨ht, hit, hkey, hindex⟩ := h.reads hs hi
  rw [← hkey] at hx hk ⊢
  rw [← hindex] at hx hk ⊢
  exact Sys2Proof.Machine.accumKey_counts ht.fn ht.levels hit hx hk

/-- The count of a key ends well only where the key is counted. -/
theorem State.Counted.accumKey_ok (h : s.Counted ks t) (hs : s.Usable) (hi : i < s.params.keyDepth) (hok : accumKey i t = .ok u) :
    s.indexOf (s.word .keymem i) ≠ 0 ∧ (t.tagValid ((s.indexOf (s.word .keymem i)).toNat - 1) = true →
      t.tag ((s.indexOf (s.word .keymem i)).toNat - 1) = s.word .keymem i) ∧
    u = t.countKey ((s.indexOf (s.word .keymem i)).toNat - 1) (s.word .keymem i) := by
  have hx : s.indexOf (s.word .keymem i) ≠ 0 := fun hx => by
    rw [h.accumKey_notFound hs hi hx] at hok
    cases hok
  have hk : t.tagValid ((s.indexOf (s.word .keymem i)).toNat - 1) = true →
      t.tag ((s.indexOf (s.word .keymem i)).toNat - 1) = s.word .keymem i := fun hv => by
    by_contra hk
    rw [h.accumKey_mismatch hs hi hx hv hk] at hok
    cases hok
  rw [h.accumKey_counts hs hi hx hk] at hok
  exact ⟨hx, hk, (Except.ok.inj hok).symm⟩

/-! ### The loop -/

theorem State.keys_succ (s : State) (n : Nat) : s.keys (n + 1) = s.keys n ++ [s.word .keymem n] := by
  rw [State.keys, List.range_succ, List.map_append]
  rfl

/-- However the loop ends: where it ends well, it has counted the keys. -/
theorem ends_accumLoop (hs : s.Usable) (hm : memWf s.mem = true) (hn : n ≤ s.params.keyDepth) :
    Ends (fun _ _ _ => True) (s.Counted (s.keys n)) (forUp n 0 accumKey s) := by
  suffices h : Ends (fun _ _ _ => True) (s.Counted (s.keys (0 + n))) (forUp n 0 accumKey s) by rwa [Nat.zero_add] at h
  refine Ends.forUp (fun i => s.Counted (s.keys i)) (start := 0) (.nil hm) fun i t _ hi h => ?_
  match hkey : accumKey i t with
  | .ok u =>
    obtain ⟨hx, hk, rfl⟩ := h.accumKey_ok hs (by omega) hkey
    rw [s.keys_succ]
    exact h.concat hs hx hk
  | .error (.raised _ _ _) => trivial
  | .error (.stopped _) => trivial

/-- Every key of `ks` has an index of its own, and its slot carries no other key's tag. -/
structure State.Countable (s : State) (ks : List Word) : Prop where
  found     : ∀ k ∈ ks, s.indexOf k ≠ 0 ∧
    (s.tagValid ((s.indexOf k).toNat - 1) = true → s.tag ((s.indexOf k).toNat - 1) = k)
  injective : ∀ k ∈ ks, ∀ j ∈ ks, s.indexOf k = s.indexOf j → k = j

/-- After some of such keys no slot carries another key's tag either. -/
theorem State.Counted.tag_of_countable {all : List Word} (h : s.Counted ks t) (hs : s.Usable) (hall : s.Countable all)
    (hks : ∀ k ∈ ks, k ∈ all) (hk : k ∈ all) (hv : t.tagValid ((s.indexOf k).toNat - 1) = true) :
    t.tag ((s.indexOf k).toNat - 1) = k := by
  obtain ⟨hx, htag⟩ := hall.found k hk
  obtain ⟨hj, hjx⟩ := hs.slot_lt hx
  rcases h.tag_cases hj with ⟨k', hk', heq, htag'⟩ | ⟨hvalid, hsame⟩
  · rw [htag']
    exact hall.injective k' (hks k' hk') k hk (BitVec.eq_of_toNat_eq (heq.trans hjx.symm))
  · rw [hsame]
    exact htag (hvalid ▸ hv)

/-- Over such keys the loop counts them all. -/
theorem does_accumLoop (hs : s.Usable) (hm : memWf s.mem = true) (hn : n ≤ s.params.keyDepth) (hall : s.Countable (s.keys n)) :
    Does (s.Counted (s.keys n)) (forUp n 0 accumKey s) := by
  suffices h : Does (s.Counted (s.keys (0 + n))) (forUp n 0 accumKey s) by rwa [Nat.zero_add] at h
  refine Does.forUp (fun i => s.Counted (s.keys i)) (start := 0) (.nil hm) fun i t _ hi h => ?_
  have hmem {i' : Nat} (hi' : i' < n) : s.word .keymem i' ∈ s.keys n := List.mem_map_of_mem (List.mem_range.2 hi')
  have hks : ∀ k ∈ s.keys i, k ∈ s.keys n := fun k hk => by
    obtain ⟨i', hi', rfl⟩ := List.mem_map.1 hk
    exact hmem ((List.mem_range.1 hi').trans (by omega))
  have hk := h.tag_of_countable hs hall hks (hmem (i' := i) (by omega))
  have hx := (hall.found _ (hmem (i' := i) (by omega))).1
  rw [h.accumKey_counts hs (by omega) hx hk, s.keys_succ]
  exact .pure (h.concat hs hx hk)

end Sys2Proof.Machine
end

section
/-!
PROOFS. The command ACCUM (45_sort.md R283): its ends over one key, over keys that can all be counted, over one key too many, and the
range after it.
-/
namespace Sys2Proof.Machine

variable {s t u : State} {k : Word} {i n : Nat}

/-- A command that ends without FAULT has completed. -/
theorem completed_of_no_fault {r : Except Abort State} (h : conclude r = .next t) (hf : t.status.fault = false) :
    ∃ u, r = .ok u ∧ t = u.complete := by
  rcases conclude_eq_next.1 h with hok | ⟨c, x, u, -, rfl⟩
  · exact hok
  · exact absurd hf (by simp)

theorem exec_accum (s : State) :
    exec .accum s = conclude (accumBody s >>= fun u => .ok { u with res0 := u.latch.nkeys }) := rfl

theorem exec_accum_of_ok (h : accumBody s = .ok u) : exec .accum s = .next { u.complete with res0 := u.latch.nkeys } := by
  rw [exec_accum, h, ok_bind, conclude_ok]
  rfl

theorem exec_accum_of_raised {c : FaultCode} {x : Word} (h : accumBody s = .error (.raised c x u)) :
    exec .accum s = .next (u.takeFault c x) := by
  rw [exec_accum, h, error_bind, conclude_raised]

theorem accumBody_of_unbuilt (hb : s.status.built = false) : accumBody s = .error (.raised .notBuilt 0 s) := by
  rw [accumBody, requireBuilt_of_not hb, error_bind]

/-- Once both checks pass ACCUM is its loop. -/
theorem accumBody_of_built (hb : s.status.built = true) (hn : s.latch.nkeys.toNat ≤ s.params.keyDepth) :
    accumBody s = forUp s.latch.nkeys.toNat 0 accumKey s := by
  rw [accumBody, requireBuilt_of hb, ok_bind, require_of (decide_eq_true hn), ok_bind]

/-- ACCUM completes only after both checks and the whole loop. -/
theorem accum_completed (h : exec .accum s = .next t) (hf : t.status.fault = false) :
    s.status.built = true ∧ s.latch.nkeys.toNat ≤ s.params.keyDepth ∧
      ∃ u, forUp s.latch.nkeys.toNat 0 accumKey s = .ok u ∧ t = { u.complete with res0 := u.latch.nkeys } := by
  obtain ⟨v, hv, rfl⟩ := completed_of_no_fault (exec_accum s ▸ h) hf
  obtain ⟨u, hbody, hu⟩ := bind_eq_ok.1 hv
  cases hu
  obtain ⟨⟨⟩, hb, hrest⟩ := bind_eq_ok.1 hbody
  obtain ⟨⟨⟩, hn, hloop⟩ := bind_eq_ok.1 hrest
  exact ⟨require_eq_ok.1 hb, of_decide_eq_true (require_eq_ok.1 hn), u, hloop, rfl⟩

/-! ### One key -/

/-- Settles O32: the check for a built function comes first, and then the loop's one key has one of its three ends. -/
theorem accumOverOneKey : Obligations.AccumOverOneKey := by
  intro s hs hone
  have hcount : s.latch.nkeys.toNat = 1 := congrArg BitVec.toNat hone
  have hdepth : 0 < s.params.keyDepth := hs.inv.params.1.1
  have h0 := State.Counted.nil hs.inv.mem
  have body (hb : s.status.built = true) : accumBody s = accumKey 0 s >>= fun u => .ok u := by
    rw [accumBody_of_built hb (by omega), hcount]
    rfl
  refine ⟨fun hb => ?_, fun hb hx => ?_, fun hb hx hv hk => ?_, fun hb hx hk => ?_⟩
  · exact exec_accum_of_raised (accumBody_of_unbuilt hb)
  · exact exec_accum_of_raised (by rw [body hb, h0.accumKey_notFound (hs.usable hb) hdepth hx, error_bind])
  · exact exec_accum_of_raised (by rw [body hb, h0.accumKey_mismatch (hs.usable hb) hdepth hx hv hk, error_bind])
  · have hu := hs.usable hb
    have hj : (s.indexOf (s.word .keymem 0)).toNat - 1 < s.params.keyDepth := by
      have := (hu.slot_lt hx).1
      have := hu.fn.slots
      omega
    refine ⟨_, exec_accum_of_ok (by rw [body hb, h0.accumKey_counts hu hdepth hx hk, ok_bind]), ?_, ?_, ?_, ?_,
      fun a hv ht => ?_⟩
    · rw [State.countKey_frame, hone]
      rfl
    · exact (word_countKey_valmem hs.inv.params hs.inv.mem hj hj _).trans (if_pos rfl)
    · exact (tag_countKey_same hs.inv.mem _ _).2
    · exact (tag_countKey_same hs.inv.mem _ _).1
    · exact readByte_countKey hv ht _ s

/-! ### Any number of keys -/

/-- Settles O33: over such keys the loop ends well (`does_accumLoop`), and the clauses are those of `State.Counted`. -/
theorem accumCountsEveryKey : Obligations.AccumCountsEveryKey := by
  intro s hs hb hn ks hfound hinj
  obtain ⟨u, hloop, hu⟩ := does_accumLoop (hs.usable hb) hs.inv.mem hn ⟨hfound, hinj⟩
  refine ⟨_, exec_accum_of_ok ((accumBody_of_built hb hn).trans hloop), ?_, hu.counts, hu.tagged, hu.untagged, hu.bytes⟩
  have hframe := hu.frame
  rw [hu.ranged.valid] at hframe
  obtain ⟨mem, lo, hi, rfl⟩ : ∃ mem lo hi, u = { s with
      mem := mem, min := lo, max := hi,
      status := { s.status with rangev := s.status.rangev || !(s.keys s.latch.nkeys.toNat).isEmpty } } := ⟨_, _, _, hframe⟩
  rfl

/-- Settles O35: what `State.Ranged` says of the keys counted, MIN and MAX before among them where there was a range. -/
theorem accumTracksRange : Obligations.AccumTracksRange := by
  intro s t hs _ ht hf hne le counted
  obtain ⟨hb, hn, u, hloop, rfl⟩ := accum_completed ht hf
  have hu : s.Counted counted u := by
    have h := ends_accumLoop (hs.usable hb) hs.inv.mem hn
    rwa [hloop] at h
  have hvalid : u.status.rangev = true := by
    have hpos : s.latch.nkeys.toNat ≠ 0 := fun h0 => hne (BitVec.eq_of_toNat_eq h0)
    rw [hu.ranged.valid]
    simp [counted, State.keys, hpos]
  obtain ⟨hmin, hlow⟩ := hu.ranged.min hvalid
  obtain ⟨hmax, hhigh⟩ := hu.ranged.max hvalid
  have low {k : Word} (hk : k ∈ s.lows counted) : le u.min k := not_less_iff.2 (hlow k hk)
  have high {k : Word} (hk : k ∈ s.highs counted) : le k u.max := not_less_iff.2 (Int.neg_le_neg_iff.1 (hhigh k hk))
  exact ⟨hvalid, fun k hk => ⟨low (mem_lows.2 (.inl hk)), high (mem_highs.2 (.inl hk))⟩,
    fun hr => ⟨low (mem_lows.2 (.inr ⟨hr, rfl⟩)), high (mem_highs.2 (.inr ⟨hr, rfl⟩))⟩, mem_lows.1 hmin, mem_highs.1 hmax⟩

/-! ### One key too many -/

/-- The state with another latched key count. -/
def State.withKeyCount (n : Word) (s : State) : State := { s with latch := { s.latch with nkeys := n } }

theorem sameFunction_withKeyCount (n : Word) (s : State) : SameFunction s (s.withKeyCount n) := by
  constructor <;> intros <;> rfl

theorem widenRange_withKeyCount (n : Word) (k : Word) (s : State) :
    (s.withKeyCount n).widenRange k = (s.widenRange k).withKeyCount n := by
  cases h : s.status.rangev with
  | true => rw [State.widenRange_of_range h, State.widenRange_of_range (s := s.withKeyCount n) h]; rfl
  | false => rw [State.widenRange_of_no_range h, State.widenRange_of_no_range (s := s.withKeyCount n) h]; rfl

/-- Counting a key does not read the key count. -/
theorem countKey_withKeyCount (n : Word) (j : Nat) (k : Word) (s : State) :
    (s.withKeyCount n).countKey j k = (s.countKey j k).withKeyCount n := by
  have hmem : (s.withKeyCount n).mem = s.mem := rfl
  have hword : (s.withKeyCount n).word .valmem j = s.word .valmem j := rfl
  rw [State.countKey_eq, State.countKey_eq, hmem, hword, widenRange_withKeyCount]
  simp only [State.withKeyCount]

/-- A key that is counted is counted alike under another key count. -/
theorem accumKey_withKeyCount (hs : s.Usable) (hm : memWf s.mem = true) (hi : i < s.params.keyDepth) (h : accumKey i s = .ok t)
    (n : Word) : accumKey i (s.withKeyCount n) = .ok (t.withKeyCount n) := by
  have hs' := (sameFunction_withKeyCount n s).usable hs
  have hindex := (sameFunction_withKeyCount n s).indexOf hs.levels hs.fn (s.word .keymem i)
  obtain ⟨hx, hk, rfl⟩ := (State.Counted.nil hm).accumKey_ok hs hi h
  rw [← countKey_withKeyCount, ← hindex]
  rw [← hindex] at hx hk
  exact (State.Counted.nil (s := s.withKeyCount n) hm).accumKey_counts hs' hi hx hk

/-- So is a loop of them. -/
theorem accumLoop_withKeyCount (hs : s.Usable) (hm : memWf s.mem = true) {c : Nat} (hi : i + c ≤ s.params.keyDepth)
    (h : forUp c i accumKey s = .ok t) (n : Word) : forUp c i accumKey (s.withKeyCount n) = .ok (t.withKeyCount n) := by
  induction c generalizing s i with
  | zero => cases h; rfl
  | succ c ih =>
    obtain ⟨u, hkey, hloop⟩ := bind_eq_ok.1 h
    have hu : u.Usable ∧ u.params = s.params := by
      have := runs_accumKey hs (j := i) (by omega)
      rwa [hkey] at this
    have hmu : memWf u.mem = true := by
      have := keeps_accumKey (sps := [.valmem, .tagmem]) i (by decide) (by decide) (.refl _ s)
      rw [hkey] at this
      exact this.stores.memWf hm
    rw [forUp, accumKey_withKeyCount hs hm (by omega) hkey, ok_bind]
    exact ih hu.1 hmu (by rw [hu.2]; omega) hloop

theorem forUp_succ_last (c i : Nat) (body : Nat → State → Except Abort State) (s : State) :
    forUp (c + 1) i body s = forUp c i body s >>= body (i + c) := by
  induction c generalizing i s with
  | zero => exact bind_pure (body i s)
  | succ c ih =>
    rw [forUp, forUp, bind_assoc]
    congr 1
    funext t
    rw [ih, Nat.add_right_comm, Nat.add_assoc]

/-- A fault after keys `ks` were counted changes the fault registers, FAULT and the phase alone. -/
theorem State.Counted.takeFault {ks : List Word} (h : s.Counted ks t) (c : FaultCode) (x : Word) : t.takeFault c x = { t with
    latch := s.latch, res0 := s.res0, faultCode := c, faultInfo := x, faultCmd := s.latch.word, phase := .idle,
    status := { t.status with done := s.status.done, fault := true } } := by
  obtain ⟨mem, lo, hi, r, rfl⟩ : ∃ mem lo hi r, t = { s with
      mem := mem, min := lo, max := hi, status := { s.status with rangev := r } } := ⟨_, _, _, _, h.frame⟩
  rfl

/-- Settles O34: the loop over one key more is the loop over the keys before it, under another key count, and then that key's fault. -/
theorem accumFaultKeepsEarlierKeys : Obligations.AccumFaultKeepsEarlierKeys := by
  intro s t m hs hcount hdepth _ ht hf
  change exec .accum (s.withKeyCount m) = .next t at ht
  obtain ⟨hb, hn, v, hloop, rfl⟩ := accum_completed ht hf
  have hu := hs.usable hb
  have hn : m.toNat ≤ s.params.keyDepth := hn
  have hloop : forUp m.toNat 0 accumKey s = .ok (v.withKeyCount s.latch.nkeys) :=
    accumLoop_withKeyCount ((sameFunction_withKeyCount m s).usable hu) hs.inv.mem ((Nat.zero_add _).trans_le hn) hloop s.latch.nkeys
  have hsucc : (m + 1).toNat = m.toNat + 1 := by
    have := hs.inv.params.1.2
    rw [BitVec.toNat_add]
    exact Nat.mod_eq_of_lt (show m.toNat + 1 < 2 ^ 64 by omega)
  have hcounted := ends_accumLoop hu hs.inv.mem hn
  rw [hloop] at hcounted
  have hbody : accumBody s = accumKey m.toNat (v.withKeyCount s.latch.nkeys) := by
    rw [accumBody_of_built (s := s) hb (by rwa [hcount]), hcount, hsucc, forUp_succ_last, Nat.zero_add, hloop, hcount, ok_bind]
  have hlt : m.toNat < s.params.keyDepth := by omega
  refine ⟨fun hx => ?_, fun hx hv hk => ?_⟩
  · rw [exec_accum_of_raised (hbody.trans (hcounted.accumKey_notFound hu hlt hx)), hcounted.takeFault]
    rfl
  · rw [exec_accum_of_raised (hbody.trans (hcounted.accumKey_mismatch hu hlt hx hv hk)), hcounted.takeFault]
    rfl

end Sys2Proof.Machine
end

section
/-!
PROOFS. EMIT (45_sort.md R290): its scan is its emission written word by word (`emitBody_eq`), what a list of words leaves in OUTMEM
(`State.Emitted`), and the command.
-/
namespace Sys2Proof.Machine

variable {s t u : State} {v : Word} {vs ws : List Word} {n : Nat}

/-! ### The count of a value -/

/-- What EMIT reads of a value is the function, the slots and the tags. -/
theorem countOf_congr (h : SameFunction s t) (hs : s.Usable)
    (hslot : ∀ j < s.params.keyDepth, t.word .valmem j = s.word .valmem j)
    (htag : ∀ j < 2 * s.params.keyDepth, t.word .tagmem j = s.word .tagmem j) (v : Word) : t.countOf v = s.countOf v := by
  have hj : (s.indexOf v).toNat - 1 < s.params.keyDepth := by
    have h1 := (hs.fn.indexOf_le hs.levels v).2
    have h2 := hs.fn.slots
    have h3 := hs.params.1.1
    omega
  have heven := htag (2 * ((s.indexOf v).toNat - 1)) (by omega)
  have hodd := htag (2 * ((s.indexOf v).toNat - 1) + 1) (by omega)
  simp only [State.countOf, State.tagValid, State.tag, h.indexOf hs.levels hs.fn]
  exact if_congr (by rw [heven, hodd]) (by rw [hslot _ hj]) rfl

/-- The emission is the words from MIN to MAX, repeated. -/
theorem emission_eq (h : s.status.rangev = true) : s.emission = repeated s.countOf (wordsFrom s.min s.max) := by
  rw [State.emission, if_pos h, repeated, wordsFrom, List.flatMap_map]

theorem emission_of_no_range (h : s.status.rangev = false) : s.emission = [] := by
  rw [State.emission, if_neg (by simp [h])]

/-! ### Words written to OUTMEM -/

/-- The words `vs` have been written to an OUTMEM counted from 0. -/
structure State.Emitted (s : State) (vs : List Word) (t : State) : Prop where
  frame : t = { s with mem := t.mem, outlen := BitVec.ofNat 64 vs.length }
  fits  : vs.length ≤ s.params.keyDepth
  memWf : memWf t.mem = true
  words : (List.range vs.length).map (t.word .outmem) = vs
  bytes : ∀ a : Nat, ¬ (0x70000000 ≤ a ∧ a < 0x70000000 + 8 * vs.length) → readByte t.mem a = readByte s.mem a

theorem State.Emitted.nil (hm : Sys2Proof.Machine.memWf s.mem = true) (ho : s.outlen = 0) : s.Emitted [] s where
  frame := by
    show s = { s with outlen := 0 }
    rw [← ho]
  fits := Nat.zero_le _
  memWf := hm
  words := rfl
  bytes _ _ := rfl

theorem State.Emitted.outlen_toNat (h : s.Emitted vs t) (hp : s.params.Wf) : t.outlen.toNat = vs.length := by
  have h1 := h.fits
  have h2 := hp.1.2
  rw [h.frame]
  exact Nat.mod_eq_of_lt (by omega)

/-- Words of OUTMEM are no words of the function, the slots or the tags. -/
theorem State.Emitted.word_eq (h : s.Emitted vs t) (hp : s.params.Wf) {sp : Space} (hsp : sp ≠ .outmem) {i : Nat}
    (hi : i < sp.words s.params) : t.word sp i = s.word sp i := by
  have hb := Space.addr_bounds hp hi
  have hapart := Space.base_apart hsp
  have hfits := h.fits
  have hdepth := hp.1.2
  have hbase : Space.outmem.base = 0x70000000 := rfl
  exact word_eq_of_bytes fun a h1 h2 => h.bytes a (by omega)

theorem State.Emitted.sameFunction (h : s.Emitted vs t) (hp : s.params.Wf) : SameFunction s t := by
  have hbytes := h.bytes
  have hkept : FunctionKept s t := by
    rw [h.frame]
    exact ⟨rfl, rfl, rfl, rfl, rfl, rfl, rfl, fun a ha => hbytes a (by omega)⟩
  exact hkept.sameFunction hp (by rw [h.frame])

theorem State.Emitted.countOf_eq (h : s.Emitted vs t) (hs : s.Usable) (v : Word) : t.countOf v = s.countOf v :=
  countOf_congr (h.sameFunction hs.params) hs (fun _ hj => h.word_eq hs.params (sp := .valmem) (by decide) hj)
    (fun _ hj => h.word_eq hs.params (sp := .tagmem) (by decide) hj) v

/-- One word more, where there is room. -/
theorem State.Emitted.emitOne (h : s.Emitted vs t) (hp : s.params.Wf) (hroom : vs.length < s.params.keyDepth) (v : Word) :
    Does (s.Emitted (vs ++ [v])) (emitOne v t) := by
  have hout := h.outlen_toNat hp
  have hpt : t.params = s.params := by rw [h.frame]
  rw [emitOne_eq v (by rw [hout, hpt]; exact hroom), hout]
  refine .pure ⟨?_, by simpa using hroom, memWf_setWord h.memWf _ _ _, ?_, fun a ha => ?_⟩
  · obtain ⟨mem, rfl⟩ : ∃ mem, t = { s with mem := mem, outlen := BitVec.ofNat 64 vs.length } := ⟨_, h.frame⟩
    rw [List.length_append, List.length_singleton, BitVec.ofNat_add]
    rfl
  · rw [List.length_append, List.length_singleton, List.range_succ, List.map_append, List.map_singleton]
    congr 1
    · refine (List.map_congr_left fun i hi => ?_).trans h.words
      have hi := List.mem_range.1 hi
      exact State.word_setWord_of_ne (hpt ▸ hp) v (show _ < t.params.keyDepth by rw [hpt]; exact hroom)
        (show _ < t.params.keyDepth by rw [hpt]; omega) (.inr (by omega))
    · exact congrArg (fun w => [w]) (State.word_setWord_same h.memWf _ _ _)
  · rw [List.length_append, List.length_singleton] at ha
    refine (readByte_writeWord_of_outside _ _ ?_).trans (h.bytes a (by omega))
    simp only [Space.addr, Space.base]
    omega

/-- One word more, where OUTMEM is full (R290). -/
theorem State.Emitted.emitOne_full (h : s.Emitted vs t) (hp : s.params.Wf) (hfull : vs.length = s.params.keyDepth) (v : Word) :
    Sys2Proof.Machine.emitOne v t = .error (.raised .outOverflow v t) :=
  Sys2Proof.Machine.emitOne_full v (by rw [h.outlen_toNat hp, hfull, h.frame])

/-- A list of words that fits. -/
theorem State.Emitted.emitAll (h : s.Emitted vs t) (hp : s.params.Wf) (hfit : vs.length + ws.length ≤ s.params.keyDepth) :
    Does (s.Emitted (vs ++ ws)) (forKeys ws Sys2Proof.Machine.emitOne t) := by
  induction ws generalizing vs t with
  | nil => exact .pure (by rwa [List.append_nil])
  | cons w ws ih =>
    rw [List.length_cons] at hfit
    refine (h.emitOne hp (by omega) w).bind fun u hu => ?_
    rw [List.append_cons]
    exact ih hu (by rw [List.length_append, List.length_singleton]; omega)

/-! ### The scan -/

theorem forKeys_append (ks ls : List Word) (body : Word → State → Except Abort State) (s : State) :
    forKeys (ks ++ ls) body s = forKeys ks body s >>= forKeys ls body := by
  induction ks generalizing s with
  | nil => rfl
  | cons k ks ih =>
    rw [List.cons_append, forKeys, forKeys, bind_assoc]
    simp only [ih]

theorem forUp_eq_forKeys_replicate (v : Word) (n i : Nat) (body : Word → State → Except Abort State) (s : State) :
    forUp n i (fun _ => body v) s = forKeys (List.replicate n v) body s := by
  induction n generalizing i s with
  | zero => rfl
  | succ n ih =>
    rw [forUp, List.replicate_succ, forKeys]
    simp only [ih]

/-- A loop whose every turn is a list of words is one list of words. -/
theorem forUp_eq_forKeys {body : Nat → State → Except Abort State} {step : Word → State → Except Abort State}
    {f : Nat → List Word} (I : State → Prop) (hbody : ∀ i t, I t → body i t = forKeys (f i) step t)
    (hstep : ∀ v t, I t → Ends (fun _ _ _ => True) I (step v t)) (n i : Nat) (h0 : I s) :
    forUp n i body s = forKeys ((List.range' i n).flatMap f) step s := by
  induction n generalizing i s with
  | zero => rfl
  | succ n ih =>
    have hturn : Ends (fun _ _ _ => True) I (forKeys (f i) step s) := Ends.forKeys h0 fun v t _ => hstep v t
    rw [List.range'_succ, List.flatMap_cons, forKeys_append, forUp, hbody i s h0]
    match hr : forKeys (f i) step s with
    | .ok t =>
      rw [hr] at hturn
      exact ih (i + 1) hturn
    | .error _ => rfl

/-- EMIT's body is its emission written word by word. -/
theorem emitBody_eq (hs : s.Usable) (hm : memWf s.mem = true) :
    emitBody s = forKeys s.startOutput.emission emitOne s.startOutput := by
  have hs' : s.startOutput.Usable := ⟨hs.params, hs.built, hs.levels, { hs.fn with }⟩
  rw [emitBody, requireBuilt_of hs.built, ok_bind]
  cases hr : s.status.rangev with
  | false => rw [emission_of_no_range (s := s.startOutput) hr]; rfl
  | true =>
    rw [State.emission, if_pos (show s.startOutput.status.rangev = true from hr), List.range_eq_range']
    refine forUp_eq_forKeys (fun t => ∃ vs, s.startOutput.Emitted vs t) (fun i t ⟨vs, ht⟩ => ?_) (fun v t ⟨vs, ht⟩ => ?_) _ _
      ⟨[], .nil hm rfl⟩
    · have hu := (ht.sameFunction hs.params).usable hs'
      rw [emitValue_eq hu.fn hu.levels, ht.countOf_eq hs', forUp_eq_forKeys_replicate]
    · rcases Nat.lt_or_eq_of_le ht.fits with hroom | hfull
      · obtain ⟨u, hu, he⟩ := ht.emitOne hs.params hroom v
        rw [hu]
        exact ⟨_, he⟩
      · rw [ht.emitOne_full hs.params hfull]
        trivial

/-- Starting an output changes nothing of what is emitted. -/
theorem emission_startOutput (hs : s.Usable) : s.startOutput.emission = s.emission := by
  have hsame : SameFunction s s.startOutput := by constructor <;> intros <;> rfl
  have hcount : s.startOutput.countOf = s.countOf := funext (countOf_congr hsame hs (fun _ _ => rfl) fun _ _ => rfl)
  rw [State.emission, State.emission, hcount]
  rfl

/-! ### The command -/

theorem exec_emit (s : State) : exec .emit s = conclude (emitBody s >>= fun u => .ok { u with res0 := u.outlen }) := rfl

theorem exec_emit_of_ok (h : emitBody s = .ok u) : exec .emit s = .next { u.complete with res0 := u.outlen } := by
  rw [exec_emit, h, ok_bind, conclude_ok]
  rfl

/-- The words written, one by one. -/
theorem State.Emitted.getElem?_eq (h : s.Emitted vs t) {i : Nat} (hi : i < vs.length) : vs[i]? = some (t.word .outmem i) := by
  have hw := congrArg (·[i]?) h.words
  simpa [hi] using hw.symm

/-- An output that fits is written whole. -/
theorem emitBody_of_fits (hs : s.Usable) (hm : memWf s.mem = true) (hfit : s.emission.length ≤ s.params.keyDepth) :
    Does (s.startOutput.Emitted s.emission) (emitBody s) := by
  rw [emitBody_eq hs hm, emission_startOutput hs]
  exact State.Emitted.emitAll (vs := []) (.nil hm rfl) hs.params ((Nat.zero_add _).trans_le hfit)

/-- One that does not fit is written as far as it fits, and the word after that raises OUT_OVERFLOW. -/
theorem emitBody_of_overflow (hs : s.Usable) (hm : memWf s.mem = true) (hover : s.params.keyDepth < s.emission.length) :
    ∃ u, s.startOutput.Emitted (s.emission.take s.params.keyDepth) u ∧
      emitBody s = .error (.raised .outOverflow s.emission[s.params.keyDepth] u) := by
  have hlen : (s.emission.take s.params.keyDepth).length = s.params.keyDepth := List.length_take_of_le hover.le
  obtain ⟨u, hloop, hu⟩ := State.Emitted.emitAll (s := s.startOutput) (vs := []) (ws := s.emission.take s.params.keyDepth)
    (.nil hm rfl) hs.params ((Nat.zero_add _).trans_le hlen.le)
  refine ⟨u, hu, ?_⟩
  rw [emitBody_eq hs hm, emission_startOutput hs]
  conv_lhs => rw [← List.take_append_drop s.params.keyDepth s.emission]
  rw [forKeys_append, hloop, ok_bind, List.drop_eq_getElem_cons hover, forKeys, hu.emitOne_full hs.params hlen, error_bind]

/-- Settles O36: the emission is written as far as it fits, and the word after that raises OUT_OVERFLOW. -/
theorem emitWritesEmission : Obligations.EmitWritesEmission := by
  intro s hs
  refine ⟨fun hb => ?_, fun hb hfit => ?_, fun hb hover => ?_⟩
  · rw [exec_emit, emitBody, requireBuilt_of_not hb, error_bind, error_bind, conclude_raised]
  · obtain ⟨u, hbody, hu⟩ := emitBody_of_fits (hs.usable hb) hs.inv.mem hfit
    refine ⟨_, exec_emit_of_ok hbody, ?_, fun i hi => hu.getElem?_eq hi, hu.bytes⟩
    obtain ⟨mem, rfl⟩ : ∃ mem, u = { s.startOutput with mem := mem, outlen := BitVec.ofNat 64 s.emission.length } := ⟨_, hu.frame⟩
    rfl
  · obtain ⟨u, hu, hbody⟩ := emitBody_of_overflow (hs.usable hb) hs.inv.mem hover
    have hlen : (s.emission.take s.params.keyDepth).length = s.params.keyDepth := List.length_take_of_le hover.le
    have hwords := fun i => hu.getElem?_eq (i := i)
    have hbytes := hu.bytes
    have hframe := hu.frame
    rw [hlen] at hwords hbytes hframe
    refine ⟨u.takeFault .outOverflow s.emission[s.params.keyDepth], _, ?_, List.getElem?_eq_getElem hover, ?_, fun i hi => ?_, hbytes⟩
    · rw [exec_emit, hbody, error_bind, conclude_raised]
    · obtain ⟨mem, rfl⟩ : ∃ mem, u = { s.startOutput with mem := mem, outlen := BitVec.ofNat 64 s.params.keyDepth } := ⟨_, hframe⟩
      rfl
    · rw [← List.getElem?_take_of_lt hi]
      exact hwords i hi

end Sys2Proof.Machine
end

section
/-!
PROOFS. SORT.P (45_sort.md R300, R305, R306): after its build every key has a slot of its own, cleared; the count of a value is then the
number of its keys, the emission a sorted permutation of the keys, and OUTMEM has room for it.
-/
namespace Sys2Proof.Machine

variable {s t u v w : State} {ks : List Word} {k : Word} {j : Nat}

/-! ### The command (R300) -/

/-- Settles O37: neither answer runs a body. -/
theorem sortWithoutKeys : Obligations.SortWithoutKeys := by
  intro s
  refine ⟨rfl, fun h => ?_⟩
  show execSort true s = _
  rw [execSort, Bool.not_true, if_neg (by decide), if_pos h, pure_eq_ok, conclude_ok]
  rfl

/-- The last writes of SORT.P and its completion. -/
def State.sortEnd (w : State) : State := { w.complete with res0 := w.outlen, res1 := w.total }

theorem exec_sort_of_keys (h : s.latch.nkeys ≠ 0) : exec (.sort true) s = conclude (buildBody true s >>= fun u =>
    accumBody u >>= fun v => emitBody v >>= fun w => .ok { w with res0 := w.outlen, res1 := w.total }) := by
  show execSort true s = _
  rw [execSort, Bool.not_true, if_neg (by decide), if_neg h]
  rfl

theorem exec_sort_of_raised (h : s.latch.nkeys ≠ 0) {c : FaultCode} {x : Word} (hb : buildBody true s = .error (.raised c x u)) :
    exec (.sort true) s = .next (u.takeFault c x) := by
  rw [exec_sort_of_keys h, hb, error_bind, conclude_raised]

theorem exec_sort_of_ok (h : s.latch.nkeys ≠ 0) (hb : buildBody true s = .ok u) (ha : accumBody u = .ok v)
    (he : emitBody v = .ok w) : exec (.sort true) s = .next w.sortEnd := by
  rw [exec_sort_of_keys h, hb, ok_bind, ha, ok_bind, he, ok_bind, conclude_ok]
  rfl

/-! ### Counting from cleared slots -/

/-- As many keys have the slot of `k` as are `k`. -/
theorem State.Countable.keysAt_eq (h : s.Countable ks) (hs : s.Usable) (hk : k ∈ ks) :
    s.keysAt ks ((s.indexOf k).toNat - 1) = ks.count k := by
  rw [State.keysAt, List.count, List.countP_eq_length_filter, ← (hs.slot_lt (h.found k hk).1).2]
  congr 1
  refine List.filter_congr fun k' hk' => ?_
  rw [Bool.eq_iff_iff, decide_eq_true_eq, beq_iff_eq]
  exact ⟨fun heq => h.injective k' hk' k hk (BitVec.eq_of_toNat_eq heq), fun heq => by rw [heq]⟩

/-- From cleared slots the count of a value is the number of its keys: a key finds its own tag, and any other value no tag or another
one (R305). -/
theorem State.Counted.countOf_eq (h : s.Counted ks t) (hs : s.Usable) (hall : s.Countable ks)
    (hclear : ∀ j < s.bnkeys.toNat, s.word .valmem j = 0 ∧ s.tagValid j = false) (hlen : ks.length < 2 ^ 64) :
    t.countOf = ks.count := by
  funext k
  rw [State.countOf, (h.sameFunction hs.params).indexOf hs.levels hs.fn]
  by_cases hk : k ∈ ks
  · have hx := (hall.found k hk).1
    have hj := (hs.slot_lt hx).1
    have hcount : ks.count k ≤ ks.length := List.count_le_length
    rw [if_pos ⟨hx, h.tagged k hk⟩, h.counts _ hj, (hclear _ hj).1, hall.keysAt_eq hs hk, zero_add, BitVec.toNat_ofNat]
    exact Nat.mod_eq_of_lt (by omega)
  · rw [List.count_eq_zero_of_not_mem hk]
    refine if_neg fun ⟨hx, hvalid, htag⟩ => ?_
    obtain ⟨hj, -⟩ := hs.slot_lt hx
    rcases h.tag_cases hj with ⟨k', hk', -, htag'⟩ | ⟨hsame, -⟩
    · exact hk (htag.symm.trans htag' ▸ hk')
    · exact Bool.false_ne_true ((hclear _ hj).2.symm.trans (hsame.symm.trans hvalid))

/-- MIN and MAX after counting from no range are the least and the greatest key. -/
theorem State.Ranged.bounds (h : s.Ranged ks t) (hr : s.status.rangev = false) (hne : ks ≠ []) : t.status.rangev = true ∧
    t.min ∈ ks ∧ t.max ∈ ks ∧ ∀ k ∈ ks, orderValue s.latch.signed t.min ≤ orderValue s.latch.signed k ∧
      orderValue s.latch.signed k ≤ orderValue s.latch.signed t.max := by
  have hvalid : t.status.rangev = true := by
    rw [h.valid]
    simp [hne]
  have hmin := h.min hvalid
  have hmax := h.max hvalid
  simp only [State.lows, State.highs, hr, Bool.false_eq_true, if_false] at hmin hmax
  exact ⟨hvalid, hmin.1, hmax.1, fun k hk => ⟨hmin.2 k hk, Int.neg_le_neg_iff.1 (hmax.2 k hk)⟩⟩

/-- What EMIT then has to write (R305). -/
theorem State.Counted.emission_sorted (h : s.Counted ks t) (hs : s.Usable) (hall : s.Countable ks)
    (hclear : ∀ j < s.bnkeys.toNat, s.word .valmem j = 0 ∧ s.tagValid j = false) (hlen : ks.length < 2 ^ 64)
    (hr : s.status.rangev = false) (hne : ks ≠ []) :
    t.emission.Perm ks ∧ t.emission.Pairwise fun a b => less s.latch.signed b a = false := by
  obtain ⟨hvalid, hmin, -, hbounds⟩ := h.ranged.bounds hr hne
  have hle := (hbounds _ hmin).2
  rw [emission_eq hvalid, h.countOf_eq hs hall hclear hlen]
  exact ⟨repeated_perm hle hbounds, repeated_sorted _ (wordsFrom_rising hle)⟩

/-! ### After the build -/

/-- The keys of a build that succeeded can all be counted. -/
theorem State.Built.countable {d : Bool} (h : s.Built d u) (hu : u.Usable) (hf : s.buildFault d = none) :
    u.Countable (s.keys s.latch.nkeys.toNat) ∧ ∀ j < u.bnkeys.toNat, u.word .valmem j = 0 ∧ u.tagValid j = false := by
  have hbn : u.bnkeys = s.latch.nkeys := by rw [h.frame]
  have hclear : ∀ j < u.bnkeys.toNat, u.word .valmem j = 0 ∧ u.tagValid j = false := fun j hj => by
    obtain ⟨hslot, -, htag⟩ := h.slots j (hbn ▸ hj)
    rw [State.tagValid, htag]
    exact ⟨hslot, rfl⟩
  refine ⟨⟨fun k hk => ?_, fun k hk k' hk' => h.indexOf_injective hu hf hk hk'⟩, hclear⟩
  have hx : u.indexOf k ≠ 0 := fun h0 => by
    have hpos := (Finset.mem_Icc.1 (h.indexOf_mem_Icc hu hf hk)).1
    rw [h0] at hpos
    exact absurd hpos (by decide)
  exact ⟨hx, fun hv => absurd ((hclear _ (hu.slot_lt hx).1).2.symm.trans hv) Bool.false_ne_true⟩

/-- The three bodies of a SORT.P that completes: `u` after the build, `v` after counting, `w` after the output. -/
structure State.Sorting (s u v w : State) : Prop where
  fits    : s.CanBuild true
  build   : buildBody true s = .ok u
  usable  : u.Usable
  built   : s.Built true u
  counted : u.Counted (s.keys s.latch.nkeys.toNat) v
  emitted : v.startOutput.Emitted v.emission w
  perm    : v.emission.Perm (s.keys s.latch.nkeys.toNat)
  sorted  : v.emission.Pairwise fun a b => less s.latch.signed b a = false
  range   : v.status.rangev = true ∧ v.min ∈ s.keys s.latch.nkeys.toNat ∧ v.max ∈ s.keys s.latch.nkeys.toNat ∧
    ∀ k ∈ s.keys s.latch.nkeys.toNat, orderValue s.latch.signed v.min ≤ orderValue s.latch.signed k ∧
      orderValue s.latch.signed k ≤ orderValue s.latch.signed v.max

theorem State.length_keys (s : State) (n : Nat) : (s.keys n).length = n := by simp [State.keys]

/-- A SORT.P whose build can succeed completes. -/
theorem sort_of_canBuild (h : s.Inv) (hne : s.latch.nkeys ≠ 0) (hb : s.CanBuild true) :
    ∃ u v w, s.Sorting u v w ∧ exec (.sort true) s = .next w.sortEnd := by
  obtain ⟨u, hbuild, hu, hbuilt⟩ := buildBody_of_canBuild h hb
  obtain ⟨hall, hclear⟩ := hbuilt.countable hu hb.2
  have hlen := s.length_keys s.latch.nkeys.toNat
  have hkeys := hbuilt.keys_eq h.params hb.1
  have hpu := hbuilt.params
  have hlatch : u.latch = s.latch := by rw [hbuilt.frame]
  have hrange : u.status.rangev = false := by rw [hbuilt.frame]
  have hmu : memWf u.mem = true := by
    have hkeeps := keeps_buildBody true (fun _ hs => hs) (.refl buildSpaces s)
    rw [hbuild] at hkeeps
    exact hkeeps.stores.memWf h.mem
  have hn : u.latch.nkeys.toNat ≤ u.params.keyDepth := by
    rw [hlatch, hpu]
    exact hb.1
  obtain ⟨v, hcount, hv⟩ := does_accumLoop hu hmu hn (by rwa [hlatch, hkeys])
  rw [hlatch, hkeys] at hv
  have hks : s.keys s.latch.nkeys.toNat ≠ [] := fun h0 =>
    hne (BitVec.eq_of_toNat_eq (hlen.symm.trans (congrArg List.length h0)))
  have hbounds := hv.ranged.bounds hrange hks
  obtain ⟨hperm, hsorted⟩ := hv.emission_sorted hu hall hclear (hlen.trans_lt s.latch.nkeys.isLt) hrange hks
  rw [hlatch] at hsorted hbounds
  have hsame := hv.sameFunction hu.params
  obtain ⟨w, hemit, hw⟩ := emitBody_of_fits (hsame.usable hu) hv.memWf (by
    rw [hperm.length_eq, hlen, hsame.params, hpu]
    exact hb.1)
  exact ⟨u, v, w, ⟨hb, hbuild, hu, hbuilt, hv, hw, hperm, hsorted, hbounds⟩,
    exec_sort_of_ok hne hbuild ((accumBody_of_built hu.built hn).trans hcount) hemit⟩

/-- The registers after it: those of the build, the range, the output and the results. -/
theorem State.Sorting.frame (h : s.Sorting u v w) : w.sortEnd = { s with
    mem := w.mem, scratch := w.scratch, phase := .idle,
    status := { s.status with built := true, rangev := true, outp := true, done := true },
    nlevels := w.nlevels, bnkeys := s.latch.nkeys, total := w.total, dups := w.dups, bvused := w.bvused, rankused := w.rankused,
    min := w.min, max := w.max, outlen := s.latch.nkeys, res0 := s.latch.nkeys, res1 := w.total } := by
  have hlen : BitVec.ofNat 64 v.emission.length = s.latch.nkeys := by
    rw [h.perm.length_eq, s.length_keys, BitVec.ofNat_toNat, BitVec.setWidth_eq]
  have hu := h.built.frame
  have hv := h.counted.frame
  have hw := h.emitted.frame
  rw [h.range.1] at hv
  rw [hlen] at hw
  rw [hw, hv, hu]
  rfl

/-- A cascade that fails lacks room or levels. -/
theorem cascadeFault_code {p : Params} {g left level wb rb : Nat} {d : Bool} {c : FaultCode} {x : Nat}
    (h : cascadeFault p g d left level wb rb ks = some (c, x)) : c = .capacity ∨ c = .buildDepth := by
  have hks : ks ≠ [] := fun hnone => by
    rw [hnone, cascadeFault_nil] at h
    cases h
  induction left generalizing level wb rb ks with
  | zero =>
    rw [cascadeFault_depth hks] at h
    cases h
    exact .inr rfl
  | succ left ih =>
    cases hfits : levelFits p (tableSize g ks.length) wb rb with
    | false =>
      rw [cascadeFault_capacity hks hfits] at h
      cases h
      exact .inl rfl
    | true =>
      rw [cascadeFault_level hks hfits] at h
      exact ih h fun hnone => by
        rw [hnone, cascadeFault_nil] at h
        cases h

/-- Every end of SORT.P over at least one key: completion, or the fault of its build. -/
theorem sort_cases (h : s.Inv) (hne : s.latch.nkeys ≠ 0) (ht : exec (.sort true) s = .next t) :
    (∃ u v w, s.Sorting u v w ∧ t = w.sortEnd) ∨
    ∃ c x u, buildBody true s = .error (.raised c x u) ∧ t = u.takeFault c x ∧
      ((c = .badArg ∧ s.params.keyDepth < s.latch.nkeys.toNat ∧ x = s.latch.nkeys) ∨
        ∃ n, s.buildFault true = some (c, n) ∧ x = BitVec.ofNat 64 n) := by
  have raised {c : FaultCode} {x : Word} {u : State} (hb : buildBody true s = .error (.raised c x u)) : t = u.takeFault c x := by
    rw [exec_sort_of_raised hne hb] at ht
    exact (Host.Outcome.next.inj ht).symm
  rcases Nat.lt_or_ge s.params.keyDepth s.latch.nkeys.toNat with hlt | hn
  · have hb := buildBody_of_lt true hlt
    exact .inr ⟨_, _, _, hb, raised hb, .inl ⟨rfl, hlt, rfl⟩⟩
  · cases hf : s.buildFault true with
    | none =>
      obtain ⟨u, v, w, hs, hw⟩ := sort_of_canBuild h hne ⟨hn, hf⟩
      exact .inl ⟨u, v, w, hs, Host.Outcome.next.inj (ht.symm.trans hw)⟩
    | some f =>
      obtain ⟨u, hb, -⟩ := buildBody_of_buildFault h hn hf
      exact .inr ⟨_, _, _, hb, raised hb, .inr ⟨_, rfl, rfl⟩⟩

/-- Settles O39: a fault is the build's, since over no key and after its build SORT.P completes. -/
theorem sortFaultsOnlyInItsBuild : Obligations.SortFaultsOnlyInItsBuild := by
  intro s t h hf ht hfault
  obtain ⟨hres0, hres1⟩ := (resultsOnlyOnCompletion _ s t ht hf).1 hfault
  obtain ⟨-, -, -, -, -, -, -, hlatch, -⟩ := engineLeavesHostRegisters _ s t ht
  have hne : s.latch.nkeys ≠ 0 := fun h0 => by
    rw [(sortWithoutKeys s).2 h0] at ht
    cases ht
    exact Bool.false_ne_true (hf.symm.trans hfault)
  rcases sort_cases h hne ht with ⟨u, v, w, hs, rfl⟩ | ⟨c, x, u, hb, rfl, hc⟩
  · rw [hs.frame] at hfault
    exact absurd (hf.symm.trans hfault) Bool.false_ne_true
  · refine ⟨exec_build_of_raised hb, congrArg Latch.word hlatch, hres0, hres1, ?_⟩
    rcases hc with ⟨rfl, hlt, rfl⟩ | ⟨n, hn, rfl⟩
    · exact .inl ⟨rfl, hlt, rfl⟩
    · exact .inr ⟨n, hn, rfl, cascadeFault_code hn⟩

/-- The function after SORT.P is the one its build left. -/
theorem State.Sorting.sameFunction (h : s.Sorting u v w) : SameFunction u w.sortEnd := by
  have hv := h.counted.sameFunction h.usable.params
  have hstart : SameFunction v v.startOutput := by constructor <;> intros <;> rfl
  have hw := h.emitted.sameFunction (hv.params ▸ h.usable.params)
  have hend : SameFunction w w.sortEnd := by constructor <;> intros <;> rfl
  exact ((hv.trans hstart).trans hw).trans hend

theorem State.Sorting.params (h : s.Sorting u v w) : u.bnkeys = s.latch.nkeys ∧ u.params = s.params ∧ v.params = u.params :=
  ⟨by rw [h.built.frame], h.built.params, (h.counted.sameFunction h.usable.params).params⟩

/-- MIN and MAX are those of the count, and DUPS that of the build. -/
theorem State.Sorting.registers (h : s.Sorting u v w) :
    w.sortEnd.min = v.min ∧ w.sortEnd.max = v.max ∧ w.sortEnd.dups = u.dups := by
  have hw : w.min = v.min ∧ w.max = v.max ∧ w.dups = v.dups := by
    rw [h.emitted.frame]
    exact ⟨rfl, rfl, rfl⟩
  have hv : v.dups = u.dups := by rw [h.counted.frame]
  exact ⟨hw.1, hw.2.1, hw.2.2.trans hv⟩

/-- Only OUTMEM is written after the count. -/
theorem State.Sorting.word_eq (h : s.Sorting u v w) {sp : Space} (hsp : sp ≠ .outmem) {i : Nat} (hi : i < sp.words u.params) :
    w.sortEnd.word sp i = v.word sp i := by
  have hpv := h.params.2.2
  exact h.emitted.word_eq (hpv ▸ h.usable.params) hsp (show i < sp.words v.params from hpv ▸ hi)

/-- A slot and its tag words after it are those the count left. -/
theorem State.Sorting.slot_eq (h : s.Sorting u v w) (hj : j < u.bnkeys.toNat) : w.sortEnd.word .valmem j = v.word .valmem j ∧
    w.sortEnd.word .tagmem (2 * j) = v.word .tagmem (2 * j) ∧ w.sortEnd.word .tagmem (2 * j + 1) = v.word .tagmem (2 * j + 1) := by
  have hdepth := h.usable.fn.slots
  have htag {i : Nat} (hi : i < 2 * u.params.keyDepth) : i < Space.tagmem.words u.params := hi
  exact ⟨h.word_eq (by decide) (show j < u.params.keyDepth by omega), h.word_eq (by decide) (htag (by omega)),
    h.word_eq (by decide) (htag (by omega))⟩

/-- OUTMEM holds the emission, which is as long as the keys are many. -/
theorem State.Sorting.output (h : s.Sorting u v w) : v.emission.length = s.latch.nkeys.toNat ∧
    (List.range w.sortEnd.outlen.toNat).map (w.sortEnd.word .outmem) = v.emission := by
  have hlen : v.emission.length = s.latch.nkeys.toNat := h.perm.length_eq.trans (s.length_keys _)
  have hout : w.sortEnd.outlen.toNat = v.emission.length := by rw [h.frame, hlen]
  exact ⟨hlen, hout ▸ h.emitted.words⟩

/-- Each slot counts its keys. -/
theorem State.Sorting.counts (h : s.Sorting u v w) (hj : j < u.bnkeys.toNat) :
    w.sortEnd.word .valmem j = BitVec.ofNat 64 (w.sortEnd.keysAt (s.keys s.latch.nkeys.toNat) j) := by
  have hzero := (h.built.slots j (h.params.1 ▸ hj)).1
  simp only [(h.slot_eq hj).1, h.counted.counts j hj, hzero, State.keysAt, h.sameFunction.indexOf h.usable.levels h.usable.fn]
  exact zero_add _

/-- Each key's slot carries it as its tag. -/
theorem State.Sorting.tagged (h : s.Sorting u v w) (hk : k ∈ s.keys s.latch.nkeys.toNat) :
    w.sortEnd.tagValid ((w.sortEnd.indexOf k).toNat - 1) = true ∧ w.sortEnd.tag ((w.sortEnd.indexOf k).toNat - 1) = k := by
  have hx := ((h.built.countable h.usable h.fits.2).1.found k hk).1
  obtain ⟨-, heven, hodd⟩ := h.slot_eq (h.usable.slot_lt hx).1
  rw [h.sameFunction.indexOf h.usable.levels h.usable.fn, State.tagValid, State.tag, heven, hodd]
  exact h.counted.tagged k hk

/-- The slot of no key keeps its cleared tag. -/
theorem State.Sorting.untagged (h : s.Sorting u v w) (hj : j < u.bnkeys.toNat)
    (hnone : ∀ k ∈ s.keys s.latch.nkeys.toNat, (w.sortEnd.indexOf k).toNat ≠ j + 1) :
    w.sortEnd.word .tagmem (2 * j) = 0 ∧ w.sortEnd.word .tagmem (2 * j + 1) = 0 := by
  simp only [h.sameFunction.indexOf h.usable.levels h.usable.fn] at hnone
  obtain ⟨-, heven, hodd⟩ := h.slot_eq hj
  obtain ⟨heven', hodd'⟩ := h.counted.untagged j hj hnone
  rw [heven, hodd, heven', hodd']
  exact (h.built.slots j (h.params.1 ▸ hj)).2

/-- No byte outside the slots, the tags and the output differs from what the build left. -/
theorem State.Sorting.bytes (h : s.Sorting u v w) {n : Nat} (hn : n = s.latch.nkeys.toNat) (a : Nat)
    (hv : ¬ (0x50000000 ≤ a ∧ a < 0x50000000 + 8 * n)) (ht : ¬ (0x60000000 ≤ a ∧ a < 0x60000000 + 16 * n))
    (ho : ¬ (0x70000000 ≤ a ∧ a < 0x70000000 + 8 * n)) : readByte w.sortEnd.mem a = readByte u.mem a := by
  have hbn : u.bnkeys.toNat = n := by rw [h.params.1, hn]
  exact (h.emitted.bytes a (by rw [h.output.1, ← hn]; exact ho)).trans (h.counted.bytes a (hbn ▸ hv) (hbn ▸ ht))

/-- Settles O38: the clauses about OUTMEM are those of `State.Emitted`, about MIN, MAX, slots and tags those of `State.Counted`, and the
bytes either leaves alone are the build's. -/
theorem sortIsSortedPermutation : Obligations.SortIsSortedPermutation := by
  intro s h hn hf
  have hne : s.latch.nkeys ≠ 0 := fun h0 => absurd (h0 ▸ hn) (by decide)
  refine ⟨fun hb => ?_, fun t ht hok => ?_⟩
  · obtain ⟨u, v, w, hs, ht⟩ := sort_of_canBuild h hne hb
    exact ⟨_, ht, by rw [hs.frame]; exact hf⟩
  rcases sort_cases h hne ht with ⟨u, v, w, hs, rfl⟩ | ⟨c, x, u, -, rfl, -⟩
  · have hlen := s.length_keys s.latch.nkeys.toNat
    have hsame := hs.sameFunction
    have slot {j : Nat} (hj : j < (s.keys s.latch.nkeys.toNat).length) : j < u.bnkeys.toNat := by rwa [hs.params.1, ← hlen]
    obtain ⟨-, hmin, hmax, hbounds⟩ := hs.range
    obtain ⟨hwmin, hwmax, hdups⟩ := hs.registers
    rw [← hwmin] at hmin
    rw [← hwmax] at hmax
    rw [← hwmin, ← hwmax] at hbounds
    refine ⟨hs.frame, ?_, ?_, hmin, hmax, fun k hk => ?_, fun j hj => hs.counts (slot hj), fun k hk => hs.tagged hk,
      fun j hj => hs.untagged (slot hj), _, exec_build_of_ok hs.build, hs.usable.built, hsame.nlevels, hsame.total, hdups,
      hsame.bvused, hsame.rankused, hs.bytes hlen⟩
    · exact hs.output.2 ▸ hs.perm
    · exact hs.output.2 ▸ hs.sorted
    · exact ⟨not_less_iff.2 (hbounds k hk).1, not_less_iff.2 (hbounds k hk).2⟩
  · exact absurd hok (by simp)

end Sys2Proof.Machine
end

section
/-!
PROOFS. The control commands (46_control.md): NOP is its completion alone (R320), INVAL the end of the built function and its
completion (R322).
-/
namespace Sys2Proof.Machine

theorem exec_nop (s : State) : exec .nop s = .next s.complete := rfl

theorem exec_inval (s : State) : exec .inval s = .next s.dropFunction.complete := rfl

/-- The 128 words of LVLTAB are its bytes up to 0x40000400, and dropping the function clears those only. -/
theorem readByte_dropFunction (s : State) (a : Nat) :
    readByte s.dropFunction.mem a = if 0x40000000 ≤ a ∧ a < 0x40000400 then 0 else readByte s.mem a := by
  rw [State.dropFunction_mem]
  exact readByte_zeroWords s.mem (Space.lvltab.addr 0) 128 a

/-- Settles O8: what NOP answers is the completion, written out. -/
theorem nopOnlyCompletes : Obligations.NopOnlyCompletes := exec_nop

/-- Settles O9: INVAL answers the completion of the dropped function, whose bytes are those of `readByte_dropFunction`. -/
theorem invalDropsFunction : Obligations.InvalDropsFunction := by
  intro s
  refine ⟨s.dropFunction.complete, exec_inval s, rfl, fun a => ?_⟩
  rw [State.complete_mem]
  exact readByte_dropFunction s a

end Sys2Proof.Machine
end

section
/-!
PROOFS. Command requests and the end of a command (60_exceptions.md): a request is accepted or rejected (R331), a step runs the decoded
command (R332), a command ends by completing or by a fault (R333, R335), NOT_BUILT (R340), and the interrupt line (R350).
-/
namespace Sys2Proof.Machine

variable {s : State}

/-! ### Acceptance and the step of a command (R331, R332) -/

/-- While a command runs or a fault is pending, a request only sets REJ. -/
theorem request_of_busy_or_fault (h : s.phase = .busy ∨ s.status.fault = true) (w : Word) :
    s.request w = { s with status := { s.status with rej := true } } :=
  if_pos (Bool.or_eq_true_iff.2 (h.imp_left s.busy_iff.2))

/-- An idle block with no fault pending accepts. -/
theorem request_of_idle (hi : s.phase = .idle) (hf : s.status.fault = false) (w : Word) : s.request w = s.accept w :=
  if_neg (Bool.eq_false_iff.1 (Bool.or_eq_false_iff.2 ⟨State.busy_eq_false hi, hf⟩))

/-- Settles O6: a write of CMD's address is a request (`busWrite_csr`), and BUSY and FAULT say which of its two ends it has. -/
theorem commandRequestAcceptedOrRejected : Obligations.CommandRequestAcceptedOrRejected := by
  intro s w
  have hw : busWrite 0x50#32 w s = (.okay, s.request w) := busWrite_csr .cmd w s
  rw [hw]
  refine ⟨fun h => ?_, fun ⟨hi, hf⟩ => ?_⟩
  · rw [request_of_busy_or_fault h]
  · rw [request_of_idle hi hf]
    rfl

/-- Settles O4: the engine is the mover, and its step dispatches on the decoded word. -/
theorem stepRunsDecodedCommand : Obligations.StepRunsDecodedCommand := fun _ _ hs hi =>
  (step_of_engineMoves hs).trans (engineStep_of_decode hi)

/-! ### The two ends of a command (R333, R335, R343) -/

/-- Settles O41: of DONE and FAULT, both 0 while the pseudocode runs, completing sets the one and raising a fault the other, and the
pseudocode itself keeps REJ and the fault registers. -/
theorem commandEndsInExactlyOneWay : Obligations.CommandEndsInExactlyOneWay := by
  intro i s t h hdone hfault
  rcases exec_cases h with ⟨u, hu, rfl⟩ | ⟨c, x, u, hc, hu, rfl⟩
  · have hk := hu.keeps
    exact ⟨rfl, hk.rej, .inl ⟨rfl, hk.fault.trans hfault, hk.faultCode, hk.faultInfo, hk.faultCmd⟩⟩
  · exact ⟨rfl, hu.rej, .inr ⟨hu.done.trans hdone, rfl, hc, congrArg Latch.word hu.latch⟩⟩

/-! ### NOT_BUILT (R340) -/

/-- Settles O40: each of the eight begins with the check for a built function, alone or as the first of its operand checks, and that
check raises the fault in the state it is made in. -/
theorem notBuiltFaults : Obligations.NotBuiltFaults := by
  intro s i hi hb
  change exec i s = .next (s.takeFault .notBuilt 0)
  simp only [List.mem_cons, List.not_mem_nil, or_false] at hi
  rcases hi with rfl | rfl | rfl | rfl | rfl | rfl | rfl | rfl
  · rw [exec_query, execQuery, requireBuilt_of_not hb, error_bind, conclude_raised]
  · exact exec_lookup_of_raised (requireIndex_of_unbuilt hb _)
  · exact exec_set_of_raised (requireIndex_of_unbuilt hb _)
  · rw [exec_clrvals, execClrvals, requireBuilt_of_not hb, error_bind, conclude_raised]
  · exact exec_accum_of_raised (accumBody_of_unbuilt hb)
  · rw [exec_emit, emitBody, requireBuilt_of_not hb, error_bind, error_bind, conclude_raised]
  · exact exec_rank_of_raised (requirePosition_of_unbuilt hb _ _)
  · exact exec_bitget_of_raised (requirePosition_of_unbuilt hb _ _)

/-! ### The interrupt line (R350) -/

/-- The low bits of CTRL (10_state.md R43): MAXLVL begins at bit 8. -/
theorem getLsbD_ctrl_toWord (c : Ctrl) {n : Nat} (hn : n < 8) : c.toWord.getLsbD n =
    (c.signed && decide (n = 0) || c.doneIe && decide (n = 1) || c.faultIe && decide (n = 2)) := by
  have hmax : (c.maxlvl.zeroExtend 64 <<< 8).getLsbD n = false := by simp [BitVec.getLsbD_shiftLeft, hn]
  have h64 : n < 64 := by omega
  simp only [Ctrl.toWord, BitVec.getLsbD_or, getLsbD_flagAt _ _ h64, hmax, Bool.or_false]

/-- Settles O54: the bits as read are the fields (`getLsbD_statusWord`, `getLsbD_ctrl_toWord`), and bit 7 is R350's formula of them. -/
theorem interruptLineFormula : Obligations.InterruptLineFormula := by
  intro s
  have hdone : s.statusWord.getLsbD 1 = s.status.done := (getLsbD_statusWord s (by decide)).trans (by simp)
  have hfault : s.statusWord.getLsbD 2 = s.status.fault := (getLsbD_statusWord s (by decide)).trans (by simp)
  have hirq : s.statusWord.getLsbD 7 = s.irq := (getLsbD_statusWord s (by decide)).trans (by simp)
  have hdoneIe : s.ctrl.toWord.getLsbD 1 = s.ctrl.doneIe := (getLsbD_ctrl_toWord s.ctrl (by decide)).trans (by simp)
  have hfaultIe : s.ctrl.toWord.getLsbD 2 = s.ctrl.faultIe := (getLsbD_ctrl_toWord s.ctrl (by decide)).trans (by simp)
  simp only [Csr.read, hdone, hfault, hirq, hdoneIe, hfaultIe, State.irq]

end Sys2Proof.Machine
end

section
/-!
PROOFS. Reset and forward progress (70_reset_and_hazards.md): what a soft reset leaves of the memories (R372), and that a running command
ends, because each act served before the engine brings the engine nearer (R386, R390).
-/
namespace Sys2Proof.Machine

variable {s t : State}

/-! ### The memories of an abandoned command (R372, 93_implementation_defined.md I13) -/

/-- A memory is unspecified after a soft reset only where a legal command runs whose pseudocode names it. -/
theorem State.command_of_mem_abandonedSpaces {sp : Space} (h : sp ∈ s.abandonedSpaces) :
    s.phase = .busy ∧ ∃ i, decode s.latch.word = .ok i ∧ sp ∈ writtenSpaces i := by
  unfold State.abandonedSpaces at h
  split at h
  · next hb =>
    refine ⟨s.busy_iff.1 hb, ?_⟩
    split at h
    · next i hi => exact ⟨i, hi, h⟩
    · exact absurd h List.not_mem_nil
  · exact absurd h List.not_mem_nil

/-- A memory that pseudocode names stands in the command's row of 30_encoding.md R127, or in SORT.P's when SORT is abandoned (log 10). -/
theorem mem_mayWrite_of_mem_writtenSpaces {i : Instr} {sp : Space} (h : sp ∈ writtenSpaces i) :
    sp ∈ mayWrite i ∨ ∃ p, i = .sort p ∧ sp ∈ mayWrite (.sort true) := by
  cases i with
  | sort p =>
    have hsub : ∀ p, writtenSpaces (.sort p) ⊆ mayWrite (.sort true) := by decide
    exact .inr ⟨p, rfl, hsub p h⟩
  | build d =>
    have hsub : ∀ d, writtenSpaces (.build d) ⊆ mayWrite (.build d) := by decide
    exact .inl (hsub d h)
  | set | clrvals | accum | emit => exact .inl h
  | nop | query | lookup | rank | hash | bitget | inval => exact absurd h List.not_mem_nil

/-- No command names KEYMEM. -/
theorem keymem_notMem_writtenSpaces (i : Instr) : Space.keymem ∉ writtenSpaces i := fun h => by
  rcases mem_mayWrite_of_mem_writtenSpaces h with h | ⟨-, -, h⟩ <;> exact keymem_notMem_mayWrite _ h

/-! ### What a soft reset leaves (R372) -/

/-- A CTRL write with SRST = 1 is a soft reset. -/
theorem busWrite_srst {v : Word} (hv : v.getLsbD 31 = true) (s : State) : busWrite 0x40#32 v s = (.okay, s.softReset) :=
  (busWrite_csr .ctrl v s).trans (congrArg _ (if_pos hv))

/-- A byte outside LVLTAB and the abandoned command's memories is as before. -/
theorem readByte_softReset {a : Nat}
    (ha : ∀ sp, sp = .lvltab ∨ sp ∈ s.abandonedSpaces → a < sp.base ∨ sp.base + 8 * sp.words s.params ≤ a) :
    readByte s.softReset.mem a = readByte s.mem a :=
  (Stores.resetWith (sps := .lvltab :: s.abandonedSpaces) s (fun _ => List.mem_cons_of_mem _) List.mem_cons_self).bytes a
    fun sp hsp => ha sp (List.mem_cons.1 hsp)

/-- Where nothing is abandoned, only the 128 words of LVLTAB change. -/
theorem readByte_softReset_of_nothing_abandoned (h : ∀ sp, sp ∉ s.abandonedSpaces) {a : Nat}
    (ha : ¬ (0x40000000 ≤ a ∧ a < 0x40000400)) : readByte s.softReset.mem a = readByte s.mem a := by
  refine readByte_softReset fun sp hsp => ?_
  obtain rfl := hsp.resolve_right (h sp)
  simp only [Space.base, Space.words]
  omega

/-- The aperture of a memory that is neither LVLTAB nor the abandoned command's is as before. -/
theorem readByte_softReset_of_not_abandoned (hp : s.params.Wf) {sp : Space} (hl : sp ≠ .lvltab) (h : sp ∉ s.abandonedSpaces) {a : Nat}
    (h1 : sp.base ≤ a) (h2 : a < sp.base + 0x10000000) : readByte s.softReset.mem a = readByte s.mem a := by
  refine readByte_softReset fun sq hsq => ?_
  have hne : sp ≠ sq := by
    rintro rfl
    exact hsq.elim hl h
  have hapart := Space.base_apart hne
  have hwords := sq.words_le hp
  omega

/-- Settles O56: a soft reset is what both resets do (`resetWith`) to the memories of `State.abandonedSpaces`. -/
theorem softResetRestoresRegisters : Obligations.SoftResetRestoresRegisters := by
  intro s v hp hv
  refine ⟨s.softReset, busWrite_srst hv s, rfl, rfl, rfl, rfl, fun c hc => read_resetWith _ s hc, fun i hi => resetWith_lvltab _ s hi,
    fun a h1 h2 => ?_, fun hidle a ha => ?_, fun hillegal a ha => ?_, fun i hi sp hl hsp a h1 h2 => ?_,
    fun i sp => mem_mayWrite_of_mem_writtenSpaces⟩
  · refine readByte_softReset_of_not_abandoned hp (sp := .keymem) (by decide) (fun hk => ?_) h1 h2
    obtain ⟨-, i, -, hi⟩ := State.command_of_mem_abandonedSpaces hk
    exact keymem_notMem_writtenSpaces i hi
  · refine readByte_softReset_of_nothing_abandoned (fun sp hsp => ?_) ha
    have hbusy := (State.command_of_mem_abandonedSpaces hsp).1
    exact absurd (hidle.symm.trans hbusy) (by decide)
  · refine readByte_softReset_of_nothing_abandoned (fun sp hsp => ?_) ha
    obtain ⟨-, i, hi, -⟩ := State.command_of_mem_abandonedSpaces hsp
    exact hillegal i hi
  · refine readByte_softReset_of_not_abandoned hp hl (fun ha => ?_) h1 h2
    obtain ⟨-, j, hj, hsj⟩ := State.command_of_mem_abandonedSpaces ha
    obtain rfl : i = j := Except.ok.inj (hi.symm.trans hj)
    exact hsp hsj

/-! ### Forward progress (R386, R390) -/

/-- How many steps the inbox can put before the engine (log 7). -/
def State.delay (s : State) : Nat := (s.inbox.map fun p => p.early + 1).sum

/-- Serving an act takes it from the inbox, but for a `wait` that comes again with one poll less (30_encoding.md R137). -/
theorem inbox_serve (p : Pending) (rest : List Pending) (s : State) :
    (serve p rest s).inbox = rest ∨ (serve p rest s).inbox = { p with early := p.early - 1 } :: rest := by
  unfold serve
  split
  case h_3 =>
    by_cases hb : s.busy = true
    · exact .inr (if_pos hb)
    · exact .inl (if_neg hb)
  all_goals exact .inl rfl

/-- Serving an early act brings the engine nearer. -/
theorem delay_serve_lt {p : Pending} {rest : List Pending} (hi : s.inbox = p :: rest) (hp : p.early ≠ 0) :
    (serve p rest s).delay < s.delay := by
  rcases inbox_serve p rest s with h | h <;> simp only [State.delay, h, hi, List.map_cons, List.sum_cons] <;> omega

/-- While a command runs, the engine moves or an early act is to come. -/
theorem engineMoves_or_early (hb : s.phase = .busy) : s.EngineMoves ∨ ∃ p rest, s.inbox = p :: rest ∧ p.early ≠ 0 := by
  refine or_iff_not_imp_left.2 fun he => ?_
  simpa [State.EngineMoves, hb] using he

/-- A command that ends leaves the engine IDLE (60_exceptions.md R333, R335). -/
theorem exec_idle {i : Instr} (h : exec i s = .next t) : t.phase = .idle := by
  rcases exec_cases h with ⟨u, -, rfl⟩ | ⟨c, x, u, -, -, rfl⟩ <;> rfl

/-- The engine's step ends the command it runs. -/
theorem engineStep_idle (h : engineStep s = .next t) : t.phase = .idle := by
  unfold engineStep at h
  split at h
  · exact exec_idle h
  · cases h
    rfl

/-- A run begins with a step. -/
theorem core_run_succ (h : step s = .next t) (k : Nat) : core.run (k + 1) s = core.run k t := by
  have hcore : core.step s = .next t := h
  simp only [Host.Core.run, hcore]

/-- Settles O60, by induction on `State.delay`: the engine's step ends the command, and every act served before it either ends the command
(a reset) or leaves less before the engine. -/
theorem runningCommandEnds : Obligations.RunningCommandEnds := by
  intro s hs hb
  change ∃ k ≤ s.delay + 1, ∃ t : State, core.run k s = .next t ∧ t.phase = .idle
  induction hn : s.delay using Nat.strong_induction_on generalizing s with
  | h n ih =>
    obtain ⟨t, ht, hsafe⟩ := safeStepNeverStops s hs
    have hone : t.phase = .idle → ∃ k ≤ n + 1, ∃ t : State, core.run k s = .next t ∧ t.phase = .idle :=
      fun hidle => ⟨1, by omega, t, core_run_succ ht 0, hidle⟩
    rcases engineMoves_or_early hb with he | ⟨p, rest, hi, hp⟩
    · exact hone (engineStep_idle ((step_of_engineMoves he).symm.trans ht))
    · have hlt : t.delay < s.delay := by
        obtain rfl : serve p rest s = t := Host.Outcome.next.inj ((step_outside hi (.inr hp)).symm.trans ht)
        exact delay_serve_lt hi hp
      cases htp : t.phase with
      | idle => exact hone htp
      | busy =>
        obtain ⟨k, hk, u, hu, hidle⟩ := ih t.delay (hn ▸ hlt) t hsafe htp rfl
        exact ⟨k + 1, by omega, u, (core_run_succ ht k).trans hu, hidle⟩

end Sys2Proof.Machine
end
